-- ==== Sys2Proof/Word.lean ====
section
/-! DEFINITION. The words of the machine and the fields of an instruction. -/

namespace Sys2Proof

/-- A 64-bit register, address or table entry (R5 of 00_scope.md). -/
abbrev Word := BitVec 64

/-- A byte of storage (R50 of 20_memory.md). -/
abbrev Byte := BitVec 8

/-- A register number 0 to 15, held in a 4-bit field (R201 of 30_encoding.md). -/
abbrev Reg := Fin 16

/-- A 4-bit mask field, its bits numbered 0 to 3 from the left (R204 of 30_encoding.md). -/
abbrev Mask := BitVec 4

end Sys2Proof
end

