-- ==== Sys2Proof/Config.lean ====
section
/-! DEFINITION. What an installation fixes, the assigned storage locations, and the free values. -/

namespace Sys2Proof.Config

/-! ## Parameters of an installation (00_scope.md section 4) -/

/-- TABLE_ORIGIN_KIND: whether DAT table origins are real or absolute addresses (R17, R105; U1). -/
inductive OriginKind where
  | real
  | absolute
  deriving DecidableEq, Repr

/-- TABLE_PREFIX_ORDER: prefixing applied to the origin before, or to the sum after, the index is added
(R105; U2). It matters only for real origins. -/
inductive PrefixOrder where
  | originFirst
  | sumFirst
  deriving DecidableEq, Repr

/-- A run of consecutive 4 KB blocks of absolute storage. -/
structure BlockRange where
  first : Nat
  count : Nat
  deriving DecidableEq, Repr

/-- The parameters of one machine. They are plain data and no step writes them (D15), so that a statement
about every state is a statement about every installation. -/
structure Installation where
  /-- EDAT_INSTALLED: the enhanced-DAT facility is installed (R2, R3). -/
  edatInstalled : Bool
  /-- COND_SSKE_INSTALLED: the conditional-SSKE facility is installed (R2). -/
  condSskeInstalled : Bool
  /-- STORAGE_AVAILABLE: the 4 KB blocks of absolute storage that exist (R51). -/
  storage : List BlockRange
  originKind : OriginKind
  prefixOrder : PrefixOrder
  deriving DecidableEq, Repr

/-- The installation of the spec's own vectors (95_test_vectors.md section 0): both facilities, blocks 0 to
0x7FF. DESIGN CHOICE, unsafe for a claim about reset alone (log 6). -/
def defaultInstallation : Installation where
  edatInstalled := true
  condSskeInstalled := true
  storage := [⟨0, 0x800⟩]
  originKind := .real
  prefixOrder := .sumFirst

/-! ## Assigned storage locations (R314, all real addresses; defaults of D5, PRESUMED, log 16) -/

/-- The six classes of interruption (R311). -/
inductive InterruptionClass where
  | external
  | io
  | machineCheck
  | program
  | restart
  | supervisorCall
  deriving DecidableEq, Repr

/-- The real address of the old-PSW location of a class (R314). -/
def oldPswLocation : InterruptionClass → Word
  | .restart => 0x120
  | .external => 0x130
  | .supervisorCall => 0x140
  | .program => 0x150
  | .machineCheck => 0x160
  | .io => 0x170

/-- The real address of the new-PSW location of a class (R314). -/
def newPswLocation : InterruptionClass → Word
  | .restart => 0x1A0
  | .external => 0x1B0
  | .supervisorCall => 0x1C0
  | .program => 0x1D0
  | .machineCheck => 0x1E0
  | .io => 0x1F0

/-- PGM_ILC, the byte that receives the instruction-length code (R314). -/
def ilcLocation : Word := 0x8D

/-- PGM_INT_CODE, the two bytes that receive the program-interruption code (R314). -/
def codeLocation : Word := 0x8E

/-- PGM_TEID, the eight bytes that receive the translation-exception identification (R314). -/
def teidLocation : Word := 0xA8

/-! ## Free values (R8; log 7): opaque, drawn afresh at each occurrence by their number -/

/-- The n-th drawn bit: a choice between two behaviours, or a bit the source calls unpredictable. -/
opaque freeBit : Nat → Bool

/-- The n-th drawn condition code (U11). -/
opaque freeCc : Nat → BitVec 2

/-- The n-th drawn content of the eight bits 48-55 of general register R1 (U6, U15). -/
opaque freeByte : Nat → Byte

/-- The n-th drawn choice among copies in the translation-lookaside buffer (U27). -/
opaque freeChoice : Nat → Nat

/-- The n-th drawn value of the access-control bits of a key whose checking-block code is invalid (log 25). -/
opaque freeAcc : Nat → BitVec 4

/-- ART, access-register translation: an oracle from the contents of an access register to an ASCE, or none
where it ends in an exception the source does not describe (R27, R96; U39; log 28). -/
opaque art : BitVec 32 → Option Word

end Sys2Proof.Config
end

