-- ==== Sys2Proof/Machine/State.lean ====
section
/-! DEFINITION. The state of the machine as plain data, its faults and refusals, and the state after reset. -/

namespace Sys2Proof.Machine

open Sys2Proof.Config (Installation InterruptionClass)

/-- A storage key: the 7 bits ACC (0-3), F (4), R (5), C (6) of one 4 KB block (R40). -/
structure StorageKey where
  acc : BitVec 4
  f : Bool
  r : Bool
  c : Bool
  deriving DecidableEq, Repr

/-- A storage key with the validity of its checking-block code (R43). -/
structure KeyState where
  key : StorageKey
  cbcInvalid : Bool
  deriving DecidableEq, Repr

/-- The level of a translation table (R94, R113). -/
inductive TableLevel where
  | page
  | segment
  | regionThird
  | regionSecond
  | regionFirst
  deriving DecidableEq, Repr

/-- A real or an absolute address. -/
inductive TranslatedAddress where
  | real (ra : Word)
  | absolute (aa : Word)
  deriving DecidableEq, Repr

/-- What translation hands to the access path (R129). -/
structure Attributes where
  /-- P, the accumulated DAT protection (R161). -/
  protect : Bool
  /-- ACC and F of the segment-table entry, where it provides them (R119, R168). -/
  steKey : Option (BitVec 4 × Bool)
  /-- CO, the change-recording override (R186). -/
  co : Bool
  deriving DecidableEq, Repr

/-- A completed translation; or the frame it leads to, where the address is that of the frame (R129). -/
structure Translation where
  address : TranslatedAddress
  attributes : Attributes
  deriving DecidableEq, Repr

/-- A copy of one table entry in the translation-lookaside buffer (R145, R147, R150; log 8). -/
structure TableCopy where
  level : TableLevel
  /-- The origin of the table that holds the entry, its zeros appended. -/
  origin : Word
  /-- The origin of the region or segment table under which it was formed: for a page-table entry, of the segment
  table used; else the same as `origin` (R150). -/
  space : Word
  /-- The index of the entry in its table. -/
  index : Nat
  /-- The common-segment bit of the segment-table entry it is, or was reached from (R121, R150). -/
  common : Bool
  /-- Enhanced DAT applied when it was formed. -/
  edat : Bool
  entry : Word
  deriving DecidableEq, Repr

/-- A page or segment frame in the buffer with its tag: the table origin of the ASCE, and RX, SX and PX of the virtual
address (R146, R149; log 8). -/
structure FrameCopy where
  /-- The table origin of the ASCE, its zeros appended. -/
  origin : Word
  /-- RX, bits 0-32 of the virtual address (R94). -/
  region : BitVec 33
  /-- SX, bits 33-43. -/
  segment : BitVec 11
  /-- PX, bits 44-51; none with a segment frame, whose tag has no PX (R146). -/
  page : Option (BitVec 8)
  /-- The common-segment bit of the segment-table entry used (R150). -/
  common : Bool
  /-- PFRA or SFAA, with the attributes that go with it. -/
  frame : Translation
  deriving DecidableEq, Repr

/-- A virtual-equals-real translation of one page, tagged with the token origin of its real-space designation (R41, R21,
R148; log 39). -/
structure RealSpaceCopy where
  /-- The token origin, its zeros appended. -/
  token : Word
  /-- Bits 0-51 of the virtual address, and of the real address. -/
  page : BitVec 52
  deriving DecidableEq, Repr

/-- An entry of the translation-lookaside buffer (R41, R145, R146, R148; log 8, log 39). -/
inductive TlbEntry where
  | table (c : TableCopy)
  | frame (c : FrameCopy)
  | realSpace (c : RealSpaceCopy)
  deriving DecidableEq, Repr

/-- The classes of interruption that the environment can make pending (R337). -/
inductive AsyncClass where
  | external
  | io
  | machineCheck
  | restart
  deriving DecidableEq, Repr

/-- What another agent does to the shared storage and keys (R9; log 9). -/
inductive AgentAction where
  /-- One byte stored; `override` when a change-recording override covers the store (R185, R186). -/
  | store (aa : Word) (v : Byte) (override : Bool)
  /-- A location referenced (R181). -/
  | reference (aa : Word)
  /-- A storage key set by a key instruction of another CPU (R240). -/
  | setKey (aa : Word) (k : StorageKey)
  /-- An error makes the checking-block code of a key invalid (R43). -/
  | keyError (aa : Word)
  deriving DecidableEq, Repr

/-- What happens at one boundary between instructions or between units of operation (R337, R319). -/
structure Boundary where
  actions : List AgentAction
  async : Option AsyncClass
  deriving DecidableEq, Repr

/-- What happens in the gap before one single access of the CPU (R9, R74): the actions of other agents; and, where the
access clears storage, the part of the block that it clears (R262; log 35). -/
structure AccessGap where
  actions : List AgentAction
  /-- Offset and length of the piece cleared before the next gap; none for all that is left. Other accesses ignore
  it. -/
  part : Option (Nat × Nat)
  deriving DecidableEq, Repr

/-- The program exceptions (R317). -/
inductive ProgramException where
  /-- In the table R317; no step recognises it (R330). -/
  | operation
  | privilegedOperation
  | protection
  | addressing
  | specification
  | segmentTranslation
  | pageTranslation
  | translationSpecification
  | asceType
  | regionFirstTranslation
  | regionSecondTranslation
  | regionThirdTranslation
  deriving DecidableEq, Repr

/-- Why the machine stops with a fault. -/
inductive Fault where
  /-- A PSW swap met storage that is not available (R323, D32). Raised by `takeProgramInterruption` and
  `takeAsyncInterruption`. Safe: the spec gives no outcome. -/
  | swapAddressing
  /-- The new PSW of a program interruption at once caused another program interruption (R338, D32). Raised by
  `takeEarlyException`. Safe: the spec gives no outcome. -/
  | interruptionLoop
  deriving DecidableEq, Repr

/-- Why the machine refuses an instruction. Every refusal is safe: nothing is claimed of what the hardware does. -/
inductive Refusal where
  /-- An arm of `exec` whose instruction has no meaning yet. No arm answers with it. -/
  | notModelled (mnemonic : String)
  /-- An instruction the source names without defining it (R302, R211, D23; U33). Raised by its meaning. -/
  | namedOnly (mnemonic : String)
  /-- An operation code outside the table; its first two bytes (R211, R330, D23). Raised by `instructionCycle`. -/
  | unassignedOperationCode (first second : Byte)
  /-- The last two bytes of a six-byte instruction cannot be read, so it cannot be named; every six-byte operation
  code is refused (R211). Raised by `instructionCycle`. -/
  | instructionTextMissing
  /-- PFMF without the enhanced-DAT facility (R211, R250, D23). Raised by `execPfmf`. -/
  | facilityNotInstalled (mnemonic : String)
  /-- PFMF with frame-size code 1 and R1 = R2 (R265, D29; U17). Raised by `execPfmf`. -/
  | frameOperandsSameRegister
  /-- Access-register translation ended in an exception the source does not describe (R96; U39). Raised by
  `locate` for an operand reference; no instruction of the table makes one. -/
  | artExceptionNotDescribed
  /-- An operand reference crosses a 4 KB boundary (U41). Raised by `memRead` and `memWrite`; no instruction of the
  table makes one. -/
  | crossesBlock
  deriving DecidableEq, Repr

/-- Everything the spec gives one CPU and its configuration (10_state.md section 1), and the model's own fields. -/
structure State where
  /-- General registers x[0..15] (R10). -/
  gprs : Vector Word 16
  /-- Control registers c[0..15] (R14). -/
  crs : Vector Word 16
  /-- Access registers a[0..15] (R26). -/
  ars : Vector (BitVec 32) 16
  /-- Program status word (R28). -/
  psw : BitVec 128
  /-- Prefix (R39). -/
  prefixReg : BitVec 51
  /-- Main storage by absolute address, in the canonical form of `Memory.wf` (R50). -/
  mem : List Host.Cell
  /-- Storage keys by block number, blocks rising (R40, R43). -/
  keys : List (Nat × KeyState)
  /-- Translation-lookaside buffer (R41). -/
  tlb : List TlbEntry
  /-- AsyncPending (R337). -/
  asyncPending : Option AsyncClass
  /-- The parameters of the machine; no step writes them (00_scope.md section 4). -/
  installation : Installation
  /-- Model's own: what happens at the coming boundaries (log 9). -/
  environment : List Boundary
  /-- Model's own: what happens in the gaps before the coming single accesses of the CPU (log 9). -/
  interleaving : List AccessGap
  /-- Model's own: the number of unpredictable values drawn so far (log 7). -/
  draws : Nat
  /-- Model's own: the PSW came from a program interruption and nothing was fetched under it yet (R338). -/
  newPswUntried : Bool
  deriving DecidableEq, Repr

/-- The start state. The spec gives no reset value (R45) but for the checking-block codes and the buffer; every other
value is a DESIGN CHOICE, unsafe (logs 1 to 6, 9). -/
def State.reset : State where
  gprs := Vector.replicate 16 0
  crs := Vector.replicate 16 0
  ars := Vector.replicate 16 0
  psw := 0
  prefixReg := 0
  mem := []
  keys := []
  tlb := []
  asyncPending := none
  installation := Config.defaultInstallation
  environment := []
  interleaving := []
  draws := 0
  newPswUntried := false

end Sys2Proof.Machine
end

