-- ==== Sys2Proof/Machine/Memory.lean ====
section
/-! DEFINITION. Main storage and storage keys as canonical lists (R50, R40). -/

namespace Sys2Proof.Machine

/-- What an unlisted address reads as. The spec gives storage no reset contents (R45). DESIGN CHOICE, unsafe
(log 5). -/
def unlistedByte : Byte := 0

/-- The byte at an absolute address. -/
def Memory.read : List Host.Cell → Nat → Byte
  | [], _ => unlistedByte
  | (a, v) :: rest, x => if a = x then v else Memory.read rest x

/-- A cell put before the first greater address. -/
def Memory.insert (x : Nat) (v : Byte) : List Host.Cell → List Host.Cell
  | [] => [(x, v)]
  | (a, w) :: rest => if x < a then (x, v) :: (a, w) :: rest else (a, w) :: Memory.insert x v rest

/-- Storage with one byte replaced; a byte that reads as unlisted is not listed. -/
def Memory.write (m : List Host.Cell) (x : Nat) (v : Byte) : List Host.Cell :=
  if v = unlistedByte then m.filter (fun c => c.1 ≠ x)
  else Memory.insert x v (m.filter (fun c => c.1 ≠ x))

/-- The canonical form: addresses strictly rising, no listed byte that reads as unlisted. -/
abbrev Memory.wf (m : List Host.Cell) : Prop :=
  m.Pairwise (fun c d => c.1 < d.1) ∧ ∀ c ∈ m, c.2 ≠ unlistedByte

/-- The bytes at `n` consecutive addresses, leftmost first. -/
def Memory.readMany (m : List Host.Cell) (x n : Nat) : List Byte :=
  (List.range n).map (fun i => Memory.read m (x + i))

/-- Storage with consecutive bytes replaced. -/
def Memory.writeMany (m : List Host.Cell) (x : Nat) : List Byte → List Host.Cell
  | [] => m
  | b :: bs => Memory.writeMany (Memory.write m x b) (x + 1) bs

/-- Storage with the bytes that `p` selects set to zero (R262). -/
def Memory.clear (m : List Host.Cell) (p : Nat → Bool) : List Host.Cell := m.filter (fun c => !p c.1)

/-- Some byte that `p` selects is not zero. -/
def Memory.anyNonzero (m : List Host.Cell) (p : Nat → Bool) : Bool :=
  m.any (fun c => p c.1 && Memory.read m c.1 ≠ 0)

/-- The key of a block nothing has set. The spec gives keys no reset value (R45, R361). DESIGN CHOICE, unsafe
(log 4); its checking-block code is valid (R45). -/
def unlistedKey : KeyState := ⟨⟨0, false, false, false⟩, false⟩

/-- The key of a block. -/
def Keys.read : List (Nat × KeyState) → Nat → KeyState
  | [], _ => unlistedKey
  | (a, k) :: rest, b => if a = b then k else Keys.read rest b

/-- A key put before the first greater block. -/
def Keys.insert (b : Nat) (k : KeyState) : List (Nat × KeyState) → List (Nat × KeyState)
  | [] => [(b, k)]
  | (a, l) :: rest => if b < a then (b, k) :: (a, l) :: rest else (a, l) :: Keys.insert b k rest

/-- The keys with one replaced. -/
def Keys.write (ks : List (Nat × KeyState)) (b : Nat) (k : KeyState) : List (Nat × KeyState) :=
  Keys.insert b k (ks.filter (fun c => c.1 ≠ b))

/-- Blocks strictly rising: one key for a block. -/
abbrev Keys.wf (ks : List (Nat × KeyState)) : Prop := ks.Pairwise (fun c d => c.1 < d.1)

end Sys2Proof.Machine
end

