-- ==== Sys2Proof/Syntax.lean ====
section
/-! DEFINITION. The instructions: one constructor for each row of spec/opcode_table.json. -/

namespace Sys2Proof

/-- One instruction with the operand fields of its row (R202, R203, R210 of 30_encoding.md). Registers and masks
are held at the width of their field; a displacement is a number, whose bound `Instr.wellFormed` checks. Unused
instruction bits are no operand (R206). -/
inductive Instr where
  /-- SET STORAGE KEY EXTENDED (R220). -/
  | sske (m3 : Mask) (r1 r2 : Reg)
  /-- PERFORM FRAME MANAGEMENT FUNCTION (R250). -/
  | pfmf (r1 r2 : Reg)
  /-- LOAD CONTROL, 32-bit form (R280): named only. -/
  | lctl (r1 r3 b2 : Reg) (d2 : Nat)
  /-- LOAD CONTROL, 64-bit form (R280): named only. -/
  | lctlg (r1 r3 b2 : Reg) (dl2 dh2 : Nat)
  /-- STORE CONTROL, 32-bit form (R281): named only. -/
  | stctl (r1 r3 b2 : Reg) (d2 : Nat)
  /-- STORE CONTROL, 64-bit form (R281): named only. -/
  | stctg (r1 r3 b2 : Reg) (dl2 dh2 : Nat)
  /-- LOAD PSW (R282): named only. -/
  | lpsw (b2 : Reg) (d2 : Nat)
  /-- LOAD PSW EXTENDED (R283): named only. -/
  | lpswe (b2 : Reg) (d2 : Nat)
  /-- MOVE TO PRIMARY (R284): named only. -/
  | mvcp (r1 r3 b1 : Reg) (d1 : Nat) (b2 : Reg) (d2 : Nat)
  /-- MOVE TO SECONDARY (R285): named only. -/
  | mvcs (r1 r3 b1 : Reg) (d1 : Nat) (b2 : Reg) (d2 : Nat)
  /-- MOVE WITH KEY (R286): named only. -/
  | mvck (r1 r3 b1 : Reg) (d1 : Nat) (b2 : Reg) (d2 : Nat)
  /-- MOVE WITH SOURCE KEY (R287): named only. -/
  | mvcsk (b1 : Reg) (d1 : Nat) (b2 : Reg) (d2 : Nat)
  /-- MOVE WITH DESTINATION KEY (R288): named only. -/
  | mvcdk (b1 : Reg) (d1 : Nat) (b2 : Reg) (d2 : Nat)
  /-- MOVE PAGE (R289): named only. -/
  | mvpg (r1 r2 : Reg)
  /-- INSERT STORAGE KEY EXTENDED (R290): named only. -/
  | iske (r1 r2 : Reg)
  /-- INSERT VIRTUAL STORAGE KEY (R291): named only. -/
  | ivsk (r1 r2 : Reg)
  /-- RESET REFERENCE BIT EXTENDED (R292): named only. -/
  | rrbe (r1 r2 : Reg)
  /-- TEST PROTECTION (R293): named only. -/
  | tprot (b1 : Reg) (d1 : Nat) (b2 : Reg) (d2 : Nat)
  /-- EXECUTE (R294): named only. -/
  | ex (r1 x2 b2 : Reg) (d2 : Nat)
  /-- BRANCH ON CONDITION, storage form (R295): named only. -/
  | bc (m1 : Mask) (x2 b2 : Reg) (d2 : Nat)
  /-- BRANCH ON CONDITION, register form (R295): named only. -/
  | bcr (m1 : Mask) (r2 : Reg)
  deriving DecidableEq, Repr

end Sys2Proof
end

