-- ==== Sys2Proof/Decode.lean ====
section
/-! DEFINITION. Decoding the bytes of an instruction, and encoding one (30_encoding.md; every operation code and
field position is PRESUMED, G1 to G4, log 14). -/

namespace Sys2Proof

/-- Why bytes are no instruction of the opcode table. -/
inductive DecodeError where
  /-- Fewer bytes than the length that bits 0-1 of the first byte give (R200). -/
  | truncated
  /-- The operation code is none of the table's; the first two bytes are given (R211). -/
  | unassigned (first second : Byte)
  deriving DecidableEq, Repr

/-! ## Fields of the instruction text -/

/-- `n` bytes of a number, leftmost (most significant) first (R55). -/
def beBytes : Nat → Nat → List Byte
  | 0, _ => []
  | n + 1, v => beBytes n (v / 256) ++ [BitVec.ofNat 8 v]

/-- Bits 0-3 of a byte. -/
def hiNibble (b : Byte) : Reg := (b.extractLsb' 4 4).toFin

/-- Bits 4-7 of a byte. -/
def loNibble (b : Byte) : Reg := (b.extractLsb' 0 4).toFin

/-- Two 4-bit fields side by side in a byte. -/
def packNibbles (h l : Reg) : Byte := BitVec.ofFin (w := 4) h ++ BitVec.ofFin (w := 4) l

/-- A 12-bit displacement: the right half of one byte and the whole of the next. -/
def dispOf (b c : Byte) : Nat := (loNibble b).val * 256 + c.toNat

/-- The leftmost 4 bits of a 12-bit displacement. -/
def dispHi (d : Nat) : Reg := Fin.ofNat 16 (d / 256)

/-- The rightmost 8 bits of a displacement. -/
def dispLo (d : Nat) : Byte := BitVec.ofNat 8 d

/-- The length in bytes, from bits 0-1 of the first byte: 00 is 2, 01 and 10 are 4, 11 is 6 (R200). -/
def instrLength (b0 : Byte) : Nat :=
  if b0.extractLsb' 6 2 = 0 then 2 else if b0.extractLsb' 6 2 = 3 then 6 else 4

/-! ## Decoding -/

/-- Instructions of two bytes: BCR (R210). -/
def decode2 (b0 b1 : Byte) : Except DecodeError Instr :=
  if b0 = 0x07 then .ok (.bcr (BitVec.ofFin (hiNibble b1)) (loNibble b1))
  else .error (.unassigned b0 b1)

/-- Instructions of four bytes (R202, R203, R210). -/
def decode4 (b0 b1 b2 b3 : Byte) : Except DecodeError Instr :=
  if b0 = 0xB2 then
    if b1 = 0x2B then .ok (.sske (BitVec.ofFin (hiNibble b2)) (hiNibble b3) (loNibble b3))
    else if b1 = 0xB2 then .ok (.lpswe (hiNibble b2) (dispOf b2 b3))
    else if b1 = 0x54 then .ok (.mvpg (hiNibble b3) (loNibble b3))
    else if b1 = 0x29 then .ok (.iske (hiNibble b3) (loNibble b3))
    else if b1 = 0x23 then .ok (.ivsk (hiNibble b3) (loNibble b3))
    else if b1 = 0x2A then .ok (.rrbe (hiNibble b3) (loNibble b3))
    else .error (.unassigned b0 b1)
  else if b0 = 0xB9 then
    if b1 = 0xAF then .ok (.pfmf (hiNibble b3) (loNibble b3))
    else .error (.unassigned b0 b1)
  else if b0 = 0xB7 then .ok (.lctl (hiNibble b1) (loNibble b1) (hiNibble b2) (dispOf b2 b3))
  else if b0 = 0xB6 then .ok (.stctl (hiNibble b1) (loNibble b1) (hiNibble b2) (dispOf b2 b3))
  else if b0 = 0x82 then .ok (.lpsw (hiNibble b2) (dispOf b2 b3))
  else if b0 = 0x44 then .ok (.ex (hiNibble b1) (loNibble b1) (hiNibble b2) (dispOf b2 b3))
  else if b0 = 0x47 then
    .ok (.bc (BitVec.ofFin (hiNibble b1)) (loNibble b1) (hiNibble b2) (dispOf b2 b3))
  else .error (.unassigned b0 b1)

/-- Instructions of six bytes (R210). -/
def decode6 (b0 b1 b2 b3 b4 b5 : Byte) : Except DecodeError Instr :=
  if b0 = 0xEB then
    if b5 = 0x2F then
      .ok (.lctlg (hiNibble b1) (loNibble b1) (hiNibble b2) (dispOf b2 b3) b4.toNat)
    else if b5 = 0x25 then
      .ok (.stctg (hiNibble b1) (loNibble b1) (hiNibble b2) (dispOf b2 b3) b4.toNat)
    else .error (.unassigned b0 b1)
  else if b0 = 0xDA then
    .ok (.mvcp (hiNibble b1) (loNibble b1) (hiNibble b2) (dispOf b2 b3) (hiNibble b4) (dispOf b4 b5))
  else if b0 = 0xDB then
    .ok (.mvcs (hiNibble b1) (loNibble b1) (hiNibble b2) (dispOf b2 b3) (hiNibble b4) (dispOf b4 b5))
  else if b0 = 0xD9 then
    .ok (.mvck (hiNibble b1) (loNibble b1) (hiNibble b2) (dispOf b2 b3) (hiNibble b4) (dispOf b4 b5))
  else if b0 = 0xE5 then
    if b1 = 0x0E then .ok (.mvcsk (hiNibble b2) (dispOf b2 b3) (hiNibble b4) (dispOf b4 b5))
    else if b1 = 0x0F then .ok (.mvcdk (hiNibble b2) (dispOf b2 b3) (hiNibble b4) (dispOf b4 b5))
    else if b1 = 0x01 then .ok (.tprot (hiNibble b2) (dispOf b2 b3) (hiNibble b4) (dispOf b4 b5))
    else .error (.unassigned b0 b1)
  else .error (.unassigned b0 b1)

/-- The instruction that starts at the head of the bytes. Total: it names what it cannot read. -/
def decode : List Byte → Except DecodeError Instr
  | b0 :: b1 :: rest =>
    if instrLength b0 = 2 then decode2 b0 b1
    else
      match rest with
      | b2 :: b3 :: rest' =>
        if instrLength b0 = 4 then decode4 b0 b1 b2 b3
        else
          match rest' with
          | b4 :: b5 :: _ => decode6 b0 b1 b2 b3 b4 b5
          | _ => .error .truncated
      | _ => .error .truncated
  | _ => .error .truncated

/-! ## Encoding -/

/-- Four bytes with an 8-bit operation code, two 4-bit fields, a base and a 12-bit displacement (RS, RX). -/
def encodeRs (op : Byte) (f g b2 : Reg) (d2 : Nat) : List Byte :=
  [op, packNibbles f g, packNibbles b2 (dispHi d2), dispLo d2]

/-- Four bytes with a 16-bit operation code and two register fields in the last byte (RRE). -/
def encodeRre (op1 op2 : Byte) (r1 r2 : Reg) : List Byte := [op1, op2, 0, packNibbles r1 r2]

/-- Six bytes with an 8-bit operation code, two 4-bit fields and two base-displacement operands (SS). -/
def encodeSs (op : Byte) (f g b1 : Reg) (d1 : Nat) (b2 : Reg) (d2 : Nat) : List Byte :=
  [op, packNibbles f g, packNibbles b1 (dispHi d1), dispLo d1, packNibbles b2 (dispHi d2), dispLo d2]

/-- Six bytes with a 16-bit operation code and two base-displacement operands (SSE). -/
def encodeSse (op1 op2 : Byte) (b1 : Reg) (d1 : Nat) (b2 : Reg) (d2 : Nat) : List Byte :=
  [op1, op2, packNibbles b1 (dispHi d1), dispLo d1, packNibbles b2 (dispHi d2), dispLo d2]

/-- Six bytes with the operation code split over the first and the last byte (RSY). -/
def encodeRsy (op1 op2 : Byte) (r1 r3 b2 : Reg) (dl2 dh2 : Nat) : List Byte :=
  [op1, packNibbles r1 r3, packNibbles b2 (dispHi dl2), dispLo dl2, dispLo dh2, op2]

/-- The bytes of an instruction, its unused bits zero (R206). -/
def encode : Instr → List Byte
  | .sske m3 r1 r2 => [0xB2, 0x2B, packNibbles m3.toFin 0, packNibbles r1 r2]
  | .pfmf r1 r2 => encodeRre 0xB9 0xAF r1 r2
  | .lctl r1 r3 b2 d2 => encodeRs 0xB7 r1 r3 b2 d2
  | .lctlg r1 r3 b2 dl2 dh2 => encodeRsy 0xEB 0x2F r1 r3 b2 dl2 dh2
  | .stctl r1 r3 b2 d2 => encodeRs 0xB6 r1 r3 b2 d2
  | .stctg r1 r3 b2 dl2 dh2 => encodeRsy 0xEB 0x25 r1 r3 b2 dl2 dh2
  | .lpsw b2 d2 => encodeRs 0x82 0 0 b2 d2
  | .lpswe b2 d2 => [0xB2, 0xB2, packNibbles b2 (dispHi d2), dispLo d2]
  | .mvcp r1 r3 b1 d1 b2 d2 => encodeSs 0xDA r1 r3 b1 d1 b2 d2
  | .mvcs r1 r3 b1 d1 b2 d2 => encodeSs 0xDB r1 r3 b1 d1 b2 d2
  | .mvck r1 r3 b1 d1 b2 d2 => encodeSs 0xD9 r1 r3 b1 d1 b2 d2
  | .mvcsk b1 d1 b2 d2 => encodeSse 0xE5 0x0E b1 d1 b2 d2
  | .mvcdk b1 d1 b2 d2 => encodeSse 0xE5 0x0F b1 d1 b2 d2
  | .mvpg r1 r2 => encodeRre 0xB2 0x54 r1 r2
  | .iske r1 r2 => encodeRre 0xB2 0x29 r1 r2
  | .ivsk r1 r2 => encodeRre 0xB2 0x23 r1 r2
  | .rrbe r1 r2 => encodeRre 0xB2 0x2A r1 r2
  | .tprot b1 d1 b2 d2 => encodeSse 0xE5 0x01 b1 d1 b2 d2
  | .ex r1 x2 b2 d2 => encodeRs 0x44 r1 x2 b2 d2
  | .bc m1 x2 b2 d2 => encodeRs 0x47 m1.toFin x2 b2 d2
  | .bcr m1 r2 => [0x07, packNibbles m1.toFin r2]

/-! ## The numbering of spec/opcode_table.json (log 36) -/

/-- The storage bytes of an instruction given as the table gives it: one number of `nbits` bits, its leftmost byte
first in storage, and zeros after it up to the longest instruction. -/
def tableText (nbits w : Nat) : List Byte :=
  beBytes ((nbits + 7) / 8) w ++ List.replicate (6 - (nbits + 7) / 8) 0

/-- The instruction the decoder reads from a table word. -/
def decodeTableWord (nbits w : Nat) : Option Instr :=
  match decode (tableText nbits w) with
  | .ok i => some i
  | .error _ => none

end Sys2Proof
end

