-- ==== Sys2Proof/Machine/Bits.lean ====
section
/-! DEFINITION. Bit fields in the numbering of R6 (bit 0 leftmost), and byte order (R55). -/

namespace Sys2Proof.Machine

/-- `v[a:b]`: bits `a` to `b` of `v`, bit 0 leftmost (R6). -/
def field {n : Nat} (v : BitVec n) (a b : Nat) : BitVec (b - a + 1) :=
  v.extractLsb' (n - 1 - b) (b - a + 1)

/-- `v[a]`: bit `a` of `v`, bit 0 leftmost (R6). -/
def bitAt {n : Nat} (v : BitVec n) (a : Nat) : Bool := v.getMsbD a

/-- `v` with bits `a` to `b` replaced by `x` (R7: `x[i][a:b] <- v`). -/
def setField {n : Nat} (v : BitVec n) (a b : Nat) (x : BitVec (b - a + 1)) : BitVec n :=
  (v &&& ~~~((BitVec.allOnes (b - a + 1)).setWidth n <<< (n - 1 - b))) ||| (x.setWidth n <<< (n - 1 - b))

/-- The number that bytes hold, leftmost byte most significant (R55). -/
def beNat (bs : List Byte) : Nat := bs.foldl (fun n b => n * 256 + b.toNat) 0

/-- The bytes of a bit vector of `k` bytes, leftmost first (R55). -/
def bytesOf {n : Nat} (k : Nat) (v : BitVec n) : List Byte := beBytes k v.toNat

/-- The bit vector that bytes hold, leftmost first (R55). -/
def wordOf (n : Nat) (bs : List Byte) : BitVec n := BitVec.ofNat n (beNat bs)

/-- The number of the 4 KB block of an absolute address: `aa[0:51]` (R40). -/
def blockOf (aa : Word) : Nat := aa.toNat / 4096

end Sys2Proof.Machine
end

