-- ==== Sys2Proof/Machine/Psw.lean ====
section
/-! DEFINITION. The fields of the program status word, and the addressing modes (R28 to R37). -/

namespace Sys2Proof.Machine

/-- The sizes of address (R34). -/
inductive AddressingMode where
  | bits24
  | bits31
  | bits64
  deriving DecidableEq, Repr

/-- T, bit 5: DAT is on (R29). -/
def pswDat (p : BitVec 128) : Bool := bitAt p 5

/-- The PSW key, bits 8-11 (R30). -/
def pswKey (p : BitVec 128) : BitVec 4 := field p 8 11

/-- Bit 14: the wait state (R31). -/
def pswWait (p : BitVec 128) : Bool := bitAt p 14

/-- Bit 15: the problem state (R340, D3; PRESUMED, log 15). -/
def pswProblem (p : BitVec 128) : Bool := bitAt p 15

/-- AS, bits 16-17 (R32). -/
def pswAs (p : BitVec 128) : BitVec 2 := field p 16 17

/-- CC, bits 18-19 (R33). -/
def pswCc (p : BitVec 128) : BitVec 2 := field p 18 19

/-- EA, bit 31 (R34). -/
def pswEa (p : BitVec 128) : Bool := bitAt p 31

/-- BA, bit 32 (R34). -/
def pswBa (p : BitVec 128) : Bool := bitAt p 32

/-- The instruction address, bits 64-127 (R35). -/
def pswAddress (p : BitVec 128) : Word := field p 64 127

/-- EA one and BA zero: the combination the source calls an exception condition (R34, R331). -/
def pswModeInvalid (p : BitVec 128) : Bool := pswEa p && !pswBa p

/-- The addressing mode of EA and BA (R34). For the invalid pair it says 64-bit; a step never asks it then, since
R331 comes first (log 29). -/
def pswMode (p : BitVec 128) : AddressingMode :=
  if pswEa p then .bits64 else if pswBa p then .bits31 else .bits24

/-- `cc <- v` (R33). -/
def pswSetCc (p : BitVec 128) (v : BitVec 2) : BitVec 128 := setField p 18 19 v

/-- `pc <- a` (R35). -/
def pswSetAddress (p : BitVec 128) (a : Word) : BitVec 128 := setField p 64 127 a

/-- `AddrMode(v)`: the bits of `v` that are an address in the mode, zeros to their left (R58, D8). -/
def addrMode (m : AddressingMode) (v : Word) : Word :=
  match m with
  | .bits24 => (v.setWidth 24).setWidth 64
  | .bits31 => (v.setWidth 31).setWidth 64
  | .bits64 => v

end Sys2Proof.Machine
end

