-- ==== Sys2Proof/Machine/Ops.lean ====
section
/-! DEFINITION. The named operations over registers, storage and keys; taking an interruption and returning from
one (R313, R337, R339). -/

namespace Sys2Proof.Machine

open Sys2Proof.Config (InterruptionClass Installation)

/-! ## Registers -/

/-- `x[r]`: register 0 is an ordinary register here (R10, R207). -/
def State.gpr (s : State) (r : Reg) : Word := s.gprs[r.val]

/-- `x[r] <- v`. -/
def State.setGpr (s : State) (r : Reg) (v : Word) : State := { s with gprs := s.gprs.set r.val v }

/-- `c[i]` (R14). -/
def State.cr (s : State) (i : Reg) : Word := s.crs[i.val]

/-- `a[i]` (R26). -/
def State.ar (s : State) (i : Reg) : BitVec 32 := s.ars[i.val]

/-- The current PSW replaced. -/
def State.setPsw (s : State) (p : BitVec 128) : State := { s with psw := p }

/-- `cc <- v` (R33). -/
def State.setCc (s : State) (v : BitVec 2) : State := s.setPsw (pswSetCc s.psw v)

/-- The addressing mode of the current PSW (R34). -/
def State.mode (s : State) : AddressingMode := pswMode s.psw

/-- `pc <- pc + n`, wrapping at the size of the addressing mode (R35, D8; log 13). -/
def State.advance (s : State) (n : Word) : State :=
  s.setPsw (pswSetAddress s.psw (addrMode s.mode (pswAddress s.psw + n)))

/-- The facility is installed and `c[0][40]` is one: the first two conditions of "enhanced DAT applies" (R3, R15). -/
def State.edatApplies (s : State) : Bool := s.installation.edatInstalled && bitAt (s.cr 0) 40

/-! ## Unpredictable values (R8; log 7) -/

/-- One more value drawn. -/
def State.drawn (s : State) (n : Nat) : State := { s with draws := s.draws + n }

/-! ## Absolute storage and keys -/

/-- The block is in STORAGE_AVAILABLE (R53). -/
def blockAvailable (i : Installation) (b : Nat) : Bool :=
  i.storage.any (fun r => r.first ≤ b && b < r.first + r.count)

/-- `Available(aa)` (R53). -/
def State.available (s : State) (aa : Word) : Bool := blockAvailable s.installation (blockOf aa)

/-- Every byte of `n` from `aa` is available (R53). -/
def State.availableMany (s : State) (aa : Word) (n : Nat) : Bool :=
  (List.range n).all (fun i => blockAvailable s.installation ((aa.toNat + i) / 4096))

/-- The byte of main storage at an absolute address. -/
def State.byte (s : State) (a : Nat) : Byte := Memory.read s.mem a

/-- The storage key of a block and its validity (R40, R43). -/
def State.keyState (s : State) (b : Nat) : KeyState := Keys.read s.keys b

/-- `key[b]` (R40). -/
def State.key (s : State) (b : Nat) : StorageKey := (s.keyState b).key

/-- The key of a block replaced. -/
def State.setKeyState (s : State) (b : Nat) (k : KeyState) : State :=
  { s with keys := Keys.write s.keys b k }

/-- Main storage replaced. -/
def State.setMem (s : State) (m : List Host.Cell) : State := { s with mem := m }

/-! ## Reference and change recording -/

/-- `RecordReference`: the reference bit may or may not be set (R181, U8). -/
def recordReference (aa : Word) (s : State) : State :=
  let k := s.keyState (blockOf aa)
  (s.setKeyState (blockOf aa) { k with key := { k.key with r := k.key.r || Config.freeBit s.draws } }).drawn 1

/-- `RecordChange`: set when the contents changed and no override applies; else it may or may not be set (R183,
R186). -/
def recordChange (aa : Word) (co changed : Bool) (s : State) : State :=
  let k := s.keyState (blockOf aa)
  let set := if changed && !co then true else Config.freeBit s.draws
  (s.setKeyState (blockOf aa) { k with key := { k.key with c := k.key.c || set } }).drawn 1

/-! ## The environment (R9, R74, R337; log 9) -/

/-- What one action of another agent does. A block that is not available is not reached. -/
def applyAction (s : State) : AgentAction → State
  | .store aa v override =>
    if s.available aa then
      recordChange aa override (s.byte aa.toNat != v)
        (recordReference aa (s.setMem (Memory.write s.mem aa.toNat v)))
    else s
  | .reference aa => if s.available aa then recordReference aa s else s
  | .setKey aa k => if s.available aa then s.setKeyState (blockOf aa) ⟨k, false⟩ else s
  | .keyError aa =>
    if s.available aa then s.setKeyState (blockOf aa) { s.keyState (blockOf aa) with cbcInvalid := true } else s

/-- A boundary between instructions or units of operation: the actions scheduled for it happen, and an interruption
may become pending if none is (R337, R319). -/
def State.atBoundary (s : State) : State :=
  match s.environment with
  | [] => s
  | b :: rest =>
    let t := b.actions.foldl applyAction { s with environment := rest }
    { t with asyncPending := t.asyncPending.or b.async }

/-- The gap before one single access of the CPU: another agent may act in it (R9, R74, D6). A single access is the fetch
of one table entry, one storage reference with its key check (R71), one store or load of a PSW swap, one reading or one
setting of a key, or one piece of a clearing (R262). -/
def State.beforeAccess (s : State) : State :=
  match s.interleaving with
  | [] => s
  | g :: rest => g.actions.foldl applyAction { s with interleaving := rest }

/-! ## Absolute storage -/

/-- `AbsWrite`, with the recording of a store that no override covers (R53, R181, R183); none for the addressing
exception. The bytes lie in the block of the first one. -/
def absStore (aa : Word) (bs : List Byte) (s : State) : Option State :=
  if s.availableMany aa bs.length then
    some (recordChange aa false (Memory.readMany s.mem aa.toNat bs.length != bs)
      (recordReference aa (s.setMem (Memory.writeMany s.mem aa.toNat bs))))
  else none

/-- `AbsRead`, with the recording of a reference (R53, R181); none for the addressing exception. -/
def absLoad (aa : Word) (n : Nat) (s : State) : Option (List Byte × State) :=
  if s.availableMany aa n then some (Memory.readMany s.mem aa.toNat n, recordReference aa s) else none

/-- `Prefix(ra)`: real to absolute (R60). -/
def applyPrefix (p : BitVec 51) (ra : Word) : Word :=
  if field ra 0 50 = 0 then p ++ field ra 51 63
  else if field ra 0 50 = p then (0 : BitVec 51) ++ field ra 51 63
  else ra

/-! ## Program exceptions (R315 to R318; PRESUMED where the source is silent, log 16, log 18) -/

/-- The program-interruption code (R317). -/
def exceptionCode : ProgramException → BitVec 16
  | .operation => 0x0001
  | .privilegedOperation => 0x0002
  | .protection => 0x0004
  | .addressing => 0x0005
  | .specification => 0x0006
  | .segmentTranslation => 0x0010
  | .pageTranslation => 0x0011
  | .translationSpecification => 0x0012
  | .asceType => 0x0038
  | .regionFirstTranslation => 0x0039
  | .regionSecondTranslation => 0x003A
  | .regionThirdTranslation => 0x003B

/-- The exception nullifies the instruction; the others suppress it (R317). -/
def nullifies : ProgramException → Bool
  | .operation => false
  | .privilegedOperation => false
  | .protection => false
  | .addressing => false
  | .specification => false
  | .segmentTranslation => true
  | .pageTranslation => true
  | .translationSpecification => false
  | .asceType => true
  | .regionFirstTranslation => true
  | .regionSecondTranslation => true
  | .regionThirdTranslation => true

/-- The exception stores a translation-exception identification (R317). -/
def storesTeid : ProgramException → Bool
  | .operation => false
  | .privilegedOperation => false
  | .protection => true
  | .addressing => false
  | .specification => false
  | .segmentTranslation => true
  | .pageTranslation => true
  | .translationSpecification => false
  | .asceType => true
  | .regionFirstTranslation => true
  | .regionSecondTranslation => true
  | .regionThirdTranslation => true

/-- The translation-exception identification of an address: its bits 0-51, zeros elsewhere (R315). -/
def teidOf (a : Word) : Word := field a 0 51 ++ (0 : BitVec 12)

/-- The byte that holds an instruction-length code: `zeros(5) || ilc || 0` (R313). -/
def ilcByte (ilc : BitVec 2) : Byte := (0 : BitVec 5) ++ ilc ++ (0 : BitVec 1)

/-! ## Interruptions -/

/-- A store of the machine at an assigned location: real, prefixed, not translated, not key-checked, recorded
(R313, D21). It is one single access (R74). -/
def storeReal (ra : Word) (bs : List Byte) (s : State) : Option State :=
  absStore (applyPrefix s.prefixReg ra) bs s.beforeAccess

/-- The new PSW of a class becomes the current PSW (R310, R313). It is one single access (R74). -/
def loadNewPsw (c : InterruptionClass) (s : State) : Option State :=
  (absLoad (applyPrefix s.prefixReg (Config.newPswLocation c)) 16 s.beforeAccess).map
    fun r => r.2.setPsw (wordOf 128 r.1)

/-- The stores and the load of a program interruption, in the order of R313; none for an addressing exception. -/
def programSwap (e : ProgramException) (ilc : BitVec 2) (address : Word) (s : State) : Option State :=
  (storeReal (Config.oldPswLocation .program) (bytesOf 16 s.psw) s).bind fun s1 =>
  (storeReal Config.codeLocation (bytesOf 2 (exceptionCode e)) s1).bind fun s2 =>
  (storeReal Config.ilcLocation [ilcByte ilc] s2).bind fun s3 =>
  (if storesTeid e then storeReal Config.teidLocation (bytesOf 8 (teidOf address)) s3 else some s3).bind fun s4 =>
  loadNewPsw .program s4

/-- `ProgramInterruption`: the current PSW is saved, its instruction address as the ending of the instruction left
it; code, length code and identification are stored; the program new PSW becomes current (R313). The machine stops
if the swap meets unavailable storage (D32). -/
def takeProgramInterruption (e : ProgramException) (ilc : BitVec 2) (address : Word) (s : State) :
    Host.Outcome State Fault Refusal :=
  match programSwap e ilc address s with
  | some t => .next { t with newPswUntried := true }
  | none => .fault .swapAddressing

/-- A program exception met by an instruction of four bytes while it executes: the instruction address passes it
unless the exception nullifies (R318, R350 step 7). -/
def raiseInInstruction (e : ProgramException) (address : Word) (s : State) : Host.Outcome State Fault Refusal :=
  takeProgramInterruption e 2 address (if nullifies e then s else s.advance 4)

/-- A program exception met before an instruction is decoded: the instruction address is stored unchanged and the
length code is 0 (R350 steps 3 to 5). The machine stops if the PSW is the untried new PSW of a program
interruption (R338, D32). -/
def takeEarlyException (e : ProgramException) (address : Word) (s : State) : Host.Outcome State Fault Refusal :=
  if s.newPswUntried then .fault .interruptionLoop else takeProgramInterruption e 0 address s

/-- The class of a pending asynchronous interruption (R311). -/
def classOf : AsyncClass → InterruptionClass
  | .external => .external
  | .io => .io
  | .machineCheck => .machineCheck
  | .restart => .restart

/-- The PSW swap of an interruption class (R310, R336, R337). -/
def pswSwap (c : InterruptionClass) (s : State) : Option State :=
  (storeReal (Config.oldPswLocation c) (bytesOf 16 s.psw) s).bind (loadNewPsw c)

/-- `AsyncInterruption`: the swap of the pending class, which is then no longer pending (R337). -/
def takeAsyncInterruption (c : AsyncClass) (s : State) : Host.Outcome State Fault Refusal :=
  match pswSwap (classOf c) s with
  | some t => .next { t with asyncPending := none, newPswUntried := false }
  | none => .fault .swapAddressing

/-- The return from an interruption of a class: the 128 bits of its old PSW become the current PSW and nothing else
is restored (R339). The instructions that do it are named only, so no step performs it: it is the harness's, between
steps. The PSW reloaded is no longer the new PSW of a program interruption, so the mark of R338 goes, which the spec
does not say (DEDUCED, log 11). -/
def reloadOldPsw (c : InterruptionClass) (s : State) : Option State :=
  (absLoad (applyPrefix s.prefixReg (Config.oldPswLocation c)) 16 s).map
    fun r => { s.setPsw (wordOf 128 r.1) with newPswUntried := false }

/-- Serialization and checkpoint synchronization (R75, R239, R267): a no-op where storage is one array and every
access of the CPU is complete when the next begins (R74, D6; log 23). -/
def serialize (s : State) : State := s

end Sys2Proof.Machine
end

