-- ==== Sys2Proof/Machine/Flags.lean ====
section
/-! DEFINITION. The condition code (R33, R236), the one flag of the machine. -/

namespace Sys2Proof.Machine

/-- What setting a key did (R226). -/
inductive SetKeyOutcome where
  /-- No mask bit in effect: replaced without a comparison. -/
  | unconditional
  /-- The key was left as it was. -/
  | notSet
  /-- The whole key was replaced. -/
  | full
  /-- Only the compared bit is sure to hold the new value. -/
  | partialSet
  /-- The whole key was replaced because its checking-block code was invalid. -/
  | fullCbc
  deriving DecidableEq, Repr

/-- The condition code of a conditional single-block SSKE; none where it is not changed (R236). -/
def ccOfOutcome : SetKeyOutcome → Option (BitVec 2)
  | .unconditional => none
  | .notSet => some 0
  | .full => some 1
  | .partialSet => some 2
  | .fullCbc => some 3

/-- The condition code of a completed conditional multiple-block SSKE (R236). -/
def ccMultiple : BitVec 2 := 3

/-- The condition code of an interrupted conditional multiple-block SSKE: unpredictable (R232, U11). -/
def ccInterrupted (s : State) : BitVec 2 := Config.freeCc s.draws

end Sys2Proof.Machine
end

