-- ==== Sys2Proof/Machine/Operands.lean ====
section
/-! DEFINITION. The operand forms: addresses held in registers, effective addresses, address spaces, and the
controls that SSKE and PFMF take from their operands. -/

namespace Sys2Proof.Machine

/-! ## Effective addresses (R12, R58). No instruction with a meaning computes one; they are the forms of the spec. -/

/-- `base(B)` and `index(X)`: register 0 means none (R12). -/
def baseOrIndex (s : State) (r : Reg) : Word := if r = 0 then 0 else s.gpr r

/-- `EA(B, D)` (R58). -/
def effectiveAddress (s : State) (b : Reg) (d : Word) : Word := addrMode s.mode (baseOrIndex s b + d)

/-- `EA(X, B, D)` (R58). -/
def indexedAddress (s : State) (x b : Reg) (d : Word) : Word :=
  addrMode s.mode (baseOrIndex s b + baseOrIndex s x + d)

/-! ## The address of a block in a register (R224, R234, R256) -/

/-- `BlockAddr`: the 4 KB block that a register designates in the mode (R224). -/
def blockAddr (m : AddressingMode) (r : Word) : Word := field (addrMode m r) 0 51 ++ (0 : BitVec 12)

/-- `NextBlock`: the following block, wrapping at the size of the mode (R234). -/
def nextBlock (m : AddressingMode) (addr : Word) : Word := addrMode m (addr + 4096)

/-- `WriteBackR2`: the register with the address of a block put in it. Bits 52-63 keep their value; in the 24- and
31-bit modes bits 0-31 keep theirs and the bits of 32-63 left of the address are zero (R234, D25). -/
def writeBack (m : AddressingMode) (addr r : Word) : Word :=
  match m with
  | .bits24 => setField (setField r 32 39 0) 40 51 (field addr 40 51)
  | .bits31 => setField (setField r 32 32 0) 33 51 (field addr 33 51)
  | .bits64 => setField r 0 51 (field addr 0 51)

/-- `addr[44:51]`: the index of a block in its megabyte. -/
def blockInMegabyte (addr : Word) : BitVec 8 := field addr 44 51

/-! ## A key in a register (R40, R222) -/

/-- The key in bits 56-62 of a register (R222, R255). -/
def keyOfRegister (r : Word) : StorageKey :=
  ⟨field r 56 59, bitAt r 60, bitAt r 61, bitAt r 62⟩

/-- The seven bits of a key, ACC first (R40). -/
def keyBits (k : StorageKey) : BitVec 7 :=
  k.acc ++ BitVec.ofBool k.f ++ BitVec.ofBool k.r ++ BitVec.ofBool k.c

/-- R1 after a conditional SSKE: the old key in bits 48-54, bit 55 zero (R229). -/
def withOldKey (r : Word) (old : StorageKey) : Word := setField (setField r 48 54 (keyBits old)) 55 55 0

/-! ## The controls of SSKE (R204, R205, R221) -/

/-- The masks and the multiple-block control in effect. -/
structure KeyControls where
  mr : Bool
  mc : Bool
  mb : Bool
  deriving DecidableEq, Repr

/-- Effective MR, MC, MB: a bit of an uninstalled facility is ignored, and so is M3 bit 0 (R205, R221). -/
def sskeControls (i : Config.Installation) (m3 : Mask) : KeyControls where
  mr := i.condSskeInstalled && bitAt m3 1
  mc := i.condSskeInstalled && bitAt m3 2
  mb := i.edatInstalled && bitAt m3 3

/-- A mask bit is in effect: the instruction compares before it sets (R221). -/
def KeyControls.conditional (c : KeyControls) : Bool := c.mr || c.mc

/-! ## The controls of PFMF (R251, R254, R255) -/

/-- SK, set-key control, bit 46 (R252). -/
def frameSetKey (r : Word) : Bool := bitAt r 46

/-- CF, clear-frame control, bit 47 (R252). -/
def frameClear (r : Word) : Bool := bitAt r 47

/-- FSC, frame-size code, bits 49-51 (R254). -/
def frameSize (r : Word) : BitVec 3 := field r 49 51

/-- Effective MR and MC of PFMF (R255). The usage indication, bit 48, is not examined (R253). -/
def frameControls (i : Config.Installation) (r : Word) : KeyControls where
  mr := frameSetKey r && i.condSskeInstalled && bitAt r 53
  mc := frameSetKey r && i.condSskeInstalled && bitAt r 54
  mb := false

/-- The special conditions of PFMF: a bit that must be zero, or a reserved frame-size code (R257). -/
def frameReserved (r : Word) : Bool :=
  field r 32 45 != 0 || bitAt r 52 || bitAt r 55 || bitAt r 63 || 2 ≤ (frameSize r).toNat

/-! ## Address spaces (R27, R95) -/

/-- How an operand address selects its space (R95): forced by the instruction, or logical with its B (or R) field. -/
inductive OperandSpace where
  | primary
  | secondary
  | logical (b : Reg)
  deriving DecidableEq, Repr

/-- The kind of a storage reference (R66). -/
inductive ReferenceKind where
  | ifetch
  | fetch
  | store
  deriving DecidableEq, Repr

/-- `AR_ASCE`: access register 0 is the primary space and is not examined; the others go through the oracle (R27). -/
def arAsce (s : State) (b : Reg) : Option Word := if b = 0 then some (s.cr 1) else Config.art (s.ar b)

/-- `EffectiveASCE`: none where access-register translation ends in an exception (R95, R62). -/
def effectiveAsce (s : State) (kind : ReferenceKind) (sel : OperandSpace) : Option Word :=
  match kind with
  | .ifetch => if pswAs s.psw = 3 then some (s.cr 13) else some (s.cr 1)
  | .fetch | .store =>
    match sel with
    | .primary => some (s.cr 1)
    | .secondary => some (s.cr 7)
    | .logical b =>
      if pswAs s.psw = 0 then some (s.cr 1)
      else if pswAs s.psw = 1 then arAsce s b
      else if pswAs s.psw = 2 then some (s.cr 7)
      else some (s.cr 13)

end Sys2Proof.Machine
end

