-- ==== Sys2Proof/Machine/KeyOps.lean ====
section
/-! DEFINITION. The per-block key operation shared by SSKE and PFMF, and the run over the blocks of a megabyte
(R224, R226, R231, R234, R259). -/

namespace Sys2Proof.Machine

/-- What setting the key of one block answers. -/
structure SetKeyResult where
  outcome : SetKeyOutcome
  /-- The key before. After `fullCbc` the source leaves it open and no caller reads it (R228). -/
  old : StorageKey
  state : State

/-- The whole key of a block replaced: all seven bits, and its checking-block code becomes valid (R228). -/
def replaceKey (b : Nat) (k : StorageKey) (s : State) : State := s.setKeyState b ⟨k, false⟩

/-- Bits of the key of a block replaced, its checking-block code as it was. -/
def adjustKey (b : Nat) (k : StorageKey) (s : State) : State :=
  s.setKeyState b { s.keyState b with key := k }

/-- The bits of a partial replacement, put in the key as it now is: the reference bit where `mc`, else the change bit,
gets the new value and the other bit the unpredictable one (R226, U4). -/
def adjustedKey (mc : Bool) (new : StorageKey) (bit : Bool) (k : StorageKey) : StorageKey :=
  if mc then { k with r := new.r, c := bit } else { k with c := new.c, r := bit }

/-- `SetKeyBlock` (R226). With a mask bit in effect the key is first read, and two values are drawn: the choice between
the whole and the partial replacement (U3), and the bit the partial replacement leaves unpredictable (U4). The reading
and the setting are single accesses between which another agent may act (R74, R77). -/
def setKeyBlock (b : Nat) (new : StorageKey) (mr mc : Bool) (s : State) : SetKeyResult :=
  let read := s.beforeAccess
  let old := read.key b
  let kept := read.drawn 2
  let t := kept.beforeAccess
  let whole := replaceKey b new t
  let compared := if mc then old.r = new.r else old.c = new.c
  if !(mr || mc) then ⟨.unconditional, old, replaceKey b new read⟩
  else if (read.keyState b).cbcInvalid then ⟨.fullCbc, old, whole⟩
  else if old.acc ≠ new.acc ∨ old.f ≠ new.f then ⟨.full, old, whole⟩
  else if mr && mc then ⟨.notSet, old, kept⟩
  else if compared then ⟨.notSet, old, kept⟩
  else if Config.freeBit read.draws then ⟨.full, old, whole⟩
  else ⟨.partialSet, old, adjustKey b (adjustedKey mc new (Config.freeBit (read.draws + 1)) (t.key b)) t⟩

/-- `KeyBlock`: the absolute block that an address designates, a real address prefixed; none for the addressing
exception (R224). -/
def keyBlock (s : State) (addr : Word) (isAbsolute : Bool) : Option Nat :=
  let aa := if isAbsolute then addr else applyPrefix s.prefixReg addr
  if s.available aa then some (blockOf aa) else none

/-! ## The run over blocks (R231, R259) -/

/-- How a run over the blocks of a megabyte ended. -/
inductive BlockRun where
  /-- The next megabyte boundary was reached. -/
  | completed (s : State)
  /-- An interruption is pending at the boundary between two units (R232, R264). -/
  | interrupted (s : State)
  /-- The block at hand is not available (R235, R264). -/
  | addressing (s : State)

/-- The loop of R231 and R259: the work on one block, the address of the next block put in R2, and at each boundary
between units a chance of interruption. `fuel` bounds the blocks of one megabyte. -/
def runBlocks (unit : Word → State → Option State) (mode : AddressingMode) (r2 : Reg) :
    Nat → Word → State → BlockRun
  | 0, _, s => .completed s
  | fuel + 1, addr, s =>
    match unit addr s with
    | none => .addressing s
    | some s1 =>
      let next := nextBlock mode addr
      let s2 := s1.setGpr r2 (writeBack mode next (s1.gpr r2))
      if blockInMegabyte next = 0 then .completed s2
      else
        let s3 := s2.atBoundary
        if s3.asyncPending.isSome then .interrupted s3 else runBlocks unit mode r2 fuel next s3

/-- The blocks of a megabyte (R5). -/
def blocksInMegabyte : Nat := 256

end Sys2Proof.Machine
end

