-- ==== Sys2Proof/Machine/FrameManagement.lean ====
section
/-! DEFINITION. PERFORM FRAME MANAGEMENT FUNCTION (41_frame_management.md). -/

namespace Sys2Proof.Machine

/-- A byte of block `b` that none of the pieces covers. -/
def leftOf (b : Nat) (pieces : List (Nat × Nat)) (x : Nat) : Bool :=
  x / 4096 == b && !pieces.any (fun p => p.1 ≤ x % 4096 && x % 4096 < p.1 + p.2)

/-- One piece of a clearing and its recording, as one single access: the selected bytes become zero; C of the block is
set if one of them was not (R262, R263). -/
def clearPiece (aa : Word) (sel : Nat → Bool) (s : State) : State :=
  recordChange aa false (Memory.anyNonzero s.mem sel) (recordReference aa (s.setMem (Memory.clear s.mem sel)))

/-- The clearing of a block in pieces, one for each gap in which another agent may act, until a gap names no piece or
no gap is left: then all the rest at once. Every byte is cleared exactly once (R262; log 35). -/
def clearPieces (aa : Word) : List AccessGap → List (Nat × Nat) → State → State
  | [], done, s => clearPiece aa (leftOf (blockOf aa) done) s
  | g :: rest, done, s =>
    let t := g.actions.foldl applyAction { s with interleaving := rest }
    match g.part with
    | none => clearPiece aa (leftOf (blockOf aa) done) t
    | some p =>
      clearPieces aa rest (p :: done)
        (clearPiece aa (fun x => leftOf (blockOf aa) done x && !leftOf (blockOf aa) [p] x) t)

/-- `ClearBlock` and its recording: 4096 bytes become zero, whatever the keys are, in pieces between which other agents
may act (R9, R262, R263). -/
def clearBlock (aa : Word) (s : State) : State := clearPieces aa s.interleaving [] s

/-- `SetKeyOfBlock`: outcome and old key are discarded (R260). -/
def setFrameKey (r : Word) (aa : Word) (s : State) : State :=
  let c := frameControls s.installation r
  (setKeyBlock (blockOf aa) (keyOfRegister r) c.mr c.mc s).state

/-- `FrameBlock`: the work on one block, `r` the contents of R1. With both functions selected and a mask bit in effect
their order is unpredictable (U19); with none the final key is the one given (R261, R266). -/
def frameBlock (r : Word) (aa : Word) (s : State) : State :=
  if frameSetKey r && frameClear r then
    if (frameControls s.installation r).conditional then
      if Config.freeBit s.draws then setFrameKey r aa (clearBlock aa (s.drawn 1))
      else clearBlock aa (setFrameKey r aa (s.drawn 1))
    else setFrameKey r aa (clearBlock aa s)
  else if frameSetKey r then setFrameKey r aa s
  else if frameClear r then clearBlock aa s
  else s

/-- The work on the block at an absolute address if a function is selected; none for the addressing exception
(R258, R259). -/
def frameUnit (r : Word) (aa : Word) (s : State) : Option State :=
  if frameSetKey r || frameClear r then
    if s.available aa then some (frameBlock r aa s) else none
  else some s

/-- One 4 KB frame, at a real address (R258). -/
def pfmfSmall (r1 r2 : Reg) (s : State) : Host.Outcome State Fault Refusal :=
  let s0 := serialize s
  match frameUnit (s0.gpr r1) (applyPrefix s0.prefixReg (blockAddr s0.mode (s0.gpr r2))) s0 with
  | none => raiseInInstruction .addressing 0 s0
  | some t => .next ((serialize t).advance 4)

/-- The rest of a 1 MB frame, from an absolute address (R259, R264). -/
def pfmfLarge (r1 r2 : Reg) (s : State) : Host.Outcome State Fault Refusal :=
  let s0 := serialize s
  match runBlocks (frameUnit (s0.gpr r1)) s0.mode r2 blocksInMegabyte (blockAddr s0.mode (s0.gpr r2)) s0 with
  | .completed t => .next ((serialize t).advance 4)
  | .interrupted t => .next t
  | .addressing t => raiseInInstruction .addressing 0 t

/-- PFMF: refused without the facility (R211, R250); privileged operation, then specification (R257, R269, D27); then
the frame-size code (R258, R259). The 1 MB form with R1 = R2 is refused (R265, D29). -/
def execPfmf (r1 r2 : Reg) (s : State) : Host.Outcome State Fault Refusal :=
  if !s.installation.edatInstalled then .refused (.facilityNotInstalled "PFMF")
  else if pswProblem s.psw then raiseInInstruction .privilegedOperation 0 s
  else if frameReserved (s.gpr r1) then raiseInInstruction .specification 0 s
  else if frameSize (s.gpr r1) = 0 then pfmfSmall r1 r2 s
  else if r1 = r2 then .refused .frameOperandsSameRegister
  else pfmfLarge r1 r2 s

end Sys2Proof.Machine
end

