-- ==== Sys2Proof/Machine/NamedOnly.lean ====
section
/-! DEFINITION. The nineteen instructions the source names without defining them (42_named_instructions.md). The spec
says of them: "The model must not execute any instruction of this file: it decodes them only in order to refuse them";
00_scope.md section 3 puts them out of scope (log 19). -/

namespace Sys2Proof.Machine

/-- LOAD CONTROL, 32-bit form: named by the source, not defined by it; the model must refuse it (R280, R302, D23). -/
def execLctl (_r1 _r3 _b2 : Reg) (_d2 : Nat) (_s : State) :
    Host.Outcome State Fault Refusal :=
  .refused (.namedOnly "LCTL")

/-- LOAD CONTROL, 64-bit form: named by the source, not defined by it; the model must refuse it (R280, R302, D23). -/
def execLctlg (_r1 _r3 _b2 : Reg) (_dl2 _dh2 : Nat) (_s : State) :
    Host.Outcome State Fault Refusal :=
  .refused (.namedOnly "LCTLG")

/-- STORE CONTROL, 32-bit form: named by the source, not defined by it; the model must refuse it (R281, R302, D23). -/
def execStctl (_r1 _r3 _b2 : Reg) (_d2 : Nat) (_s : State) :
    Host.Outcome State Fault Refusal :=
  .refused (.namedOnly "STCTL")

/-- STORE CONTROL, 64-bit form: named by the source, not defined by it; the model must refuse it (R281, R302, D23). -/
def execStctg (_r1 _r3 _b2 : Reg) (_dl2 _dh2 : Nat) (_s : State) :
    Host.Outcome State Fault Refusal :=
  .refused (.namedOnly "STCTG")

/-- LOAD PSW: named by the source, not defined by it; the model must refuse it (R282, R302, D23). -/
def execLpsw (_b2 : Reg) (_d2 : Nat) (_s : State) :
    Host.Outcome State Fault Refusal :=
  .refused (.namedOnly "LPSW")

/-- LOAD PSW EXTENDED: named by the source, not defined by it; the model must refuse it (R283, R302, D23). -/
def execLpswe (_b2 : Reg) (_d2 : Nat) (_s : State) :
    Host.Outcome State Fault Refusal :=
  .refused (.namedOnly "LPSWE")

/-- MOVE TO PRIMARY: named by the source, not defined by it; the model must refuse it (R284, R302, D23). -/
def execMvcp (_r1 _r3 _b1 : Reg) (_d1 : Nat) (_b2 : Reg) (_d2 : Nat) (_s : State) :
    Host.Outcome State Fault Refusal :=
  .refused (.namedOnly "MVCP")

/-- MOVE TO SECONDARY: named by the source, not defined by it; the model must refuse it (R285, R302, D23). -/
def execMvcs (_r1 _r3 _b1 : Reg) (_d1 : Nat) (_b2 : Reg) (_d2 : Nat) (_s : State) :
    Host.Outcome State Fault Refusal :=
  .refused (.namedOnly "MVCS")

/-- MOVE WITH KEY: named by the source, not defined by it; the model must refuse it (R286, R302, D23). -/
def execMvck (_r1 _r3 _b1 : Reg) (_d1 : Nat) (_b2 : Reg) (_d2 : Nat) (_s : State) :
    Host.Outcome State Fault Refusal :=
  .refused (.namedOnly "MVCK")

/-- MOVE WITH SOURCE KEY: named by the source, not defined by it; the model must refuse it (R287, R302, D23). -/
def execMvcsk (_b1 : Reg) (_d1 : Nat) (_b2 : Reg) (_d2 : Nat) (_s : State) :
    Host.Outcome State Fault Refusal :=
  .refused (.namedOnly "MVCSK")

/-- MOVE WITH DESTINATION KEY: named by the source, not defined by it; the model must refuse it (R288, R302, D23). -/
def execMvcdk (_b1 : Reg) (_d1 : Nat) (_b2 : Reg) (_d2 : Nat) (_s : State) :
    Host.Outcome State Fault Refusal :=
  .refused (.namedOnly "MVCDK")

/-- MOVE PAGE: named by the source, not defined by it; the model must refuse it (R289, R302, D23). -/
def execMvpg (_r1 _r2 : Reg) (_s : State) :
    Host.Outcome State Fault Refusal :=
  .refused (.namedOnly "MVPG")

/-- INSERT STORAGE KEY EXTENDED: named by the source, not defined by it; the model must refuse it (R290, R302, D23). -/
def execIske (_r1 _r2 : Reg) (_s : State) :
    Host.Outcome State Fault Refusal :=
  .refused (.namedOnly "ISKE")

/-- INSERT VIRTUAL STORAGE KEY: named by the source, not defined by it; the model must refuse it (R291, R302, D23). -/
def execIvsk (_r1 _r2 : Reg) (_s : State) :
    Host.Outcome State Fault Refusal :=
  .refused (.namedOnly "IVSK")

/-- RESET REFERENCE BIT EXTENDED: named by the source, not defined by it; the model must refuse it (R292, R302, D23). -/
def execRrbe (_r1 _r2 : Reg) (_s : State) :
    Host.Outcome State Fault Refusal :=
  .refused (.namedOnly "RRBE")

/-- TEST PROTECTION: named by the source, not defined by it; the model must refuse it (R293, R302, D23). -/
def execTprot (_b1 : Reg) (_d1 : Nat) (_b2 : Reg) (_d2 : Nat) (_s : State) :
    Host.Outcome State Fault Refusal :=
  .refused (.namedOnly "TPROT")

/-- EXECUTE: named by the source, not defined by it; the model must refuse it (R294, R302, D23). -/
def execEx (_r1 _x2 _b2 : Reg) (_d2 : Nat) (_s : State) :
    Host.Outcome State Fault Refusal :=
  .refused (.namedOnly "EX")

/-- BRANCH ON CONDITION, storage form: named by the source, not defined by it; the model must refuse it (R295, R302, D23). -/
def execBc (_m1 : Mask) (_x2 _b2 : Reg) (_d2 : Nat) (_s : State) :
    Host.Outcome State Fault Refusal :=
  .refused (.namedOnly "BC")

/-- BRANCH ON CONDITION, register form: named by the source, not defined by it; the model must refuse it (R295, R302, D23). -/
def execBcr (_m1 : Mask) (_r2 : Reg) (_s : State) :
    Host.Outcome State Fault Refusal :=
  .refused (.namedOnly "BCR")

end Sys2Proof.Machine
end

