-- ==== Sys2Proof/Machine/SetStorageKey.lean ====
section
/-! DEFINITION. SET STORAGE KEY EXTENDED (40_storage_key_instructions.md). -/

namespace Sys2Proof.Machine

/-- The unconditional single-block form (R227). -/
def sskeUnconditional (r1 r2 : Reg) (s : State) : Host.Outcome State Fault Refusal :=
  let s0 := serialize s
  match keyBlock s0 (blockAddr s0.mode (s0.gpr r2)) false with
  | none => raiseInInstruction .addressing 0 s0
  | some b =>
    .next ((serialize (setKeyBlock b (keyOfRegister (s0.gpr r1)) false false s0).state).advance 4)

/-- The registers and condition code after a conditional single-block form (R229): the old key in R1, or eight
unpredictable bits where the checking-block code was invalid (U6). -/
def sskeConditionalResult (r1 : Reg) (res : SetKeyResult) : State :=
  let t := res.state
  match ccOfOutcome res.outcome with
  | none => t
  | some cc =>
    if res.outcome = .fullCbc then
      ((t.setGpr r1 (setField (t.gpr r1) 48 55 (Config.freeByte t.draws))).setCc cc).drawn 1
    else (t.setGpr r1 (withOldKey (t.gpr r1) res.old)).setCc cc

/-- The conditional single-block form (R229). Address and new key are read before R1 is written. -/
def sskeConditional (c : KeyControls) (r1 r2 : Reg) (s : State) : Host.Outcome State Fault Refusal :=
  let s0 := serialize s
  match keyBlock s0 (blockAddr s0.mode (s0.gpr r2)) false with
  | none => raiseInInstruction .addressing 0 s0
  | some b =>
    let res := setKeyBlock b (keyOfRegister (s0.gpr r1)) c.mr c.mc s0
    .next ((serialize (sskeConditionalResult r1 res)).advance 4)

/-- The work of the multiple-block form on one block (R231); none for the addressing exception. -/
def sskeUnit (new : StorageKey) (c : KeyControls) (addr : Word) (s : State) : Option State :=
  (keyBlock s addr true).map fun b => (setKeyBlock b new c.mr c.mc s).state

/-- R1 after a conditional multiple-block form: bits 48-55 unpredictable (R237, U6); where R1 is also R2 its address
bits prevail and only bits 52-55 are (R233, U15). -/
def sskeFreeR1 (r1 r2 : Reg) (s : State) : State :=
  let v := Config.freeByte s.draws
  let w := if r1 = r2 then setField (s.gpr r1) 52 55 (v.setWidth 4) else setField (s.gpr r1) 48 55 v
  (s.setGpr r1 w).drawn 1

/-- The condition code and R1 of a multiple-block form that ends with the given code; neither changes without a mask
bit in effect (R231, R236). -/
def sskeMultipleResult (c : KeyControls) (r1 r2 : Reg) (cc : BitVec 2) (s : State) : State :=
  if c.conditional then (sskeFreeR1 r1 r2 s).setCc cc else s

/-- The multiple-block form (R231 to R237). Interrupted, it leaves the instruction address at itself; an addressing
exception leaves the blocks before it done (R235; log 22). -/
def sskeMultiple (c : KeyControls) (r1 r2 : Reg) (s : State) : Host.Outcome State Fault Refusal :=
  let s0 := serialize s
  let new := keyOfRegister (s0.gpr r1)
  match runBlocks (sskeUnit new c) s0.mode r2 blocksInMegabyte (blockAddr s0.mode (s0.gpr r2)) s0 with
  | .completed t => .next ((serialize (sskeMultipleResult c r1 r2 ccMultiple t)).advance 4)
  | .interrupted t => .next (sskeMultipleResult c r1 r2 (ccInterrupted t) t)
  | .addressing t => raiseInInstruction .addressing 0 (sskeMultipleResult c r1 r2 (ccInterrupted t) t)

/-- SSKE: privileged operation in the problem state, else the form that M3 and the facilities select (R221, R238). -/
def execSske (m3 : Mask) (r1 r2 : Reg) (s : State) : Host.Outcome State Fault Refusal :=
  let c := sskeControls s.installation m3
  if pswProblem s.psw then raiseInInstruction .privilegedOperation 0 s
  else if c.mb then sskeMultiple c r1 r2 s
  else if c.conditional then sskeConditional c r1 r2 s
  else sskeUnconditional r1 r2 s

end Sys2Proof.Machine
end

