-- ==== Sys2Proof/Machine/Dispatch.lean ====
section
/-! DEFINITION. One arm for each instruction. -/

namespace Sys2Proof.Machine

def exec (i : Instr) (s : State) : Host.Outcome State Fault Refusal :=
  match i with
  | .sske m3 r1 r2 => Sys2Proof.Machine.execSske m3 r1 r2 s
  | .pfmf r1 r2 => Sys2Proof.Machine.execPfmf r1 r2 s
  | .lctl r1 r3 b2 d2 => Sys2Proof.Machine.execLctl r1 r3 b2 d2 s
  | .lctlg r1 r3 b2 dl2 dh2 => Sys2Proof.Machine.execLctlg r1 r3 b2 dl2 dh2 s
  | .stctl r1 r3 b2 d2 => Sys2Proof.Machine.execStctl r1 r3 b2 d2 s
  | .stctg r1 r3 b2 dl2 dh2 => Sys2Proof.Machine.execStctg r1 r3 b2 dl2 dh2 s
  | .lpsw b2 d2 => Sys2Proof.Machine.execLpsw b2 d2 s
  | .lpswe b2 d2 => Sys2Proof.Machine.execLpswe b2 d2 s
  | .mvcp r1 r3 b1 d1 b2 d2 => Sys2Proof.Machine.execMvcp r1 r3 b1 d1 b2 d2 s
  | .mvcs r1 r3 b1 d1 b2 d2 => Sys2Proof.Machine.execMvcs r1 r3 b1 d1 b2 d2 s
  | .mvck r1 r3 b1 d1 b2 d2 => Sys2Proof.Machine.execMvck r1 r3 b1 d1 b2 d2 s
  | .mvcsk b1 d1 b2 d2 => Sys2Proof.Machine.execMvcsk b1 d1 b2 d2 s
  | .mvcdk b1 d1 b2 d2 => Sys2Proof.Machine.execMvcdk b1 d1 b2 d2 s
  | .mvpg r1 r2 => Sys2Proof.Machine.execMvpg r1 r2 s
  | .iske r1 r2 => Sys2Proof.Machine.execIske r1 r2 s
  | .ivsk r1 r2 => Sys2Proof.Machine.execIvsk r1 r2 s
  | .rrbe r1 r2 => Sys2Proof.Machine.execRrbe r1 r2 s
  | .tprot b1 d1 b2 d2 => Sys2Proof.Machine.execTprot b1 d1 b2 d2 s
  | .ex r1 x2 b2 d2 => Sys2Proof.Machine.execEx r1 x2 b2 d2 s
  | .bc m1 x2 b2 d2 => Sys2Proof.Machine.execBc m1 x2 b2 d2 s
  | .bcr m1 r2 => Sys2Proof.Machine.execBcr m1 r2 s

end Sys2Proof.Machine
end

