-- ==== Sys2Proof/Machine/Dat.lean ====
section
/-! DEFINITION. Dynamic address translation, with enhanced DAT and the translation-lookaside buffer (21_dat.md). -/

namespace Sys2Proof.Machine

/-! ## Fields of table entries -/

/-- The region or segment table level by its designation-type number (R101, R113). -/
def levelAt : Nat → TableLevel
  | 0 => .segment
  | 1 => .regionThird
  | 2 => .regionSecond
  | _ => .regionFirst

/-- The translation exception of a level (R107, R326, R327). -/
def levelException : Nat → ProgramException
  | 0 => .segmentTranslation
  | 1 => .regionThirdTranslation
  | 2 => .regionSecondTranslation
  | _ => .regionFirstTranslation

/-- `Index(level, va)`: RFX, RSX, RTX or SX (R94). -/
def indexAt (level : Nat) (va : Word) : BitVec 11 :=
  match level with
  | 0 => field va 33 43
  | 1 => field va 22 32
  | 2 => field va 11 21
  | _ => field va 0 10

/-- PX (R94). -/
def pageIndex (va : Word) : BitVec 8 := field va 44 51

/-- The origin in bits 0-51 of an ASCE or region-table entry, twelve zeros appended (R17, R109). -/
def tableOrigin (e : Word) : Word := field e 0 51 ++ (0 : BitVec 12)

/-- The page-table origin in bits 0-52 of a segment-table entry, eleven zeros appended (R118). -/
def pageTableOrigin (ste : Word) : Word := field ste 0 52 ++ (0 : BitVec 11)

/-- R, the real-space control (R18). -/
def asceRealSpace (asce : Word) : Bool := bitAt asce 58

/-- The private-space control (R22, R121). -/
def ascePrivateSpace (asce : Word) : Bool := bitAt asce 55

/-- DT, the designation type (R19). -/
def asceDesignation (asce : Word) : Nat := (field asce 60 61).toNat

/-- TL, bits 62-63 of an ASCE or region-table entry (R20, R114). -/
def tableLength (e : Word) : BitVec 2 := field e 62 63

/-- TF, bits 56-57 of a region-table entry (R110). -/
def tableOffset (e : Word) : BitVec 2 := field e 56 57

/-- A part of the address left of what the designated table translates is not zero (R100, R321). -/
def asceTypeFails (dt : Nat) (va : Word) : Bool :=
  (dt < 3 && field va 0 10 != 0) || (dt < 2 && field va 11 21 != 0) || (dt < 1 && field va 22 32 != 0)

/-- The index lies outside the table that TF and TL describe (R102, R103). -/
def outsideTable (tf tl : BitVec 2) (idx : BitVec 11) : Bool :=
  (field idx 0 1).toNat < tf.toNat || tl.toNat < (field idx 0 1).toNat

/-! ## Fetching a table entry (R104 to R106) -/

/-- The absolute address of an entry (R105; parameters U1, U2; sums wrap, D19). -/
def tableAddress (s : State) (origin offset : Word) : Word :=
  match s.installation.originKind with
  | .absolute => origin + offset
  | .real =>
    match s.installation.prefixOrder with
    | .originFirst => applyPrefix s.prefixReg origin + offset
    | .sumFirst => applyPrefix s.prefixReg (origin + offset)

/-- `TableFetch`: eight bytes, not key-checked; none for the addressing exception (R105, R106). -/
def tableFetch (s : State) (origin offset : Word) : Option Word :=
  let a := tableAddress s origin offset
  if s.availableMany a 8 then some (wordOf 64 (Memory.readMany s.mem a.toNat 8)) else none

/-! ## The walk -/

/-- A translation under way: the machine as its accesses so far have left it, and the buffer entries it has formed. -/
structure Walk where
  state : State
  formed : List TlbEntry
  deriving DecidableEq, Repr

/-- One more value drawn. -/
def Walk.drawn (w : Walk) : Walk := { w with state := w.state.drawn 1 }

/-- One more entry formed. -/
def Walk.form (w : Walk) (e : TlbEntry) : Walk := { w with formed := e :: w.formed }

/-- The fetch of a table entry as a single access: another agent may act before it (R74), and the reference may or may
not be recorded, however the translation ends (R106, R181; log 27). -/
def Walk.fetch (w : Walk) (origin offset : Word) : Option Word × Walk :=
  let t := w.state.beforeAccess
  match tableFetch t origin offset with
  | none => (none, { w with state := t })
  | some e => (some e, { w with state := recordReference (tableAddress t origin offset) t })

/-- The entry that a walk needs. -/
structure TableRequest where
  level : TableLevel
  origin : Word
  space : Word
  index : Nat
  deriving DecidableEq, Repr

/-- A copy may stand in for the requested entry: the same place in the same table; a common segment's copies under
any segment table, and under no ASCE whose private-space control is one (R146, R150). -/
def TableRequest.answeredBy (q : TableRequest) (privateSpace : Bool) (t : TableCopy) : Bool :=
  t.level = q.level && t.index = q.index &&
    (if t.common then !privateSpace && (q.level = .segment || t.origin = q.origin)
     else t.origin = q.origin && t.space = q.space)

/-- The copy of a table entry that an entry of the buffer is, if it may stand in for the requested one. -/
def TableRequest.copyIn (q : TableRequest) (privateSpace : Bool) : TlbEntry → Option TableCopy
  | .table c => if q.answeredBy privateSpace c then some c else none
  | .frame _ => none
  | .realSpace _ => none

/-- One of the candidates or none of them, by free choice (R145, R152; U27; log 8). -/
def pick {α : Type} (candidates : List α) (n : Nat) : Option α :=
  match candidates with
  | [] => none
  | c :: cs => (c :: cs)[Config.freeChoice n]?

/-- The copy used for a table entry, if one is used. -/
def pickCopy (s : State) (q : TableRequest) (privateSpace : Bool) : Option TableCopy :=
  pick (s.tlb.filterMap (q.copyIn privateSpace)) s.draws

/-- A table entry and whether enhanced DAT applies to its reading. -/
structure EntryRead where
  entry : Word
  edat : Bool
  deriving DecidableEq, Repr

/-- The entry of the buffer that a fetched table entry forms. -/
def copyOf (s : State) (q : TableRequest) (common : Bool) (e : Word) : TlbEntry :=
  .table ⟨q.level, q.origin, q.space, q.index, common, s.edatApplies, e⟩

/-- One region- or segment-table level: a copy, or the length and offset check, the fetch, the invalid bit and the
table type, in the order of R107 and D17. The length check is left out where a copy is used (R147, U28). -/
def readTable (va : Word) (privateSpace : Bool) (level : Nat) (origin : Word) (tf tl : BitVec 2) (w : Walk) :
    Except ProgramException EntryRead × Walk :=
  let idx := indexAt level va
  let q : TableRequest := ⟨levelAt level, origin, origin, idx.toNat⟩
  match pickCopy w.state q privateSpace with
  | some t => (.ok ⟨t.entry, t.edat⟩, w.drawn)
  | none =>
    if outsideTable tf tl idx then (.error (levelException level), w.drawn)
    else
      match w.drawn.fetch origin (idx.setWidth 64 <<< 3) with
      | (none, w1) => (.error .addressing, w1)
      | (some e, w1) =>
        if bitAt e 58 then (.error (levelException level), w1)
        else if (field e 60 61).toNat ≠ level then (.error .translationSpecification, w1)
        else (.ok ⟨e, w.state.edatApplies⟩, w1.form (copyOf w.state q (level == 0 && bitAt e 59) e))

/-- The segment-table entry that a walk reaches. -/
structure SegmentRead where
  ste : Word
  edat : Bool
  /-- DAT protection accumulated over the region-table entries (R112). -/
  protect : Bool
  /-- The origin of the segment table used. -/
  segmentTable : Word
  deriving DecidableEq, Repr

/-- The levels from `level` down to the segment table (R101 to R114). -/
def walkTables (va : Word) (privateSpace : Bool) :
    Nat → Word → BitVec 2 → BitVec 2 → Bool → Walk → Except ProgramException SegmentRead × Walk
  | 0, origin, tf, tl, p, w =>
    match readTable va privateSpace 0 origin tf tl w with
    | (.error e, w1) => (.error e, w1)
    | (.ok r, w1) => (.ok ⟨r.entry, r.edat, p, origin⟩, w1)
  | level + 1, origin, tf, tl, p, w =>
    match readTable va privateSpace (level + 1) origin tf tl w with
    | (.error e, w1) => (.error e, w1)
    | (.ok r, w1) =>
      walkTables va privateSpace level (tableOrigin r.entry) (tableOffset r.entry) (tableLength r.entry)
        (p || (r.edat && bitAt r.entry 54)) w1

/-- The page-table entry: a copy, or the fetch, the invalid bit and the bits that must be zero (R123 to R125). -/
def readPage (va : Word) (privateSpace : Bool) (r : SegmentRead) (w : Walk) :
    Except ProgramException EntryRead × Walk :=
  let origin := pageTableOrigin r.ste
  let q : TableRequest := ⟨.page, origin, r.segmentTable, (pageIndex va).toNat⟩
  match pickCopy w.state q privateSpace with
  | some t => (.ok ⟨t.entry, t.edat⟩, w.drawn)
  | none =>
    match w.drawn.fetch origin ((pageIndex va).setWidth 64 <<< 3) with
    | (none, w1) => (.error .addressing, w1)
    | (some e, w1) =>
      if bitAt e 53 then (.error .pageTranslation, w1)
      else if bitAt e 52 then (.error .translationSpecification, w1)
      else if !w.state.edatApplies && bitAt e 55 then (.error .translationSpecification, w1)
      else (.ok ⟨e, w.state.edatApplies⟩, w1.form (copyOf w.state q (bitAt r.ste 59) e))

/-! ## Frames -/

/-- The attributes of a reference that used no table entry (R98, R187). -/
def noAttributes : Attributes := ⟨false, none, false⟩

/-- The frame of a format-control-one segment-table entry (R119, R120, R127). -/
def segmentFrame (r : SegmentRead) : Translation :=
  ⟨.absolute (field r.ste 0 43 ++ (0 : BitVec 20)),
    ⟨r.protect || bitAt r.ste 54, if bitAt r.ste 47 then some (field r.ste 48 51, bitAt r.ste 52) else none,
      bitAt r.ste 55⟩⟩

/-- The frame of a page-table entry (R126, R129). -/
def pageFrame (r : SegmentRead) (pte : EntryRead) : Translation :=
  ⟨.real (field pte.entry 0 51 ++ (0 : BitVec 12)),
    ⟨r.protect || bitAt r.ste 54 || bitAt pte.entry 54, none, pte.edat && bitAt pte.entry 55⟩⟩

/-- An address within a frame: its bits to the right of the frame are those of the virtual address (R126, R127). -/
def withinFrame (va : Word) : TranslatedAddress → TranslatedAddress
  | .real ra => .real (field ra 0 51 ++ field va 52 63)
  | .absolute aa => .absolute (field aa 0 43 ++ field va 44 63)

/-- The translation of a virtual address that lies in a frame. -/
def Translation.place (f : Translation) (va : Word) : Translation := { f with address := withinFrame va f.address }

/-- The frame that the tables give, through every level of R130 but its last check (R121, R126, R127). -/
def reachFrame (asce va : Word) (w : Walk) : Except ProgramException Translation × Walk :=
  match walkTables va (ascePrivateSpace asce) (asceDesignation asce) (tableOrigin asce) 0 (tableLength asce) false w with
  | (.error e, w1) => (.error e, w1)
  | (.ok r, w1) =>
    let copy (page : Option (BitVec 8)) (f : Translation) : TlbEntry :=
      .frame ⟨tableOrigin asce, field va 0 32, field va 33 43, page, bitAt r.ste 59, f⟩
    if ascePrivateSpace asce && bitAt r.ste 59 then (.error .translationSpecification, w1)
    else if r.edat && bitAt r.ste 53 then (.ok (segmentFrame r), w1.form (copy none (segmentFrame r)))
    else
      match readPage va (ascePrivateSpace asce) r w1 with
      | (.error e, w2) => (.error e, w2)
      | (.ok pte, w2) => (.ok (pageFrame r pte), w2.form (copy (some (pageIndex va)) (pageFrame r pte)))

/-! ## The translation-lookaside buffer as a whole (R146, R148, R150, R151) -/

/-- RX, SX and, but for a segment frame, PX of the tag are those of the address (R146). -/
def FrameCopy.covers (c : FrameCopy) (va : Word) : Bool :=
  c.region = field va 0 32 && c.segment = field va 33 43 && (c.page.isNone || c.page = some (pageIndex va))

/-- A frame of the buffer may answer for an address under a table designation: its tag is the address's and the ASCE's
table origin; but the origin of a common segment's is not compared, and it answers under no ASCE whose private-space
control is one (R146, R150). -/
def FrameCopy.answers (c : FrameCopy) (asce va : Word) : Bool :=
  c.covers va && (if c.common then !ascePrivateSpace asce else c.origin = tableOrigin asce)

/-- The token origin of a real-space designation is a valid address: its block exists. The spec does not say what
makes it valid (R21, R148; DEDUCED, log 39). -/
def tokenValid (s : State) (asce : Word) : Bool := s.available (tableAddress s (tableOrigin asce) 0)

/-- The frame that an entry of the buffer gives for an address, if it may be used. Under a real-space designation with
a valid token origin only a virtual-equals-real entry of that token and page may be; with one that is not valid an
incorrect entry may be, any but a common segment's (R148, R151; log 39), for its address alone: no attribute of a table
entry applies to a real-space designation (R129, R164, R168, R187). Copies of table entries give no frame: a walk uses
them. -/
def TlbEntry.frameFor (s : State) (asce va : Word) : TlbEntry → Option Translation
  | .table _ => none
  | .frame c =>
    if asceRealSpace asce then (if tokenValid s asce || c.common then none else some ⟨c.frame.address, noAttributes⟩)
    else if c.answers asce va then some c.frame else none
  | .realSpace c =>
    if asceRealSpace asce && (!tokenValid s asce || (c.token = tableOrigin asce && c.page = field va 0 51)) then
      some ⟨.real (c.page ++ (0 : BitVec 12)), noAttributes⟩
    else none

/-- The frames of the buffer that may be used for an address. -/
def State.usableFrames (s : State) (asce va : Word) : List Translation := s.tlb.filterMap (·.frameFor s asce va)

/-! ## Translation -/

/-- The frame of an address: from the buffer by free choice, else the page itself under a real-space designation (R98),
else from the tables. -/
def findFrame (asce va : Word) (w : Walk) : Except ProgramException Translation × Walk :=
  match pick (w.state.usableFrames asce va) w.state.draws with
  | some f => (.ok f, w.drawn)
  | none =>
    if asceRealSpace asce then
      (.ok ⟨.real va, noAttributes⟩, w.drawn.form (.realSpace ⟨tableOrigin asce, field va 0 51⟩))
    else reachFrame asce va w.drawn

/-- `Translate` (R130), any step of it satisfied from the buffer where an entry may stand in (logs 8, 39). The ASCE-type check comes
first, since it uses no table (R100, R131). DAT protection is evaluated last (R128). Only a completed translation
leaves entries in the buffer (R370). -/
def translate (s : State) (asce va : Word) (isStore : Bool) : Except ProgramException Translation × State :=
  if !asceRealSpace asce && asceTypeFails (asceDesignation asce) va then (.error .asceType, s)
  else
    match findFrame asce va ⟨s, []⟩ with
    | (.error e, w) => (.error e, w.state)
    | (.ok f, w) =>
      if isStore && f.attributes.protect then (.error .protection, w.state)
      else (.ok (f.place va), { w.state with tlb := w.formed ++ w.state.tlb })

end Sys2Proof.Machine
end

