-- ==== Sys2Proof/Machine/Access.lean ====
section
/-! DEFINITION. The path of a storage reference: translation, prefixing, availability, key-controlled protection,
recording (R66, R165 to R188). -/

namespace Sys2Proof.Machine

/-- The outcome of a reference: a result, a program exception with the address that met it, or a stop. -/
inductive Res (α : Type) where
  | ok (a : α) (s : State)
  | exception (e : ProgramException) (address : Word) (s : State)
  | stop (r : Refusal)

/-- Real to absolute, absolute as it stands (R60, R127). -/
def absoluteAddress (s : State) : TranslatedAddress → Word
  | .real ra => applyPrefix s.prefixReg ra
  | .absolute aa => aa

/-- Steps 1 and 2 of R66: the absolute address of a logical or instruction address. -/
def locate (kind : ReferenceKind) (sel : OperandSpace) (la : Word) (s : State) : Res (Word × Attributes) :=
  if pswDat s.psw then
    match effectiveAsce s kind sel with
    | none => .stop .artExceptionNotDescribed
    | some asce =>
      match translate s asce la (kind = .store) with
      | (.error e, t) => .exception e la t
      | (.ok r, t) => .ok (absoluteAddress t r.address, r.attributes) t
  else .ok (applyPrefix s.prefixReg la, noAttributes) s

/-! ## Key-controlled protection (R165, R166) -/

/-- `Match`: the access key is zero or equals the access-control bits (R165, C2). -/
def keyMatches (akey acc : BitVec 4) : Bool := akey = 0 || akey = acc

/-- The protection table of R165: a store needs a match; a fetch a match or a zero fetch-protection bit. -/
def keyPermits (kind : ReferenceKind) (akey acc : BitVec 4) (f : Bool) : Bool :=
  match kind with
  | .store => keyMatches akey acc
  | .fetch | .ifetch => keyMatches akey acc || !f

/-- ACC and F of the block's storage key; free where its checking-block code is invalid, a case the source leaves
open (R348; log 25). -/
def blockKey (s : State) (aa : Word) : BitVec 4 × Bool :=
  let k := s.keyState (blockOf aa)
  if k.cbcInvalid then (Config.freeAcc s.draws, Config.freeBit (s.draws + 1)) else (k.key.acc, k.key.f)

/-- `KeySource`: where a segment-table entry provides ACC and F, either those or the block's, a free choice for each
reference (R166, R168, U7). -/
def keySource (s : State) (aa : Word) : Option (BitVec 4 × Bool) → BitVec 4 × Bool
  | none => blockKey s aa
  | some e => if Config.freeBit s.draws then e else blockKey s aa

/-- The key check of a reference. -/
def keyCheck (kind : ReferenceKind) (akey : BitVec 4) (s : State) (aa : Word) (att : Attributes) : Bool :=
  keyPermits kind akey (keySource s aa att.steKey).1 (keySource s aa att.steKey).2

/-- Steps 1 to 4 of R66: the reference is permitted at an absolute address, or ends in an exception. Another agent may
act between the translation and the reference; the key check is one single access with the reference (R71, R74). -/
def permit (kind : ReferenceKind) (akey : BitVec 4) (sel : OperandSpace) (la : Word) (s : State) :
    Res (Word × Attributes) :=
  match locate kind sel la s with
  | .stop r => .stop r
  | .exception e a t => .exception e a t
  | .ok (aa, att) t =>
    if !t.available aa then .exception .addressing la t
    else
      let u := t.beforeAccess
      if keyCheck kind akey u aa att then .ok (aa, att) (u.drawn 2) else .exception .protection la (u.drawn 2)

/-- The bytes of a reference cross a 4 KB boundary (U41). -/
def crossesBlock (la : Word) (n : Nat) : Bool := 4096 < la.toNat % 4096 + n

/-- A permitted fetch of `n` bytes within one block, recorded as a reference (R66 steps 5 and 6). -/
def fetchBytes (kind : ReferenceKind) (akey : BitVec 4) (sel : OperandSpace) (la : Word) (n : Nat) (s : State) :
    Res (List Byte) :=
  match permit kind akey sel la s with
  | .stop r => .stop r
  | .exception e a t => .exception e a t
  | .ok (aa, _) t => .ok (Memory.readMany t.mem aa.toNat n) (recordReference aa t)

/-- `MemRead`: an operand fetch (R66). No instruction of the table makes one (R300, R302). -/
def memRead (akey : BitVec 4) (sel : OperandSpace) (la : Word) (n : Nat) (s : State) : Res (List Byte) :=
  if crossesBlock la n then .stop .crossesBlock else fetchBytes .fetch akey sel la n s

/-- `MemWrite`: an operand store (R66, R188). No instruction of the table makes one (R300, R302). -/
def memWrite (akey : BitVec 4) (sel : OperandSpace) (la : Word) (bs : List Byte) (s : State) : Res Unit :=
  if crossesBlock la bs.length then .stop .crossesBlock
  else
    match permit .store akey sel la s with
    | .stop r => .stop r
    | .exception e a t => .exception e a t
    | .ok (aa, att) t =>
      .ok () (recordChange aa att.co (Memory.readMany t.mem aa.toNat bs.length != bs)
        (recordReference aa (t.setMem (Memory.writeMany t.mem aa.toNat bs))))

end Sys2Proof.Machine
end

