-- ==== Sys2Proof/Machine/Fetch.lean ====
section
/-! DEFINITION. Fetching the text of an instruction, and placing one where the next fetch looks (R57, R211, R350). -/

namespace Sys2Proof.Machine

/-- The instruction address cut to the addressing mode (R350 step 5, R58). -/
def fetchAddress (s : State) : Word := addrMode s.mode (pswAddress s.psw)

/-- One fetch of instruction text that crosses no block, with the PSW key (R66, R172). -/
def fetchPart (la : Word) (n : Nat) (s : State) : Res (List Byte) :=
  fetchBytes .ifetch (pswKey s.psw) .primary la n s

/-- The four bytes at the instruction address (R211, R350 step 5). Where they cross a 4 KB boundary they are two
references, each page translated and checked by itself (R63, R93; DEDUCED, log 12). -/
def fetchFour (s : State) : Res (List Byte) :=
  let la := fetchAddress s
  if crossesBlock la 4 then
    match fetchPart la 2 s with
    | .stop r => .stop r
    | .exception e a t => .exception e a t
    | .ok first t =>
      match fetchPart (addrMode s.mode (la + 2)) 2 t with
      | .stop r => .stop r
      | .exception e a u => .exception e a u
      | .ok second u => .ok (first ++ second) u
  else fetchPart la 4 s

/-- The absolute address an instruction address leads to, nothing recorded and no other agent acting. -/
def peekAddress (s : State) (la : Word) : Option Word :=
  match locate .ifetch .primary la { s with interleaving := [] } with
  | .ok (aa, _) _ => if s.available aa then some aa else none
  | .exception _ _ _ => none
  | .stop _ => none

/-- The two bytes after the first four, which serve only to name an instruction that is refused whatever they hold
(R211; log 19). -/
def peekRest (s : State) : List Byte :=
  match peekAddress s (addrMode s.mode (fetchAddress s + 4)), peekAddress s (addrMode s.mode (fetchAddress s + 5)) with
  | some a, some b => [s.byte a.toNat, s.byte b.toNat]
  | _, _ => []

/-- The text of the instruction at the instruction address: four bytes, six where the first byte says so. -/
def fetchInstruction (s : State) : Res (List Byte) :=
  match fetchFour s with
  | .stop r => .stop r
  | .exception e a t => .exception e a t
  | .ok bs t => .ok (if instrLength (bs.headD 0) = 6 then bs ++ peekRest t else bs) t

/-- Bytes put at successive instruction addresses, each where a fetch finds it. -/
def placeText (s : State) (la : Word) : List Byte → State
  | [] => s
  | b :: bs =>
    let t := match peekAddress s la with
      | some aa => s.setMem (Memory.write s.mem aa.toNat b)
      | none => s
    placeText t (addrMode s.mode (la + 1)) bs

/-- Instruction text put where the next step fetches, and nothing that would keep the next step from fetching: no
pending or scheduled event, no wait state (log 2). -/
def placeInstruction (s : State) (text : List Byte) : State :=
  placeText { s with psw := setField s.psw 14 14 0, asyncPending := none, environment := [], interleaving := [] }
    (fetchAddress s) text

end Sys2Proof.Machine
end

