-- ==== Sys2Proof/Machine/Cycle.lean ====
section
/-! DEFINITION. The instruction cycle (R350). -/

namespace Sys2Proof.Machine

/-- The refusal of text that is no instruction of the table (R211, R330). -/
def refusalOfDecode : DecodeError → Refusal
  | .truncated => .instructionTextMissing
  | .unassigned first second => .unassignedOperationCode first second

/-- Steps 5 to 8 of R350: fetch, decode, execute. -/
def runInstruction (s : State) : Host.Outcome State Fault Refusal :=
  match fetchInstruction s with
  | .stop r => .refused r
  | .exception e a t => takeEarlyException e a t
  | .ok text t =>
    match decode text with
    | .error d => .refused (refusalOfDecode d)
    | .ok i => exec i { t with newPswUntried := false }

/-- R350 from a boundary on: a pending interruption; else the wait state, in which nothing changes (R345); else the
checks of the PSW (R331, R70) and the instruction. -/
def instructionCycle (s : State) : Host.Outcome State Fault Refusal :=
  match s.asyncPending with
  | some c => takeAsyncInterruption c s
  | none =>
    if pswWait s.psw then .next s
    else if pswModeInvalid s.psw then takeEarlyException .specification (pswAddress s.psw) s
    else if bitAt s.psw 127 then takeEarlyException .specification (pswAddress s.psw) s
    else runInstruction s

end Sys2Proof.Machine
end

