-- ==== Sys2Proof/Machine/Step.lean ====
section
/-! DEFINITION. One step of the CPU, and a program placed for it. -/

namespace Sys2Proof.Machine

/-- `Step` (R350): what the environment does at this boundary, and then the cycle. -/
def step (s : State) : Host.Outcome State Fault Refusal := instructionCycle s.atBoundary

/-- An instruction, numbered as spec/opcode_table.json numbers it, stored where the next step fetches (log 36). -/
def State.withFetchWord (s : State) (nbits w : Nat) : State := placeInstruction s (tableText nbits w)

end Sys2Proof.Machine
end

