-- ==== Sys2Proof/Safety.lean ====
section
/-! DEFINITION. What statements about the machine speak of: the invariant of its state, the frames of its steps, and
safe runs. -/

namespace Sys2Proof.Machine

open Sys2Proof.Config (InterruptionClass)

/-! ## The invariant -/

/-- Storage and keys are in their canonical forms, and nothing is held for a block that does not exist (R50, R53,
R40: a key belongs to each available block). -/
def State.Inv (s : State) : Prop :=
  Memory.wf s.mem ∧ Keys.wf s.keys ∧
    (∀ c ∈ s.mem, blockAvailable s.installation (c.1 / 4096) = true) ∧
    (∀ c ∈ s.keys, blockAvailable s.installation c.1 = true)

/-! ## Frames: what two states share -/

/-- Control registers, access registers, prefix and installation are the same: the source defines no instruction that
loads them (R302, R39). -/
def sameControls (s t : State) : Prop :=
  t.crs = s.crs ∧ t.ars = s.ars ∧ t.prefixReg = s.prefixReg ∧ t.installation = s.installation

/-- Every byte of main storage reads the same. -/
def sameStorage (s t : State) : Prop := ∀ a : Nat, t.byte a = s.byte a

/-- Every byte of main storage outside `n` bytes from `a` reads the same. -/
def sameStorageOutside (a n : Nat) (s t : State) : Prop := ∀ x : Nat, (x < a ∨ a + n ≤ x) → t.byte x = s.byte x

/-- The key of every block but one is the same, its checking-block code too. -/
def sameKeysBut (b : Nat) (s t : State) : Prop := ∀ c : Nat, c ≠ b → t.keyState c = s.keyState c

/-- ACC, F and the validity of the checking-block code are the same for every block: keys differ at most in R
and C. -/
def sameAccess (s t : State) : Prop :=
  ∀ b : Nat, (t.key b).acc = (s.key b).acc ∧ (t.key b).f = (s.key b).f ∧
    (t.keyState b).cbcInvalid = (s.keyState b).cbcInvalid

/-- Every general register but one is the same. -/
def sameGprsBut (r : Reg) (s t : State) : Prop := ∀ q : Reg, q ≠ r → t.gpr q = s.gpr q

/-- The buffer, the pending interruption, the schedules of the environment and the mark of R338 are the same. -/
def sameHidden (s t : State) : Prop :=
  t.tlb = s.tlb ∧ t.asyncPending = s.asyncPending ∧ t.environment = s.environment ∧
    t.interleaving = s.interleaving ∧ t.newPswUntried = s.newPswUntried

/-- Nothing is pending and nothing is scheduled: a machine left to itself (R337). -/
def State.quiet (s : State) : Prop := s.asyncPending = none ∧ s.environment = [] ∧ s.interleaving = []

/-- No other agent acts at a coming boundary or between the accesses of an instruction (R9); interruptions may still
become pending. -/
def State.unshared (s : State) : Prop := (∀ b ∈ s.environment, b.actions = []) ∧ s.interleaving = []

/-- Everything that neither SSKE nor PFMF changes when nothing interrupts it and it raises no exception. -/
def sameElsewhere (s t : State) : Prop := sameControls s t ∧ sameHidden s t

/-- The PSW with the instruction address moved past an instruction of four bytes (R35, R318). -/
def pswAdvanced (p : BitVec 128) : BitVec 128 := pswSetAddress p (addrMode (pswMode p) (pswAddress p + 4))

/-! ## Assigned storage -/

/-- The absolute address of an assigned location of the CPU (R314, R60). -/
def assigned (s : State) (loc : Word) : Nat := (applyPrefix s.prefixReg loc).toNat

/-- The block that holds the assigned locations of the CPU exists. -/
def State.prefixAreaAvailable (s : State) : Bool := s.available (applyPrefix s.prefixReg 0)

/-! ## Blocks of a megabyte -/

/-- The number of blocks from an address to the next megabyte boundary (R231, R259). -/
def blocksLeft (addr : Word) : Nat := 256 - (blockInMegabyte addr).toNat

/-- The address that begins the following megabyte, wrapping at the size of the mode (R234). -/
def nextMegabyte (m : AddressingMode) (addr : Word) : Word :=
  addrMode m (field addr 0 43 ++ (0 : BitVec 20) + 0x100000)

/-- The blocks from an address to the next megabyte boundary all exist. -/
def State.megabyteAvailable (s : State) (addr : Word) : Bool :=
  (List.range (blocksLeft addr)).all (fun i => blockAvailable s.installation (blockOf addr + i))

/-- The address that general register `r` holds for SSKE and PFMF (R224). -/
def State.blockIn (s : State) (r : Reg) : Word := blockAddr s.mode (s.gpr r)

/-- The absolute address of the block whose real address general register `r` holds (R224, R60). -/
def State.realBlockIn (s : State) (r : Reg) : Word := applyPrefix s.prefixReg (s.blockIn r)

/-- Nothing is pending and no other agent acts; interruptions may become pending. -/
def State.undisturbed (s : State) : Prop := s.asyncPending = none ∧ s.unshared

/-- The machine with nothing pending and nothing scheduled. -/
def State.resumed (s : State) : State := { s with asyncPending := none, environment := [], interleaving := [] }

/-! ## Keys after SSKE and PFMF

Relations, not functions: where the spec leaves a choice or a bit open, every value of it is allowed (R8). -/

/-- What R226 lets a key be once it is set: the whole new key without a mask bit in effect, after an invalid
checking-block code, and where ACC or F differ; else the old key where both masks are in effect or the compared bit
agrees; else at least the compared bit is the new one. -/
def keyMayBecome (c : KeyControls) (new : StorageKey) (old k : KeyState) : Prop :=
  k.cbcInvalid = false ∧
    if c.conditional = false ∨ old.cbcInvalid = true ∨ old.key.acc ≠ new.acc ∨ old.key.f ≠ new.f then k.key = new
    else if c.mr = true ∧ c.mc = true then k.key = old.key
    else if c.mc = true then
      if old.key.r = new.r then k.key = old.key
      else k.key.acc = old.key.acc ∧ k.key.f = old.key.f ∧ k.key.r = new.r
    else
      if old.key.c = new.c then k.key = old.key
      else k.key.acc = old.key.acc ∧ k.key.f = old.key.f ∧ k.key.c = new.c

/-- What recording lets a key be after a reference and a store that did or did not change the contents: R and C are
never cleared, C is set where the contents changed (R181, R183, R263). -/
def keyMayRecord (changed : Prop) (old k : KeyState) : Prop :=
  k.key.acc = old.key.acc ∧ k.key.f = old.key.f ∧ k.cbcInvalid = old.cbcInvalid ∧
    (old.key.r = true → k.key.r = true) ∧ (old.key.c = true → k.key.c = true) ∧ (changed → k.key.c = true)

/-- What R261 lets a key be after the work of PFMF on its block, `r` the contents of R1: both functions with a mask bit
in effect come in either order; with none the key is the new one. -/
def frameKeyMayBecome (c : KeyControls) (r : Word) (changed : Prop) (old k : KeyState) : Prop :=
  let new := keyOfRegister r
  if frameSetKey r = true then
    if frameClear r = false then keyMayBecome c new old k
    else if c.conditional = false then k = ⟨new, false⟩
    else
      (∃ m, keyMayRecord changed old m ∧ keyMayBecome c new m k) ∨
        ∃ m, keyMayBecome c new old m ∧ keyMayRecord changed m k
  else if frameClear r = true then keyMayRecord changed old k
  else k = old

/-- From `s` to `t` the keys of `n` blocks from an address are set, and no other key changes (R231). -/
def blocksKeyed (c : KeyControls) (new : StorageKey) (a : Word) (n : Nat) (s t : State) : Prop :=
  (∀ i : Nat, i < n → keyMayBecome c new (s.keyState (blockOf a + i)) (t.keyState (blockOf a + i))) ∧
    ∀ b : Nat, (b < blockOf a ∨ blockOf a + n ≤ b) → t.keyState b = s.keyState b

/-- From `s` to `t` the work of PFMF is done on `n` blocks from an address, `r` the contents of R1, and no other key and
no other byte changes (R259, R261, R262). -/
def blocksFramed (r : Word) (a : Word) (n : Nat) (s t : State) : Prop :=
  (∀ i : Nat, i < n →
    frameKeyMayBecome (frameControls s.installation r) r (∃ x : Nat, x / 4096 = blockOf a + i ∧ s.byte x ≠ 0)
      (s.keyState (blockOf a + i)) (t.keyState (blockOf a + i))) ∧
    (∀ b : Nat, (b < blockOf a ∨ blockOf a + n ≤ b) → t.keyState b = s.keyState b) ∧
    ∀ x : Nat, t.byte x =
      if frameClear r = true ∧ blockOf a ≤ x / 4096 ∧ x / 4096 < blockOf a + n then 0 else s.byte x

/-- The general registers after the multiple-block form of SSKE, `w` what R2 is to hold: without a mask bit in effect
just that; with one, bits 48-55 of R1 are open, but for the address bits where R1 is R2 (R233, R234, R237). -/
def registersAfterSske (c : KeyControls) (r1 r2 : Reg) (w : Word) (s t : State) : Prop :=
  (c.conditional = false → t.gpr r2 = w ∧ sameGprsBut r2 s t) ∧
    field (t.gpr r2) 0 51 = field w 0 51 ∧
    (r1 ≠ r2 → field (t.gpr r2) 52 63 = field (s.gpr r2) 52 63 ∧ field (t.gpr r1) 0 47 = field (s.gpr r1) 0 47) ∧
    field (t.gpr r1) 56 63 = field (s.gpr r1) 56 63 ∧
    ∀ q : Reg, q ≠ r1 → q ≠ r2 → t.gpr q = s.gpr q

/-! ## Translation -/

/-- The checks of one region- or segment-table level on what storage holds, in the order of R107: the offset and length
of the table, availability, the invalid bit, the table type (R102, R103, R106, R111, R113; D17). -/
def State.entryAt (s : State) (va : Word) (level : Nat) (origin : Word) (tf tl : BitVec 2) :
    Except ProgramException Word :=
  let idx := indexAt level va
  if (field idx 0 1).toNat < tf.toNat ∨ tl.toNat < (field idx 0 1).toNat then .error (levelException level)
  else
    match tableFetch s origin (idx.setWidth 64 <<< 3) with
    | none => .error .addressing
    | some e =>
      if bitAt e 58 then .error (levelException level)
      else if (field e 60 61).toNat ≠ level then .error .translationSpecification
      else .ok e

/-- Storage leads from a table designation to a table for an address: its level, its origin, its offset and length, and
the DAT protection of the region-table entries on the way, which counts where enhanced DAT applies (R100, R101, R103,
R109, R110, R112). -/
inductive State.Reaches (s : State) (asce va : Word) : Nat → Word → BitVec 2 → BitVec 2 → Bool → Prop where
  /-- The table that the designation names: no part of the address left of its index is other than zero. -/
  | designated
      (third : (field asce 60 61).toNat < 3 → field va 0 10 = 0)
      (second : (field asce 60 61).toNat < 2 → field va 11 21 = 0)
      (first : (field asce 60 61).toNat < 1 → field va 22 32 = 0) :
      Reaches s asce va (field asce 60 61).toNat (field asce 0 51 ++ (0 : BitVec 12)) 0 (field asce 62 63) false
  /-- The table that a region-table entry names. -/
  | byEntry {level : Nat} {origin : Word} {tf tl : BitVec 2} {p : Bool} {e : Word}
      (above : Reaches s asce va (level + 1) origin tf tl p) (entry : s.entryAt va (level + 1) origin tf tl = .ok e) :
      Reaches s asce va level (field e 0 51 ++ (0 : BitVec 12)) (field e 56 57) (field e 62 63)
        (p || (s.edatApplies && bitAt e 54))

/-- Storage leads from a table designation, of any of the four types, to the segment-table entry `ste` of an address in
the segment table at `origin`, `p` the DAT protection of the region-table entries on the way. -/
def State.leadsTo (s : State) (asce va : Word) (origin : Word) (p : Bool) (ste : Word) : Prop :=
  ∃ tf tl, s.Reaches asce va 0 origin tf tl p ∧ s.entryAt va 0 origin tf tl = .ok ste

/-- What storage holds for an address in the page table that a segment-table entry designates; none where its block does
not exist (R125, R106). -/
def State.pageEntryAt (s : State) (va ste : Word) : Option Word :=
  tableFetch s (field ste 0 52 ++ (0 : BitVec 11)) ((field va 44 51).setWidth 64 <<< 3)

/-- A walk that finds its entries in the given buffer may use the table at an origin: the one the designation names, or
the one that a copy of the entry above names (R145, R146). -/
inductive UsesTable (buffer : List TlbEntry) (asce va : Word) : Nat → Word → Prop where
  | designated : UsesTable buffer asce va (field asce 60 61).toNat (field asce 0 51 ++ (0 : BitVec 12))
  | byEntry {level : Nat} {origin : Word} {c : TableCopy} (above : UsesTable buffer asce va (level + 1) origin)
      (held : .table c ∈ buffer)
      (answers : TableRequest.answeredBy ⟨levelAt (level + 1), origin, origin, (indexAt (level + 1) va).toNat⟩
        (bitAt asce 55) c = true) :
      UsesTable buffer asce va level (field c.entry 0 51 ++ (0 : BitVec 12))

/-- The same of a copy of a segment-table entry of the segment table at an origin. -/
def usesSegment (buffer : List TlbEntry) (asce va origin : Word) (c : TableCopy) : Prop :=
  UsesTable buffer asce va 0 origin ∧ .table c ∈ buffer ∧
    TableRequest.answeredBy ⟨.segment, origin, origin, (field va 33 43).toNat⟩ (bitAt asce 55) c = true

/-- Nothing in the buffer that the translation of an address could use is stale: a copy that may stand in for an entry
that its walk asks for agrees with what storage holds now, and a frame that may be used for the address is the one that
its translation without the buffer now gives (R145, R152). -/
def State.coherentAt (s : State) (asce va : Word) : Prop :=
  (∀ level origin tf tl p e c, s.Reaches asce va level origin tf tl p → s.entryAt va level origin tf tl = .ok e →
    .table c ∈ s.tlb →
    TableRequest.answeredBy ⟨levelAt level, origin, origin, (indexAt level va).toNat⟩ (bitAt asce 55) c = true →
    c.entry = e ∧ c.edat = s.edatApplies) ∧
  (∀ origin p ste e c, s.leadsTo asce va origin p ste → s.pageEntryAt va ste = some e → .table c ∈ s.tlb →
    TableRequest.answeredBy ⟨.page, field ste 0 52 ++ (0 : BitVec 11), origin, (field va 44 51).toNat⟩ (bitAt asce 55) c
      = true →
    c.entry = e ∧ c.edat = s.edatApplies) ∧
  ∀ f t : Translation, f ∈ s.usableFrames asce va →
    (translate { s with tlb := [] } asce va false).1 = .ok t → f.place va = t

/-! ## Storage references -/

/-- Steps 1 and 2 of R66: a reference leads to the absolute address `aa` with the attributes `att`, and the translation
leaves the machine as `t`; with DAT off the address is real and nothing happens. -/
def State.locates (s : State) (kind : ReferenceKind) (sel : OperandSpace) (la aa : Word) (att : Attributes) (t : State) :
    Prop :=
  if pswDat s.psw = true then
    ∃ asce r, effectiveAsce s kind sel = some asce ∧ translate s asce la (kind = .store) = (.ok r, t) ∧
      aa = (match r.address with | .real ra => applyPrefix s.prefixReg ra | .absolute a => a) ∧ att = r.attributes
  else aa = applyPrefix s.prefixReg la ∧ att = ⟨false, none, false⟩ ∧ t = s

/-- What no storage reference changes, whether it completes or not: registers, control state, what is pending or
scheduled, and of the keys ACC, F and validity. -/
def referenceKeeps (s t : State) : Prop :=
  t.gprs = s.gprs ∧ t.psw = s.psw ∧ sameControls s t ∧ t.asyncPending = s.asyncPending ∧
    t.environment = s.environment ∧ t.interleaving = s.interleaving ∧ t.newPswUntried = s.newPswUntried ∧ sameAccess s t

/-- The other key that a reference may be checked against permits it: ACC and F of the segment-table entry where it
provides them, else the block's again. Which of the two is used is open for each reference (R166, R168, U7). -/
def entryPermits (kind : ReferenceKind) (akey : BitVec 4) (k : StorageKey) : Option (BitVec 4 × Bool) → Bool
  | none => keyPermits kind akey k.acc k.f
  | some e => keyPermits kind akey e.1 e.2

/-! ## Runs -/

/-- The state after `n` steps, none of which ends in a fault or a refusal: a safe run. -/
def runFor : Nat → State → Option State
  | 0, s => some s
  | n + 1, s =>
    match step s with
    | .next t => runFor n t
    | .fault _ => none
    | .refused _ => none

end Sys2Proof.Machine
end

