-- ==== Sys2Proof/WellFormed.lean ====
section
/-! DEFINITION. Which instruction terms have an encoding: every displacement fits its field. -/

namespace Sys2Proof

/-- A displacement field of 12 bits (D1, D2, DL2 of spec/opcode_table.json). -/
def fits12 (d : Nat) : Bool := d < 2 ^ 12

/-- The high displacement field of 8 bits (DH2 of spec/opcode_table.json). -/
def fits8 (d : Nat) : Bool := d < 2 ^ 8

/-- The term has an encoding. Register and mask fields fit by their types. -/
def Instr.wellFormed : Instr → Bool
  | .sske _ _ _ => true
  | .pfmf _ _ => true
  | .lctl _ _ _ d2 => fits12 d2
  | .lctlg _ _ _ dl2 dh2 => fits12 dl2 && fits8 dh2
  | .stctl _ _ _ d2 => fits12 d2
  | .stctg _ _ _ dl2 dh2 => fits12 dl2 && fits8 dh2
  | .lpsw _ d2 => fits12 d2
  | .lpswe _ d2 => fits12 d2
  | .mvcp _ _ _ d1 _ d2 => fits12 d1 && fits12 d2
  | .mvcs _ _ _ d1 _ d2 => fits12 d1 && fits12 d2
  | .mvck _ _ _ d1 _ d2 => fits12 d1 && fits12 d2
  | .mvcsk _ d1 _ d2 => fits12 d1 && fits12 d2
  | .mvcdk _ d1 _ d2 => fits12 d1 && fits12 d2
  | .mvpg _ _ => true
  | .iske _ _ => true
  | .ivsk _ _ => true
  | .rrbe _ _ => true
  | .tprot _ d1 _ d2 => fits12 d1 && fits12 d2
  | .ex _ _ _ d2 => fits12 d2
  | .bc _ _ _ d2 => fits12 d2
  | .bcr _ _ => true

end Sys2Proof
end

