-- ==== Sys2Proof/Certificates/Slice0/Obligations.lean ====
section
/-! DEFINITION. The statements for the provers. Each docstring says which rule of spec/ it formalises; a log number
marks what is the model's choice. -/

section

open Sys2Proof Sys2Proof.Machine
open Sys2Proof.Config (InterruptionClass oldPswLocation newPswLocation)

/-! ## Encoding -/

/-- Decoding the encoding of a well-formed instruction gives it back, whatever bytes follow (R200, R202, R203, R210;
the encodings are PRESUMED, log 14). -/
def Obligations.DecodeEncode : Prop :=
  ∀ (i : Instr) (rest : List Byte), i.wellFormed = true → decode (encode i ++ rest) = .ok i

/-- Words written out from the layouts of R202, R203 and R210 decode to the instructions they stand for, unused bits
ignored (R206); an operation code outside the table is named as such (R211). -/
def Obligations.DecodeReadsSpecWords : Prop :=
  decode [0xB2, 0x2B, 0x60, 0x34] = .ok (.sske 6 3 4) ∧
    decode [0xB2, 0x2B, 0x1F, 0xF0] = .ok (.sske 1 15 0) ∧
    decode [0xB9, 0xAF, 0xFF, 0x12] = .ok (.pfmf 1 2) ∧
    decode [0xB7, 0x13, 0x25, 0x67] = .ok (.lctl 1 3 2 0x567) ∧
    decode [0xEB, 0x13, 0x25, 0x67, 0x89, 0x2F] = .ok (.lctlg 1 3 2 0x567 0x89) ∧
    decode [0xDA, 0x12, 0x34, 0x56, 0x78, 0x9A] = .ok (.mvcp 1 2 3 0x456 7 0x89A) ∧
    decode [0xE5, 0x0E, 0x12, 0x34, 0x56, 0x78] = .ok (.mvcsk 1 0x234 5 0x678) ∧
    decode [0xB2, 0xB2, 0xC0, 0x10] = .ok (.lpswe 12 0x010) ∧
    decode [0x07, 0xFE] = .ok (.bcr 15 14) ∧
    decode [0xB2, 0x2C, 0x00, 0x12] = .error (.unassigned 0xB2 0x2C)

/-! ## The cycle -/

/-- R350 steps 5 to 8: where the fetch gives text that decodes to `i`, the step is the execution of `i` in the state
after the fetch, the mark of R338 gone; text that is no instruction of the table is refused by name (R211, R330;
log 19). -/
def Obligations.StepRunsDecodedInstruction : Prop :=
  ∀ (s t : State) (text : List Byte),
    s.atBoundary.asyncPending = none → pswWait s.atBoundary.psw = false →
    pswModeInvalid s.atBoundary.psw = false → bitAt s.atBoundary.psw 127 = false →
    fetchInstruction s.atBoundary = .ok text t →
    (∀ i : Instr, decode text = .ok i → step s = exec i { t with newPswUntried := false }) ∧
      ∀ d : DecodeError, decode text = .error d → step s = .refused (refusalOfDecode d)

/-- R350 steps 3 to 5: an exception met before an instruction is decoded is taken with length code 0 and the PSW as it
is: a specification exception for EA one and BA zero or an odd instruction address, before any fetch (R331, R70); else
the exception in which the fetch ends. The machine stops if that PSW came from a program interruption and nothing ran
under it (R338; log 11). -/
def Obligations.EarlyExceptionIsTaken : Prop :=
  ∀ s : State, s.atBoundary.asyncPending = none → pswWait s.atBoundary.psw = false →
    if pswModeInvalid s.atBoundary.psw = true ∨ bitAt s.atBoundary.psw 127 = true then
      step s =
        if s.atBoundary.newPswUntried then .fault .interruptionLoop
        else takeProgramInterruption .specification 0 (pswAddress s.atBoundary.psw) s.atBoundary
    else
      ∀ (t : State) (e : ProgramException) (a : Word), fetchInstruction s.atBoundary = .exception e a t →
        t.psw = s.atBoundary.psw ∧
          step s =
            if s.atBoundary.newPswUntried then .fault .interruptionLoop else takeProgramInterruption e 0 a t

/-- R350 step 1 (R337): a pending interruption is taken instead of the next instruction, in the wait state too; it is
the swap of its class (R336), after which it is no longer pending. -/
def Obligations.PendingInterruptionIsTaken : Prop :=
  ∀ (s : State) (c : AsyncClass), s.atBoundary.asyncPending = some c →
    step s = takeAsyncInterruption c s.atBoundary ∧
      (s.prefixAreaAvailable = true →
        ∃ t u, step s = .next t ∧ pswSwap (classOf c) s.atBoundary = some u ∧ t.psw = u.psw ∧ t.mem = u.mem ∧
          t.keys = u.keys ∧ t.gprs = s.gprs ∧ t.asyncPending = none ∧ t.environment = s.environment.tail ∧
          t.newPswUntried = false ∧ t.tlb = s.tlb ∧ sameControls s t)

/-- R345: in the wait state, with nothing pending and nothing to come, nothing ever changes. -/
def Obligations.WaitStateIdles : Prop :=
  ∀ (n : Nat) (s : State), s.quiet → pswWait s.psw = true → runFor n s = some s

/-- R57, R62, R66, R93 (log 12): the text of an instruction is fetched with the PSW key by references that lie in one
block each: one of four bytes, or, where the four bytes cross a 4 KB boundary, two of two bytes, the first before the
second, each located by itself. An exception of one is the exception of the fetch. The text goes on after the four bytes
only for an instruction of six, which is refused (R211; log 19). -/
def Obligations.InstructionFetch : Prop :=
  ∀ s : State,
    let la := fetchAddress s
    (∀ bs t, fetchFour s = .ok bs t →
      ∃ text, fetchInstruction s = .ok text t ∧ bs.length = 4 ∧ text.take 4 = bs ∧
        (instrLength (bs.headD 0) ≠ 6 → text = bs)) ∧
    (∀ e a t, fetchFour s = .exception e a t → fetchInstruction s = .exception e a t) ∧
    (la.toNat % 4096 ≤ 4092 → fetchFour s = fetchBytes .ifetch (pswKey s.psw) .primary la 4 s) ∧
    (4092 < la.toNat % 4096 →
      (∀ e a t, fetchBytes .ifetch (pswKey s.psw) .primary la 2 s = .exception e a t →
        fetchFour s = .exception e a t) ∧
      ∀ first t, fetchBytes .ifetch (pswKey s.psw) .primary la 2 s = .ok first t →
        t.psw = s.psw ∧
        (∀ e a u, fetchBytes .ifetch (pswKey s.psw) .primary (addrMode s.mode (la + 2)) 2 t = .exception e a u →
          fetchFour s = .exception e a u) ∧
        ∀ second u, fetchBytes .ifetch (pswKey s.psw) .primary (addrMode s.mode (la + 2)) 2 t = .ok second u →
          fetchFour s = .ok (first ++ second) u)

/-- R66, R93, R131, R166, R168, R181 (order: D7, log 18; identification in real mode: log 30): one fetch within a block,
with DAT on or off, no other agent acting. An exception of the translation is its outcome, with the address that met
it; then comes availability, then the key check, against the key of the block or the ACC and F that the segment-table
entry provides: permitted if both permit, a protection exception if neither does, else one of the two. A permitted fetch
gives the bytes; nothing but reference bits, and the buffer by a completed translation, changes. -/
def Obligations.FetchReference : Prop :=
  ∀ (kind : ReferenceKind) (akey : BitVec 4) (sel : OperandSpace) (la : Word) (n : Nat) (s : State),
    kind ≠ .store → s.interleaving = [] →
    (∀ asce e t, pswDat s.psw = true → effectiveAsce s kind sel = some asce →
      translate s asce la false = (.error e, t) →
      fetchBytes kind akey sel la n s = .exception e la t ∧ referenceKeeps s t ∧ sameStorage s t ∧ t.tlb = s.tlb) ∧
    ∀ aa att t0, s.locates kind sel la aa att t0 →
      let b := blockOf aa
      let blockPermits := keyPermits kind akey (s.key b).acc (s.key b).f
      let steKeyPermits := entryPermits kind akey (s.key b) att.steKey
      (s.available aa = false →
        fetchBytes kind akey sel la n s = .exception .addressing la t0 ∧ referenceKeeps s t0 ∧ sameStorage s t0) ∧
      (s.available aa = true → (s.keyState b).cbcInvalid = false →
        ∃ t, referenceKeeps s t ∧ sameStorage s t ∧ t.tlb = t0.tlb ∧
          (∀ c, (t.key c).c = (s.key c).c ∧ ((s.key c).r = true → (t.key c).r = true)) ∧
          ((fetchBytes kind akey sel la n s = .ok (Memory.readMany s.mem aa.toNat n) t ∧
              (blockPermits = true ∨ steKeyPermits = true) ∧ sameKeysBut b t0 t) ∨
            (fetchBytes kind akey sel la n s = .exception .protection la t ∧
              (blockPermits = false ∨ steKeyPermits = false) ∧ t.keys = t0.keys)))

/-- One whole step in real mode (R350, R227): SSKE in storage at the instruction address, unconditional and
single-block, in the supervisor state, sets the key of the block its R2 designates, and the instruction address moves
past it. -/
def Obligations.StepExecutesSske : Prop :=
  ∀ (m3 : Mask) (r1 r2 : Reg) (s : State),
    let aa := applyPrefix s.prefixReg (fetchAddress s)
    let k := s.keyState (blockOf aa)
    s.quiet → pswWait s.psw = false → pswModeInvalid s.psw = false → bitAt s.psw 127 = false →
    pswDat s.psw = false → pswProblem s.psw = false → crossesBlock (fetchAddress s) 4 = false →
    s.available aa = true → k.cbcInvalid = false →
    keyPermits .ifetch (pswKey s.psw) k.key.acc k.key.f = true →
    Memory.readMany s.mem aa.toNat 4 = encode (.sske m3 r1 r2) →
    (sskeControls s.installation m3).mb = false → (sskeControls s.installation m3).conditional = false →
    s.available (s.realBlockIn r2) = true →
    ∃ t, step s = .next t ∧
      t.keyState (blockOf (s.realBlockIn r2)) = ⟨keyOfRegister (s.gpr r1), false⟩ ∧
      (∀ b, b ≠ blockOf (s.realBlockIn r2) → b ≠ blockOf aa → t.keyState b = s.keyState b) ∧
      t.gprs = s.gprs ∧ t.psw = pswAdvanced s.psw ∧ sameStorage s t ∧ sameControls s t

/-! ## Interruptions -/

/-- R310, R185: an interruption of any class, no other agent acting within it, places the current PSW at the old-PSW
location of the class and makes the 16 bytes of its new-PSW location the current PSW; general, control and access
registers stay. The store is recorded: C of the block is set where a byte changed, and no bit of R or C is cleared. -/
def Obligations.InterruptionSwapsPsw : Prop :=
  ∀ (c : InterruptionClass) (s : State), s.interleaving = [] → s.prefixAreaAvailable = true →
    let b := blockOf (applyPrefix s.prefixReg 0)
    ∃ t, pswSwap c s = some t ∧
      Memory.readMany t.mem (assigned s (oldPswLocation c)) 16 = bytesOf 16 s.psw ∧
      t.psw = wordOf 128 (Memory.readMany s.mem (assigned s (newPswLocation c)) 16) ∧
      sameStorageOutside (assigned s (oldPswLocation c)) 16 s t ∧
      t.gprs = s.gprs ∧ t.crs = s.crs ∧ t.ars = s.ars ∧ t.prefixReg = s.prefixReg ∧ t.tlb = s.tlb ∧
      sameAccess s t ∧ sameKeysBut b s t ∧ ((s.key b).r = true → (t.key b).r = true) ∧
      ((s.key b).c = true → (t.key b).c = true) ∧ ((∃ x : Nat, t.byte x ≠ s.byte x) → (t.key b).c = true)

/-- R313, R315: what a program interruption stores and loads, and that it stores nothing else (locations, codes and
identification are PRESUMED, log 16), no other agent acting within it. -/
def Obligations.ProgramInterruptionSaves : Prop :=
  ∀ (e : ProgramException) (ilc : BitVec 2) (a : Word) (s : State), s.interleaving = [] →
    s.prefixAreaAvailable = true →
    ∃ t, takeProgramInterruption e ilc a s = .next t ∧
      Memory.readMany t.mem (assigned s (oldPswLocation .program)) 16 = bytesOf 16 s.psw ∧
      Memory.readMany t.mem (assigned s Config.codeLocation) 2 = bytesOf 2 (exceptionCode e) ∧
      t.byte (assigned s Config.ilcLocation) = ilcByte ilc ∧
      (storesTeid e = true →
        Memory.readMany t.mem (assigned s Config.teidLocation) 8 = bytesOf 8 (teidOf a)) ∧
      t.psw = wordOf 128 (Memory.readMany s.mem (assigned s (newPswLocation .program)) 16) ∧
      (∀ x : Nat,
        (x < assigned s (oldPswLocation .program) ∨ assigned s (oldPswLocation .program) + 16 ≤ x) →
        (x < assigned s Config.codeLocation ∨ assigned s Config.codeLocation + 2 ≤ x) →
        x ≠ assigned s Config.ilcLocation →
        (storesTeid e = true → x < assigned s Config.teidLocation ∨ assigned s Config.teidLocation + 8 ≤ x) →
        t.byte x = s.byte x) ∧
      t.gprs = s.gprs ∧ sameControls s t ∧ t.tlb = s.tlb ∧ t.asyncPending = s.asyncPending ∧
      t.environment = s.environment ∧ t.newPswUntried = true

/-- R185, R181: the stores of a program interruption are recorded as changes of their block; the key of every other
block, and ACC and F of every block, stay, no other agent acting within it. -/
def Obligations.ProgramInterruptionRecordsChange : Prop :=
  ∀ (e : ProgramException) (ilc : BitVec 2) (a : Word) (s t : State), s.interleaving = [] →
    takeProgramInterruption e ilc a s = .next t →
    let b := blockOf (applyPrefix s.prefixReg 0)
    sameKeysBut b s t ∧ sameAccess s t ∧ ((s.key b).c = true → (t.key b).c = true) ∧
      ((s.key b).r = true → (t.key b).r = true) ∧ ((∃ x : Nat, t.byte x ≠ s.byte x) → (t.key b).c = true)

/-- R339: loading the old PSW of the class makes the interrupted PSW current again, all 128 bits of it, and restores
nothing else; the mark of R338 goes with the new PSW (log 11). No other agent acts within the interruption. -/
def Obligations.ReturnRestoresPsw : Prop :=
  (∀ (c : InterruptionClass) (s t : State), s.interleaving = [] → pswSwap c s = some t →
    reloadOldPsw c t = some { t.setPsw s.psw with newPswUntried := false }) ∧
  ∀ (e : ProgramException) (ilc : BitVec 2) (a : Word) (s t : State), s.interleaving = [] →
    takeProgramInterruption e ilc a s = .next t →
    reloadOldPsw .program t = some { t.setPsw s.psw with newPswUntried := false }

/-- R323, D32 (log 11): a swap that meets unavailable storage stops the machine. -/
def Obligations.SwapWithoutStorageStops : Prop :=
  ∀ (s : State), s.prefixAreaAvailable = false →
    (∀ (e : ProgramException) (ilc : BitVec 2) (a : Word),
      takeProgramInterruption e ilc a s = .fault .swapAddressing) ∧
    ∀ c : AsyncClass, takeAsyncInterruption c s = .fault .swapAddressing

/-! ## Privilege and special conditions -/

/-- R238, R269, R318: in the problem state SSKE, and PFMF where installed, take the privileged-operation exception,
the instruction address past them, length code 2 (problem state: PSW bit 15, log 15; PFMF privileged, log 17). -/
def Obligations.ProblemStateTraps : Prop :=
  ∀ (s : State), pswProblem s.psw = true →
    (∀ (m3 : Mask) (r1 r2 : Reg),
      exec (.sske m3 r1 r2) s = takeProgramInterruption .privilegedOperation 2 0 (s.advance 4)) ∧
    (s.installation.edatInstalled = true → ∀ r1 r2 : Reg,
      exec (.pfmf r1 r2) s = takeProgramInterruption .privilegedOperation 2 0 (s.advance 4))

/-- R257: a bit of R1 that must be zero, or a reserved frame-size code, suppresses PFMF with a specification exception
(its name: log 17), whatever SK and CF are. -/
def Obligations.PfmfSpecialConditions : Prop :=
  ∀ (r1 r2 : Reg) (s : State), s.installation.edatInstalled = true → pswProblem s.psw = false →
    (field (s.gpr r1) 32 45 ≠ 0 ∨ bitAt (s.gpr r1) 52 = true ∨ bitAt (s.gpr r1) 55 = true ∨
      bitAt (s.gpr r1) 63 = true ∨ 2 ≤ (field (s.gpr r1) 49 51).toNat) →
    exec (.pfmf r1 r2) s = takeProgramInterruption .specification 2 0 (s.advance 4)

/-- R341: a step in the problem state, no other agent acting, changes ACC and F of no key and no general register. The
problem state is PSW bit 15 (PRESUMED, log 15), and that PFMF is privileged is PRESUMED too (log 17). -/
def Obligations.ProblemStateKeepsKeys : Prop :=
  ∀ s t : State, s.unshared → pswProblem s.psw = true → step s = .next t → sameAccess s t ∧ t.gprs = s.gprs

/-- R302, R310, R39: no step changes a control register, an access register, the prefix or the installation, whatever
other agents do. -/
def Obligations.StepKeepsControls : Prop := ∀ s t : State, step s = .next t → sameControls s t

/-- R220, R242: SSKE writes no main storage, no other agent acting. The one exception is the page of the assigned
locations when it ends in a program interruption (R313); it ends in none in the supervisor state where every block it
designates exists. -/
def Obligations.SskeWritesNoStorage : Prop :=
  ∀ (m3 : Mask) (r1 r2 : Reg) (s t : State), s.unshared → exec (.sske m3 r1 r2) s = .next t →
    (∀ x : Nat, x / 4096 ≠ blockOf (applyPrefix s.prefixReg 0) → t.byte x = s.byte x) ∧
      (pswProblem s.psw = false →
        (if (sskeControls s.installation m3).mb then s.megabyteAvailable (s.blockIn r2)
         else s.available (s.realBlockIn r2)) = true →
        sameStorage s t)

/-! ## SSKE -/

/-- R227, R228: the unconditional single-block form writes all seven bits of the key and makes it valid; the condition
code, the general registers, storage and every other key stay as the gap before the setting, in which another agent may
act, leaves them (R74, R240); the instruction address moves past it. -/
def Obligations.SskeUnconditionalSetsKey : Prop :=
  ∀ (m3 : Mask) (r1 r2 : Reg) (s : State), pswProblem s.psw = false →
    (sskeControls s.installation m3).mb = false → (sskeControls s.installation m3).conditional = false →
    s.available (s.realBlockIn r2) = true →
    let s0 := s.beforeAccess
    ∃ t, exec (.sske m3 r1 r2) s = .next t ∧
      t.keyState (blockOf (s.realBlockIn r2)) = ⟨keyOfRegister (s.gpr r1), false⟩ ∧
      sameKeysBut (blockOf (s.realBlockIn r2)) s0 t ∧ t.gprs = s.gprs ∧ t.psw = pswAdvanced s.psw ∧
      sameStorage s0 t ∧ sameElsewhere s0 t ∧ sameControls s t ∧ (s.interleaving = [] → s0 = s)

/-- R229, R230, R236: the conditional single-block form. With an invalid checking-block code the key is replaced, bits
48-55 of R1 are open and the condition code is 3; else R1 receives the old key and the table of R230 gives the key and
the condition code, its two open choices left open. No other agent acts between the accesses. -/
def Obligations.SskeConditionalTable : Prop :=
  ∀ (m3 : Mask) (r1 r2 : Reg) (s : State),
    let c := sskeControls s.installation m3
    let b := blockOf (s.realBlockIn r2)
    let old := s.key b
    let new := keyOfRegister (s.gpr r1)
    pswProblem s.psw = false → c.mb = false → c.conditional = true → s.interleaving = [] →
    s.available (s.realBlockIn r2) = true →
    ∃ t cc, exec (.sske m3 r1 r2) s = .next t ∧ t.psw = pswAdvanced (pswSetCc s.psw cc) ∧
      field (t.gpr r1) 0 47 = field (s.gpr r1) 0 47 ∧ field (t.gpr r1) 56 63 = field (s.gpr r1) 56 63 ∧
      sameGprsBut r1 s t ∧ sameKeysBut b s t ∧ (t.keyState b).cbcInvalid = false ∧ sameStorage s t ∧
      sameElsewhere s t ∧
      if (s.keyState b).cbcInvalid then t.key b = new ∧ cc = 3
      else
        field (t.gpr r1) 48 54 = keyBits old ∧ bitAt (t.gpr r1) 55 = false ∧
        if old.acc ≠ new.acc ∨ old.f ≠ new.f then t.key b = new ∧ cc = 1
        else if c.mr = true ∧ c.mc = true then t.key b = old ∧ cc = 0
        else if c.mc = true then
          if old.r = new.r then t.key b = old ∧ cc = 0
          else
            (t.key b = new ∧ cc = 1) ∨
              ((t.key b).acc = old.acc ∧ (t.key b).f = old.f ∧ (t.key b).r = new.r ∧ cc = 2)
        else
          if old.c = new.c then t.key b = old ∧ cc = 0
          else
            (t.key b = new ∧ cc = 1) ∨
              ((t.key b).acc = old.acc ∧ (t.key b).f = old.f ∧ (t.key b).c = new.c ∧ cc = 2)

/-- R238, R269: the single-block form of SSKE, and PFMF of a 4 KB frame with a function selected, on a block that does
not exist: an addressing exception, nothing else changed, the instruction address past the instruction. -/
def Obligations.SingleBlockAddressing : Prop :=
  ∀ (r1 r2 : Reg) (s : State), pswProblem s.psw = false → s.available (s.realBlockIn r2) = false →
    (∀ m3 : Mask, (sskeControls s.installation m3).mb = false →
      exec (.sske m3 r1 r2) s = takeProgramInterruption .addressing 2 0 (s.advance 4)) ∧
    (s.installation.edatInstalled = true → frameReserved (s.gpr r1) = false → frameSize (s.gpr r1) = 0 →
      (frameSetKey (s.gpr r1) || frameClear (s.gpr r1)) = true →
      exec (.pfmf r1 r2) s = takeProgramInterruption .addressing 2 0 (s.advance 4))

/-- R231, R234, R236: the multiple-block form with no mask bit in effect, on a machine left to itself, sets the key of
every block up to the next megabyte boundary, puts that boundary in R2, and changes nothing else. -/
def Obligations.SskeMultipleSetsKeys : Prop :=
  ∀ (m3 : Mask) (r1 r2 : Reg) (s : State),
    let a := s.blockIn r2
    pswProblem s.psw = false → (sskeControls s.installation m3).mb = true →
    (sskeControls s.installation m3).conditional = false → s.quiet → s.megabyteAvailable a = true →
    ∃ t, exec (.sske m3 r1 r2) s = .next t ∧
      (∀ i : Nat, i < blocksLeft a → t.keyState (blockOf a + i) = ⟨keyOfRegister (s.gpr r1), false⟩) ∧
      (∀ b : Nat, (b < blockOf a ∨ blockOf a + blocksLeft a ≤ b) → t.keyState b = s.keyState b) ∧
      t.gpr r2 = writeBack s.mode (nextMegabyte s.mode a) (s.gpr r2) ∧ sameGprsBut r2 s t ∧
      t.psw = pswAdvanced s.psw ∧ sameStorage s t ∧ sameElsewhere s t

/-- R231, R233, R236, R237: the multiple-block form with a mask bit in effect, on a machine left to itself, completes
with condition code 3, bits 48-55 of R1 open (52-55 where R1 is R2), R2 at the next megabyte boundary. Each key becomes
what R226 lets it become: the whole new key after an invalid checking-block code or where ACC or F differ, the old key
where both masks are in effect or the compared bit agrees, else at least the compared bit. -/
def Obligations.SskeMultipleConditional : Prop :=
  ∀ (m3 : Mask) (r1 r2 : Reg) (s : State),
    let c := sskeControls s.installation m3
    let a := s.blockIn r2
    pswProblem s.psw = false → c.mb = true → c.conditional = true → s.quiet → s.megabyteAvailable a = true →
    ∃ t, exec (.sske m3 r1 r2) s = .next t ∧ t.psw = pswAdvanced (pswSetCc s.psw 3) ∧
      blocksKeyed c (keyOfRegister (s.gpr r1)) a (blocksLeft a) s t ∧
      registersAfterSske c r1 r2 (writeBack s.mode (nextMegabyte s.mode a) (s.gpr r2)) s t ∧
      sameStorage s t ∧ sameElsewhere s t

/-- R232: the multiple-block form interrupted after `k + 1` blocks: those keys are set as R226 says and no other, R2
designates the next block, the instruction address is unchanged; with a mask bit in effect the condition code and bits
48-55 of R1 are open (52-55 where R1 is R2; R233, R237), else they are unchanged. -/
def Obligations.SskeInterrupted : Prop :=
  ∀ (m3 : Mask) (r1 r2 : Reg) (s : State) (k : Nat) (p : AsyncClass) (rest : List Boundary),
    let c := sskeControls s.installation m3
    let a := s.blockIn r2
    pswProblem s.psw = false → c.mb = true → s.asyncPending = none → s.interleaving = [] →
    s.environment = List.replicate k ⟨[], none⟩ ++ ⟨[], some p⟩ :: rest → k + 1 < blocksLeft a →
    s.megabyteAvailable a = true →
    ∃ t, exec (.sske m3 r1 r2) s = .next t ∧ t.asyncPending = some p ∧ t.environment = rest ∧
      blocksKeyed c (keyOfRegister (s.gpr r1)) a (k + 1) s t ∧
      registersAfterSske c r1 r2 (writeBack s.mode (a + BitVec.ofNat 64 (4096 * (k + 1))) (s.gpr r2)) s t ∧
      (∃ cc, t.psw = pswSetCc s.psw cc ∧ (c.conditional = false → cc = pswCc s.psw)) ∧
      sameStorage s t ∧ sameControls s t

/-- R235: a block that does not exist, `k` blocks on: the keys of the blocks before it are set as R226 says, R2
designates it, and an addressing exception is taken with the instruction address past the instruction; R1 and the
condition code as when interrupted (R237; log 22). -/
def Obligations.SskeMultipleAddressing : Prop :=
  ∀ (m3 : Mask) (r1 r2 : Reg) (s : State) (k : Nat),
    let c := sskeControls s.installation m3
    let a := s.blockIn r2
    let w := if k = 0 then s.gpr r2 else writeBack s.mode (a + BitVec.ofNat 64 (4096 * k)) (s.gpr r2)
    pswProblem s.psw = false → c.mb = true → s.quiet → k < blocksLeft a →
    (∀ i : Nat, i < k → blockAvailable s.installation (blockOf a + i) = true) →
    blockAvailable s.installation (blockOf a + k) = false →
    ∃ u, exec (.sske m3 r1 r2) s = takeProgramInterruption .addressing 2 0 (u.advance 4) ∧
      blocksKeyed c (keyOfRegister (s.gpr r1)) a k s u ∧ registersAfterSske c r1 r2 w s u ∧
      (∃ cc, u.psw = pswSetCc s.psw cc ∧ (c.conditional = false → cc = pswCc s.psw)) ∧
      sameStorage s u ∧ sameElsewhere s u

/-- R232: an interrupted multiple-block SSKE, executed again with nothing more to come, ends as R231 says the
uninterrupted one ends, measured from the state before the first execution, no other agent acting meanwhile: every key
up to the megabyte boundary is what R226 lets it become from the key it was, R2 is at the boundary; with a mask bit in
effect the condition code is 3 and bits 48-55 of R1 are open, else both are as they were. Where a block on the way does
not exist, it ends in that addressing exception (R235). What the two executions draw is apart (R8). -/
def Obligations.SskeResumes : Prop :=
  ∀ (m3 : Mask) (r1 r2 : Reg) (s t : State),
    let c := sskeControls s.installation m3
    let a := s.blockIn r2
    s.undisturbed → exec (.sske m3 r1 r2) s = .next t → t.asyncPending.isSome = true →
    ∀ d : Nat,
      (s.megabyteAvailable a = true →
        ∃ u, exec (.sske m3 r1 r2) { t.resumed with draws := d } = .next u ∧
          blocksKeyed c (keyOfRegister (s.gpr r1)) a (blocksLeft a) s u ∧
          registersAfterSske c r1 r2 (writeBack s.mode (nextMegabyte s.mode a) (s.gpr r2)) s u ∧
          u.psw = pswAdvanced (if c.conditional then pswSetCc s.psw 3 else s.psw) ∧ sameStorage s u ∧
          sameControls s u ∧ u.tlb = s.tlb) ∧
      ∀ k : Nat, k < blocksLeft a →
        (∀ i : Nat, i < k → blockAvailable s.installation (blockOf a + i) = true) →
        blockAvailable s.installation (blockOf a + k) = false →
        ∃ u cc, exec (.sske m3 r1 r2) { t.resumed with draws := d } =
            takeProgramInterruption .addressing 2 0 (u.advance 4) ∧
          blocksKeyed c (keyOfRegister (s.gpr r1)) a k s u ∧
          registersAfterSske c r1 r2 (writeBack s.mode (a + BitVec.ofNat 64 (4096 * k)) (s.gpr r2)) s u ∧
          u.psw = (if c.conditional then pswSetCc s.psw cc else s.psw) ∧ sameStorage s u ∧ sameControls s u

/-! ## PFMF -/

/-- R211, R250 (D23, log 19) and R265 (D29, log 20): the two forms the spec says the model refuses. -/
def Obligations.PfmfRefusedForms : Prop :=
  (∀ (r1 r2 : Reg) (s : State), s.installation.edatInstalled = false →
    exec (.pfmf r1 r2) s = .refused (.facilityNotInstalled "PFMF")) ∧
  (∀ (r : Reg) (s : State), s.installation.edatInstalled = true → pswProblem s.psw = false →
    frameReserved (s.gpr r) = false → frameSize (s.gpr r) ≠ 0 →
    exec (.pfmf r r) s = .refused .frameOperandsSameRegister)

/-- R258, R260, R261, R262, R263, R266, R268: PFMF of a 4 KB frame, no other agent acting within it: with clear the
bytes of the block are zero; the key becomes what R261 lets it become; nothing else changes. -/
def Obligations.PfmfSmallFrame : Prop :=
  ∀ (r1 r2 : Reg) (s : State),
    let r := s.gpr r1
    s.installation.edatInstalled = true → pswProblem s.psw = false → frameReserved r = false →
    frameSize r = 0 → (frameSetKey r || frameClear r) = true → s.interleaving = [] →
    s.available (s.realBlockIn r2) = true →
    ∃ t, exec (.pfmf r1 r2) s = .next t ∧ blocksFramed r (s.realBlockIn r2) 1 s t ∧ t.gprs = s.gprs ∧
      t.psw = pswAdvanced s.psw ∧ sameElsewhere s t

/-- R258, R259 (D30, log 37): PFMF with neither function selected changes no key and no byte, whatever blocks exist; a
4 KB frame leaves every register, a 1 MB frame moves R2 to the next megabyte boundary. -/
def Obligations.PfmfNoFunction : Prop :=
  ∀ (r1 r2 : Reg) (s : State), s.installation.edatInstalled = true → pswProblem s.psw = false →
    frameReserved (s.gpr r1) = false → (frameSetKey (s.gpr r1) || frameClear (s.gpr r1)) = false →
    (frameSize (s.gpr r1) = 0 → exec (.pfmf r1 r2) s = .next (s.advance 4)) ∧
    (frameSize (s.gpr r1) = 1 → r1 ≠ r2 → s.quiet →
      exec (.pfmf r1 r2) s =
        .next ((s.setGpr r2 (writeBack s.mode (nextMegabyte s.mode (s.blockIn r2)) (s.gpr r2))).advance 4))

/-- R259, R260, R261, R262, R263, R266, R268: PFMF of the rest of a 1 MB frame with a function selected, on a machine
left to itself: the work is done on every block up to the next megabyte boundary, and R2 moves there. -/
def Obligations.PfmfLargeFrame : Prop :=
  ∀ (r1 r2 : Reg) (s : State),
    let r := s.gpr r1
    let a := s.blockIn r2
    s.installation.edatInstalled = true → pswProblem s.psw = false → frameReserved r = false →
    frameSize r = 1 → r1 ≠ r2 → (frameSetKey r || frameClear r) = true → s.quiet →
    s.megabyteAvailable a = true →
    ∃ t, exec (.pfmf r1 r2) s = .next t ∧ blocksFramed r a (blocksLeft a) s t ∧
      t.gpr r2 = writeBack s.mode (nextMegabyte s.mode a) (s.gpr r2) ∧ sameGprsBut r2 s t ∧
      t.psw = pswAdvanced s.psw ∧ sameElsewhere s t

/-- R264: the 1 MB form interrupted after `k + 1` blocks: the work is done on those blocks and on no other, R2
designates the next one, and the PSW is unchanged. -/
def Obligations.PfmfInterrupted : Prop :=
  ∀ (r1 r2 : Reg) (s : State) (k : Nat) (p : AsyncClass) (rest : List Boundary),
    let r := s.gpr r1
    let a := s.blockIn r2
    s.installation.edatInstalled = true → pswProblem s.psw = false → frameReserved r = false →
    frameSize r = 1 → r1 ≠ r2 → s.asyncPending = none → s.interleaving = [] →
    s.environment = List.replicate k ⟨[], none⟩ ++ ⟨[], some p⟩ :: rest → k + 1 < blocksLeft a →
    s.megabyteAvailable a = true →
    ∃ t, exec (.pfmf r1 r2) s = .next t ∧ t.asyncPending = some p ∧ t.environment = rest ∧ t.psw = s.psw ∧
      blocksFramed r a (k + 1) s t ∧
      t.gpr r2 = writeBack s.mode (a + BitVec.ofNat 64 (4096 * (k + 1))) (s.gpr r2) ∧ sameGprsBut r2 s t ∧
      sameControls s t

/-- R264: a block that does not exist, `k` blocks on: the work is done on the blocks before it and on no other, R2
designates it, and an addressing exception is taken with the instruction address past the instruction. -/
def Obligations.PfmfLargeAddressing : Prop :=
  ∀ (r1 r2 : Reg) (s : State) (k : Nat),
    let r := s.gpr r1
    let a := s.blockIn r2
    s.installation.edatInstalled = true → pswProblem s.psw = false → frameReserved r = false →
    frameSize r = 1 → r1 ≠ r2 → (frameSetKey r || frameClear r) = true → s.quiet → k < blocksLeft a →
    (∀ i : Nat, i < k → blockAvailable s.installation (blockOf a + i) = true) →
    blockAvailable s.installation (blockOf a + k) = false →
    ∃ u, exec (.pfmf r1 r2) s = takeProgramInterruption .addressing 2 0 (u.advance 4) ∧ u.psw = s.psw ∧
      blocksFramed r a k s u ∧
      u.gpr r2 = (if k = 0 then s.gpr r2 else writeBack s.mode (a + BitVec.ofNat 64 (4096 * k)) (s.gpr r2)) ∧
      sameGprsBut r2 s u ∧ sameElsewhere s u

/-- R264: an interrupted PFMF, executed again with nothing more to come, ends as R259 says the uninterrupted one ends,
measured from the state before the first execution, no other agent acting meanwhile; where a block on the way does not
exist, in its addressing exception. What the two executions draw is apart (R8). -/
def Obligations.PfmfResumes : Prop :=
  ∀ (r1 r2 : Reg) (s t : State),
    let r := s.gpr r1
    let a := s.blockIn r2
    s.undisturbed → exec (.pfmf r1 r2) s = .next t → t.asyncPending.isSome = true →
    ∀ d : Nat,
      (s.megabyteAvailable a = true ∨ (frameSetKey r || frameClear r) = false →
        ∃ u, exec (.pfmf r1 r2) { t.resumed with draws := d } = .next u ∧ blocksFramed r a (blocksLeft a) s u ∧
          u.gpr r2 = writeBack s.mode (nextMegabyte s.mode a) (s.gpr r2) ∧ sameGprsBut r2 s u ∧
          u.psw = pswAdvanced s.psw ∧ sameControls s u ∧ u.tlb = s.tlb) ∧
      ∀ k : Nat, k < blocksLeft a → (frameSetKey r || frameClear r) = true →
        (∀ i : Nat, i < k → blockAvailable s.installation (blockOf a + i) = true) →
        blockAvailable s.installation (blockOf a + k) = false →
        ∃ u, exec (.pfmf r1 r2) { t.resumed with draws := d } =
            takeProgramInterruption .addressing 2 0 (u.advance 4) ∧ u.psw = s.psw ∧ blocksFramed r a k s u ∧
          u.gpr r2 = writeBack s.mode (a + BitVec.ofNat 64 (4096 * k)) (s.gpr r2) ∧ sameGprsBut r2 s u ∧
          sameControls s u

/-- R255, R260: PFMF that sets keys and clears nothing leaves the keys that SSKE of the same masks, key and address
leaves: both set each key as R226 says for the controls of that SSKE, and where R226 leaves nothing open, the keys are
the same; but R1 and the condition code do not change. What the two executions draw is apart (R8). -/
def Obligations.PfmfSetsKeysAsSske : Prop :=
  ∀ (m3 : Mask) (r1 r2 : Reg) (s : State) (d : Nat),
    let r := s.gpr r1
    let c := sskeControls s.installation m3
    s.installation.edatInstalled = true → pswProblem s.psw = false → frameReserved r = false →
    frameSetKey r = true → frameClear r = false → bitAt m3 1 = bitAt r 53 → bitAt m3 2 = bitAt r 54 →
    (frameSize r = 0 ∨ r1 ≠ r2) → s.quiet →
    (if frameSize r = 0 then bitAt m3 3 = false ∧ s.available (s.realBlockIn r2) = true
     else bitAt m3 3 = true ∧ s.megabyteAvailable (s.blockIn r2) = true) →
    ∃ t u, exec (.pfmf r1 r2) s = .next t ∧ exec (.sske m3 r1 r2) { s with draws := d } = .next u ∧
      (∀ b : Nat, (t.key b).acc = (u.key b).acc ∧ (t.key b).f = (u.key b).f ∧
        (t.keyState b).cbcInvalid = (u.keyState b).cbcInvalid ∧
        (c.mr = false ∨ c.mc = true → (t.key b).r = (u.key b).r) ∧
        (c.mc = false ∨ c.mr = true → (t.key b).c = (u.key b).c) ∧
        (t.keyState b = s.keyState b ∨ keyMayBecome c (keyOfRegister r) (s.keyState b) (t.keyState b)) ∧
        (u.keyState b = s.keyState b ∨ keyMayBecome c (keyOfRegister r) (s.keyState b) (u.keyState b))) ∧
      t.mem = u.mem ∧ (r1 ≠ r2 → t.gpr r2 = u.gpr r2) ∧ pswAddress t.psw = pswAddress u.psw ∧ t.gpr r1 = s.gpr r1 ∧
      pswCc t.psw = pswCc s.psw

/-! ## Other agents -/

/-- R9, R71, R74, R77, R262 (D6; logs 9 and 35): another agent that acts between two single accesses of an instruction.
Its store into a block that PFMF is clearing survives where the byte was already cleared, and only there. Its setting of
a key between the reading and the setting of that key by a conditional SSKE is overwritten by a whole replacement, kept
but for the compared bit and the open one by a partial one, and R1 gets the key that was read. Its store between the two
halves of a PSW swap is seen by the load of the new PSW. -/
def Obligations.OtherAgentsBetweenAccesses : Prop :=
  (∀ (r1 r2 : Reg) (s : State) (o n : Nat) (x : Word) (v : Byte),
    s.installation.edatInstalled = true → pswProblem s.psw = false → frameReserved (s.gpr r1) = false →
    frameSize (s.gpr r1) = 0 → frameSetKey (s.gpr r1) = false → frameClear (s.gpr r1) = true →
    s.available (s.realBlockIn r2) = true → blockOf x = blockOf (s.realBlockIn r2) →
    s.interleaving = [⟨[], some (o, n)⟩, ⟨[.store x v false], none⟩] →
    ∃ t, exec (.pfmf r1 r2) s = .next t ∧ t.interleaving = [] ∧
      ∀ y : Nat, t.byte y =
        if y / 4096 ≠ blockOf x then s.byte y
        else if y = x.toNat ∧ o ≤ y % 4096 ∧ y % 4096 < o + n then v else 0) ∧
  (∀ (m3 : Mask) (r1 r2 : Reg) (s : State) (x : Word) (k : StorageKey),
    let c := sskeControls s.installation m3
    let b := blockOf (s.realBlockIn r2)
    let old := s.key b
    let new := keyOfRegister (s.gpr r1)
    pswProblem s.psw = false → c.mb = false → c.conditional = true → s.available (s.realBlockIn r2) = true →
    (s.keyState b).cbcInvalid = false → blockOf x = b → s.interleaving = [⟨[], none⟩, ⟨[.setKey x k], none⟩] →
    ∃ t, exec (.sske m3 r1 r2) s = .next t ∧ field (t.gpr r1) 48 54 = keyBits old ∧ sameKeysBut b s t ∧
      (old.acc ≠ new.acc ∨ old.f ≠ new.f → t.keyState b = ⟨new, false⟩) ∧
      (old.acc = new.acc → old.f = new.f →
        (c.mr = true → c.mc = true → t.key b = old) ∧
        (c.mr = false → old.r ≠ new.r →
          t.keyState b = ⟨new, false⟩ ∨
            ((t.key b).acc = k.acc ∧ (t.key b).f = k.f ∧ (t.key b).r = new.r ∧ (t.keyState b).cbcInvalid = false)) ∧
        (c.mc = false → old.c ≠ new.c →
          t.keyState b = ⟨new, false⟩ ∨
            ((t.key b).acc = k.acc ∧ (t.key b).f = k.f ∧ (t.key b).c = new.c ∧
              (t.keyState b).cbcInvalid = false)))) ∧
  ∀ (cl : InterruptionClass) (s : State) (x : Word) (v : Byte), s.prefixAreaAvailable = true →
    s.available x = true → s.interleaving = [⟨[], none⟩, ⟨[.store x v false], none⟩] →
    ∃ t, pswSwap cl s = some t ∧ t.byte x.toNat = v ∧ t.interleaving = [] ∧
      t.psw = wordOf 128 (Memory.readMany t.mem (assigned s (newPswLocation cl)) 16)

/-! ## Operands -/

/-- R224, R222, R40: what the operand registers of SSKE and PFMF designate: the block, by mode, bits to the left and
bits 52-63 ignored; the new key in bits 56-62, ACC, F, R, C from the left, the other bits ignored. R234: the next block
wraps at the size of the mode, and the write-back replaces the address bits of R2 and zeroes the bits of 32-63 left of
them (bits 52-63 kept: log 21). -/
def Obligations.OperandsAndWriteBack : Prop :=
  (∀ r : Word,
    blockAddr .bits24 r = (0 : BitVec 40) ++ field r 40 51 ++ (0 : BitVec 12) ∧
      blockAddr .bits31 r = (0 : BitVec 33) ++ field r 33 51 ++ (0 : BitVec 12) ∧
      blockAddr .bits64 r = field r 0 51 ++ (0 : BitVec 12) ∧
      keyBits (keyOfRegister r) = field r 56 62 ∧
      ∀ q : Word, field q 56 62 = field r 56 62 → keyOfRegister q = keyOfRegister r) ∧
  (∀ a : Word,
    (nextBlock .bits24 a).toNat = (a.toNat + 4096) % 2 ^ 24 ∧
      (nextBlock .bits31 a).toNat = (a.toNat + 4096) % 2 ^ 31 ∧
      (nextBlock .bits64 a).toNat = (a.toNat + 4096) % 2 ^ 64) ∧
  ∀ a r : Word,
    (field (writeBack .bits24 a r) 0 31 = field r 0 31 ∧ field (writeBack .bits24 a r) 32 39 = 0 ∧
      field (writeBack .bits24 a r) 40 51 = field a 40 51 ∧
      field (writeBack .bits24 a r) 52 63 = field r 52 63) ∧
    (field (writeBack .bits31 a r) 0 31 = field r 0 31 ∧ bitAt (writeBack .bits31 a r) 32 = false ∧
      field (writeBack .bits31 a r) 33 51 = field a 33 51 ∧
      field (writeBack .bits31 a r) 52 63 = field r 52 63) ∧
    field (writeBack .bits64 a r) 0 51 = field a 0 51 ∧ field (writeBack .bits64 a r) 52 63 = field r 52 63

/-- R58, R12: an effective address is base, index and displacement added and cut to the mode; register 0 stands for
zero (the cut: log 13). -/
def Obligations.EffectiveAddressForms : Prop :=
  ∀ (s : State) (x b : Reg) (d : Word),
    effectiveAddress s b d = addrMode s.mode ((if b = 0 then 0 else s.gpr b) + d) ∧
      indexedAddress s x b d =
        addrMode s.mode ((if b = 0 then 0 else s.gpr b) + (if x = 0 then 0 else s.gpr x) + d) ∧
      ∀ v : Word, (addrMode .bits24 v).toNat = v.toNat % 2 ^ 24 ∧ (addrMode .bits31 v).toNat = v.toNat % 2 ^ 31 ∧
        addrMode .bits64 v = v

/-- R33, R35: writing the condition code, and writing the instruction address, changes that field of the PSW alone. -/
def Obligations.PswFieldsAreApart : Prop :=
  ∀ (p : BitVec 128) (v : BitVec 2) (a : Word),
    pswCc (pswSetCc p v) = v ∧ field (pswSetCc p v) 0 17 = field p 0 17 ∧
      field (pswSetCc p v) 20 127 = field p 20 127 ∧ pswAddress (pswSetAddress p a) = a ∧
      field (pswSetAddress p a) 0 63 = field p 0 63

/-! ## Address translation -/

/-- R60: prefixing, its three cases. -/
def Obligations.PrefixingRule : Prop :=
  ∀ (p : BitVec 51) (ra : Word),
    (field ra 0 50 = 0 → field (applyPrefix p ra) 0 50 = p ∧ field (applyPrefix p ra) 51 63 = field ra 51 63) ∧
      (field ra 0 50 ≠ 0 → field ra 0 50 = p →
        field (applyPrefix p ra) 0 50 = 0 ∧ field (applyPrefix p ra) 51 63 = field ra 51 63) ∧
      (field ra 0 50 ≠ 0 → field ra 0 50 ≠ p → applyPrefix p ra = ra) ∧ (p = 0 → applyPrefix p ra = ra)

/-- R61: prefixing is its own inverse. -/
def Obligations.PrefixingIsInvolution : Prop :=
  ∀ (p : BitVec 51) (ra : Word), applyPrefix p (applyPrefix p ra) = ra

/-- R95: the effective address-space-control element, every case; the instruction-address cases are the spec's own
resolution. In the access-register mode an access register other than 0 is turned into the element by an oracle that
stands for access-register translation (R27; DESIGN CHOICE, log 28). -/
def Obligations.EffectiveAsceSelection : Prop :=
  ∀ (s : State) (sel : OperandSpace) (b : Reg),
    (pswAs s.psw = 3 → effectiveAsce s .ifetch sel = some (s.cr 13)) ∧
    (pswAs s.psw ≠ 3 → effectiveAsce s .ifetch sel = some (s.cr 1)) ∧
    ∀ kind : ReferenceKind, kind ≠ .ifetch →
      effectiveAsce s kind .primary = some (s.cr 1) ∧ effectiveAsce s kind .secondary = some (s.cr 7) ∧
      (pswAs s.psw = 0 → effectiveAsce s kind (.logical b) = some (s.cr 1)) ∧
      (pswAs s.psw = 1 →
        effectiveAsce s kind (.logical b) = if b = 0 then some (s.cr 1) else Config.art (s.ar b)) ∧
      (pswAs s.psw = 2 → effectiveAsce s kind (.logical b) = some (s.cr 7)) ∧
      (pswAs s.psw = 3 → effectiveAsce s kind (.logical b) = some (s.cr 13))

/-- R98, R164, R168, R187, R129: under a real-space designation every translation completes, no table is referenced, and
neither DAT protection nor an entry's keys nor the change-recording override applies, whatever the buffer holds. The
virtual address is the real address, which is then prefixed, where the token origin is a valid address, read as: its
block exists (DEDUCED, log 39), or the buffer is empty; else an incorrect entry may be used (R148), as `BufferMatching`
says. -/
def Obligations.RealSpaceDesignation : Prop :=
  ∀ (s : State) (asce va : Word) (isStore : Bool), bitAt asce 58 = true →
    ∃ a t, translate s asce va isStore = (.ok ⟨a, ⟨false, none, false⟩⟩, t) ∧ t.mem = s.mem ∧ t.keys = s.keys ∧
      t.interleaving = s.interleaving ∧ t.gprs = s.gprs ∧ t.psw = s.psw ∧ sameControls s t ∧
      (s.tlb = [] ∨ s.available (tableAddress s (field asce 0 51 ++ (0 : BitVec 12)) 0) = true →
        a = .real va ∧ absoluteAddress s a = applyPrefix s.prefixReg va)

/-- R100: the ASCE-type exception arises exactly where a part of the address that the designation does not reach is
not zero, and before any table is fetched. -/
def Obligations.AsceTypeException : Prop :=
  ∀ (s : State) (asce va : Word) (isStore : Bool), bitAt asce 58 = false →
    let dt := (field asce 60 61).toNat
    if (dt < 3 ∧ field va 0 10 ≠ 0) ∨ (dt < 2 ∧ field va 11 21 ≠ 0) ∨ (dt < 1 ∧ field va 22 32 ≠ 0) then
      translate s asce va isStore = (.error .asceType, s)
    else (translate s asce va isStore).1 ≠ .error .asceType

/-- R104, R105, R106, R125 (U1, U2, D18, D19; log 34): where a table entry lies, by the installation's choices; its
eight bytes, leftmost first; an addressing exception where its block does not exist. No key is checked; another agent may
act before the fetch (R74). R94, R107: the index and the translation exception of each level. R102, R103, R106, R107,
R111, R113 (order of the last two checks: log 18): with no copy in the buffer and no other agent acting, a level of the
walk ends as `State.entryAt` says, and a translation that storage leads to a table ends in the exception of that level
if it fails there. -/
def Obligations.TableFetchAndChecks : Prop :=
  (∀ (s : State) (origin offset : Word),
    let aa := match s.installation.originKind with
      | .absolute => origin + offset
      | .real => match s.installation.prefixOrder with
        | .originFirst => applyPrefix s.prefixReg origin + offset
        | .sumFirst => applyPrefix s.prefixReg (origin + offset)
    aa.toNat % 8 = 0 →
      (s.available aa = false → tableFetch s origin offset = none) ∧
      (s.available aa = true → ∃ e, tableFetch s origin offset = some e ∧
        ∀ i : Nat, i < 8 → (field e (8 * i) (8 * i + 7)).toNat = (s.byte (aa.toNat + i)).toNat)) ∧
  (∀ (e : Word) (idx : BitVec 11) (px : BitVec 8),
    (tableOrigin e).toNat = e.toNat / 4096 * 4096 ∧ (pageTableOrigin e).toNat = e.toNat / 2048 * 2048 ∧
      (idx.setWidth 64 <<< 3).toNat = 8 * idx.toNat ∧ (px.setWidth 64 <<< 3).toNat = 8 * px.toNat) ∧
  (∀ (w : Walk) (origin offset : Word),
    (w.fetch origin offset).1 = tableFetch w.state.beforeAccess origin offset ∧
      (w.fetch origin offset).2.formed = w.formed ∧
      sameStorage w.state.beforeAccess (w.fetch origin offset).2.state ∧
      ∀ b, ((w.fetch origin offset).2.state.key b).c = (w.state.beforeAccess.key b).c) ∧
  (∀ va : Word, indexAt 0 va = field va 33 43 ∧ indexAt 1 va = field va 22 32 ∧ indexAt 2 va = field va 11 21 ∧
    indexAt 3 va = field va 0 10 ∧ levelException 0 = .segmentTranslation ∧
    levelException 1 = .regionThirdTranslation ∧ levelException 2 = .regionSecondTranslation ∧
    levelException 3 = .regionFirstTranslation) ∧
  (∀ (w : Walk) (va : Word) (ps : Bool) (level : Nat) (origin : Word) (tf tl : BitVec 2),
    w.state.tlb = [] → w.state.interleaving = [] →
    (readTable va ps level origin tf tl w).1 =
      (w.state.entryAt va level origin tf tl).map fun e => ⟨e, w.state.edatApplies⟩) ∧
  ∀ (s : State) (asce va : Word) (isStore : Bool) (level : Nat) (origin : Word) (tf tl : BitVec 2) (p : Bool)
    (x : ProgramException), s.tlb = [] → s.interleaving = [] → bitAt asce 58 = false →
    s.Reaches asce va level origin tf tl p → s.entryAt va level origin tf tl = .error x →
    (translate s asce va isStore).1 = .error x

/-- R127, R128, R129, R112: with enhanced DAT a segment-table entry of format control one, reached under any designation
type, gives the absolute address of its segment frame, its ACC and F where its validity control says so, its
change-recording override, and the DAT protection accumulated over it and the region-table entries; a store is refused
where that is one. -/
def Obligations.SegmentFrameTranslation : Prop :=
  ∀ (s : State) (asce va origin ste : Word) (p : Bool), s.tlb = [] → s.interleaving = [] → s.edatApplies = true →
    bitAt asce 58 = false → s.leadsTo asce va origin p ste → (bitAt asce 55 && bitAt ste 59) = false → bitAt ste 53 = true →
    let t : Translation := ⟨.absolute (field ste 0 43 ++ field va 44 63),
      ⟨p || bitAt ste 54, if bitAt ste 47 then some (field ste 48 51, bitAt ste 52) else none, bitAt ste 55⟩⟩
    (translate s asce va false).1 = .ok t ∧
      (translate s asce va true).1 = if p || bitAt ste 54 then .error .protection else .ok t

/-- R121 (D17): with the private-space control one, a segment-table entry of a common segment ends the translation in a
translation-specification exception, before a segment frame or a page table is used. R101 to R112, R106, R124 to R126,
R128, R129: else a walk through a page table, under any designation type, gives the real address of the page frame; DAT
protection accumulates over the region-table entries where enhanced DAT applies, and over the last two entries always; a
store is refused where it is one. A page-table entry whose block does not exist, the page-invalid bit, and then the bits
that must be zero, end the walk. -/
def Obligations.PageFrameTranslation : Prop :=
  ∀ (s : State) (asce va origin ste : Word) (p : Bool), s.tlb = [] → s.interleaving = [] → bitAt asce 58 = false →
    s.leadsTo asce va origin p ste →
    (bitAt asce 55 = true → bitAt ste 59 = true →
      ∀ st : Bool, (translate s asce va st).1 = .error .translationSpecification) ∧
    ((bitAt asce 55 && bitAt ste 59) = false → (s.edatApplies && bitAt ste 53) = false →
      match s.pageEntryAt va ste with
      | none => ∀ st : Bool, (translate s asce va st).1 = .error .addressing
      | some pte =>
        let t : Translation := ⟨.real (field pte 0 51 ++ field va 52 63),
          ⟨p || bitAt ste 54 || bitAt pte 54, none, s.edatApplies && bitAt pte 55⟩⟩
        if bitAt pte 53 then ∀ st : Bool, (translate s asce va st).1 = .error .pageTranslation
        else if bitAt pte 52 || (!s.edatApplies && bitAt pte 55) then
          ∀ st : Bool, (translate s asce va st).1 = .error .translationSpecification
        else
          (translate s asce va false).1 = .ok t ∧
            (translate s asce va true).1 = if t.attributes.protect then .error .protection else .ok t)

/-- R134: where enhanced DAT does not apply, and no copy is held, a translation never gives an absolute address, keys
of a segment-table entry, or the override. -/
def Obligations.WithoutEnhancedDat : Prop :=
  ∀ (s t : State) (asce va : Word) (isStore : Bool) (r : Translation),
    s.tlb = [] → s.edatApplies = false → translate s asce va isStore = (.ok r, t) →
    (∃ ra, r.address = .real ra) ∧ r.attributes.steKey = none ∧ r.attributes.co = false

/-- R128, R161: a store's translation completes only where the accumulated DAT-protection bit is zero, and a fetch's
never ends in the protection exception. Where nothing is left open, the buffer being empty and no other agent acting, a
store agrees with a fetch of the same address but for a protection exception exactly where the bit is one. -/
def Obligations.StoreNeedsNoProtection : Prop :=
  ∀ (s : State) (asce va : Word),
    (∀ r t, translate s asce va true = (.ok r, t) → r.attributes.protect = false) ∧
    (translate s asce va false).1 ≠ .error .protection ∧
    (s.tlb = [] → s.interleaving = [] → ∀ d : Nat,
      (translate { s with draws := d } asce va true).1 =
        match (translate s asce va false).1 with
        | .ok r => if r.attributes.protect then .error .protection else .ok r
        | .error e => .error e)

/-! ## The translation-lookaside buffer -/

/-- R146, R148, R150, R151: which entries of the buffer may be used. A frame: where RX, SX and, but for a segment frame,
PX are those of the address, and the table origin is that of the ASCE, or the segment is common and the private-space
control is zero. A copy of a table entry: at the same place of the same table, a private segment's only under its own
segment table, a common segment's under any, and under no private-space ASCE. Under a real-space designation: a
virtual-equals-real entry of the same token and page; with a token that is not a valid address any entry but a common
segment's, for its address alone, without its attributes (R164, R168, R187; validity of a token: log 39; what is
compared: log 8). -/
def Obligations.BufferMatching : Prop :=
  (∀ (s : State) (asce va : Word) (f : Translation), bitAt asce 58 = false →
    (f ∈ s.usableFrames asce va ↔
      ∃ c, .frame c ∈ s.tlb ∧ f = c.frame ∧ c.region = field va 0 32 ∧ c.segment = field va 33 43 ∧
        (c.page = none ∨ c.page = some (field va 44 51)) ∧
        if c.common = true then bitAt asce 55 = false else c.origin = field asce 0 51 ++ (0 : BitVec 12))) ∧
  (∀ (s : State) (asce va : Word) (f : Translation), bitAt asce 58 = true →
    let token : Word := field asce 0 51 ++ (0 : BitVec 12)
    (f ∈ s.usableFrames asce va ↔
      if s.available (tableAddress s token 0) = true then
        ∃ c, .realSpace c ∈ s.tlb ∧ c.token = token ∧ c.page = field va 0 51 ∧
          f = ⟨.real (c.page ++ (0 : BitVec 12)), ⟨false, none, false⟩⟩
      else
        (∃ c, .frame c ∈ s.tlb ∧ c.common = false ∧ f = ⟨c.frame.address, ⟨false, none, false⟩⟩) ∨
          ∃ c, .realSpace c ∈ s.tlb ∧ f = ⟨.real (c.page ++ (0 : BitVec 12)), ⟨false, none, false⟩⟩)) ∧
  ∀ (q : TableRequest) (ps : Bool) (c : TableCopy),
    q.answeredBy ps c = true ↔
      c.level = q.level ∧ c.index = q.index ∧
        if c.common = true then ps = false ∧ (q.level = .segment ∨ c.origin = q.origin)
        else c.origin = q.origin ∧ c.space = q.space

/-- R145, R146, R148, R149, R150, R152, R370 (log 8): the use and the forming of entries. A translation that completes was
answered by a usable frame of the buffer, or by the address itself under a real-space designation, or by a walk, each
table entry of which is a copy that may stand in for it or is fetched. A translation that ends in an exception leaves the
buffer as it was; one that completes adds only what it found. A frame has the tag of the ASCE and the address, the
common-segment bit of the segment-table entry used, and gives that translation. A copy of a table entry has the level,
index and origin of a table that the walk used, of a page-table entry also the segment table and the common-segment bit of
the segment-table entry used; its entry is valid and of the level's type and, no other agent acting, is what storage holds
there. A virtual-equals-real page has the token. -/
def Obligations.BufferLifecycle : Prop :=
  (∀ (s t : State) (asce va : Word) (isStore : Bool) (e : ProgramException),
    translate s asce va isStore = (.error e, t) → t.tlb = s.tlb) ∧
  (∀ (s t : State) (asce va : Word) (isStore : Bool) (r : Translation), translate s asce va isStore = (.ok r, t) →
    ((∃ f ∈ s.usableFrames asce va, r = f.place va) ∨
      (bitAt asce 58 = true ∧ r = ⟨.real va, ⟨false, none, false⟩⟩) ∨
      (bitAt asce 58 = false ∧ ∃ f w, reachFrame asce va ⟨s.drawn 1, []⟩ = (.ok f, w) ∧ r = f.place va)) ∧
    ∃ new, t.tlb = new ++ s.tlb ∧ ∀ x ∈ new,
      match x with
      | .realSpace c =>
        bitAt asce 58 = true ∧ c.token = field asce 0 51 ++ (0 : BitVec 12) ∧ c.page = field va 0 51
      | .frame c =>
        bitAt asce 58 = false ∧ c.origin = field asce 0 51 ++ (0 : BitVec 12) ∧ c.region = field va 0 32 ∧
          c.segment = field va 33 43 ∧ r = c.frame.place va ∧
          (∃ origin ste, usesSegment t.tlb asce va origin ste ∧ c.common = bitAt ste.entry 59) ∧
          ((c.page = some (field va 44 51) ∧ ∃ ra, c.frame.address = .real ra) ∨
            (c.page = none ∧ ∃ aa, c.frame.address = .absolute aa))
      | .table c =>
        bitAt asce 58 = false ∧ c.edat = s.edatApplies ∧
          (s.interleaving = [] → tableFetch s c.origin (BitVec.ofNat 64 c.index <<< 3) = some c.entry) ∧
          ((c.level = .page ∧ c.index = (field va 44 51).toNat ∧ bitAt c.entry 53 = false ∧
              ∃ ste, usesSegment t.tlb asce va c.space ste ∧ c.origin = field ste.entry 0 52 ++ (0 : BitVec 11) ∧
                c.common = bitAt ste.entry 59) ∨
            ∃ l : Nat, l ≤ (field asce 60 61).toNat ∧ c.level = levelAt l ∧ c.index = (indexAt l va).toNat ∧
              UsesTable t.tlb asce va l c.origin ∧ c.space = c.origin ∧ c.common = (l == 0 && bitAt c.entry 59) ∧
              bitAt c.entry 58 = false ∧ (field c.entry 60 61).toNat = l)) ∧
  ∀ (s : State) (q : TableRequest) (ps : Bool) (c : TableCopy), pickCopy s q ps = some c →
    .table c ∈ s.tlb ∧ q.answeredBy ps c = true

/-- R145, R152: a buffer in which nothing that a translation could use is stale changes no translation that completes
without it, no other agent acting. -/
def Obligations.CoherentBufferIsInvisible : Prop :=
  ∀ (s : State) (asce va : Word) (isStore : Bool) (t : Translation), s.interleaving = [] →
    s.coherentAt asce va →
    (translate { s with tlb := [] } asce va isStore).1 = .ok t → (translate s asce va isStore).1 = .ok t

/-! ## Protection and recording -/

/-- R165: what key-controlled protection permits: the four rows of the table, for a fetch, an instruction fetch and a
store; the keys match where they are equal or the access key is zero. -/
def Obligations.KeyProtectionTable : Prop :=
  ∀ akey acc : BitVec 4,
    (keyMatches akey acc = true ↔ acc = akey ∨ akey = 0) ∧
    (keyMatches akey acc = true →
      ∀ f : Bool, keyPermits .fetch akey acc f = true ∧ keyPermits .ifetch akey acc f = true ∧
        keyPermits .store akey acc f = true) ∧
    (keyMatches akey acc = false →
      keyPermits .fetch akey acc false = true ∧ keyPermits .ifetch akey acc false = true ∧
        keyPermits .fetch akey acc true = false ∧ keyPermits .ifetch akey acc true = false ∧
        ∀ f : Bool, keyPermits .store akey acc f = false)

/-- R181, R183, R186: recording sets R or C of one key and never clears it; a store that changes the contents sets C
unless an override covers it. -/
def Obligations.RecordingRules : Prop :=
  ∀ (aa : Word) (co changed : Bool) (s : State),
    let t := recordReference aa s
    let u := recordChange aa co changed s
    sameAccess s t ∧ sameAccess s u ∧ sameKeysBut (blockOf aa) s t ∧ sameKeysBut (blockOf aa) s u ∧
      (∀ b, (t.key b).c = (s.key b).c ∧ (u.key b).r = (s.key b).r) ∧
      (∀ b, ((s.key b).r = true → (t.key b).r = true) ∧ ((s.key b).c = true → (u.key b).c = true)) ∧
      (changed = true → co = false → (u.key (blockOf aa)).c = true) ∧ t.mem = s.mem ∧ u.mem = s.mem

/-- R188, R66, R165, R168, R183, R186 (order: D7, log 18): one store within a block, with DAT on or off, no other agent
acting. An exception of the translation, DAT protection among them, is its outcome; then comes availability, then the key
check as for a fetch. A permitted store writes its bytes and no other, and sets C of the block where it changed them and
no override applies; a store that is not permitted writes nothing. -/
def Obligations.OperandStore : Prop :=
  ∀ (akey : BitVec 4) (sel : OperandSpace) (la : Word) (bs : List Byte) (s : State),
    s.interleaving = [] → crossesBlock la bs.length = false →
    (∀ asce e t, pswDat s.psw = true → effectiveAsce s .store sel = some asce →
      translate s asce la true = (.error e, t) →
      memWrite akey sel la bs s = .exception e la t ∧ referenceKeeps s t ∧ sameStorage s t ∧ t.tlb = s.tlb) ∧
    ∀ aa att t0, s.locates .store sel la aa att t0 →
      let b := blockOf aa
      let blockPermits := keyPermits .store akey (s.key b).acc (s.key b).f
      let steKeyPermits := entryPermits .store akey (s.key b) att.steKey
      (s.available aa = false → memWrite akey sel la bs s = .exception .addressing la t0 ∧ sameStorage s t0) ∧
      (s.available aa = true → (s.keyState b).cbcInvalid = false →
        ∃ t, referenceKeeps s t ∧ t.tlb = t0.tlb ∧
          (∀ c, ((s.key c).r = true → (t.key c).r = true) ∧ ((s.key c).c = true → (t.key c).c = true) ∧
            (c ≠ b → (t.key c).c = (s.key c).c)) ∧
          ((memWrite akey sel la bs s = .ok () t ∧ (blockPermits = true ∨ steKeyPermits = true) ∧
              sameKeysBut b t0 t ∧ Memory.readMany t.mem aa.toNat bs.length = bs ∧
              sameStorageOutside aa.toNat bs.length s t ∧
              (Memory.readMany s.mem aa.toNat bs.length ≠ bs → att.co = false → (t.key b).c = true)) ∨
            (memWrite akey sel la bs s = .exception .protection la t ∧
              (blockPermits = false ∨ steKeyPermits = false) ∧ t.keys = t0.keys ∧ sameStorage s t)))

/-- R188, R182: a store that ends in an exception changes no storage, no register, and no key but for references that
may be recorded; in every translation mode, no other agent acting. -/
def Obligations.FailedStoreChangesNothing : Prop :=
  ∀ (akey : BitVec 4) (sel : OperandSpace) (la : Word) (bs : List Byte) (s t : State) (e : ProgramException)
    (a : Word), s.interleaving = [] → memWrite akey sel la bs s = .exception e a t →
    a = la ∧ t.mem = s.mem ∧ t.gprs = s.gprs ∧ t.psw = s.psw ∧ sameControls s t ∧ sameAccess s t ∧
      ∀ b, (t.key b).c = (s.key b).c

/-! ## The whole machine -/

/-- The invariant holds after reset. -/
def Obligations.InvariantAtReset : Prop := State.reset.Inv

/-- Every step, from every state that meets the invariant, keeps it: storage and keys stay in canonical form, and
nothing is ever held for a block that does not exist (R50, R53, R40). -/
def Obligations.StepKeepsInvariant : Prop := ∀ s t : State, s.Inv → step s = .next t → t.Inv

/-- The state after reset: R45 gives the checking-block codes and the buffer; every other value is the model's choice
(logs 1 to 6, 9). -/
def Obligations.ResetValues : Prop :=
  (∀ r : Reg, State.reset.gpr r = 0 ∧ State.reset.cr r = 0 ∧ State.reset.ar r = 0) ∧ State.reset.psw = 0 ∧
    State.reset.prefixReg = 0 ∧ (∀ a : Nat, State.reset.byte a = 0) ∧
    (∀ b : Nat, State.reset.keyState b = ⟨⟨0, false, false, false⟩, false⟩) ∧ State.reset.tlb = [] ∧
    State.reset.asyncPending = none ∧ State.reset.environment = [] ∧ State.reset.interleaving = []

/-- R302, R211 (D23, log 19): the nineteen instructions the source names without defining them are refused, each by
its name, in every state. -/
def Obligations.NamedOnlyAreRefused : Prop :=
  ∀ (s : State) (r1 r3 b1 b2 : Reg) (m : Mask) (d1 d2 d3 : Nat),
    exec (.lctl r1 r3 b2 d2) s = .refused (.namedOnly "LCTL") ∧
    exec (.lctlg r1 r3 b2 d2 d3) s = .refused (.namedOnly "LCTLG") ∧
    exec (.stctl r1 r3 b2 d2) s = .refused (.namedOnly "STCTL") ∧
    exec (.stctg r1 r3 b2 d2 d3) s = .refused (.namedOnly "STCTG") ∧
    exec (.lpsw b2 d2) s = .refused (.namedOnly "LPSW") ∧
    exec (.lpswe b2 d2) s = .refused (.namedOnly "LPSWE") ∧
    exec (.mvcp r1 r3 b1 d1 b2 d2) s = .refused (.namedOnly "MVCP") ∧
    exec (.mvcs r1 r3 b1 d1 b2 d2) s = .refused (.namedOnly "MVCS") ∧
    exec (.mvck r1 r3 b1 d1 b2 d2) s = .refused (.namedOnly "MVCK") ∧
    exec (.mvcsk b1 d1 b2 d2) s = .refused (.namedOnly "MVCSK") ∧
    exec (.mvcdk b1 d1 b2 d2) s = .refused (.namedOnly "MVCDK") ∧
    exec (.mvpg r1 r3) s = .refused (.namedOnly "MVPG") ∧
    exec (.iske r1 r3) s = .refused (.namedOnly "ISKE") ∧
    exec (.ivsk r1 r3) s = .refused (.namedOnly "IVSK") ∧
    exec (.rrbe r1 r3) s = .refused (.namedOnly "RRBE") ∧
    exec (.tprot b1 d1 b2 d2) s = .refused (.namedOnly "TPROT") ∧
    exec (.ex r1 r3 b2 d2) s = .refused (.namedOnly "EX") ∧
    exec (.bc m r3 b2 d2) s = .refused (.namedOnly "BC") ∧
    exec (.bcr m r3) s = .refused (.namedOnly "BCR")

end
end

