-- ==== Sys2Proof/Laws/Bits.lean ====
section
/-! SUPPORT. The laws of bit fields and of the fields of the PSW, and of bytes in order. -/

namespace Sys2Proof.Machine

/-! ## Fields -/

/-- The bits of a value with a field replaced, numbered from the right. -/
theorem getLsbD_setField {n : Nat} (v : BitVec n) (a b : Nat) (x : BitVec (b - a + 1)) {i : Nat} (hi : i < n) :
    (setField v a b x).getLsbD i =
      if n - 1 - b ≤ i ∧ i < n - 1 - b + (b - a + 1) then x.getLsbD (i - (n - 1 - b)) else v.getLsbD i := by
  simp only [setField, BitVec.getLsbD_or, BitVec.getLsbD_and, BitVec.getLsbD_not, BitVec.getLsbD_shiftLeft,
    BitVec.getLsbD_setWidth, BitVec.getLsbD_allOnes, hi]
  by_cases h1 : i < n - 1 - b
  · have h2 : ¬ (n - 1 - b ≤ i ∧ i < n - 1 - b + (b - a + 1)) := by omega
    rw [if_neg h2]
    simp [h1]
  · have h4 : i - (n - 1 - b) < n := by omega
    by_cases h2 : i < n - 1 - b + (b - a + 1)
    · have h3 : i - (n - 1 - b) < b - a + 1 := by omega
      have h5 : n - 1 - b ≤ i := by omega
      simp [h1, h2, h3, h4, h5]
    · have h3 : ¬ i - (n - 1 - b) < b - a + 1 := by omega
      have h5 := BitVec.getLsbD_of_ge x (i - (n - 1 - b)) (by omega)
      simp [h1, h2, h3, h4, h5]

/-- A field replaced twice holds the second value. -/
theorem setField_setField {n : Nat} (v : BitVec n) (a b : Nat) (x y : BitVec (b - a + 1)) :
    setField (setField v a b x) a b y = setField v a b y := by
  apply BitVec.eq_of_getLsbD_eq
  intro i hi
  simp only [getLsbD_setField _ _ _ _ hi]
  split <;> rfl

/-- Replacements of fields that do not meet commute. -/
theorem setField_comm {n : Nat} (v : BitVec n) {a b c d : Nat} (x : BitVec (b - a + 1)) (y : BitVec (d - c + 1))
    (hb : b < n) (hd : d < n) (ha : a ≤ b) (hc : c ≤ d) (h : d < a ∨ b < c) :
    setField (setField v a b x) c d y = setField (setField v c d y) a b x := by
  apply BitVec.eq_of_getLsbD_eq
  intro i hi
  simp only [getLsbD_setField _ _ _ _ hi]
  split
  · split
    · omega
    · rfl
  · rfl

theorem bitAt_setField_outside {n : Nat} (v : BitVec n) {a b i : Nat} (x : BitVec (b - a + 1))
    (hb : b < n) (hi : i < n) (ha : a ≤ b) (h : i < a ∨ b < i) : bitAt (setField v a b x) i = bitAt v i := by
  simp only [bitAt, setField, BitVec.getMsbD_eq_getLsbD, BitVec.getLsbD_or, BitVec.getLsbD_and,
    BitVec.getLsbD_not, BitVec.getLsbD_shiftLeft, BitVec.getLsbD_setWidth, BitVec.getLsbD_allOnes, hi]
  rcases h with h | h
  · have h1 : ¬ (n - 1 - i - (n - 1 - b) < b - a + 1) := by omega
    have h2 : BitVec.getLsbD x (n - 1 - i - (n - 1 - b)) = false := BitVec.getLsbD_of_ge x _ (by omega)
    have h3 : n - 1 - i < n := by omega
    simp [h1, h2, h3]
  · have h1 : n - 1 - i < n - 1 - b := by omega
    have h3 : n - 1 - i < n := by omega
    simp [h1, h3]

theorem field_setField_same {n : Nat} (v : BitVec n) {a b : Nat} (x : BitVec (b - a + 1))
    (hb : b < n) (ha : a ≤ b) : field (setField v a b x) a b = x := by
  apply BitVec.eq_of_getLsbD_eq
  intro i hi
  have h1 : n - 1 - b + i < n := by omega
  have h2 : ¬ (n - 1 - b + i < n - 1 - b) := by omega
  have h3 : i < n := by omega
  simp only [field, setField, BitVec.getLsbD_extractLsb', BitVec.getLsbD_or, BitVec.getLsbD_and,
    BitVec.getLsbD_not, BitVec.getLsbD_shiftLeft, BitVec.getLsbD_setWidth, BitVec.getLsbD_allOnes, h1, h2,
    Nat.add_sub_cancel_left, hi, h3]
  simp

theorem field_setField_outside {n : Nat} (v : BitVec n) {a b c d : Nat} (x : BitVec (b - a + 1))
    (hb : b < n) (hd : d < n) (ha : a ≤ b) (hc : c ≤ d) (h : d < a ∨ b < c) :
    field (setField v a b x) c d = field v c d := by
  apply BitVec.eq_of_getLsbD_eq
  intro i hi
  have h1 : n - 1 - d + i < n := by omega
  simp only [field, setField, BitVec.getLsbD_extractLsb', BitVec.getLsbD_or, BitVec.getLsbD_and,
    BitVec.getLsbD_not, BitVec.getLsbD_shiftLeft, BitVec.getLsbD_setWidth, BitVec.getLsbD_allOnes, h1, hi]
  rcases h with h | h
  · have h4 : ¬ (n - 1 - d + i - (n - 1 - b) < b - a + 1) := by omega
    have h5 : BitVec.getLsbD x (n - 1 - d + i - (n - 1 - b)) = false := BitVec.getLsbD_of_ge x _ (by omega)
    simp [h4, h5]
  · have h4 : n - 1 - d + i < n - 1 - b := by omega
    simp [h4]

/-! ## The PSW -/

@[simp] theorem pswAddress_setAddress (p : BitVec 128) (a : Word) : pswAddress (pswSetAddress p a) = a :=
  field_setField_same p (a := 64) (b := 127) a (by omega) (by omega)

@[simp] theorem pswCc_setCc (p : BitVec 128) (v : BitVec 2) : pswCc (pswSetCc p v) = v :=
  field_setField_same p (a := 18) (b := 19) v (by omega) (by omega)

@[simp] theorem pswCc_setAddress (p : BitVec 128) (a : Word) : pswCc (pswSetAddress p a) = pswCc p :=
  field_setField_outside p (a := 64) (b := 127) a (by omega) (by omega) (by omega) (by omega) (by omega)

@[simp] theorem pswAddress_setCc (p : BitVec 128) (v : BitVec 2) : pswAddress (pswSetCc p v) = pswAddress p :=
  field_setField_outside p (a := 18) (b := 19) v (by omega) (by omega) (by omega) (by omega) (by omega)

@[simp] theorem pswKey_setAddress (p : BitVec 128) (a : Word) : pswKey (pswSetAddress p a) = pswKey p :=
  field_setField_outside p (a := 64) (b := 127) a (by omega) (by omega) (by omega) (by omega) (by omega)

@[simp] theorem pswKey_setCc (p : BitVec 128) (v : BitVec 2) : pswKey (pswSetCc p v) = pswKey p :=
  field_setField_outside p (a := 18) (b := 19) v (by omega) (by omega) (by omega) (by omega) (by omega)

@[simp] theorem pswAs_setAddress (p : BitVec 128) (a : Word) : pswAs (pswSetAddress p a) = pswAs p :=
  field_setField_outside p (a := 64) (b := 127) a (by omega) (by omega) (by omega) (by omega) (by omega)

@[simp] theorem pswAs_setCc (p : BitVec 128) (v : BitVec 2) : pswAs (pswSetCc p v) = pswAs p :=
  field_setField_outside p (a := 18) (b := 19) v (by omega) (by omega) (by omega) (by omega) (by omega)

@[simp] theorem pswDat_setAddress (p : BitVec 128) (a : Word) : pswDat (pswSetAddress p a) = pswDat p :=
  bitAt_setField_outside p (a := 64) (b := 127) a (by omega) (by omega) (by omega) (by omega)

@[simp] theorem pswDat_setCc (p : BitVec 128) (v : BitVec 2) : pswDat (pswSetCc p v) = pswDat p :=
  bitAt_setField_outside p (a := 18) (b := 19) v (by omega) (by omega) (by omega) (by omega)

@[simp] theorem pswWait_setAddress (p : BitVec 128) (a : Word) : pswWait (pswSetAddress p a) = pswWait p :=
  bitAt_setField_outside p (a := 64) (b := 127) a (by omega) (by omega) (by omega) (by omega)

@[simp] theorem pswWait_setCc (p : BitVec 128) (v : BitVec 2) : pswWait (pswSetCc p v) = pswWait p :=
  bitAt_setField_outside p (a := 18) (b := 19) v (by omega) (by omega) (by omega) (by omega)

@[simp] theorem pswProblem_setAddress (p : BitVec 128) (a : Word) :
    pswProblem (pswSetAddress p a) = pswProblem p :=
  bitAt_setField_outside p (a := 64) (b := 127) a (by omega) (by omega) (by omega) (by omega)

@[simp] theorem pswProblem_setCc (p : BitVec 128) (v : BitVec 2) : pswProblem (pswSetCc p v) = pswProblem p :=
  bitAt_setField_outside p (a := 18) (b := 19) v (by omega) (by omega) (by omega) (by omega)

@[simp] theorem pswEa_setAddress (p : BitVec 128) (a : Word) : pswEa (pswSetAddress p a) = pswEa p :=
  bitAt_setField_outside p (a := 64) (b := 127) a (by omega) (by omega) (by omega) (by omega)

@[simp] theorem pswEa_setCc (p : BitVec 128) (v : BitVec 2) : pswEa (pswSetCc p v) = pswEa p :=
  bitAt_setField_outside p (a := 18) (b := 19) v (by omega) (by omega) (by omega) (by omega)

@[simp] theorem pswBa_setAddress (p : BitVec 128) (a : Word) : pswBa (pswSetAddress p a) = pswBa p :=
  bitAt_setField_outside p (a := 64) (b := 127) a (by omega) (by omega) (by omega) (by omega)

@[simp] theorem pswBa_setCc (p : BitVec 128) (v : BitVec 2) : pswBa (pswSetCc p v) = pswBa p :=
  bitAt_setField_outside p (a := 18) (b := 19) v (by omega) (by omega) (by omega) (by omega)

@[simp] theorem pswMode_setAddress (p : BitVec 128) (a : Word) : pswMode (pswSetAddress p a) = pswMode p := by
  simp [pswMode]

@[simp] theorem pswMode_setCc (p : BitVec 128) (v : BitVec 2) : pswMode (pswSetCc p v) = pswMode p := by
  simp [pswMode]

/-! ## Bytes in order -/

@[simp] theorem length_beBytes (n v : Nat) : (beBytes n v).length = n := by
  induction n generalizing v with
  | zero => rfl
  | succ n ih => simp [beBytes, ih]

theorem beNat_append (bs : List Byte) (b : Byte) : beNat (bs ++ [b]) = beNat bs * 256 + b.toNat := by
  simp [beNat, List.foldl_append]

theorem beNat_beBytes (n v : Nat) : beNat (beBytes n v) = v % 256 ^ n := by
  induction n generalizing v with
  | zero => simp [beBytes, beNat, Nat.mod_one]
  | succ n ih =>
    rw [beBytes, beNat_append, ih]
    have h := Nat.mod_mul (x := v) (a := 256) (b := 256 ^ n)
    rw [← pow_succ'] at h
    simp only [BitVec.toNat_ofNat]
    rw [h]
    omega

@[simp] theorem length_bytesOf {n : Nat} (k : Nat) (v : BitVec n) : (bytesOf k v).length = k := by
  simp [bytesOf]

/-- The bytes of a value hold that value. -/
theorem wordOf_bytesOf {k : Nat} (v : BitVec (8 * k)) : wordOf (8 * k) (bytesOf k v) = v := by
  apply BitVec.eq_of_toNat_eq
  have h : (256 : Nat) ^ k = 2 ^ (8 * k) := by rw [pow_mul]; norm_num
  simp only [wordOf, bytesOf, beNat_beBytes, BitVec.toNat_ofNat, h, Nat.mod_mod]
  exact Nat.mod_eq_of_lt v.isLt

@[simp] theorem wordOf_bytesOf_psw (p : BitVec 128) : wordOf 128 (bytesOf 16 p) = p := wordOf_bytesOf (k := 16) p

@[simp] theorem wordOf_bytesOf_word (w : Word) : wordOf 64 (bytesOf 8 w) = w := wordOf_bytesOf (k := 8) w

end Sys2Proof.Machine
end

