-- ==== Sys2Proof/Laws/Memory.lean ====
section
/-! SUPPORT. The laws of main storage and of the storage keys: read after write, and the canonical form kept. -/

namespace Sys2Proof.Machine

/-! ## Reading after one write -/

theorem Memory.read_filter_ne (m : List Host.Cell) {x y : Nat} (h : x ≠ y) :
    Memory.read (m.filter (fun c => c.1 ≠ x)) y = Memory.read m y := by
  induction m with
  | nil => rfl
  | cons c m ih =>
    obtain ⟨a, v⟩ := c
    by_cases hax : a = x
    · subst hax
      simpa [Memory.read, h] using ih
    · simp only [List.filter_cons, ne_eq, hax, not_false_eq_true, decide_true, if_true, Memory.read]
      split
      · rfl
      · exact ih

theorem Memory.read_filter_self (m : List Host.Cell) (x : Nat) :
    Memory.read (m.filter (fun c => c.1 ≠ x)) x = unlistedByte := by
  induction m with
  | nil => rfl
  | cons c m ih =>
    obtain ⟨a, v⟩ := c
    by_cases hax : a = x
    · subst hax
      simpa [List.filter_cons] using ih
    · simp only [List.filter_cons, ne_eq, hax, not_false_eq_true, decide_true, if_true, Memory.read, if_false]
      exact ih

theorem Memory.read_insert (m : List Host.Cell) (x : Nat) (v : Byte) (y : Nat)
    (h : Memory.read m x = unlistedByte ∧ ∀ c ∈ m, c.1 ≠ x) :
    Memory.read (Memory.insert x v m) y = if x = y then v else Memory.read m y := by
  induction m with
  | nil => simp [Memory.insert, Memory.read]
  | cons c m ih =>
    obtain ⟨a, w⟩ := c
    have hax : a ≠ x := h.2 (a, w) (by simp)
    have hm : Memory.read m x = unlistedByte ∧ ∀ c ∈ m, c.1 ≠ x := by
      refine ⟨?_, fun c hc => h.2 c (by simp [hc])⟩
      simpa [Memory.read, hax] using h.1
    unfold Memory.insert
    split
    · simp [Memory.read]
    · simp only [Memory.read, ih hm]
      by_cases hay : a = y
      · subst hay
        simp [Ne.symm hax]
      · simp [hay]

/-- A read after a write: the byte written at its address, the old byte everywhere else. -/
theorem Memory.read_write (m : List Host.Cell) (x : Nat) (v : Byte) (y : Nat) :
    Memory.read (Memory.write m x v) y = if x = y then v else Memory.read m y := by
  unfold Memory.write
  split
  · next hv =>
    by_cases hxy : x = y
    · subst hxy
      rw [Memory.read_filter_self, if_pos rfl, hv]
    · rw [Memory.read_filter_ne m hxy, if_neg hxy]
  · rw [Memory.read_insert _ _ _ _ ⟨Memory.read_filter_self m x, by simp⟩]
    by_cases hxy : x = y
    · simp [hxy]
    · rw [if_neg hxy, if_neg hxy, Memory.read_filter_ne m hxy]

@[simp] theorem Memory.read_write_same (m : List Host.Cell) (x : Nat) (v : Byte) :
    Memory.read (Memory.write m x v) x = v := by simp [Memory.read_write]

theorem Memory.read_write_ne (m : List Host.Cell) {x y : Nat} (v : Byte) (h : x ≠ y) :
    Memory.read (Memory.write m x v) y = Memory.read m y := by simp [Memory.read_write, h]

/-! ## Reading after several writes -/

theorem Memory.read_writeMany_outside (m : List Host.Cell) (x : Nat) (bs : List Byte) (y : Nat)
    (h : y < x ∨ x + bs.length ≤ y) : Memory.read (Memory.writeMany m x bs) y = Memory.read m y := by
  induction bs generalizing m x with
  | nil => rfl
  | cons b bs ih =>
    simp only [List.length_cons] at h
    rw [Memory.writeMany, ih _ _ (by omega), Memory.read_write_ne _ _ (by omega)]

theorem Memory.read_writeMany_inside (m : List Host.Cell) (x : Nat) (bs : List Byte) (i : Nat)
    (h : i < bs.length) : Memory.read (Memory.writeMany m x bs) (x + i) = bs[i] := by
  induction bs generalizing m x i with
  | nil => simp at h
  | cons b bs ih =>
    rw [Memory.writeMany]
    cases i with
    | zero => rw [Memory.read_writeMany_outside _ _ _ _ (by omega)]; simp
    | succ i =>
      have := ih (Memory.write m x b) (x + 1) i (by simpa using h)
      rw [show x + (i + 1) = x + 1 + i by omega, this]
      simp

theorem Memory.length_readMany (m : List Host.Cell) (x n : Nat) : (Memory.readMany m x n).length = n := by
  simp [Memory.readMany]

/-- The bytes read after a write of as many bytes are the bytes written. -/
@[simp] theorem Memory.readMany_writeMany (m : List Host.Cell) (x : Nat) (bs : List Byte) :
    Memory.readMany (Memory.writeMany m x bs) x bs.length = bs := by
  apply List.ext_getElem
  · simp [Memory.readMany]
  · intro i h1 h2
    simp [Memory.readMany, Memory.read_writeMany_inside m x bs i h2]

theorem Memory.readMany_congr {m m' : List Host.Cell} {x n : Nat}
    (h : ∀ i < n, Memory.read m (x + i) = Memory.read m' (x + i)) :
    Memory.readMany m x n = Memory.readMany m' x n := by
  simp only [Memory.readMany]
  apply List.map_congr_left
  intro i hi
  exact h i (by simpa using hi)

/-- Writing what was there changes no byte. -/
theorem Memory.read_writeMany_same {m : List Host.Cell} {x : Nat} {bs : List Byte}
    (h : Memory.readMany m x bs.length = bs) (y : Nat) : Memory.read (Memory.writeMany m x bs) y = Memory.read m y := by
  by_cases hy : y < x ∨ x + bs.length ≤ y
  · exact Memory.read_writeMany_outside m x bs y hy
  · obtain ⟨i, rfl⟩ : ∃ i, y = x + i := ⟨y - x, by omega⟩
    have hi : i < bs.length := by omega
    rw [Memory.read_writeMany_inside m x bs i hi]
    conv_lhs => rw [← List.getElem_of_eq h (by simpa [Memory.readMany] using hi)]
    simp [Memory.readMany]

/-- Bytes apart from those written read as before. -/
theorem Memory.readMany_writeMany_disjoint (m : List Host.Cell) (x : Nat) (bs : List Byte) (y n : Nat)
    (h : y + n ≤ x ∨ x + bs.length ≤ y) :
    Memory.readMany (Memory.writeMany m x bs) y n = Memory.readMany m y n :=
  Memory.readMany_congr fun i _ => Memory.read_writeMany_outside m x bs (y + i) (by omega)

/-! ## Clearing -/

theorem Memory.read_clear (m : List Host.Cell) (p : Nat → Bool) (y : Nat) :
    Memory.read (Memory.clear m p) y = if p y then 0 else Memory.read m y := by
  unfold Memory.clear
  induction m with
  | nil => simp [Memory.read, unlistedByte]
  | cons c m ih =>
    obtain ⟨a, v⟩ := c
    simp only [List.filter_cons]
    cases hin : p a
    · simp only [Bool.not_false, if_true, Memory.read, ih]
      by_cases hay : a = y
      · subst hay; simp [hin]
      · simp [hay]
    · simp only [Bool.not_true, Bool.false_eq_true, if_false, ih, Memory.read]
      by_cases hay : a = y
      · subst hay; simp [hin]
      · simp [hay]

/-- Some selected byte is not zero exactly when some selected address reads so. -/
theorem Memory.anyNonzero_iff (m : List Host.Cell) (p : Nat → Bool) :
    Memory.anyNonzero m p = true ↔ ∃ a, p a = true ∧ Memory.read m a ≠ 0 := by
  constructor
  · intro h
    simp only [Memory.anyNonzero, List.any_eq_true, Bool.and_eq_true, decide_eq_true_eq] at h
    obtain ⟨c, _, h1, h3⟩ := h
    exact ⟨c.1, h1, h3⟩
  · rintro ⟨a, h1, h3⟩
    have hmem : ∃ c ∈ m, c.1 = a := by
      by_contra hno
      apply h3
      clear h3
      induction m with
      | nil => rfl
      | cons c m ih =>
        obtain ⟨b, v⟩ := c
        have hb : b ≠ a := fun e => hno ⟨(b, v), by simp, e⟩
        simp only [Memory.read, hb, if_false]
        exact ih (fun ⟨c, hc, e⟩ => hno ⟨c, by simp [hc], e⟩)
    obtain ⟨c, hc, rfl⟩ := hmem
    simp only [Memory.anyNonzero, List.any_eq_true, Bool.and_eq_true, decide_eq_true_eq]
    exact ⟨c, hc, h1, h3⟩

/-! ## The canonical form of storage -/

theorem Memory.mem_insert {c : Host.Cell} {x : Nat} {v : Byte} {m : List Host.Cell} :
    c ∈ Memory.insert x v m ↔ c = (x, v) ∨ c ∈ m := by
  induction m with
  | nil => simp [Memory.insert]
  | cons d m ih =>
    obtain ⟨a, w⟩ := d
    unfold Memory.insert
    split
    · simp
    · simp [ih, or_left_comm]

theorem Memory.pairwise_insert {x : Nat} {v : Byte} {m : List Host.Cell}
    (h : m.Pairwise (fun c d => c.1 < d.1)) (hx : ∀ c ∈ m, c.1 ≠ x) :
    (Memory.insert x v m).Pairwise (fun c d => c.1 < d.1) := by
  induction m with
  | nil => simp [Memory.insert]
  | cons d m ih =>
    obtain ⟨a, w⟩ := d
    rw [List.pairwise_cons] at h
    have hne : a ≠ x := hx (a, w) (by simp)
    unfold Memory.insert
    split
    · next hlt =>
      rw [List.pairwise_cons]
      refine ⟨?_, by rw [List.pairwise_cons]; exact h⟩
      intro c hc
      rcases List.mem_cons.mp hc with rfl | hc
      · exact hlt
      · exact lt_trans hlt (h.1 c hc)
    · next hnl =>
      rw [List.pairwise_cons]
      refine ⟨?_, ih h.2 (fun c hc => hx c (by simp [hc]))⟩
      intro c hc
      rcases Memory.mem_insert.mp hc with rfl | hc
      · show a < x; omega
      · exact h.1 c hc

theorem Memory.mem_write {c : Host.Cell} {x : Nat} {v : Byte} {m : List Host.Cell}
    (h : c ∈ Memory.write m x v) : (c = (x, v) ∧ v ≠ unlistedByte) ∨ c ∈ m := by
  unfold Memory.write at h
  split at h
  · exact .inr (List.mem_of_mem_filter h)
  · next hv =>
    rcases Memory.mem_insert.mp h with h | h
    · exact .inl ⟨h, hv⟩
    · exact .inr (List.mem_of_mem_filter h)

theorem Memory.wf_write {m : List Host.Cell} (h : Memory.wf m) (x : Nat) (v : Byte) :
    Memory.wf (Memory.write m x v) := by
  refine ⟨?_, ?_⟩
  · unfold Memory.write
    split
    · exact h.1.sublist List.filter_sublist
    · exact Memory.pairwise_insert (h.1.sublist List.filter_sublist) (by simp)
  · intro c hc
    rcases Memory.mem_write hc with ⟨rfl, hv⟩ | hc
    · exact hv
    · exact h.2 c hc

theorem Memory.wf_writeMany {m : List Host.Cell} (h : Memory.wf m) (x : Nat) (bs : List Byte) :
    Memory.wf (Memory.writeMany m x bs) := by
  induction bs generalizing m x with
  | nil => exact h
  | cons b bs ih => exact ih (Memory.wf_write h x b) (x + 1)

theorem Memory.wf_clear {m : List Host.Cell} (h : Memory.wf m) (p : Nat → Bool) : Memory.wf (Memory.clear m p) :=
  ⟨h.1.sublist List.filter_sublist, fun c hc => h.2 c (List.mem_of_mem_filter hc)⟩

theorem Memory.mem_writeMany {c : Host.Cell} {x : Nat} {bs : List Byte} {m : List Host.Cell}
    (h : c ∈ Memory.writeMany m x bs) : c ∈ m ∨ x ≤ c.1 ∧ c.1 < x + bs.length := by
  induction bs generalizing m x with
  | nil => exact .inl h
  | cons b bs ih =>
    rcases ih h with h | h
    · rcases Memory.mem_write h with ⟨rfl, _⟩ | h
      · exact .inr ⟨le_refl _, by simp⟩
      · exact .inl h
    · simp only [List.length_cons]
      exact .inr ⟨by omega, by omega⟩

theorem Memory.mem_clear {c : Host.Cell} {p : Nat → Bool} {m : List Host.Cell} (h : c ∈ Memory.clear m p) : c ∈ m :=
  List.mem_of_mem_filter h

/-! ## Storage keys -/

theorem Keys.read_filter_ne (ks : List (Nat × KeyState)) {x y : Nat} (h : x ≠ y) :
    Keys.read (ks.filter (fun c => c.1 ≠ x)) y = Keys.read ks y := by
  induction ks with
  | nil => rfl
  | cons c ks ih =>
    obtain ⟨a, v⟩ := c
    by_cases hax : a = x
    · subst hax
      simpa [Keys.read, h] using ih
    · simp only [List.filter_cons, ne_eq, hax, not_false_eq_true, decide_true, if_true, Keys.read]
      split
      · rfl
      · exact ih

theorem Keys.read_insert (ks : List (Nat × KeyState)) (x : Nat) (v : KeyState) (y : Nat)
    (h : ∀ c ∈ ks, c.1 ≠ x) :
    Keys.read (Keys.insert x v ks) y = if x = y then v else Keys.read ks y := by
  induction ks with
  | nil => simp [Keys.insert, Keys.read]
  | cons c ks ih =>
    obtain ⟨a, w⟩ := c
    have hax : a ≠ x := h (a, w) (by simp)
    unfold Keys.insert
    split
    · simp [Keys.read]
    · simp only [Keys.read, ih (fun c hc => h c (by simp [hc]))]
      by_cases hay : a = y
      · subst hay
        simp [Ne.symm hax]
      · simp [hay]

/-- A key read after a key is set: the new one for its block, the old one for every other block. -/
theorem Keys.read_write (ks : List (Nat × KeyState)) (x : Nat) (v : KeyState) (y : Nat) :
    Keys.read (Keys.write ks x v) y = if x = y then v else Keys.read ks y := by
  unfold Keys.write
  rw [Keys.read_insert _ _ _ _ (by simp)]
  by_cases hxy : x = y
  · simp [hxy]
  · rw [if_neg hxy, if_neg hxy, Keys.read_filter_ne ks hxy]

theorem Keys.mem_insert {c : Nat × KeyState} {x : Nat} {v : KeyState} {ks : List (Nat × KeyState)} :
    c ∈ Keys.insert x v ks ↔ c = (x, v) ∨ c ∈ ks := by
  induction ks with
  | nil => simp [Keys.insert]
  | cons d ks ih =>
    obtain ⟨a, w⟩ := d
    unfold Keys.insert
    split
    · simp
    · simp [ih, or_left_comm]

theorem Keys.mem_write {c : Nat × KeyState} {x : Nat} {v : KeyState} {ks : List (Nat × KeyState)}
    (h : c ∈ Keys.write ks x v) : c = (x, v) ∨ c ∈ ks := by
  rcases Keys.mem_insert.mp h with h | h
  · exact .inl h
  · exact .inr (List.mem_of_mem_filter h)

theorem Keys.wf_write {ks : List (Nat × KeyState)} (h : Keys.wf ks) (x : Nat) (v : KeyState) :
    Keys.wf (Keys.write ks x v) := by
  have hf : Keys.wf (ks.filter (fun c => c.1 ≠ x)) := h.sublist List.filter_sublist
  have hx : ∀ c ∈ ks.filter (fun c => c.1 ≠ x), c.1 ≠ x := by simp
  unfold Keys.write
  generalize ks.filter (fun c => c.1 ≠ x) = m at hf hx
  induction m with
  | nil => simp [Keys.insert, Keys.wf]
  | cons d m ih =>
    obtain ⟨a, w⟩ := d
    rw [Keys.wf, List.pairwise_cons] at hf
    have hne : a ≠ x := hx (a, w) (by simp)
    unfold Keys.insert
    split
    · next hlt =>
      rw [Keys.wf, List.pairwise_cons]
      refine ⟨?_, by rw [List.pairwise_cons]; exact hf⟩
      intro c hc
      rcases List.mem_cons.mp hc with rfl | hc
      · exact hlt
      · exact lt_trans hlt (hf.1 c hc)
    · next hnl =>
      rw [Keys.wf, List.pairwise_cons]
      refine ⟨?_, ih hf.2 (fun c hc => hx c (by simp [hc]))⟩
      intro c hc
      rcases Keys.mem_insert.mp hc with rfl | hc
      · show a < x; omega
      · exact hf.1 c hc

end Sys2Proof.Machine
end

