-- ==== Sys2Proof/Laws/State.lean ====
section
/-! SUPPORT. What each update of the state does to each field: one lemma per field and update, all true by rfl. -/

namespace Sys2Proof.Machine

variable (s : State)

/-! ## setGpr -/

@[simp] theorem State.setGpr_gprs (r : Reg) (v : Word) : (s.setGpr r v).gprs = s.gprs.set r.val v := rfl
@[simp] theorem State.setGpr_crs (r : Reg) (v : Word) : (s.setGpr r v).crs = s.crs := rfl
@[simp] theorem State.setGpr_ars (r : Reg) (v : Word) : (s.setGpr r v).ars = s.ars := rfl
@[simp] theorem State.setGpr_psw (r : Reg) (v : Word) : (s.setGpr r v).psw = s.psw := rfl
@[simp] theorem State.setGpr_prefixReg (r : Reg) (v : Word) : (s.setGpr r v).prefixReg = s.prefixReg := rfl
@[simp] theorem State.setGpr_mem (r : Reg) (v : Word) : (s.setGpr r v).mem = s.mem := rfl
@[simp] theorem State.setGpr_keys (r : Reg) (v : Word) : (s.setGpr r v).keys = s.keys := rfl
@[simp] theorem State.setGpr_tlb (r : Reg) (v : Word) : (s.setGpr r v).tlb = s.tlb := rfl
@[simp] theorem State.setGpr_asyncPending (r : Reg) (v : Word) : (s.setGpr r v).asyncPending = s.asyncPending := rfl
@[simp] theorem State.setGpr_installation (r : Reg) (v : Word) : (s.setGpr r v).installation = s.installation := rfl
@[simp] theorem State.setGpr_environment (r : Reg) (v : Word) : (s.setGpr r v).environment = s.environment := rfl
@[simp] theorem State.setGpr_interleaving (r : Reg) (v : Word) : (s.setGpr r v).interleaving = s.interleaving := rfl
@[simp] theorem State.setGpr_draws (r : Reg) (v : Word) : (s.setGpr r v).draws = s.draws := rfl
@[simp] theorem State.setGpr_newPswUntried (r : Reg) (v : Word) : (s.setGpr r v).newPswUntried = s.newPswUntried := rfl

/-! ## setPsw -/

@[simp] theorem State.setPsw_gprs (p : BitVec 128) : (s.setPsw p).gprs = s.gprs := rfl
@[simp] theorem State.setPsw_crs (p : BitVec 128) : (s.setPsw p).crs = s.crs := rfl
@[simp] theorem State.setPsw_ars (p : BitVec 128) : (s.setPsw p).ars = s.ars := rfl
@[simp] theorem State.setPsw_psw (p : BitVec 128) : (s.setPsw p).psw = p := rfl
@[simp] theorem State.setPsw_prefixReg (p : BitVec 128) : (s.setPsw p).prefixReg = s.prefixReg := rfl
@[simp] theorem State.setPsw_mem (p : BitVec 128) : (s.setPsw p).mem = s.mem := rfl
@[simp] theorem State.setPsw_keys (p : BitVec 128) : (s.setPsw p).keys = s.keys := rfl
@[simp] theorem State.setPsw_tlb (p : BitVec 128) : (s.setPsw p).tlb = s.tlb := rfl
@[simp] theorem State.setPsw_asyncPending (p : BitVec 128) : (s.setPsw p).asyncPending = s.asyncPending := rfl
@[simp] theorem State.setPsw_installation (p : BitVec 128) : (s.setPsw p).installation = s.installation := rfl
@[simp] theorem State.setPsw_environment (p : BitVec 128) : (s.setPsw p).environment = s.environment := rfl
@[simp] theorem State.setPsw_interleaving (p : BitVec 128) : (s.setPsw p).interleaving = s.interleaving := rfl
@[simp] theorem State.setPsw_draws (p : BitVec 128) : (s.setPsw p).draws = s.draws := rfl
@[simp] theorem State.setPsw_newPswUntried (p : BitVec 128) : (s.setPsw p).newPswUntried = s.newPswUntried := rfl

/-! ## setKeyState -/

@[simp] theorem State.setKeyState_gprs (b : Nat) (k : KeyState) : (s.setKeyState b k).gprs = s.gprs := rfl
@[simp] theorem State.setKeyState_crs (b : Nat) (k : KeyState) : (s.setKeyState b k).crs = s.crs := rfl
@[simp] theorem State.setKeyState_ars (b : Nat) (k : KeyState) : (s.setKeyState b k).ars = s.ars := rfl
@[simp] theorem State.setKeyState_psw (b : Nat) (k : KeyState) : (s.setKeyState b k).psw = s.psw := rfl
@[simp] theorem State.setKeyState_prefixReg (b : Nat) (k : KeyState) : (s.setKeyState b k).prefixReg = s.prefixReg := rfl
@[simp] theorem State.setKeyState_mem (b : Nat) (k : KeyState) : (s.setKeyState b k).mem = s.mem := rfl
@[simp] theorem State.setKeyState_keys (b : Nat) (k : KeyState) : (s.setKeyState b k).keys = Keys.write s.keys b k := rfl
@[simp] theorem State.setKeyState_tlb (b : Nat) (k : KeyState) : (s.setKeyState b k).tlb = s.tlb := rfl
@[simp] theorem State.setKeyState_asyncPending (b : Nat) (k : KeyState) : (s.setKeyState b k).asyncPending = s.asyncPending := rfl
@[simp] theorem State.setKeyState_installation (b : Nat) (k : KeyState) : (s.setKeyState b k).installation = s.installation := rfl
@[simp] theorem State.setKeyState_environment (b : Nat) (k : KeyState) : (s.setKeyState b k).environment = s.environment := rfl
@[simp] theorem State.setKeyState_interleaving (b : Nat) (k : KeyState) : (s.setKeyState b k).interleaving = s.interleaving := rfl
@[simp] theorem State.setKeyState_draws (b : Nat) (k : KeyState) : (s.setKeyState b k).draws = s.draws := rfl
@[simp] theorem State.setKeyState_newPswUntried (b : Nat) (k : KeyState) : (s.setKeyState b k).newPswUntried = s.newPswUntried := rfl

/-! ## setMem -/

@[simp] theorem State.setMem_gprs (m : List Host.Cell) : (s.setMem m).gprs = s.gprs := rfl
@[simp] theorem State.setMem_crs (m : List Host.Cell) : (s.setMem m).crs = s.crs := rfl
@[simp] theorem State.setMem_ars (m : List Host.Cell) : (s.setMem m).ars = s.ars := rfl
@[simp] theorem State.setMem_psw (m : List Host.Cell) : (s.setMem m).psw = s.psw := rfl
@[simp] theorem State.setMem_prefixReg (m : List Host.Cell) : (s.setMem m).prefixReg = s.prefixReg := rfl
@[simp] theorem State.setMem_mem (m : List Host.Cell) : (s.setMem m).mem = m := rfl
@[simp] theorem State.setMem_keys (m : List Host.Cell) : (s.setMem m).keys = s.keys := rfl
@[simp] theorem State.setMem_tlb (m : List Host.Cell) : (s.setMem m).tlb = s.tlb := rfl
@[simp] theorem State.setMem_asyncPending (m : List Host.Cell) : (s.setMem m).asyncPending = s.asyncPending := rfl
@[simp] theorem State.setMem_installation (m : List Host.Cell) : (s.setMem m).installation = s.installation := rfl
@[simp] theorem State.setMem_environment (m : List Host.Cell) : (s.setMem m).environment = s.environment := rfl
@[simp] theorem State.setMem_interleaving (m : List Host.Cell) : (s.setMem m).interleaving = s.interleaving := rfl
@[simp] theorem State.setMem_draws (m : List Host.Cell) : (s.setMem m).draws = s.draws := rfl
@[simp] theorem State.setMem_newPswUntried (m : List Host.Cell) : (s.setMem m).newPswUntried = s.newPswUntried := rfl

/-! ## drawn -/

@[simp] theorem State.drawn_gprs (n : Nat) : (s.drawn n).gprs = s.gprs := rfl
@[simp] theorem State.drawn_crs (n : Nat) : (s.drawn n).crs = s.crs := rfl
@[simp] theorem State.drawn_ars (n : Nat) : (s.drawn n).ars = s.ars := rfl
@[simp] theorem State.drawn_psw (n : Nat) : (s.drawn n).psw = s.psw := rfl
@[simp] theorem State.drawn_prefixReg (n : Nat) : (s.drawn n).prefixReg = s.prefixReg := rfl
@[simp] theorem State.drawn_mem (n : Nat) : (s.drawn n).mem = s.mem := rfl
@[simp] theorem State.drawn_keys (n : Nat) : (s.drawn n).keys = s.keys := rfl
@[simp] theorem State.drawn_tlb (n : Nat) : (s.drawn n).tlb = s.tlb := rfl
@[simp] theorem State.drawn_asyncPending (n : Nat) : (s.drawn n).asyncPending = s.asyncPending := rfl
@[simp] theorem State.drawn_installation (n : Nat) : (s.drawn n).installation = s.installation := rfl
@[simp] theorem State.drawn_environment (n : Nat) : (s.drawn n).environment = s.environment := rfl
@[simp] theorem State.drawn_interleaving (n : Nat) : (s.drawn n).interleaving = s.interleaving := rfl
@[simp] theorem State.drawn_draws (n : Nat) : (s.drawn n).draws = s.draws + n := rfl
@[simp] theorem State.drawn_newPswUntried (n : Nat) : (s.drawn n).newPswUntried = s.newPswUntried := rfl

/-! ## setCc -/

@[simp] theorem State.setCc_gprs (v : BitVec 2) : (s.setCc v).gprs = s.gprs := rfl
@[simp] theorem State.setCc_crs (v : BitVec 2) : (s.setCc v).crs = s.crs := rfl
@[simp] theorem State.setCc_ars (v : BitVec 2) : (s.setCc v).ars = s.ars := rfl
@[simp] theorem State.setCc_psw (v : BitVec 2) : (s.setCc v).psw = pswSetCc s.psw v := rfl
@[simp] theorem State.setCc_prefixReg (v : BitVec 2) : (s.setCc v).prefixReg = s.prefixReg := rfl
@[simp] theorem State.setCc_mem (v : BitVec 2) : (s.setCc v).mem = s.mem := rfl
@[simp] theorem State.setCc_keys (v : BitVec 2) : (s.setCc v).keys = s.keys := rfl
@[simp] theorem State.setCc_tlb (v : BitVec 2) : (s.setCc v).tlb = s.tlb := rfl
@[simp] theorem State.setCc_asyncPending (v : BitVec 2) : (s.setCc v).asyncPending = s.asyncPending := rfl
@[simp] theorem State.setCc_installation (v : BitVec 2) : (s.setCc v).installation = s.installation := rfl
@[simp] theorem State.setCc_environment (v : BitVec 2) : (s.setCc v).environment = s.environment := rfl
@[simp] theorem State.setCc_interleaving (v : BitVec 2) : (s.setCc v).interleaving = s.interleaving := rfl
@[simp] theorem State.setCc_draws (v : BitVec 2) : (s.setCc v).draws = s.draws := rfl
@[simp] theorem State.setCc_newPswUntried (v : BitVec 2) : (s.setCc v).newPswUntried = s.newPswUntried := rfl

/-! ## advance -/

@[simp] theorem State.advance_gprs (n : Word) : (s.advance n).gprs = s.gprs := rfl
@[simp] theorem State.advance_crs (n : Word) : (s.advance n).crs = s.crs := rfl
@[simp] theorem State.advance_ars (n : Word) : (s.advance n).ars = s.ars := rfl
@[simp] theorem State.advance_psw (n : Word) : (s.advance n).psw = pswSetAddress s.psw (addrMode s.mode (pswAddress s.psw + n)) := rfl
@[simp] theorem State.advance_prefixReg (n : Word) : (s.advance n).prefixReg = s.prefixReg := rfl
@[simp] theorem State.advance_mem (n : Word) : (s.advance n).mem = s.mem := rfl
@[simp] theorem State.advance_keys (n : Word) : (s.advance n).keys = s.keys := rfl
@[simp] theorem State.advance_tlb (n : Word) : (s.advance n).tlb = s.tlb := rfl
@[simp] theorem State.advance_asyncPending (n : Word) : (s.advance n).asyncPending = s.asyncPending := rfl
@[simp] theorem State.advance_installation (n : Word) : (s.advance n).installation = s.installation := rfl
@[simp] theorem State.advance_environment (n : Word) : (s.advance n).environment = s.environment := rfl
@[simp] theorem State.advance_interleaving (n : Word) : (s.advance n).interleaving = s.interleaving := rfl
@[simp] theorem State.advance_draws (n : Word) : (s.advance n).draws = s.draws := rfl
@[simp] theorem State.advance_newPswUntried (n : Word) : (s.advance n).newPswUntried = s.newPswUntried := rfl

/-! ## Accessors after updates -/

@[simp] theorem State.gpr_setGpr_same (r : Reg) (v : Word) : (s.setGpr r v).gpr r = v := by
  simp [State.gpr, State.setGpr]

theorem State.gpr_setGpr (r q : Reg) (v : Word) : (s.setGpr r v).gpr q = if r = q then v else s.gpr q := by
  simp only [State.gpr, State.setGpr, Vector.getElem_set, Fin.ext_iff]

theorem State.gpr_setGpr_ne {r q : Reg} (v : Word) (h : r ≠ q) : (s.setGpr r v).gpr q = s.gpr q := by
  rw [State.gpr_setGpr, if_neg h]

/-- Registers agree as soon as they agree one by one. -/
theorem State.gprs_ext {s t : State} (h : ∀ r, s.gpr r = t.gpr r) : s.gprs = t.gprs := by
  apply Vector.ext
  intro i hi
  exact h ⟨i, hi⟩

@[simp] theorem State.cr_setGpr (r : Reg) (v : Word) (q : Reg) : (s.setGpr r v).cr q = s.cr q := rfl
@[simp] theorem State.ar_setGpr (r : Reg) (v : Word) (q : Reg) : (s.setGpr r v).ar q = s.ar q := rfl
@[simp] theorem State.byte_setGpr (r : Reg) (v : Word) (a : Nat) : (s.setGpr r v).byte a = s.byte a := rfl
@[simp] theorem State.keyState_setGpr (r : Reg) (v : Word) (b : Nat) : (s.setGpr r v).keyState b = s.keyState b := rfl
@[simp] theorem State.key_setGpr (r : Reg) (v : Word) (b : Nat) : (s.setGpr r v).key b = s.key b := rfl
@[simp] theorem State.available_setGpr (r : Reg) (v : Word) (aa : Word) : (s.setGpr r v).available aa = s.available aa := rfl
@[simp] theorem State.availableMany_setGpr (r : Reg) (v : Word) (aa : Word) (l : Nat) :
    (s.setGpr r v).availableMany aa l = s.availableMany aa l := rfl
@[simp] theorem State.mode_setGpr (r : Reg) (v : Word) : (s.setGpr r v).mode = s.mode := rfl
@[simp] theorem State.edatApplies_setGpr (r : Reg) (v : Word) : (s.setGpr r v).edatApplies = s.edatApplies := rfl

@[simp] theorem State.gpr_setPsw (p : BitVec 128) (q : Reg) : (s.setPsw p).gpr q = s.gpr q := rfl
@[simp] theorem State.cr_setPsw (p : BitVec 128) (q : Reg) : (s.setPsw p).cr q = s.cr q := rfl
@[simp] theorem State.ar_setPsw (p : BitVec 128) (q : Reg) : (s.setPsw p).ar q = s.ar q := rfl
@[simp] theorem State.byte_setPsw (p : BitVec 128) (a : Nat) : (s.setPsw p).byte a = s.byte a := rfl
@[simp] theorem State.keyState_setPsw (p : BitVec 128) (b : Nat) : (s.setPsw p).keyState b = s.keyState b := rfl
@[simp] theorem State.key_setPsw (p : BitVec 128) (b : Nat) : (s.setPsw p).key b = s.key b := rfl
@[simp] theorem State.available_setPsw (p : BitVec 128) (aa : Word) : (s.setPsw p).available aa = s.available aa := rfl
@[simp] theorem State.availableMany_setPsw (p : BitVec 128) (aa : Word) (l : Nat) :
    (s.setPsw p).availableMany aa l = s.availableMany aa l := rfl
@[simp] theorem State.edatApplies_setPsw (p : BitVec 128) : (s.setPsw p).edatApplies = s.edatApplies := rfl

@[simp] theorem State.gpr_setKeyState (b : Nat) (k : KeyState) (q : Reg) : (s.setKeyState b k).gpr q = s.gpr q := rfl
@[simp] theorem State.cr_setKeyState (b : Nat) (k : KeyState) (q : Reg) : (s.setKeyState b k).cr q = s.cr q := rfl
@[simp] theorem State.ar_setKeyState (b : Nat) (k : KeyState) (q : Reg) : (s.setKeyState b k).ar q = s.ar q := rfl
@[simp] theorem State.byte_setKeyState (b : Nat) (k : KeyState) (a : Nat) : (s.setKeyState b k).byte a = s.byte a := rfl
@[simp] theorem State.available_setKeyState (b : Nat) (k : KeyState) (aa : Word) : (s.setKeyState b k).available aa = s.available aa := rfl
@[simp] theorem State.availableMany_setKeyState (b : Nat) (k : KeyState) (aa : Word) (l : Nat) :
    (s.setKeyState b k).availableMany aa l = s.availableMany aa l := rfl
@[simp] theorem State.mode_setKeyState (b : Nat) (k : KeyState) : (s.setKeyState b k).mode = s.mode := rfl
@[simp] theorem State.edatApplies_setKeyState (b : Nat) (k : KeyState) : (s.setKeyState b k).edatApplies = s.edatApplies := rfl

@[simp] theorem State.gpr_setMem (m : List Host.Cell) (q : Reg) : (s.setMem m).gpr q = s.gpr q := rfl
@[simp] theorem State.cr_setMem (m : List Host.Cell) (q : Reg) : (s.setMem m).cr q = s.cr q := rfl
@[simp] theorem State.ar_setMem (m : List Host.Cell) (q : Reg) : (s.setMem m).ar q = s.ar q := rfl
@[simp] theorem State.keyState_setMem (m : List Host.Cell) (b : Nat) : (s.setMem m).keyState b = s.keyState b := rfl
@[simp] theorem State.key_setMem (m : List Host.Cell) (b : Nat) : (s.setMem m).key b = s.key b := rfl
@[simp] theorem State.available_setMem (m : List Host.Cell) (aa : Word) : (s.setMem m).available aa = s.available aa := rfl
@[simp] theorem State.availableMany_setMem (m : List Host.Cell) (aa : Word) (l : Nat) :
    (s.setMem m).availableMany aa l = s.availableMany aa l := rfl
@[simp] theorem State.mode_setMem (m : List Host.Cell) : (s.setMem m).mode = s.mode := rfl
@[simp] theorem State.edatApplies_setMem (m : List Host.Cell) : (s.setMem m).edatApplies = s.edatApplies := rfl

@[simp] theorem State.gpr_drawn (n : Nat) (q : Reg) : (s.drawn n).gpr q = s.gpr q := rfl
@[simp] theorem State.cr_drawn (n : Nat) (q : Reg) : (s.drawn n).cr q = s.cr q := rfl
@[simp] theorem State.ar_drawn (n : Nat) (q : Reg) : (s.drawn n).ar q = s.ar q := rfl
@[simp] theorem State.byte_drawn (n : Nat) (a : Nat) : (s.drawn n).byte a = s.byte a := rfl
@[simp] theorem State.keyState_drawn (n : Nat) (b : Nat) : (s.drawn n).keyState b = s.keyState b := rfl
@[simp] theorem State.key_drawn (n : Nat) (b : Nat) : (s.drawn n).key b = s.key b := rfl
@[simp] theorem State.available_drawn (n : Nat) (aa : Word) : (s.drawn n).available aa = s.available aa := rfl
@[simp] theorem State.availableMany_drawn (n : Nat) (aa : Word) (l : Nat) :
    (s.drawn n).availableMany aa l = s.availableMany aa l := rfl
@[simp] theorem State.mode_drawn (n : Nat) : (s.drawn n).mode = s.mode := rfl
@[simp] theorem State.edatApplies_drawn (n : Nat) : (s.drawn n).edatApplies = s.edatApplies := rfl

@[simp] theorem State.gpr_setCc (v : BitVec 2) (q : Reg) : (s.setCc v).gpr q = s.gpr q := rfl
@[simp] theorem State.cr_setCc (v : BitVec 2) (q : Reg) : (s.setCc v).cr q = s.cr q := rfl
@[simp] theorem State.ar_setCc (v : BitVec 2) (q : Reg) : (s.setCc v).ar q = s.ar q := rfl
@[simp] theorem State.byte_setCc (v : BitVec 2) (a : Nat) : (s.setCc v).byte a = s.byte a := rfl
@[simp] theorem State.keyState_setCc (v : BitVec 2) (b : Nat) : (s.setCc v).keyState b = s.keyState b := rfl
@[simp] theorem State.key_setCc (v : BitVec 2) (b : Nat) : (s.setCc v).key b = s.key b := rfl
@[simp] theorem State.available_setCc (v : BitVec 2) (aa : Word) : (s.setCc v).available aa = s.available aa := rfl
@[simp] theorem State.availableMany_setCc (v : BitVec 2) (aa : Word) (l : Nat) :
    (s.setCc v).availableMany aa l = s.availableMany aa l := rfl
@[simp] theorem State.edatApplies_setCc (v : BitVec 2) : (s.setCc v).edatApplies = s.edatApplies := rfl

@[simp] theorem State.gpr_advance (n : Word) (q : Reg) : (s.advance n).gpr q = s.gpr q := rfl
@[simp] theorem State.cr_advance (n : Word) (q : Reg) : (s.advance n).cr q = s.cr q := rfl
@[simp] theorem State.ar_advance (n : Word) (q : Reg) : (s.advance n).ar q = s.ar q := rfl
@[simp] theorem State.byte_advance (n : Word) (a : Nat) : (s.advance n).byte a = s.byte a := rfl
@[simp] theorem State.keyState_advance (n : Word) (b : Nat) : (s.advance n).keyState b = s.keyState b := rfl
@[simp] theorem State.key_advance (n : Word) (b : Nat) : (s.advance n).key b = s.key b := rfl
@[simp] theorem State.available_advance (n : Word) (aa : Word) : (s.advance n).available aa = s.available aa := rfl
@[simp] theorem State.availableMany_advance (n : Word) (aa : Word) (l : Nat) :
    (s.advance n).availableMany aa l = s.availableMany aa l := rfl
@[simp] theorem State.edatApplies_advance (n : Word) : (s.advance n).edatApplies = s.edatApplies := rfl

end Sys2Proof.Machine
end

