-- ==== Sys2Proof/Laws/Recording.lean ====
section
/-! SUPPORT. Reference and change recording, stores and loads of absolute storage: what each can do. -/

namespace Sys2Proof.Machine

/-! ## Recording leaves everything but one key -/

@[simp] theorem recordReference_gprs (aa : Word) (s : State) : (recordReference aa s).gprs = s.gprs := rfl
@[simp] theorem recordReference_crs (aa : Word) (s : State) : (recordReference aa s).crs = s.crs := rfl
@[simp] theorem recordReference_ars (aa : Word) (s : State) : (recordReference aa s).ars = s.ars := rfl
@[simp] theorem recordReference_psw (aa : Word) (s : State) : (recordReference aa s).psw = s.psw := rfl
@[simp] theorem recordReference_prefixReg (aa : Word) (s : State) : (recordReference aa s).prefixReg = s.prefixReg := rfl
@[simp] theorem recordReference_tlb (aa : Word) (s : State) : (recordReference aa s).tlb = s.tlb := rfl
@[simp] theorem recordReference_asyncPending (aa : Word) (s : State) : (recordReference aa s).asyncPending = s.asyncPending := rfl
@[simp] theorem recordReference_installation (aa : Word) (s : State) : (recordReference aa s).installation = s.installation := rfl
@[simp] theorem recordReference_environment (aa : Word) (s : State) : (recordReference aa s).environment = s.environment := rfl
@[simp] theorem recordReference_interleaving (aa : Word) (s : State) : (recordReference aa s).interleaving = s.interleaving := rfl
@[simp] theorem recordReference_newPswUntried (aa : Word) (s : State) : (recordReference aa s).newPswUntried = s.newPswUntried := rfl
@[simp] theorem recordReference_mem (aa : Word) (s : State) : (recordReference aa s).mem = s.mem := rfl
@[simp] theorem recordReference_draws (aa : Word) (s : State) : (recordReference aa s).draws = s.draws + 1 := rfl
@[simp] theorem recordReference_gpr (aa : Word) (s : State) (q : Reg) : (recordReference aa s).gpr q = s.gpr q := rfl
@[simp] theorem recordReference_cr (aa : Word) (s : State) (q : Reg) : (recordReference aa s).cr q = s.cr q := rfl
@[simp] theorem recordReference_ar (aa : Word) (s : State) (q : Reg) : (recordReference aa s).ar q = s.ar q := rfl
@[simp] theorem recordReference_byte (aa : Word) (s : State) (x : Nat) : (recordReference aa s).byte x = s.byte x := rfl
@[simp] theorem recordReference_available (aa : Word) (s : State) (x : Word) : (recordReference aa s).available x = s.available x := rfl
@[simp] theorem recordReference_availableMany (aa : Word) (s : State) (x : Word) (l : Nat) :
    (recordReference aa s).availableMany x l = s.availableMany x l := rfl
@[simp] theorem recordReference_mode (aa : Word) (s : State) : (recordReference aa s).mode = s.mode := rfl

@[simp] theorem recordChange_gprs (aa : Word) (co ch : Bool) (s : State) : (recordChange aa co ch s).gprs = s.gprs := rfl
@[simp] theorem recordChange_crs (aa : Word) (co ch : Bool) (s : State) : (recordChange aa co ch s).crs = s.crs := rfl
@[simp] theorem recordChange_ars (aa : Word) (co ch : Bool) (s : State) : (recordChange aa co ch s).ars = s.ars := rfl
@[simp] theorem recordChange_psw (aa : Word) (co ch : Bool) (s : State) : (recordChange aa co ch s).psw = s.psw := rfl
@[simp] theorem recordChange_prefixReg (aa : Word) (co ch : Bool) (s : State) : (recordChange aa co ch s).prefixReg = s.prefixReg := rfl
@[simp] theorem recordChange_tlb (aa : Word) (co ch : Bool) (s : State) : (recordChange aa co ch s).tlb = s.tlb := rfl
@[simp] theorem recordChange_asyncPending (aa : Word) (co ch : Bool) (s : State) : (recordChange aa co ch s).asyncPending = s.asyncPending := rfl
@[simp] theorem recordChange_installation (aa : Word) (co ch : Bool) (s : State) : (recordChange aa co ch s).installation = s.installation := rfl
@[simp] theorem recordChange_environment (aa : Word) (co ch : Bool) (s : State) : (recordChange aa co ch s).environment = s.environment := rfl
@[simp] theorem recordChange_interleaving (aa : Word) (co ch : Bool) (s : State) : (recordChange aa co ch s).interleaving = s.interleaving := rfl
@[simp] theorem recordChange_newPswUntried (aa : Word) (co ch : Bool) (s : State) : (recordChange aa co ch s).newPswUntried = s.newPswUntried := rfl
@[simp] theorem recordChange_mem (aa : Word) (co ch : Bool) (s : State) : (recordChange aa co ch s).mem = s.mem := rfl
@[simp] theorem recordChange_draws (aa : Word) (co ch : Bool) (s : State) : (recordChange aa co ch s).draws = s.draws + 1 := rfl
@[simp] theorem recordChange_gpr (aa : Word) (co ch : Bool) (s : State) (q : Reg) : (recordChange aa co ch s).gpr q = s.gpr q := rfl
@[simp] theorem recordChange_cr (aa : Word) (co ch : Bool) (s : State) (q : Reg) : (recordChange aa co ch s).cr q = s.cr q := rfl
@[simp] theorem recordChange_ar (aa : Word) (co ch : Bool) (s : State) (q : Reg) : (recordChange aa co ch s).ar q = s.ar q := rfl
@[simp] theorem recordChange_byte (aa : Word) (co ch : Bool) (s : State) (x : Nat) : (recordChange aa co ch s).byte x = s.byte x := rfl
@[simp] theorem recordChange_available (aa : Word) (co ch : Bool) (s : State) (x : Word) : (recordChange aa co ch s).available x = s.available x := rfl
@[simp] theorem recordChange_availableMany (aa : Word) (co ch : Bool) (s : State) (x : Word) (l : Nat) :
    (recordChange aa co ch s).availableMany x l = s.availableMany x l := rfl
@[simp] theorem recordChange_mode (aa : Word) (co ch : Bool) (s : State) : (recordChange aa co ch s).mode = s.mode := rfl

/-! ## What it does to keys -/

theorem State.keyState_setKeyState (s : State) (b : Nat) (k : KeyState) (c : Nat) :
    (s.setKeyState b k).keyState c = if b = c then k else s.keyState c := by
  simp only [State.keyState, State.setKeyState, Keys.read_write]

@[simp] theorem State.keyState_setKeyState_same (s : State) (b : Nat) (k : KeyState) :
    (s.setKeyState b k).keyState b = k := by
  rw [State.keyState_setKeyState, if_pos rfl]

theorem State.keyState_setKeyState_ne (s : State) {b c : Nat} (k : KeyState) (h : c ≠ b) :
    (s.setKeyState b k).keyState c = s.keyState c := by
  rw [State.keyState_setKeyState, if_neg (Ne.symm h)]

theorem keyState_recordReference (aa : Word) (s : State) (b : Nat) :
    (recordReference aa s).keyState b =
      if blockOf aa = b then
        { s.keyState b with key := { s.key b with r := (s.key b).r || Config.freeBit s.draws } }
      else s.keyState b := by
  simp only [recordReference, State.keyState_drawn, State.keyState_setKeyState]
  split
  · next h => subst h; rfl
  · rfl

theorem keyState_recordChange (aa : Word) (co ch : Bool) (s : State) (b : Nat) :
    (recordChange aa co ch s).keyState b =
      if blockOf aa = b then
        { s.keyState b with
          key := { s.key b with c := (s.key b).c || (if ch && !co then true else Config.freeBit s.draws) } }
      else s.keyState b := by
  simp only [recordChange, State.keyState_drawn, State.keyState_setKeyState]
  split
  · next h => subst h; rfl
  · rfl

theorem recordReference_sameAccess (aa : Word) (s : State) : sameAccess s (recordReference aa s) := by
  intro b
  simp only [State.key, keyState_recordReference]
  split <;> simp

theorem recordChange_sameAccess (aa : Word) (co ch : Bool) (s : State) : sameAccess s (recordChange aa co ch s) := by
  intro b
  simp only [State.key, keyState_recordChange]
  split <;> simp

theorem sameAccess.refl (s : State) : sameAccess s s := fun _ => ⟨rfl, rfl, rfl⟩

theorem sameAccess.trans {s t u : State} (h : sameAccess s t) (g : sameAccess t u) : sameAccess s u := fun b =>
  ⟨(g b).1.trans (h b).1, (g b).2.1.trans (h b).2.1, (g b).2.2.trans (h b).2.2⟩

theorem sameKeysBut.refl (b : Nat) (s : State) : sameKeysBut b s s := fun _ _ => rfl

theorem sameKeysBut.trans {b : Nat} {s t u : State} (h : sameKeysBut b s t) (g : sameKeysBut b t u) :
    sameKeysBut b s u := fun c hc => (g c hc).trans (h c hc)

theorem sameControls.refl (s : State) : sameControls s s := ⟨rfl, rfl, rfl, rfl⟩

theorem sameControls.trans {s t u : State} (h : sameControls s t) (g : sameControls t u) : sameControls s u :=
  ⟨g.1.trans h.1, g.2.1.trans h.2.1, g.2.2.1.trans h.2.2.1, g.2.2.2.trans h.2.2.2⟩

theorem recordReference_sameKeysBut (aa : Word) (s : State) : sameKeysBut (blockOf aa) s (recordReference aa s) := by
  intro c hc
  rw [keyState_recordReference, if_neg (Ne.symm hc)]

theorem recordChange_sameKeysBut (aa : Word) (co ch : Bool) (s : State) :
    sameKeysBut (blockOf aa) s (recordChange aa co ch s) := by
  intro c hc
  rw [keyState_recordChange, if_neg (Ne.symm hc)]

/-- Recording a reference clears no bit. -/
theorem recordReference_records (aa : Word) (s : State) (b : Nat) :
    ((s.key b).r = true → ((recordReference aa s).key b).r = true) ∧
      ((s.key b).c = true → ((recordReference aa s).key b).c = true) := by
  simp only [State.key, keyState_recordReference]
  split <;> simp +contextual

/-- Recording a change clears no bit. -/
theorem recordChange_records (aa : Word) (co ch : Bool) (s : State) (b : Nat) :
    ((s.key b).r = true → ((recordChange aa co ch s).key b).r = true) ∧
      ((s.key b).c = true → ((recordChange aa co ch s).key b).c = true) := by
  simp only [State.key, keyState_recordChange]
  split <;> simp +contextual

/-- A change that no override covers sets C. -/
theorem recordChange_sets (aa : Word) (s : State) : ((recordChange aa false true s).key (blockOf aa)).c = true := by
  simp [State.key, keyState_recordChange]

/-! ## The invariant -/

theorem State.Inv.setKeyState {s : State} (h : s.Inv) {b : Nat} (k : KeyState)
    (hb : blockAvailable s.installation b = true) : (s.setKeyState b k).Inv := by
  refine ⟨h.1, Keys.wf_write h.2.1 b k, h.2.2.1, ?_⟩
  intro c hc
  rcases Keys.mem_write hc with hc | hc
  · subst hc; exact hb
  · exact h.2.2.2 c hc

theorem State.Inv.of_eq {s t : State} (h : s.Inv) (hm : t.mem = s.mem) (hk : t.keys = s.keys)
    (hi : t.installation = s.installation) : t.Inv := by
  unfold State.Inv
  rw [hm, hk, hi]
  exact h

theorem State.Inv.recordReference {s : State} (h : s.Inv) {aa : Word} (ha : s.available aa = true) :
    (recordReference aa s).Inv :=
  (h.setKeyState _ ha).of_eq rfl rfl rfl

theorem State.Inv.recordChange {s : State} (h : s.Inv) {aa : Word} (co ch : Bool) (ha : s.available aa = true) :
    (recordChange aa co ch s).Inv :=
  (h.setKeyState _ ha).of_eq rfl rfl rfl

end Sys2Proof.Machine
end

