-- ==== Sys2Proof/Laws/Storage.lean ====
section
/-! SUPPORT. Stores and loads of absolute storage and the assigned locations: what each can do. -/

namespace Sys2Proof.Machine

open Sys2Proof.Config (InterruptionClass)

/-! ## Availability -/

theorem State.availableMany_first {s : State} {aa : Word} {n : Nat} (hn : 0 < n)
    (h : s.availableMany aa n = true) : s.available aa = true := by
  simp only [State.availableMany, List.all_eq_true, List.mem_range] at h
  simpa [State.available, blockOf] using h 0 hn

theorem State.availableMany_get {s : State} {aa : Word} {n : Nat} (h : s.availableMany aa n = true) {x : Nat}
    (h1 : aa.toNat ≤ x) (h2 : x < aa.toNat + n) : blockAvailable s.installation (x / 4096) = true := by
  simp only [State.availableMany, List.all_eq_true, List.mem_range] at h
  have h3 := h (x - aa.toNat) (by omega)
  rwa [show aa.toNat + (x - aa.toNat) = x by omega] at h3

/-- Bytes of one block are available together. -/
theorem State.availableMany_of_block {s : State} {aa : Word} {n : Nat} (h : s.available aa = true)
    (hn : aa.toNat % 4096 + n ≤ 4096) : s.availableMany aa n = true := by
  simp only [State.availableMany, List.all_eq_true, List.mem_range]
  intro i hi
  rw [show (aa.toNat + i) / 4096 = aa.toNat / 4096 by omega]
  exact h

/-! ## absStore and absLoad -/

/-- A store of available storage: its result. -/
theorem absStore_eq {aa : Word} {bs : List Byte} {s : State} (h : s.availableMany aa bs.length = true) :
    absStore aa bs s = some (recordChange aa false (Memory.readMany s.mem aa.toNat bs.length != bs)
      (recordReference aa (s.setMem (Memory.writeMany s.mem aa.toNat bs)))) := by
  simp [absStore, h]

/-- What a store can change: the bytes stored, and R and C of the block. -/
theorem absStore_frame {aa : Word} {bs : List Byte} {s t : State} (h : absStore aa bs s = some t) :
    t.gprs = s.gprs ∧ t.psw = s.psw ∧ sameControls s t ∧ sameHidden s t ∧ sameAccess s t ∧
      sameKeysBut (blockOf aa) s t ∧ t.mem = Memory.writeMany s.mem aa.toNat bs := by
  unfold absStore at h
  split at h
  · cases h
    refine ⟨rfl, rfl, ⟨rfl, rfl, rfl, rfl⟩, ⟨rfl, rfl, rfl, rfl, rfl⟩, ?_, ?_, rfl⟩
    · exact (sameAccess.refl _).trans
        ((recordReference_sameAccess aa _).trans (recordChange_sameAccess aa _ _ _))
    · exact (recordReference_sameKeysBut aa (s.setMem _)).trans (recordChange_sameKeysBut aa _ _ _)
  · cases h

/-- What a store records: no bit is cleared, and C of its block is set where a byte changed (R181, R183). -/
theorem absStore_records {aa : Word} {bs : List Byte} {s t : State} (h : absStore aa bs s = some t) :
    ((s.key (blockOf aa)).r = true → (t.key (blockOf aa)).r = true) ∧
      ((s.key (blockOf aa)).c = true → (t.key (blockOf aa)).c = true) ∧
      ((∃ x : Nat, t.byte x ≠ s.byte x) → (t.key (blockOf aa)).c = true) := by
  unfold absStore at h
  split at h
  · cases h
    have h1 := recordReference_records aa (s.setMem (Memory.writeMany s.mem aa.toNat bs)) (blockOf aa)
    have h2 := recordChange_records aa false (Memory.readMany s.mem aa.toNat bs.length != bs)
      (recordReference aa (s.setMem (Memory.writeMany s.mem aa.toNat bs))) (blockOf aa)
    refine ⟨h2.1 ∘ h1.1, h2.2 ∘ h1.2, fun ⟨x, hx⟩ => ?_⟩
    by_cases hc : Memory.readMany s.mem aa.toNat bs.length = bs
    · exact absurd (Memory.read_writeMany_same hc x) hx
    · rw [show (Memory.readMany s.mem aa.toNat bs.length != bs) = true by simpa using hc]
      exact recordChange_sets aa _
  · cases h

theorem State.Inv.absStore {aa : Word} {bs : List Byte} {s t : State} (hs : s.Inv) (hb : 0 < bs.length)
    (h : absStore aa bs s = some t) : t.Inv := by
  unfold Machine.absStore at h
  split at h
  · next ha =>
    cases h
    have h1 : (s.setMem (Memory.writeMany s.mem aa.toNat bs)).Inv := by
      refine ⟨Memory.wf_writeMany hs.1 _ _, hs.2.1, ?_, hs.2.2.2⟩
      intro c hc
      rcases Memory.mem_writeMany hc with hc | ⟨h2, h3⟩
      · exact hs.2.2.1 c hc
      · exact State.availableMany_get ha h2 h3
    have h2 := State.availableMany_first hb ha
    exact (h1.recordReference h2).recordChange _ _ h2
  · cases h

/-- A load of available storage: its result. -/
theorem absLoad_eq {aa : Word} {n : Nat} {s : State} (h : s.availableMany aa n = true) :
    absLoad aa n s = some (Memory.readMany s.mem aa.toNat n, recordReference aa s) := by
  simp [absLoad, h]

/-- What a load can change: R of the block. -/
theorem absLoad_cases {aa : Word} {n : Nat} {s : State} {r : List Byte × State} (h : absLoad aa n s = some r) :
    s.availableMany aa n = true ∧ r = (Memory.readMany s.mem aa.toNat n, recordReference aa s) := by
  unfold absLoad at h
  split at h
  · next ha => cases h; exact ⟨ha, rfl⟩
  · cases h

/-! ## Assigned locations -/

/-- A real address of the first 8 KB is moved to the prefix area. -/
theorem applyPrefix_low (p : BitVec 51) {loc : Word} (h : field loc 0 50 = 0) :
    applyPrefix p loc = p ++ field loc 51 63 := if_pos h

theorem toNat_prefixed (p : BitVec 51) (x : BitVec 13) : (p ++ x).toNat = p.toNat * 8192 + x.toNat := by
  rw [BitVec.toNat_append, Nat.shiftLeft_eq, mul_comm, ← Nat.two_pow_add_eq_or_of_lt x.isLt]

/-- An assigned location of the first page, in absolute storage. -/
theorem assigned_eq (s : State) {loc : Word} (h : field loc 0 50 = 0) :
    assigned s loc = s.prefixReg.toNat * 8192 + (field loc 51 63).toNat := by
  rw [assigned, applyPrefix_low _ h, toNat_prefixed]

theorem available_assigned {s : State} (hp : s.prefixAreaAvailable = true) {loc : Word} (h : field loc 0 50 = 0)
    (hl : (field loc 51 63).toNat < 4096) : s.available (applyPrefix s.prefixReg loc) = true := by
  have h0 : field (0 : Word) 0 50 = 0 := by decide
  have e : ∀ x : BitVec 13, x.toNat < 4096 → (s.prefixReg ++ x).toNat / 4096 = 2 * s.prefixReg.toNat := by
    intro x hx; rw [toNat_prefixed]; omega
  have hz : (field (0 : Word) 51 63).toNat = 0 := by decide
  simp only [State.prefixAreaAvailable, State.available, blockOf, applyPrefix_low _ h0,
    e _ (by rw [hz]; omega)] at hp
  simp only [State.available, blockOf, applyPrefix_low _ h, e _ hl, hp]

/-- The block of the assigned locations. -/
theorem blockOf_assigned (s : State) {loc : Word} (h : field loc 0 50 = 0) (hl : (field loc 51 63).toNat < 4096) :
    blockOf (applyPrefix s.prefixReg loc) = 2 * s.prefixReg.toNat := by
  rw [blockOf, applyPrefix_low _ h, toNat_prefixed]
  omega

theorem availableMany_assigned {s : State} (hp : s.prefixAreaAvailable = true) {loc : Word} {n : Nat}
    (h : field loc 0 50 = 0) (hl : (field loc 51 63).toNat + n ≤ 4096) (hn : 0 < n) :
    s.availableMany (applyPrefix s.prefixReg loc) n = true := by
  apply State.availableMany_of_block (available_assigned hp h (by omega))
  rw [applyPrefix_low _ h, toNat_prefixed]
  omega

end Sys2Proof.Machine
end

