-- ==== Sys2Proof/Laws/Blocks.lean ====
section
/-! SUPPORT. The addresses of blocks as numbers, and the run over the blocks of a megabyte. -/

namespace Sys2Proof.Machine

/-! ## Addresses as numbers -/

/-- The number of bits of an address in the mode (R34). -/
def modeBits : AddressingMode → Nat
  | .bits24 => 24
  | .bits31 => 31
  | .bits64 => 64

theorem toNat_field {n : Nat} (v : BitVec n) (a b : Nat) :
    (field v a b).toNat = v.toNat / 2 ^ (n - 1 - b) % 2 ^ (b - a + 1) := by
  simp [field, BitVec.extractLsb'_toNat, Nat.shiftRight_eq_div_pow]

theorem toNat_addrMode (m : AddressingMode) (v : Word) : (addrMode m v).toNat = v.toNat % 2 ^ modeBits m := by
  have := v.isLt
  cases m <;> simp only [addrMode, modeBits, BitVec.toNat_setWidth] <;> omega

theorem toNat_append_zeros {n k : Nat} (x : BitVec n) : (x ++ (0 : BitVec k)).toNat = x.toNat * 2 ^ k := by
  simp [BitVec.toNat_append, Nat.shiftLeft_eq]

theorem toNat_blockAddr (m : AddressingMode) (r : Word) :
    (blockAddr m r).toNat = r.toNat % 2 ^ modeBits m / 4096 * 4096 := by
  have h : ∀ x : Word, (field x 0 51 ++ (0 : BitVec 12)).toNat = x.toNat / 4096 * 4096 := by
    intro x
    rw [toNat_append_zeros, toNat_field]
    have := x.isLt
    omega
  rw [blockAddr, h, toNat_addrMode]

theorem toNat_nextBlock (m : AddressingMode) (a : Word) :
    (nextBlock m a).toNat = (a.toNat + 4096) % 2 ^ modeBits m := by
  rw [nextBlock, toNat_addrMode, BitVec.toNat_add]
  show (a.toNat + 4096) % 2 ^ 64 % _ = _
  cases m <;> simp only [modeBits] <;> omega

theorem toNat_blockInMegabyte (a : Word) : (blockInMegabyte a).toNat = a.toNat / 4096 % 256 := by
  rw [blockInMegabyte, toNat_field]
  norm_num

theorem blockInMegabyte_eq_zero (a : Word) : blockInMegabyte a = 0 ↔ a.toNat / 4096 % 256 = 0 := by
  rw [← toNat_blockInMegabyte]
  exact ⟨fun h => by simp [h], fun h => BitVec.eq_of_toNat_eq (by simpa using h)⟩

theorem toNat_nextMegabyte (m : AddressingMode) (a : Word) :
    (nextMegabyte m a).toNat = (a.toNat / 1048576 * 1048576 + 1048576) % 2 ^ modeBits m := by
  have h : (field a 0 43 ++ (0 : BitVec 20)).toNat = a.toNat / 1048576 * 1048576 := by
    rw [toNat_append_zeros, toNat_field]
    have := a.isLt
    omega
  rw [nextMegabyte, toNat_addrMode, BitVec.toNat_add]
  show ((field a 0 43 ++ (0 : BitVec 20)).toNat + 1048576) % 2 ^ 64 % _ = _
  rw [h]
  cases m <;> simp only [modeBits] <;> omega

/-- The address of the block `i` blocks after `a`. -/
def blockFrom (a : Word) (i : Nat) : Word := a + BitVec.ofNat 64 (4096 * i)

/-- `a` is the address of a block in the mode. -/
def isBlockAddress (m : AddressingMode) (a : Word) : Prop := a.toNat % 4096 = 0 ∧ a.toNat < 2 ^ modeBits m

theorem blockAddr_isBlockAddress (m : AddressingMode) (r : Word) : isBlockAddress m (blockAddr m r) := by
  refine ⟨by rw [toNat_blockAddr]; omega, ?_⟩
  rw [toNat_blockAddr]
  cases m <;> simp only [modeBits] <;> omega

theorem toNat_blockFrom {m : AddressingMode} {a : Word} (h : isBlockAddress m a) {i : Nat} (hi : i < blocksLeft a) :
    (blockFrom a i).toNat = a.toNat + 4096 * i ∧ a.toNat + 4096 * i < 2 ^ modeBits m := by
  obtain ⟨h1, h2⟩ := h
  have h3 : i < 256 - a.toNat / 4096 % 256 := by rw [← toNat_blockInMegabyte]; exact hi
  have h4 := a.isLt
  have h5 : a.toNat + 4096 * i < 2 ^ modeBits m := by cases m <;> simp only [modeBits] at * <;> omega
  refine ⟨?_, h5⟩
  rw [blockFrom, BitVec.toNat_add, BitVec.toNat_ofNat]
  cases m <;> simp only [modeBits] at * <;> omega

@[simp] theorem blockFrom_zero (a : Word) : blockFrom a 0 = a := by simp [blockFrom]

theorem blockOf_blockFrom {m : AddressingMode} {a : Word} (h : isBlockAddress m a) {i : Nat}
    (hi : i < blocksLeft a) : blockOf (blockFrom a i) = blockOf a + i := by
  rw [blockOf, (toNat_blockFrom h hi).1, blockOf]
  have := h.1
  omega

theorem nextBlock_blockFrom {m : AddressingMode} {a : Word} (h : isBlockAddress m a) {i : Nat}
    (hi : i + 1 < blocksLeft a) :
    nextBlock m (blockFrom a i) = blockFrom a (i + 1) ∧ blockInMegabyte (blockFrom a (i + 1)) ≠ 0 := by
  obtain ⟨h1, h2⟩ := toNat_blockFrom h (show i < blocksLeft a by omega)
  obtain ⟨h3, h4⟩ := toNat_blockFrom h hi
  have h5 : i + 1 < 256 - a.toNat / 4096 % 256 := by rw [← toNat_blockInMegabyte]; exact hi
  constructor
  · apply BitVec.eq_of_toNat_eq
    rw [toNat_nextBlock, h1, h3, show a.toNat + 4096 * i + 4096 = a.toNat + 4096 * (i + 1) by ring]
    exact Nat.mod_eq_of_lt h4
  · rw [ne_eq, blockInMegabyte_eq_zero, h3]
    have := h.1
    omega

theorem nextBlock_last {m : AddressingMode} {a : Word} (h : isBlockAddress m a) {i : Nat}
    (hi : i + 1 = blocksLeft a) :
    nextBlock m (blockFrom a i) = nextMegabyte m a ∧ blockInMegabyte (nextMegabyte m a) = 0 := by
  obtain ⟨h1, h2⟩ := toNat_blockFrom h (show i < blocksLeft a by omega)
  have h5 : i + 1 = 256 - a.toNat / 4096 % 256 := by rw [← toNat_blockInMegabyte]; exact hi
  have h6 := h.1
  constructor
  · apply BitVec.eq_of_toNat_eq
    rw [toNat_nextBlock, h1, toNat_nextMegabyte]
    congr 1
    omega
  · rw [blockInMegabyte_eq_zero, toNat_nextMegabyte]
    cases m <;> simp only [modeBits] <;> omega

theorem blocksLeft_bounds (a : Word) : 1 ≤ blocksLeft a ∧ blocksLeft a ≤ 256 := by
  have := (blockInMegabyte a).isLt
  unfold blocksLeft
  omega

/-! ## The address in R2 -/

/-- Writing an address back twice is writing the second. -/
theorem writeBack_writeBack (m : AddressingMode) (a b r : Word) :
    writeBack m a (writeBack m b r) = writeBack m a r := by
  cases m with
  | bits24 =>
    simp only [writeBack]
    rw [setField_comm (setField r 32 39 0) (a := 40) (b := 51) (c := 32) (d := 39) _ _ (by omega) (by omega) (by omega)
      (by omega) (by omega), setField_setField, setField_setField]
  | bits31 =>
    simp only [writeBack]
    rw [setField_comm (setField r 32 32 0) (a := 33) (b := 51) (c := 32) (d := 32) _ _ (by omega) (by omega) (by omega)
      (by omega) (by omega), setField_setField, setField_setField]
  | bits64 => exact setField_setField ..

theorem getLsbD_blockAddr (m : AddressingMode) (v : Word) {i : Nat} (hi : i < 64) :
    (blockAddr m v).getLsbD i = (decide (12 ≤ i ∧ i < modeBits m) && v.getLsbD i) := by
  have h2 : i - 12 < 52 := by omega
  rw [blockAddr, BitVec.getLsbD_append]
  by_cases h : i < 12
  · simp [h, show ¬ 12 ≤ i by omega]
  · have h1 : 12 + (i - 12) = i := by omega
    cases m <;>
      simp [h, h1, h2, hi, show 12 ≤ i by omega, field, addrMode, modeBits]

theorem getLsbD_writeBack (m : AddressingMode) (a r : Word) {i : Nat} (hi : i < 64) :
    (writeBack m a r).getLsbD i =
      if i < 12 then r.getLsbD i else if i < modeBits m then a.getLsbD i
      else if m ≠ .bits64 ∧ i < 32 then false else r.getLsbD i := by
  cases m <;> simp only [writeBack, getLsbD_setField _ _ _ _ hi, field, BitVec.getLsbD_extractLsb', modeBits]
  · split
    · next h =>
      have h1 : 12 + (i - 12) = i := by omega
      simp [h1, show ¬ i < 12 by omega, show i < 24 by omega, show i - 12 < 12 by omega]
    · next h =>
      by_cases h2 : i < 12
      · simp [h2, show ¬ 24 ≤ i by omega]
      · simp [h2, show ¬ i < 24 by omega, show 24 ≤ i by omega]
  · split
    · next h =>
      have h1 : 12 + (i - 12) = i := by omega
      simp [h1, show ¬ i < 12 by omega, show i < 31 by omega, show i - 12 < 19 by omega]
    · next h =>
      by_cases h2 : i < 12
      · simp [h2, show ¬ 31 ≤ i by omega]
      · simp [h2, show ¬ i < 31 by omega, show 31 ≤ i by omega]
  · split
    · next h =>
      have h1 : 12 + (i - 12) = i := by omega
      simp [h1, show ¬ i < 12 by omega, show i < 64 by omega, show i - 12 < 52 by omega]
    · next h => simp [show i < 12 by omega]

theorem blockAddr_self {m : AddressingMode} {a : Word} (h : isBlockAddress m a) : blockAddr m a = a := by
  apply BitVec.eq_of_toNat_eq
  rw [toNat_blockAddr, Nat.mod_eq_of_lt h.2]
  have := h.1
  omega

/-- The register after a write-back designates the address written. -/
theorem blockAddr_writeBack {m : AddressingMode} {a : Word} (h : isBlockAddress m a) (r : Word) :
    blockAddr m (writeBack m a r) = a := by
  refine Eq.trans ?_ (blockAddr_self h)
  apply BitVec.eq_of_getLsbD_eq
  intro i hi
  rw [getLsbD_blockAddr _ _ hi, getLsbD_blockAddr _ _ hi, getLsbD_writeBack _ _ _ hi]
  by_cases h1 : 12 ≤ i ∧ i < modeBits m
  · simp [show ¬ i < 12 by omega, h1.2]
  · simp only [h1, decide_false, Bool.false_and]

/-- A write-back leaves bits 52-63 as they were (R234, D25). -/
theorem field_writeBack (m : AddressingMode) (a r : Word) {c d : Nat} (hc : 52 ≤ c) (hd : d < 64) (h : c ≤ d) :
    field (writeBack m a r) c d = field r c d := by
  apply BitVec.eq_of_getLsbD_eq
  intro i hi
  simp only [field, BitVec.getLsbD_extractLsb', hi, getLsbD_writeBack _ _ _ (show 64 - 1 - d + i < 64 by omega),
    show 64 - 1 - d + i < 12 by omega, if_true]

theorem bitAt_writeBack (m : AddressingMode) (a r : Word) {c : Nat} (hc : 52 ≤ c) (hd : c < 64) :
    bitAt (writeBack m a r) c = bitAt r c := by
  simp only [bitAt, BitVec.getMsbD_eq_getLsbD, getLsbD_writeBack _ _ _ (show 64 - 1 - c < 64 by omega),
    show 64 - 1 - c < 12 by omega, if_true]

/-- A write-back leaves the bits of the new key as they were (R233). -/
theorem keyOfRegister_writeBack (m : AddressingMode) (a r : Word) :
    keyOfRegister (writeBack m a r) = keyOfRegister r := by
  simp only [keyOfRegister, field_writeBack m a r (c := 56) (d := 59) (by omega) (by omega) (by omega),
    bitAt_writeBack m a r (c := 60) (by omega) (by omega), bitAt_writeBack m a r (c := 61) (by omega) (by omega),
    bitAt_writeBack m a r (c := 62) (by omega) (by omega)]

end Sys2Proof.Machine
end

