-- ==== Sys2Proof/Laws/Boundary.lean ====
section
/-! SUPPORT. What other agents can do, at a boundary and between the single accesses of an instruction. -/

namespace Sys2Proof.Machine

/-- What the environment cannot change: the registers and all that belongs to the CPU alone. -/
def cpuSame (s t : State) : Prop :=
  t.gprs = s.gprs ∧ t.psw = s.psw ∧ sameControls s t ∧ t.tlb = s.tlb ∧ t.newPswUntried = s.newPswUntried

theorem cpuSame.refl (s : State) : cpuSame s s := ⟨rfl, rfl, sameControls.refl s, rfl, rfl⟩

theorem cpuSame.trans {s t u : State} (h : cpuSame s t) (g : cpuSame t u) : cpuSame s u :=
  ⟨g.1.trans h.1, g.2.1.trans h.2.1, h.2.2.1.trans g.2.2.1, g.2.2.2.1.trans h.2.2.2.1,
    g.2.2.2.2.trans h.2.2.2.2⟩

theorem applyAction_same (s : State) (a : AgentAction) :
    cpuSame s (applyAction s a) ∧ (applyAction s a).asyncPending = s.asyncPending ∧
      (applyAction s a).environment = s.environment ∧ (applyAction s a).interleaving = s.interleaving := by
  cases a <;> simp only [applyAction] <;> split <;> simp [cpuSame, sameControls]

theorem State.Inv.applyAction {s : State} (h : s.Inv) (a : AgentAction) : (applyAction s a).Inv := by
  cases a with
  | store aa v o =>
    simp only [Machine.applyAction]
    split
    · next ha =>
      have h1 : (s.setMem (Memory.write s.mem aa.toNat v)).Inv := by
        refine ⟨Memory.wf_write h.1 _ _, h.2.1, ?_, h.2.2.2⟩
        intro c hc
        rcases Memory.mem_write hc with ⟨rfl, _⟩ | hc
        · exact ha
        · exact h.2.2.1 c hc
      exact (h1.recordReference ha).recordChange _ _ ha
    · exact h
  | reference aa =>
    simp only [Machine.applyAction]
    split
    · next ha => exact h.recordReference ha
    · exact h
  | setKey aa k =>
    simp only [Machine.applyAction]
    split
    · next ha => exact h.setKeyState _ ha
    · exact h
  | keyError aa =>
    simp only [Machine.applyAction]
    split
    · next ha => exact h.setKeyState _ ha
    · exact h

theorem foldl_applyAction (as : List AgentAction) (s : State) :
    cpuSame s (as.foldl applyAction s) ∧ (as.foldl applyAction s).asyncPending = s.asyncPending ∧
      (as.foldl applyAction s).environment = s.environment ∧ (as.foldl applyAction s).interleaving = s.interleaving ∧
      (s.Inv → (as.foldl applyAction s).Inv) := by
  induction as generalizing s with
  | nil => exact ⟨cpuSame.refl s, rfl, rfl, rfl, id⟩
  | cons a as ih =>
    obtain ⟨h1, h2, h3, h4⟩ := applyAction_same s a
    obtain ⟨g1, g2, g3, g4, g5⟩ := ih (applyAction s a)
    exact ⟨h1.trans g1, g2.trans h2, g3.trans h3, g4.trans h4, fun h => g5 (h.applyAction a)⟩

/-- A boundary leaves the CPU as it is, but that an interruption may become pending. -/
theorem atBoundary_same (s : State) : cpuSame s s.atBoundary ∧ (s.Inv → s.atBoundary.Inv) := by
  unfold State.atBoundary
  split
  · exact ⟨cpuSame.refl s, id⟩
  · next b rest _ =>
    obtain ⟨h1, _, _, _, h4⟩ := foldl_applyAction b.actions { s with environment := rest }
    refine ⟨h1, fun h => ?_⟩
    have h5 : ({ s with environment := rest } : State).Inv := h
    exact (h4 h5).of_eq rfl rfl rfl

/-- A boundary takes nothing from the schedule of the gaps. -/
theorem atBoundary_interleaving (s : State) : s.atBoundary.interleaving = s.interleaving := by
  unfold State.atBoundary
  split
  · rfl
  · next b rest _ => exact (foldl_applyAction b.actions { s with environment := rest }).2.2.2.1

/-- A machine left to itself crosses a boundary unchanged. -/
theorem atBoundary_nil {s : State} (h : s.environment = []) : s.atBoundary = s := by
  simp [State.atBoundary, h]

/-- A boundary at which no other agent acts. -/
theorem atBoundary_cons {s : State} {p : Option AsyncClass} {rest : List Boundary}
    (h : s.environment = ⟨[], p⟩ :: rest) :
    s.atBoundary = { s with environment := rest, asyncPending := s.asyncPending.or p } := by
  simp [State.atBoundary, h]

/-- Where no other agent acts, a boundary changes nothing but what is pending and scheduled. -/
theorem atBoundary_unshared {s : State} (h : s.unshared) :
    ∃ p env, s.atBoundary = { s with environment := env, asyncPending := p } ∧ ∀ b ∈ env, b.actions = [] := by
  unfold State.atBoundary
  split
  · next he => exact ⟨s.asyncPending, s.environment, rfl, h.1⟩
  · next b rest he =>
    have hb := h.1 b (by simp [he])
    exact ⟨s.asyncPending.or b.async, rest, by simp [hb], fun c hc => h.1 c (by simp [he, hc])⟩

theorem State.unshared.atBoundary {s : State} (h : s.unshared) : s.atBoundary.unshared := by
  obtain ⟨p, env, he, hb⟩ := atBoundary_unshared h
  rw [he]
  exact ⟨hb, h.2⟩

/-! ## Gaps between single accesses -/

/-- Where no other agent acts, a gap is nothing. -/
theorem beforeAccess_alone {s : State} (h : s.interleaving = []) : s.beforeAccess = s := by
  simp [State.beforeAccess, h]

/-- A gap leaves the CPU as it is. -/
theorem beforeAccess_same (s : State) :
    cpuSame s s.beforeAccess ∧ s.beforeAccess.asyncPending = s.asyncPending ∧
      s.beforeAccess.environment = s.environment ∧ (s.Inv → s.beforeAccess.Inv) := by
  unfold State.beforeAccess
  split
  · exact ⟨cpuSame.refl s, rfl, rfl, id⟩
  · next g rest _ =>
    obtain ⟨h1, h2, h3, _, h4⟩ := foldl_applyAction g.actions { s with interleaving := rest }
    exact ⟨h1, h2, h3, fun h => h4 h⟩

theorem cpuSame.available {s t : State} (h : cpuSame s t) (aa : Word) : t.available aa = s.available aa := by
  simp only [State.available, h.2.2.1.2.2.2]

theorem cpuSame.availableMany {s t : State} (h : cpuSame s t) (aa : Word) (n : Nat) :
    t.availableMany aa n = s.availableMany aa n := by
  simp only [State.availableMany, h.2.2.1.2.2.2]

end Sys2Proof.Machine
end

