-- ==== Sys2Proof/Laws/Interruption.lean ====
section
/-! SUPPORT. The PSW swaps: what each can do, and when it succeeds. -/

namespace Sys2Proof.Machine

open Sys2Proof.Config (InterruptionClass oldPswLocation newPswLocation)

/-! ## The two halves of a swap -/

/-- What the accesses of a swap do to keys, no other agent acting: R and C of one block may be set, none is cleared, and
C is set where a byte changed (R181, R183, R185). -/
def swapRecords (b : Nat) (s t : State) : Prop :=
  sameKeysBut b s t ∧ sameAccess s t ∧ ((s.key b).r = true → (t.key b).r = true) ∧
    ((s.key b).c = true → (t.key b).c = true) ∧ ((∃ x : Nat, t.byte x ≠ s.byte x) → (t.key b).c = true)

theorem swapRecords.refl (b : Nat) (s : State) : swapRecords b s s :=
  ⟨sameKeysBut.refl b s, sameAccess.refl s, id, id, fun ⟨_, h⟩ => absurd rfl h⟩

theorem swapRecords.trans {b : Nat} {s t u : State} (h : swapRecords b s t) (g : swapRecords b t u) :
    swapRecords b s u := by
  obtain ⟨h1, h2, h3, h4, h5⟩ := h
  obtain ⟨g1, g2, g3, g4, g5⟩ := g
  refine ⟨h1.trans g1, h2.trans g2, g3 ∘ h3, g4 ∘ h4, fun ⟨x, hx⟩ => ?_⟩
  by_cases he : t.byte x = s.byte x
  · exact g5 ⟨x, by rwa [he]⟩
  · exact g4 (h5 ⟨x, he⟩)

/-- What a swap keeps: everything but the PSW, storage, keys and the schedule of the gaps; and where no other agent acts
within it, that schedule, ACC and F of keys, and all keys but one. -/
def swapKeeps (s t : State) : Prop :=
  t.gprs = s.gprs ∧ sameControls s t ∧ t.tlb = s.tlb ∧ t.asyncPending = s.asyncPending ∧
    t.environment = s.environment ∧ t.newPswUntried = s.newPswUntried ∧
    (s.interleaving = [] → t.interleaving = [] ∧ swapRecords (2 * s.prefixReg.toNat) s t)

theorem swapKeeps.refl (s : State) : swapKeeps s s :=
  ⟨rfl, sameControls.refl s, rfl, rfl, rfl, rfl, fun h => ⟨h, swapRecords.refl _ s⟩⟩

theorem swapKeeps.trans {s t u : State} (h : swapKeeps s t) (g : swapKeeps t u) : swapKeeps s u := by
  obtain ⟨h1, h2, h3, h4, h5, h6, h7⟩ := h
  obtain ⟨g1, g2, g3, g4, g5, g6, g7⟩ := g
  refine ⟨g1.trans h1, h2.trans g2, g3.trans h3, g4.trans h4, g5.trans h5, g6.trans h6, fun hi => ?_⟩
  obtain ⟨h8, h9⟩ := h7 hi
  obtain ⟨g8, g9⟩ := g7 h8
  rw [h2.2.2.1] at g9
  exact ⟨g8, h9.trans g9⟩

/-- The gap before an access keeps all of it. -/
theorem beforeAccess_swapKeeps (s : State) : swapKeeps s s.beforeAccess := by
  obtain ⟨⟨h1, _, h2, h3, h4⟩, h5, h6, _⟩ := beforeAccess_same s
  refine ⟨h1, h2, h3, h5, h6, h4, fun h => ?_⟩
  rw [beforeAccess_alone h]
  exact ⟨h, swapRecords.refl _ s⟩

theorem location_low (c : InterruptionClass) : field (oldPswLocation c) 0 50 = 0 ∧ field (newPswLocation c) 0 50 = 0 ∧
    (field (oldPswLocation c) 51 63).toNat + 16 ≤ 4096 ∧ (field (newPswLocation c) 51 63).toNat + 16 ≤ 4096 := by
  cases c <;> decide

theorem locations_apart (c : InterruptionClass) :
    (field (oldPswLocation c) 51 63).toNat + 16 ≤ (field (newPswLocation c) 51 63).toNat := by
  cases c <;> decide

/-- A store at an assigned location keeps all but storage. -/
theorem storeReal_keeps {loc : Word} {bs : List Byte} {s t : State} (h0 : field loc 0 50 = 0)
    (hl : (field loc 51 63).toNat < 4096) (h : storeReal loc bs s = some t) :
    t.psw = s.psw ∧ swapKeeps s t := by
  have hb := beforeAccess_swapKeeps s
  have hp : s.beforeAccess.prefixReg = s.prefixReg := hb.2.1.2.2.1
  obtain ⟨h1, h2, h3, ⟨h4, h5, h6, h7, h8⟩, h9, h10, _⟩ := absStore_frame h
  refine ⟨h2.trans (beforeAccess_same s).1.2.1, hb.trans ⟨h1, h3, h4, h5, h6, h8, fun hi => ⟨h7.trans hi, ?_⟩⟩⟩
  have hr := absStore_records h
  rw [← hp, blockOf_assigned _ h0 hl] at h10 hr
  exact ⟨h10, h9, hr⟩

/-- A store at an assigned location, which is available with the prefix area, no other agent acting before it. -/
theorem storeReal_eq {loc : Word} {bs : List Byte} {s : State} (hi : s.interleaving = [])
    (hp : s.prefixAreaAvailable = true)
    (h : field loc 0 50 = 0) (hl : (field loc 51 63).toNat + bs.length ≤ 4096) (hb : 0 < bs.length) :
    ∃ t, storeReal loc bs s = some t ∧ t.mem = Memory.writeMany s.mem (assigned s loc) bs ∧ t.psw = s.psw ∧
      swapKeeps s t := by
  have ha := availableMany_assigned hp h hl hb
  have he := absStore_eq ha
  have hs : storeReal loc bs s = absStore (applyPrefix s.prefixReg loc) bs s := by
    rw [storeReal, beforeAccess_alone hi]
  exact ⟨_, hs.trans he, rfl, rfl, (storeReal_keeps h (by omega) (hs.trans he)).2⟩

/-- Recording a reference to an assigned location, and a new PSW, keep all but the PSW. -/
theorem recordReference_swapKeeps (u : State) (p : BitVec 128) {loc : Word} (h0 : field loc 0 50 = 0)
    (hl : (field loc 51 63).toNat < 4096) :
    swapKeeps u ((recordReference (applyPrefix u.prefixReg loc) u).setPsw p) := by
  have hk := recordReference_sameKeysBut (applyPrefix u.prefixReg loc) u
  have hr := recordReference_records (applyPrefix u.prefixReg loc) u (2 * u.prefixReg.toNat)
  have ha := recordReference_sameAccess (applyPrefix u.prefixReg loc) u
  rw [blockOf_assigned u h0 hl] at hk
  generalize ht : recordReference (applyPrefix u.prefixReg loc) u = t at *
  have hm : ∀ x, t.byte x = u.byte x := by subst ht; exact fun _ => rfl
  have hc : sameControls u t := by subst ht; exact ⟨rfl, rfl, rfl, rfl⟩
  have hg : t.gprs = u.gprs ∧ t.tlb = u.tlb ∧ t.asyncPending = u.asyncPending ∧ t.environment = u.environment ∧
      t.newPswUntried = u.newPswUntried ∧ t.interleaving = u.interleaving := by
    subst ht; exact ⟨rfl, rfl, rfl, rfl, rfl, rfl⟩
  exact ⟨hg.1, hc, hg.2.1, hg.2.2.1, hg.2.2.2.1, hg.2.2.2.2.1, fun hi => ⟨hg.2.2.2.2.2.trans hi,
    hk, ha, hr.1, hr.2, fun ⟨x, hx⟩ => absurd (hm x) hx⟩⟩

/-- The load of a new PSW keeps all but the PSW. -/
theorem loadNewPsw_keeps {c : InterruptionClass} {s t : State} (h : loadNewPsw c s = some t) : swapKeeps s t := by
  obtain ⟨r, h1, rfl⟩ := Option.map_eq_some_iff.mp h
  obtain ⟨_, rfl⟩ := absLoad_cases h1
  obtain ⟨_, h0, _, hl⟩ := location_low c
  have hb := beforeAccess_swapKeeps s
  have hk := recordReference_swapKeeps s.beforeAccess
    (wordOf 128 (Memory.readMany s.beforeAccess.mem (applyPrefix s.prefixReg (newPswLocation c)).toNat 16)) h0 (by omega)
  rw [hb.2.1.2.2.1] at hk
  exact hb.trans hk

/-- The load of a new PSW, available with the prefix area, no other agent acting before it. -/
theorem loadNewPsw_eq {c : InterruptionClass} {s : State} (hi : s.interleaving = [])
    (hp : s.prefixAreaAvailable = true) :
    ∃ t, loadNewPsw c s = some t ∧ t.mem = s.mem ∧
      t.psw = wordOf 128 (Memory.readMany s.mem (assigned s (newPswLocation c)) 16) ∧ swapKeeps s t := by
  obtain ⟨_, h, _, hl⟩ := location_low c
  have ha := availableMany_assigned hp h hl (by omega)
  have he : loadNewPsw c s = some ((recordReference (applyPrefix s.prefixReg (newPswLocation c)) s).setPsw
      (wordOf 128 (Memory.readMany s.mem (applyPrefix s.prefixReg (newPswLocation c)).toNat 16))) := by
    rw [loadNewPsw, beforeAccess_alone hi, absLoad_eq ha]; rfl
  exact ⟨_, he, rfl, rfl, loadNewPsw_keeps he⟩

theorem swapKeeps.prefixAreaAvailable {s t : State} (h : swapKeeps s t) :
    t.prefixAreaAvailable = s.prefixAreaAvailable := by
  simp only [State.prefixAreaAvailable, State.available, h.2.1.2.2.1, h.2.1.2.2.2]

theorem swapKeeps.assigned {s t : State} (h : swapKeeps s t) (loc : Word) : assigned t loc = assigned s loc := by
  simp only [Machine.assigned, h.2.1.2.2.1]

theorem swapKeeps.interleaving {s t : State} (h : swapKeeps s t) (hi : s.interleaving = []) : t.interleaving = [] :=
  (h.2.2.2.2.2.2 hi).1

theorem swapKeeps.records {s t : State} (h : swapKeeps s t) (hi : s.interleaving = []) :
    swapRecords (2 * s.prefixReg.toNat) s t := (h.2.2.2.2.2.2 hi).2

/-! ## The asynchronous swap -/

theorem pswSwap_keeps {c : InterruptionClass} {s t : State} (h : pswSwap c s = some t) : swapKeeps s t := by
  obtain ⟨u, h1, h2⟩ := Option.bind_eq_some_iff.mp h
  obtain ⟨h0, _, hl, _⟩ := location_low c
  exact (storeReal_keeps h0 (by omega) h1).2.trans (loadNewPsw_keeps h2)

/-- The swap of a class stores the old PSW, loads the new one from storage as it was, and keeps the rest. -/
theorem pswSwap_eq {c : InterruptionClass} {s : State} (hi : s.interleaving = [])
    (hp : s.prefixAreaAvailable = true) :
    ∃ t, pswSwap c s = some t ∧
      t.mem = Memory.writeMany s.mem (assigned s (oldPswLocation c)) (bytesOf 16 s.psw) ∧
      t.psw = wordOf 128 (Memory.readMany s.mem (assigned s (newPswLocation c)) 16) ∧ swapKeeps s t := by
  obtain ⟨h0, h1, hl, hm⟩ := location_low c
  obtain ⟨u, hu, hmem, hpsw, hk⟩ := storeReal_eq (bs := bytesOf 16 s.psw) hi hp h0 (by simpa using hl) (by simp)
  obtain ⟨t, ht, htm, htp, htk⟩ := loadNewPsw_eq (c := c) (s := u) (hk.interleaving hi)
    (by rw [hk.prefixAreaAvailable]; exact hp)
  refine ⟨t, ?_, by rw [htm, hmem], ?_, hk.trans htk⟩
  · rw [pswSwap, hu]; exact ht
  · rw [htp, hk.assigned, hmem, Memory.readMany_writeMany_disjoint]
    rw [length_bytesOf, assigned_eq s h0, assigned_eq s h1]
    have := locations_apart c
    omega

/-- What an asynchronous interruption keeps. -/
theorem takeAsyncInterruption_keeps {c : AsyncClass} {s t : State} (h : takeAsyncInterruption c s = .next t) :
    t.gprs = s.gprs ∧ sameControls s t ∧ t.tlb = s.tlb ∧ t.environment = s.environment ∧ t.asyncPending = none ∧
      (s.interleaving = [] → t.interleaving = [] ∧ swapRecords (2 * s.prefixReg.toNat) s t) := by
  unfold takeAsyncInterruption at h
  split at h
  · next u hu =>
    cases h
    obtain ⟨h1, h2, h3, _, h5, _, h7⟩ := pswSwap_keeps hu
    exact ⟨h1, h2, h3, h5, rfl, h7⟩
  · cases h

/-! ## The program interruption -/

theorem pgm_low : field Config.codeLocation 0 50 = 0 ∧ field Config.ilcLocation 0 50 = 0 ∧
    field Config.teidLocation 0 50 = 0 ∧ (field Config.codeLocation 51 63).toNat = 0x8E ∧
    (field Config.ilcLocation 51 63).toNat = 0x8D ∧ (field Config.teidLocation 51 63).toNat = 0xA8 ∧
    (field (oldPswLocation .program) 51 63).toNat = 0x150 ∧
    (field (newPswLocation .program) 51 63).toNat = 0x1D0 := by decide

/-- A program swap that ends keeps everything but the PSW, storage, and R and C of one key. -/
theorem programSwap_keeps {e : ProgramException} {ilc : BitVec 2} {a : Word} {s t : State}
    (h : programSwap e ilc a s = some t) : swapKeeps s t := by
  obtain ⟨c0, i0, t0, cl, il, tl, _, _⟩ := pgm_low
  obtain ⟨o0, _, ol, _⟩ := location_low .program
  obtain ⟨s1, h1, h⟩ := Option.bind_eq_some_iff.mp h
  obtain ⟨s2, h2, h⟩ := Option.bind_eq_some_iff.mp h
  obtain ⟨s3, h3, h⟩ := Option.bind_eq_some_iff.mp h
  obtain ⟨s4, h4, h⟩ := Option.bind_eq_some_iff.mp h
  have k4 : swapKeeps s3 s4 := by
    split at h4
    · exact (storeReal_keeps t0 (by omega) h4).2
    · cases h4; exact swapKeeps.refl _
  exact (storeReal_keeps o0 (by omega) h1).2.trans <| (storeReal_keeps c0 (by omega) h2).2.trans <|
    (storeReal_keeps i0 (by omega) h3).2.trans <| k4.trans (loadNewPsw_keeps h)

/-- Storage after the stores of a program interruption. -/
def programStores (e : ProgramException) (ilc : BitVec 2) (a : Word) (s : State) : List Host.Cell :=
  let m1 := Memory.writeMany s.mem (assigned s (oldPswLocation .program)) (bytesOf 16 s.psw)
  let m2 := Memory.writeMany m1 (assigned s Config.codeLocation) (bytesOf 2 (exceptionCode e))
  let m3 := Memory.writeMany m2 (assigned s Config.ilcLocation) [ilcByte ilc]
  if storesTeid e then Memory.writeMany m3 (assigned s Config.teidLocation) (bytesOf 8 (teidOf a)) else m3

/-- A program swap with the prefix area available: the stores, the new PSW from storage as it was, the rest kept. -/
theorem programSwap_eq {e : ProgramException} {ilc : BitVec 2} {a : Word} {s : State}
    (hi : s.interleaving = []) (hp : s.prefixAreaAvailable = true) :
    ∃ t, programSwap e ilc a s = some t ∧ t.mem = programStores e ilc a s ∧
      t.psw = wordOf 128 (Memory.readMany s.mem (assigned s (newPswLocation .program)) 16) ∧ swapKeeps s t := by
  obtain ⟨c0, i0, t0, cl, il, tl, ol, nl⟩ := pgm_low
  obtain ⟨o0, n0, _, _⟩ := location_low .program
  obtain ⟨s1, h1, m1, _, k1⟩ := storeReal_eq (bs := bytesOf 16 s.psw) hi hp o0 (by simp [ol]) (by simp)
  obtain ⟨s2, h2, m2, _, k2⟩ := storeReal_eq (s := s1) (bs := bytesOf 2 (exceptionCode e)) (k1.interleaving hi)
    (by rw [k1.prefixAreaAvailable]; exact hp) c0 (by simp [cl]) (by simp)
  have k12 := k1.trans k2
  obtain ⟨s3, h3, m3, _, k3⟩ := storeReal_eq (s := s2) (bs := [ilcByte ilc]) (k12.interleaving hi)
    (by rw [k12.prefixAreaAvailable]; exact hp) i0 (by simp [il]) (by simp)
  have k13 := k12.trans k3
  obtain ⟨s4, h4, m4, k34⟩ : ∃ s4, (if storesTeid e then storeReal Config.teidLocation (bytesOf 8 (teidOf a)) s3
      else some s3) = some s4 ∧ s4.mem = programStores e ilc a s ∧ swapKeeps s3 s4 := by
    rw [k1.assigned] at m2
    rw [k12.assigned] at m3
    by_cases ht : storesTeid e
    · obtain ⟨s4, h4, m4, _, k4⟩ := storeReal_eq (s := s3) (bs := bytesOf 8 (teidOf a)) (k13.interleaving hi)
        (by rw [k13.prefixAreaAvailable]; exact hp) t0 (by simp [tl]) (by simp)
      rw [k13.assigned] at m4
      exact ⟨s4, by simp [ht, h4], by simp [programStores, ht, m4, m3, m2, m1], k4⟩
    · exact ⟨s3, by simp [ht], by simp [programStores, ht, m3, m2, m1], swapKeeps.refl _⟩
  have k14 := k13.trans k34
  obtain ⟨t, h5, m5, p5, k5⟩ := loadNewPsw_eq (c := .program) (s := s4) (k14.interleaving hi)
    (by rw [k14.prefixAreaAvailable]; exact hp)
  refine ⟨t, ?_, by rw [m5, m4], ?_, k14.trans k5⟩
  · simp only [programSwap, h1, Option.bind_some, h2, h3, h4, h5]
  · rw [p5, k14.assigned, m4]
    have ea := assigned_eq s o0
    have eb := assigned_eq s c0
    have ec := assigned_eq s i0
    have ed := assigned_eq s t0
    have ee := assigned_eq s n0
    unfold programStores
    dsimp only
    split
    · rw [Memory.readMany_writeMany_disjoint, Memory.readMany_writeMany_disjoint, Memory.readMany_writeMany_disjoint,
        Memory.readMany_writeMany_disjoint] <;> simp only [length_bytesOf, List.length_cons, List.length_nil] <;>
        omega
    · rw [Memory.readMany_writeMany_disjoint, Memory.readMany_writeMany_disjoint, Memory.readMany_writeMany_disjoint]
        <;> simp only [length_bytesOf, List.length_cons, List.length_nil] <;> omega

/-- What a program interruption keeps. -/
theorem takeProgramInterruption_keeps {e : ProgramException} {ilc : BitVec 2} {a : Word} {s t : State}
    (h : takeProgramInterruption e ilc a s = .next t) :
    t.gprs = s.gprs ∧ sameControls s t ∧ t.tlb = s.tlb ∧ t.environment = s.environment ∧
      t.asyncPending = s.asyncPending ∧
      (s.interleaving = [] → t.interleaving = [] ∧ swapRecords (2 * s.prefixReg.toNat) s t) := by
  unfold takeProgramInterruption at h
  split at h
  · next u hu =>
    cases h
    obtain ⟨h1, h2, h3, h4, h5, _, h7⟩ := programSwap_keeps hu
    exact ⟨h1, h2, h3, h5, h4, h7⟩
  · cases h

theorem takeEarlyException_keeps {e : ProgramException} {a : Word} {s t : State}
    (h : takeEarlyException e a s = .next t) :
    t.gprs = s.gprs ∧ sameControls s t ∧ t.tlb = s.tlb ∧ t.environment = s.environment ∧
      t.asyncPending = s.asyncPending ∧
      (s.interleaving = [] → t.interleaving = [] ∧ swapRecords (2 * s.prefixReg.toNat) s t) := by
  unfold takeEarlyException at h
  split at h
  · cases h
  · exact takeProgramInterruption_keeps h

theorem raiseInInstruction_keeps {e : ProgramException} {a : Word} {s t : State}
    (h : raiseInInstruction e a s = .next t) :
    t.gprs = s.gprs ∧ sameControls s t ∧ t.tlb = s.tlb ∧ t.environment = s.environment ∧
      t.asyncPending = s.asyncPending ∧
      (s.interleaving = [] → t.interleaving = [] ∧ swapRecords (2 * s.prefixReg.toNat) s t) := by
  unfold raiseInInstruction at h
  have k := takeProgramInterruption_keeps h
  split at k
  · exact k
  · exact k

/-! ## The invariant -/

theorem State.Inv.storeReal {loc : Word} {bs : List Byte} {s t : State} (hs : s.Inv) (hb : 0 < bs.length)
    (h : storeReal loc bs s = some t) : t.Inv := ((beforeAccess_same s).2.2.2 hs).absStore hb h

theorem State.Inv.loadNewPsw {c : InterruptionClass} {s t : State} (hs : s.Inv) (h : loadNewPsw c s = some t) :
    t.Inv := by
  obtain ⟨r, h1, rfl⟩ := Option.map_eq_some_iff.mp h
  obtain ⟨ha, rfl⟩ := absLoad_cases h1
  exact (((beforeAccess_same s).2.2.2 hs).recordReference (State.availableMany_first (by omega) ha)).of_eq rfl rfl rfl

theorem State.Inv.programSwap {e : ProgramException} {ilc : BitVec 2} {a : Word} {s t : State} (hs : s.Inv)
    (h : programSwap e ilc a s = some t) : t.Inv := by
  obtain ⟨s1, h1, h⟩ := Option.bind_eq_some_iff.mp h
  obtain ⟨s2, h2, h⟩ := Option.bind_eq_some_iff.mp h
  obtain ⟨s3, h3, h⟩ := Option.bind_eq_some_iff.mp h
  obtain ⟨s4, h4, h⟩ := Option.bind_eq_some_iff.mp h
  have i3 := ((hs.storeReal (by simp) h1).storeReal (by simp) h2).storeReal (by simp) h3
  refine State.Inv.loadNewPsw ?_ h
  split at h4
  · exact i3.storeReal (by simp) h4
  · cases h4; exact i3

theorem State.Inv.pswSwap {c : InterruptionClass} {s t : State} (hs : s.Inv) (h : pswSwap c s = some t) : t.Inv := by
  obtain ⟨u, h1, h2⟩ := Option.bind_eq_some_iff.mp h
  exact (hs.storeReal (by simp) h1).loadNewPsw h2

end Sys2Proof.Machine
end

