-- ==== Sys2Proof/Laws/KeyOps.lean ====
section
/-! SUPPORT. Setting keys and clearing blocks: what each can do; and the run over the blocks of a megabyte. -/

namespace Sys2Proof.Machine

/-! ## What work on a block keeps -/

/-- What the work on one block keeps: everything but storage, keys and the schedule of the gaps; and where no other agent
acts within it, that schedule and every key but one. -/
def blockKeeps (b : Nat) (s t : State) : Prop :=
  cpuSame s t ∧ t.asyncPending = s.asyncPending ∧ t.environment = s.environment ∧
    (s.interleaving = [] → t.interleaving = [] ∧ sameKeysBut b s t)

theorem blockKeeps.refl (b : Nat) (s : State) : blockKeeps b s s :=
  ⟨cpuSame.refl s, rfl, rfl, fun h => ⟨h, sameKeysBut.refl b s⟩⟩

theorem blockKeeps.trans {b : Nat} {s t u : State} (h : blockKeeps b s t) (g : blockKeeps b t u) :
    blockKeeps b s u := by
  obtain ⟨h1, h2, h3, h4⟩ := h
  obtain ⟨g1, g2, g3, g4⟩ := g
  refine ⟨h1.trans g1, g2.trans h2, g3.trans h3, fun hi => ?_⟩
  obtain ⟨h5, h6⟩ := h4 hi
  obtain ⟨g5, g6⟩ := g4 h5
  exact ⟨g5, h6.trans g6⟩

theorem blockKeeps.interleaving {b : Nat} {s t : State} (h : blockKeeps b s t) (hi : s.interleaving = []) :
    t.interleaving = [] := (h.2.2.2 hi).1

theorem blockKeeps.keys {b : Nat} {s t : State} (h : blockKeeps b s t) (hi : s.interleaving = []) :
    sameKeysBut b s t := (h.2.2.2 hi).2

theorem cpuSame.of_rfl {s t : State} (h1 : t.gprs = s.gprs) (h2 : t.psw = s.psw) (h3 : sameControls s t)
    (h4 : t.tlb = s.tlb) (h5 : t.newPswUntried = s.newPswUntried) : cpuSame s t := ⟨h1, h2, h3, h4, h5⟩

theorem setKeyState_keeps (b : Nat) (k : KeyState) (s : State) : blockKeeps b s (s.setKeyState b k) :=
  ⟨⟨rfl, rfl, ⟨rfl, rfl, rfl, rfl⟩, rfl, rfl⟩, rfl, rfl, fun h => ⟨h, fun _ hc => State.keyState_setKeyState_ne s _ hc⟩⟩

theorem replaceKey_keeps (b : Nat) (k : StorageKey) (s : State) : blockKeeps b s (replaceKey b k s) :=
  setKeyState_keeps b _ s

theorem adjustKey_keeps (b : Nat) (k : StorageKey) (s : State) : blockKeeps b s (adjustKey b k s) :=
  setKeyState_keeps b _ s

theorem drawn_keeps (b n : Nat) (s : State) : blockKeeps b s (s.drawn n) :=
  ⟨⟨rfl, rfl, ⟨rfl, rfl, rfl, rfl⟩, rfl, rfl⟩, rfl, rfl, fun h => ⟨h, fun _ _ => rfl⟩⟩

/-- The gap before an access keeps all of it. -/
theorem beforeAccess_keeps (b : Nat) (s : State) : blockKeeps b s s.beforeAccess := by
  obtain ⟨h1, h2, h3, _⟩ := beforeAccess_same s
  refine ⟨h1, h2, h3, fun h => ?_⟩
  rw [beforeAccess_alone h]
  exact ⟨h, sameKeysBut.refl b s⟩

@[simp] theorem replaceKey_mem (b : Nat) (k : StorageKey) (s : State) : (replaceKey b k s).mem = s.mem := rfl
@[simp] theorem adjustKey_mem (b : Nat) (k : StorageKey) (s : State) : (adjustKey b k s).mem = s.mem := rfl
@[simp] theorem replaceKey_key (b : Nat) (k : StorageKey) (s : State) : (replaceKey b k s).keyState b = ⟨k, false⟩ :=
  State.keyState_setKeyState_same _ _ _
@[simp] theorem adjustKey_key (b : Nat) (k : StorageKey) (s : State) :
    (adjustKey b k s).keyState b = { s.keyState b with key := k } := State.keyState_setKeyState_same _ _ _

theorem State.Inv.replaceKey {s : State} (h : s.Inv) {b : Nat} (k : StorageKey)
    (hb : blockAvailable s.installation b = true) : (replaceKey b k s).Inv := h.setKeyState _ hb

theorem State.Inv.adjustKey {s : State} (h : s.Inv) {b : Nat} (k : StorageKey)
    (hb : blockAvailable s.installation b = true) : (adjustKey b k s).Inv := h.setKeyState _ hb

theorem State.Inv.drawn {s : State} (h : s.Inv) (n : Nat) : (s.drawn n).Inv := h.of_eq rfl rfl rfl

theorem State.Inv.setGpr {s : State} (h : s.Inv) (r : Reg) (v : Word) : (s.setGpr r v).Inv := h.of_eq rfl rfl rfl

theorem State.Inv.setPsw {s : State} (h : s.Inv) (p : BitVec 128) : (s.setPsw p).Inv := h.of_eq rfl rfl rfl

/-! ## setKeyBlock -/

/-- What setting a key can answer: after the gap before it, one of the outcomes of R226, the reading and the setting
apart. -/
theorem setKeyBlock_cases (b : Nat) (new : StorageKey) (mr mc : Bool) (s : State) :
    (setKeyBlock b new mr mc s).state = replaceKey b new s.beforeAccess ∨
      (setKeyBlock b new mr mc s).state = s.beforeAccess.drawn 2 ∨
      ∃ k, (setKeyBlock b new mr mc s).state = replaceKey b k (s.beforeAccess.drawn 2).beforeAccess ∨
        (setKeyBlock b new mr mc s).state = adjustKey b k (s.beforeAccess.drawn 2).beforeAccess := by
  unfold setKeyBlock
  dsimp only
  repeat' split
  all_goals first
    | exact .inl rfl
    | exact .inr (.inl rfl)
    | exact .inr (.inr ⟨_, .inl rfl⟩)
    | exact .inr (.inr ⟨_, .inr rfl⟩)

/-- Setting a key keeps everything but keys, and the invariant. -/
theorem setKeyBlock_keeps (b : Nat) (new : StorageKey) (mr mc : Bool) (s : State) :
    blockKeeps b s (setKeyBlock b new mr mc s).state ∧
      (s.interleaving = [] → (setKeyBlock b new mr mc s).state.mem = s.mem) ∧
      (blockAvailable s.installation b = true → s.Inv → (setKeyBlock b new mr mc s).state.Inv) := by
  have h0 := beforeAccess_keeps b s
  have h1 := h0.trans (drawn_keeps b 2 s.beforeAccess)
  have h2 := h1.trans (beforeAccess_keeps b (s.beforeAccess.drawn 2))
  have hm : s.interleaving = [] → (s.beforeAccess.drawn 2).beforeAccess.mem = s.mem := by
    intro h
    rw [beforeAccess_alone h, beforeAccess_alone (s := s.drawn 2) h]
    rfl
  have hi : ∀ t, blockKeeps b s t → blockAvailable s.installation b = true →
      blockAvailable t.installation b = true := by
    intro t ht h
    rwa [ht.1.2.2.1.2.2.2]
  have i0 := (beforeAccess_same s).2.2.2
  have i2 : s.Inv → (s.beforeAccess.drawn 2).beforeAccess.Inv := fun h =>
    (beforeAccess_same _).2.2.2 ((i0 h).of_eq rfl rfl rfl)
  rcases setKeyBlock_cases b new mr mc s with h | h | ⟨k, h | h⟩ <;> rw [h]
  · refine ⟨h0.trans (replaceKey_keeps b new _), fun h => ?_, fun hb h => (i0 h).replaceKey new (hi _ h0 hb)⟩
    rw [beforeAccess_alone h]
    rfl
  · refine ⟨h1, fun h => ?_, fun _ h => (i0 h).of_eq rfl rfl rfl⟩
    rw [beforeAccess_alone h]
    rfl
  · exact ⟨h2.trans (replaceKey_keeps b k _), hm, fun hb h => (i2 h).replaceKey k (hi _ h2 hb)⟩
  · exact ⟨h2.trans (adjustKey_keeps b k _), hm, fun hb h => (i2 h).adjustKey k (hi _ h2 hb)⟩

/-- Without a mask bit in effect the whole key is replaced, whatever another agent did before (R226, R228). -/
theorem setKeyBlock_unconditional (b : Nat) (new : StorageKey) (s : State) :
    setKeyBlock b new false false s = ⟨.unconditional, s.beforeAccess.key b, replaceKey b new s.beforeAccess⟩ := rfl

/-- The old key that is answered, no other agent acting. -/
theorem setKeyBlock_old (b : Nat) (new : StorageKey) (mr mc : Bool) {s : State} (hi : s.interleaving = []) :
    (setKeyBlock b new mr mc s).old = s.key b := by
  unfold setKeyBlock
  dsimp only
  rw [beforeAccess_alone hi]
  repeat' split
  all_goals rfl

/-- The key ends as R226 lets it, no other agent acting. -/
theorem setKeyBlock_key (b : Nat) (new : StorageKey) (c : KeyControls) {s : State} (hi : s.interleaving = []) :
    keyMayBecome c new (s.keyState b) ((setKeyBlock b new c.mr c.mc s).state.keyState b) := by
  unfold setKeyBlock keyMayBecome KeyControls.conditional
  dsimp only
  rw [beforeAccess_alone hi, beforeAccess_alone (s := s.drawn 2) hi]
  change _ ∧ (if _ ∨ _ ∨ (s.key b).acc ≠ _ ∨ (s.key b).f ≠ _ then _ else _)
  by_cases h1 : (c.mr || c.mc) = false
  · simp [h1]
  by_cases h2 : (s.keyState b).cbcInvalid = true
  · simp [h1, h2]
  by_cases h3 : (s.key b).acc ≠ new.acc ∨ (s.key b).f ≠ new.f
  · simp [h1, h2, h3]
  have h4 : (s.key b).acc = new.acc ∧ (s.key b).f = new.f := by
    constructor
    · by_contra h; exact h3 (.inl h)
    · by_contra h; exact h3 (.inr h)
  have h5 : (s.keyState b).key = s.key b := rfl
  have h6 : (s.keyState b).cbcInvalid = false := by simpa using h2
  cases hr : c.mr <;> cases hc : c.mc
  · simp [hr, hc] at h1
  · by_cases h7 : (s.key b).r = new.r
    · simp [h4, h5, h6, h7]
    · by_cases h8 : Config.freeBit s.draws <;> simp [h4, h5, h6, h7, h8, adjustedKey]
  · by_cases h7 : (s.key b).c = new.c
    · simp [h4, h5, h6, h7]
    · by_cases h8 : Config.freeBit s.draws <;> simp [h4, h5, h6, h7, h8, adjustedKey]
  · simp [h4, h5, h6]

/-- Whatever happens elsewhere, a block has an available number exactly when its address is available. -/
theorem keyBlock_absolute (s : State) (a : Word) :
    keyBlock s a true = if s.available a then some (blockOf a) else none := rfl

theorem keyBlock_real (s : State) (a : Word) :
    keyBlock s a false =
      if s.available (applyPrefix s.prefixReg a) then some (blockOf (applyPrefix s.prefixReg a)) else none := rfl

/-! ## Clearing -/

/-- One piece of a clearing keeps everything but storage and one key, and the invariant. -/
theorem clearPiece_keeps (aa : Word) (sel : Nat → Bool) (s : State) :
    blockKeeps (blockOf aa) s (clearPiece aa sel s) ∧ (s.available aa = true → s.Inv → (clearPiece aa sel s).Inv) := by
  refine ⟨⟨⟨rfl, rfl, ⟨rfl, rfl, rfl, rfl⟩, rfl, rfl⟩, rfl, rfl, fun h => ⟨h, ?_⟩⟩, ?_⟩
  · exact (recordReference_sameKeysBut aa (s.setMem _)).trans (recordChange_sameKeysBut aa _ _ _)
  · intro ha h
    have h1 : (s.setMem (Memory.clear s.mem sel)).Inv :=
      ⟨Memory.wf_clear h.1 _, h.2.1, fun c hc => h.2.2.1 c (Memory.mem_clear hc), h.2.2.2⟩
    exact (h1.recordReference ha).recordChange _ _ ha

/-- A clearing in pieces leaves the CPU as it is and keeps the invariant, whatever other agents do. -/
theorem clearPieces_same (aa : Word) (gaps : List AccessGap) (done : List (Nat × Nat)) (s : State) :
    cpuSame s (clearPieces aa gaps done s) ∧ (clearPieces aa gaps done s).asyncPending = s.asyncPending ∧
      (clearPieces aa gaps done s).environment = s.environment ∧
      (s.available aa = true → s.Inv → (clearPieces aa gaps done s).Inv) := by
  induction gaps generalizing done s with
  | nil =>
    obtain ⟨⟨h1, h2, h3, _⟩, h4⟩ := clearPiece_keeps aa (leftOf (blockOf aa) done) s
    exact ⟨h1, h2, h3, h4⟩
  | cons g rest ih =>
    obtain ⟨h1, h2, h3, _, h4⟩ := foldl_applyAction g.actions { s with interleaving := rest }
    have h1' : cpuSame s (g.actions.foldl applyAction { s with interleaving := rest }) := h1
    simp only [clearPieces]
    generalize g.actions.foldl applyAction { s with interleaving := rest } = t at *
    have ha : s.available aa = true → t.available aa = true := fun h => (h1'.available aa).trans h
    split
    · obtain ⟨⟨g1, g2, g3, _⟩, g4⟩ := clearPiece_keeps aa (leftOf (blockOf aa) done) t
      exact ⟨h1'.trans g1, g2.trans h2, g3.trans h3, fun hh h => g4 (ha hh) (h4 h)⟩
    · next p _ =>
      obtain ⟨⟨g1, g2, g3, _⟩, g4⟩ := clearPiece_keeps aa
        (fun x => leftOf (blockOf aa) done x && !leftOf (blockOf aa) [p] x) t
      obtain ⟨i1, i2, i3, i4⟩ := ih (p :: done) (clearPiece aa
        (fun x => leftOf (blockOf aa) done x && !leftOf (blockOf aa) [p] x) t)
      exact ⟨(h1'.trans g1).trans i1, i2.trans (g2.trans h2), i3.trans (g3.trans h3),
        fun hh h => i4 ((g1.available aa).trans (ha hh)) (g4 (ha hh) (h4 h))⟩

/-- Without a gap a block is cleared at once. -/
theorem clearBlock_alone (aa : Word) {s : State} (hi : s.interleaving = []) :
    clearBlock aa s = clearPiece aa (leftOf (blockOf aa) []) s := by
  rw [clearBlock, hi]
  rfl

theorem clearBlock_keeps (aa : Word) (s : State) :
    blockKeeps (blockOf aa) s (clearBlock aa s) ∧ (s.available aa = true → s.Inv → (clearBlock aa s).Inv) := by
  obtain ⟨h1, h2, h3, h4⟩ := clearPieces_same aa s.interleaving [] s
  refine ⟨⟨h1, h2, h3, fun hi => ?_⟩, h4⟩
  rw [clearBlock_alone aa hi]
  exact (clearPiece_keeps aa _ s).1.2.2.2 hi

theorem leftOf_nil (b x : Nat) : leftOf b [] x = decide (x / 4096 = b) := by
  by_cases h : x / 4096 = b <;> simp [leftOf, h]

/-- A cleared block reads as zeros; the rest of storage as before (R262). -/
theorem byte_clearBlock (aa : Word) {s : State} (hi : s.interleaving = []) (x : Nat) :
    (clearBlock aa s).byte x = if x / 4096 = blockOf aa then 0 else s.byte x := by
  rw [clearBlock_alone aa hi]
  change Memory.read (Memory.clear s.mem (leftOf (blockOf aa) [])) x = _
  rw [Memory.read_clear, leftOf_nil]
  by_cases h : x / 4096 = blockOf aa <;> simp [h, State.byte]

/-- Clearing records what a store does (R263). -/
theorem clearBlock_key (aa : Word) {s : State} (hi : s.interleaving = []) :
    keyMayRecord (∃ x : Nat, x / 4096 = blockOf aa ∧ s.byte x ≠ 0) (s.keyState (blockOf aa))
      ((clearBlock aa s).keyState (blockOf aa)) := by
  rw [clearBlock_alone aa hi]
  have h1 := recordReference_records aa (s.setMem (Memory.clear s.mem (leftOf (blockOf aa) []))) (blockOf aa)
  have h2 := recordChange_records aa false (Memory.anyNonzero s.mem (leftOf (blockOf aa) []))
    (recordReference aa (s.setMem (Memory.clear s.mem (leftOf (blockOf aa) [])))) (blockOf aa)
  have h3 := (sameAccess.refl _).trans
    ((recordReference_sameAccess aa (s.setMem (Memory.clear s.mem (leftOf (blockOf aa) [])))).trans
      (recordChange_sameAccess aa false (Memory.anyNonzero s.mem (leftOf (blockOf aa) [])) _)) (blockOf aa)
  refine ⟨h3.1, h3.2.1, h3.2.2, h2.1 ∘ h1.1, h2.2 ∘ h1.2, fun ⟨x, hx, hb⟩ => ?_⟩
  have ha : Memory.anyNonzero s.mem (leftOf (blockOf aa) []) = true :=
    (Memory.anyNonzero_iff _ _).mpr ⟨x, by simp [leftOf_nil, hx], hb⟩
  rw [clearPiece, ha]
  exact recordChange_sets aa _

theorem setFrameKey_keeps (r aa : Word) (s : State) :
    blockKeeps (blockOf aa) s (setFrameKey r aa s) ∧
      (s.interleaving = [] → (setFrameKey r aa s).mem = s.mem) ∧
      (s.available aa = true → s.Inv → (setFrameKey r aa s).Inv) :=
  setKeyBlock_keeps _ _ _ _ s

/-- The work of PFMF on one block changes keys and storage alone, and keeps the invariant. -/
theorem frameBlock_keeps (r aa : Word) (s : State) :
    blockKeeps (blockOf aa) s (frameBlock r aa s) ∧ (s.available aa = true → s.Inv → (frameBlock r aa s).Inv) := by
  have hd := drawn_keeps (blockOf aa) 1 s
  have both : ∀ t, blockKeeps (blockOf aa) s t → (s.Inv → t.Inv) →
      (blockKeeps (blockOf aa) s (setFrameKey r aa (clearBlock aa t)) ∧
        (s.available aa = true → s.Inv → (setFrameKey r aa (clearBlock aa t)).Inv)) ∧
      (blockKeeps (blockOf aa) s (clearBlock aa (setFrameKey r aa t)) ∧
        (s.available aa = true → s.Inv → (clearBlock aa (setFrameKey r aa t)).Inv)) := by
    intro t ht hi
    obtain ⟨h1, h2⟩ := clearBlock_keeps aa t
    obtain ⟨h3, _, h4⟩ := setFrameKey_keeps r aa (clearBlock aa t)
    obtain ⟨g1, _, g2⟩ := setFrameKey_keeps r aa t
    obtain ⟨g3, g4⟩ := clearBlock_keeps aa (setFrameKey r aa t)
    have a1 := (ht.trans h1).1.available aa
    have a2 := (ht.trans g1).1.available aa
    have a3 := ht.1.available aa
    exact ⟨⟨ht.trans (h1.trans h3), fun ha h => h4 (a1.trans ha) (h2 (a3.trans ha) (hi h))⟩,
      ⟨ht.trans (g1.trans g3), fun ha h => g4 (a2.trans ha) (g2 (a3.trans ha) (hi h))⟩⟩
  unfold frameBlock
  split
  · split
    · split
      · exact (both _ hd fun h => h.drawn 1).1
      · exact (both _ hd fun h => h.drawn 1).2
    · exact (both _ (blockKeeps.refl _ s) id).1
  · split
    · exact ⟨(setFrameKey_keeps r aa s).1, (setFrameKey_keeps r aa s).2.2⟩
    · split
      · exact clearBlock_keeps aa s
      · exact ⟨blockKeeps.refl _ s, fun _ h => h⟩

/-- The bytes after the work of PFMF on one block (R262), no other agent acting. -/
theorem byte_frameBlock (r aa : Word) {s : State} (hi : s.interleaving = []) (x : Nat) :
    (frameBlock r aa s).byte x = if frameClear r = true ∧ x / 4096 = blockOf aa then 0 else s.byte x := by
  have key : ∀ t : State, t.interleaving = [] → ∀ x, (setFrameKey r aa t).byte x = t.byte x := by
    intro t ht x
    simp only [State.byte, (setFrameKey_keeps r aa t).2.1 ht]
  have hd : (s.drawn 1).interleaving = [] := hi
  have hc : ∀ t : State, t.interleaving = [] → (clearBlock aa t).interleaving = [] := fun t ht =>
    (clearBlock_keeps aa t).1.interleaving ht
  have hk : ∀ t : State, t.interleaving = [] → (setFrameKey r aa t).interleaving = [] := fun t ht =>
    (setFrameKey_keeps r aa t).1.interleaving ht
  unfold frameBlock
  split
  · next hb =>
    have hf : frameClear r = true := by simp_all
    simp only [hf, true_and]
    split
    · split
      · rw [key _ (hc _ hd), byte_clearBlock aa hd]; rfl
      · rw [byte_clearBlock aa (hk _ hd), key _ hd]; rfl
    · rw [key _ (hc _ hi), byte_clearBlock aa hi]
  · next hb =>
    split
    · next hs =>
      have hf : frameClear r = false := by simp_all
      simp [hf, key _ hi]
    · split
      · next hf => simp only [hf, true_and]; exact byte_clearBlock aa hi x
      · next hf => simp [hf]

/-- The key after the work of PFMF on one block is one that R261 allows, no other agent acting. -/
theorem frameBlock_key (r aa : Word) {s : State} (hi : s.interleaving = []) :
    frameKeyMayBecome (frameControls s.installation r) r (∃ x : Nat, x / 4096 = blockOf aa ∧ s.byte x ≠ 0)
      (s.keyState (blockOf aa)) ((frameBlock r aa s).keyState (blockOf aa)) := by
  have key : ∀ t : State, t.interleaving = [] → t.installation = s.installation →
      keyMayBecome (frameControls s.installation r) (keyOfRegister r) (t.keyState (blockOf aa))
        ((setFrameKey r aa t).keyState (blockOf aa)) := by
    intro t ht he
    have h := setKeyBlock_key (blockOf aa) (keyOfRegister r) (frameControls t.installation r) ht
    rw [← he]
    exact h
  have hd : (s.drawn 1).interleaving = [] := hi
  have hc : ∀ t : State, t.interleaving = [] → (clearBlock aa t).interleaving = [] := fun t ht =>
    (clearBlock_keeps aa t).1.interleaving ht
  have hk : ∀ t : State, t.interleaving = [] → (setFrameKey r aa t).interleaving = [] := fun t ht =>
    (setFrameKey_keeps r aa t).1.interleaving ht
  have hci : ∀ t : State, (clearBlock aa t).installation = t.installation := fun t =>
    (clearBlock_keeps aa t).1.1.2.2.1.2.2.2
  unfold frameKeyMayBecome frameBlock
  dsimp only
  cases hs : frameSetKey r <;> cases hf : frameClear r
  · simp
  · simpa using clearBlock_key aa hi
  · simpa using key s hi rfl
  · simp only [Bool.and_self, if_true, Bool.true_eq_false, if_false]
    cases hcond : (frameControls s.installation r).conditional
    · simp only [Bool.false_eq_true, if_false, if_true]
      have h := key _ (hc _ hi) (hci s)
      rw [keyMayBecome] at h
      simp only [hcond, true_or, if_true] at h
      rw [← h.1, ← h.2]
    · simp only [if_true, Bool.true_eq_false, if_false]
      split
      · exact .inl ⟨_, clearBlock_key (s := s.drawn 1) aa hd, key _ (hc _ hd) (hci _)⟩
      · refine .inr ⟨_, key (s.drawn 1) hd rfl, ?_⟩
        have h := clearBlock_key (s := setFrameKey r aa (s.drawn 1)) aa (hk _ hd)
        simp only [State.byte, (setFrameKey_keeps r aa (s.drawn 1)).2.1 hd] at h
        exact h

/-- What the unit of PFMF answers with. -/
theorem frameUnit_cases {r aa : Word} {s t : State} (h : frameUnit r aa s = some t) :
    t = frameBlock r aa s ∧ ((frameSetKey r || frameClear r) = true → s.available aa = true) := by
  unfold frameUnit at h
  split at h
  · next hf =>
    split at h
    · next ha => cases h; exact ⟨rfl, fun _ => ha⟩
    · cases h
  · next hf =>
    cases h
    have hk : frameSetKey r = false := by simp_all
    have hc : frameClear r = false := by simp_all
    exact ⟨by simp [frameBlock, hk, hc], fun h => absurd h hf⟩

/-! ## The run over blocks -/

/-- What holds after every unit and every boundary holds when the run ends. -/
theorem runBlocks_keeps {unit : Word → State → Option State} {m : AddressingMode} {r2 : Reg} {P : State → Prop}
    (hu : ∀ a s t v, P s → unit a s = some t → P (t.setGpr r2 v)) (hb : ∀ s, P s → P s.atBoundary) (fuel : Nat)
    (a : Word) {s : State} (h : P s) :
    match runBlocks unit m r2 fuel a s with
    | .completed t => P t
    | .interrupted t => P t
    | .addressing t => P t := by
  induction fuel generalizing a s with
  | zero => exact h
  | succ fuel ih =>
    simp only [runBlocks]
    cases hs : unit a s with
    | none => exact h
    | some t =>
      have h1 := hu a s t (writeBack m (nextBlock m a) (t.gpr r2)) h hs
      dsimp only
      by_cases hn : blockInMegabyte (nextBlock m a) = 0
      · simp only [hn, if_true]; exact h1
      · have h2 := hb _ h1
        simp only [hn, if_false]
        by_cases hp : ((t.setGpr r2 (writeBack m (nextBlock m a) (t.gpr r2))).atBoundary).asyncPending.isSome = true
        · simp only [hp, if_true]; exact h2
        · simp only [hp]; exact ih _ h2

/-- The address that R2 designates after `k` blocks from `a`: the next block, or the next megabyte boundary. -/
def addressAfter (m : AddressingMode) (a : Word) (k : Nat) : Word :=
  if k < blocksLeft a then blockFrom a k else nextMegabyte m a

theorem nextBlock_addressAfter {m : AddressingMode} {a : Word} (ha : isBlockAddress m a) {i : Nat}
    (hi : i < blocksLeft a) : nextBlock m (blockFrom a i) = addressAfter m a (i + 1) := by
  unfold addressAfter
  split
  · next h => exact (nextBlock_blockFrom ha h).1
  · next h => exact (nextBlock_last ha (by omega)).1

/-- `t` is `s` with the first `k` blocks from `a` worked on, each by a unit that `post` relates to its state before;
R2 designates the block after them, and all else is as it was. -/
def blocksDone (post : Nat → State → State → Prop) (m : AddressingMode) (r2 : Reg) (a : Word) (k : Nat)
    (s t : State) : Prop :=
  t.psw = s.psw ∧ sameControls s t ∧ t.tlb = s.tlb ∧ t.newPswUntried = s.newPswUntried ∧ t.interleaving = [] ∧
    sameGprsBut r2 s t ∧ t.gpr r2 = (if k = 0 then s.gpr r2 else writeBack m (addressAfter m a k) (s.gpr r2)) ∧
    (∀ b, (b < blockOf a ∨ blockOf a + k ≤ b) → t.keyState b = s.keyState b) ∧
    (∀ x, (x / 4096 < blockOf a ∨ blockOf a + k ≤ x / 4096) → t.byte x = s.byte x) ∧
    ∀ i, i < k → ∃ p q, p.keyState (blockOf a + i) = s.keyState (blockOf a + i) ∧
      (∀ x, x / 4096 = blockOf a + i → p.byte x = s.byte x) ∧ p.installation = s.installation ∧ p.interleaving = [] ∧
      post i p q ∧
      t.keyState (blockOf a + i) = q.keyState (blockOf a + i) ∧
      ∀ x, x / 4096 = blockOf a + i → t.byte x = q.byte x

theorem blocksDone_zero (post : Nat → State → State → Prop) (m : AddressingMode) (r2 : Reg) (a : Word) {s : State}
    (hi : s.interleaving = []) : blocksDone post m r2 a 0 s s :=
  ⟨rfl, sameControls.refl s, rfl, rfl, hi, fun _ _ => rfl, rfl, fun _ _ => rfl, fun _ _ => rfl,
    fun _ h => absurd h (by omega)⟩

/-- One unit more. The environment and what it makes pending play no part. -/
theorem blocksDone_succ {post : Nat → State → State → Prop} {m : AddressingMode} {r2 : Reg} {a : Word} {k : Nat}
    {s t u v : State} (ha : isBlockAddress m a) (hk : k < blocksLeft a) (h : blocksDone post m r2 a k s t)
    (hu : blockKeeps (blockOf a + k) t u) (hb : ∀ x, x / 4096 ≠ blockOf a + k → u.byte x = t.byte x)
    (hp : post k t u) (hv : cpuSame (u.setGpr r2 (writeBack m (nextBlock m (blockFrom a k)) (u.gpr r2))) v)
    (hvm : v.mem = u.mem) (hvk : v.keys = u.keys) (hvi : v.interleaving = u.interleaving) :
    blocksDone post m r2 a (k + 1) s v := by
  obtain ⟨d1, d2, d3, d4, d0, d5, d6, d7, d8, d9⟩ := h
  obtain ⟨⟨u1, u2, u3, u4, u5⟩, _, _, u6⟩ := hu
  obtain ⟨u0, u6⟩ := u6 d0
  obtain ⟨v1, v2, v3, v4, v5⟩ := hv
  have hg : ∀ q, v.gpr q = (u.setGpr r2 (writeBack m (nextBlock m (blockFrom a k)) (u.gpr r2))).gpr q := by
    intro q; simp only [State.gpr, v1]
  have hug : ∀ q, u.gpr q = t.gpr q := by intro q; simp only [State.gpr, u1]
  have hkey : ∀ b, v.keyState b = u.keyState b := by intro b; simp only [State.keyState, hvk]
  have hbyte : ∀ x, v.byte x = u.byte x := by intro x; simp only [State.byte, hvm]
  refine ⟨?_, d2.trans (u3.trans v3), ?_, ?_, hvi.trans u0, ?_, ?_, ?_, ?_, ?_⟩
  · rw [v2, State.setGpr_psw, u2, d1]
  · rw [v4, State.setGpr_tlb, u4, d3]
  · rw [v5, State.setGpr_newPswUntried, u5, d4]
  · intro q hq
    rw [hg, State.gpr_setGpr_ne _ _ (Ne.symm hq), hug]
    exact d5 q hq
  · rw [hg, State.gpr_setGpr_same, hug, d6, nextBlock_addressAfter ha hk, if_neg (show ¬ k + 1 = 0 by omega)]
    split
    · rfl
    · rw [writeBack_writeBack]
  · intro b hb'
    rw [hkey, u6 b (by omega)]
    exact d7 b (by omega)
  · intro x hx
    rw [hbyte, hb x (by omega)]
    exact d8 x (by omega)
  · intro i hi
    by_cases he : i = k
    · subst he
      refine ⟨t, u, d7 _ (by omega), fun x hx => d8 x (by omega), d2.2.2.2, d0, hp, hkey _, fun x _ => hbyte x⟩
    · obtain ⟨p, q, e1, e2, e3, e0, e4, e5, e6⟩ := d9 i (by omega)
      refine ⟨p, q, e1, e2, e3, e0, e4, ?_, ?_⟩
      · rw [hkey, u6 _ (by omega), e5]
      · intro x hx
        rw [hbyte, hb x (by omega), e6 x hx]

/-- A unit of work on the blocks from `a`: what it must answer on a machine of the same installation, no other agent
acting. -/
def unitWorks (unit : Word → State → Option State) (post : Nat → State → State → Prop) (a : Word) (s : State)
    (i : Nat) : Prop :=
  ∀ t : State, t.installation = s.installation → t.interleaving = [] → ∃ u, unit (blockFrom a i) t = some u ∧
    blockKeeps (blockOf a + i) t u ∧ (∀ x, x / 4096 ≠ blockOf a + i → u.byte x = t.byte x) ∧ post i t u

/-- A run passes any number of blocks short of the boundary, no other agent acting and nothing becoming pending. -/
theorem runBlocks_advance {unit : Word → State → Option State} {post : Nat → State → State → Prop}
    {m : AddressingMode} {r2 : Reg} {a : Word} (ha : isBlockAddress m a) {s : State} {rest : List Boundary}
    (hs : s.asyncPending = none) (hi : s.interleaving = []) (k : Nat) (hk : k < blocksLeft a) (hw : ∀ i, i < k → unitWorks unit post a s i)
    (he : s.environment = List.replicate k ⟨[], none⟩ ++ rest ∨ s.environment = [] ∧ rest = []) :
    ∃ t, (∀ fuel, runBlocks unit m r2 (fuel + k) a s = runBlocks unit m r2 fuel (blockFrom a k) t) ∧
      blocksDone post m r2 a k s t ∧ t.asyncPending = none ∧ t.environment = rest := by
  induction k generalizing rest with
  | zero =>
    refine ⟨s, fun fuel => by rw [blockFrom_zero]; rfl, blocksDone_zero _ _ _ _ hi, hs, ?_⟩
    rcases he with he | ⟨he, hr⟩
    · simpa using he
    · rw [he, hr]
  | succ k ih =>
    have he' : s.environment = List.replicate k ⟨[], none⟩ ++ (if s.environment = [] then [] else ⟨[], none⟩ :: rest) ∨
        s.environment = [] ∧ (if s.environment = [] then [] else (⟨[], none⟩ : Boundary) :: rest) = [] := by
      rcases he with he | ⟨he, hr⟩
      · left
        rw [if_neg (by rw [he]; simp [List.replicate_succ])]
        rw [he, List.replicate_succ', List.append_assoc]
        rfl
      · right; simp [he]
    obtain ⟨t, h1, h2, h3, h4⟩ := ih (by omega) (fun i hi => hw i (by omega)) he'
    obtain ⟨u, g1, g2, g3, g4⟩ := hw k (by omega) t h2.2.1.2.2.2 h2.2.2.2.2.1
    obtain ⟨n1, n2⟩ := nextBlock_blockFrom ha hk
    have hv : ∀ w : State, w = u.setGpr r2 (writeBack m (nextBlock m (blockFrom a k)) (u.gpr r2)) →
        cpuSame w w.atBoundary ∧ w.atBoundary.mem = u.mem ∧ w.atBoundary.keys = u.keys ∧
          w.atBoundary.asyncPending = none ∧ w.atBoundary.environment = rest := by
      intro w hwe
      have ep : w.asyncPending = none := by rw [hwe]; simp [g2.2.1, h3]
      have ee : w.environment = t.environment := by rw [hwe]; simp [g2.2.2.1]
      refine ⟨(atBoundary_same w).1, ?_⟩
      rw [h4] at ee
      by_cases hn : s.environment = []
      · rw [if_pos hn] at ee
        rw [atBoundary_nil ee]
        refine ⟨by rw [hwe]; rfl, by rw [hwe]; rfl, ep, ?_⟩
        rcases he with he | ⟨_, hr⟩
        · rw [hn] at he; simp [List.replicate_succ] at he
        · rw [ee, hr]
      · rw [if_neg hn] at ee
        simp only [State.atBoundary, ee, List.foldl_nil]
        refine ⟨by rw [hwe]; rfl, by rw [hwe]; rfl, by simp [ep], trivial⟩
    obtain ⟨v1, v2, v3, v4, v5⟩ := hv _ rfl
    refine ⟨_, fun fuel => ?_, blocksDone_succ ha (by omega) h2 g2 g3 g4 v1 v2 v3 (atBoundary_interleaving _), v4, v5⟩
    rw [show fuel + (k + 1) = (fuel + 1) + k by omega, h1 (fuel + 1)]
    simp only [runBlocks, g1]
    rw [if_neg (by rw [n1]; exact n2), v4, n1]
    rfl

/-- A run on a machine left to itself, every block of which can be worked on, completes with all of them done. -/
theorem runBlocks_completes {unit : Word → State → Option State} {post : Nat → State → State → Prop}
    {m : AddressingMode} {r2 : Reg} {a : Word} (ha : isBlockAddress m a) {s : State} (hq : s.quiet)
    (hw : ∀ i, i < blocksLeft a → unitWorks unit post a s i) :
    ∃ t, runBlocks unit m r2 blocksInMegabyte a s = .completed t ∧ blocksDone post m r2 a (blocksLeft a) s t ∧
      t.quiet := by
  have hb := blocksLeft_bounds a
  obtain ⟨n, hn⟩ : ∃ n, blocksLeft a = n + 1 := ⟨blocksLeft a - 1, by omega⟩
  obtain ⟨t, h1, h2, h3, h4⟩ := runBlocks_advance (post := post) (rest := []) (r2 := r2) ha hq.1 hq.2.2 n (by omega)
    (fun i hi => hw i (by omega)) (.inr ⟨hq.2.1, rfl⟩)
  obtain ⟨u, g1, g2, g3, g4⟩ := hw n (by omega) t h2.2.1.2.2.2 h2.2.2.2.2.1
  refine ⟨u.setGpr r2 (writeBack m (nextBlock m (blockFrom a n)) (u.gpr r2)), ?_, ?_, ?_⟩
  · rw [show blocksInMegabyte = (255 - n + 1) + n by unfold blocksInMegabyte; omega, h1 (255 - n + 1)]
    simp only [runBlocks, g1]
    rw [if_pos (by rw [(nextBlock_last ha hn.symm).1]; exact (nextBlock_last ha hn.symm).2)]
  · rw [hn]
    exact blocksDone_succ ha (by omega) h2 g2 g3 g4 (cpuSame.refl _) rfl rfl rfl
  · have hi : (u.setGpr r2 (writeBack m (nextBlock m (blockFrom a n)) (u.gpr r2))).interleaving = [] := by
      simpa using g2.interleaving h2.2.2.2.2.1
    exact ⟨by simp [g2.2.1, h3], by simp [g2.2.2.1, h4], hi⟩

/-- A run interrupted after `k + 1` blocks, short of the boundary. -/
theorem runBlocks_interrupted {unit : Word → State → Option State} {post : Nat → State → State → Prop}
    {m : AddressingMode} {r2 : Reg} {a : Word} (ha : isBlockAddress m a) {s : State} {rest : List Boundary} {k : Nat}
    {p : AsyncClass} (hs : s.asyncPending = none) (hi : s.interleaving = [])
    (he : s.environment = List.replicate k ⟨[], none⟩ ++ ⟨[], some p⟩ :: rest) (hk : k + 1 < blocksLeft a)
    (hw : ∀ i, i < k + 1 → unitWorks unit post a s i) :
    ∃ t, runBlocks unit m r2 blocksInMegabyte a s = .interrupted t ∧ blocksDone post m r2 a (k + 1) s t ∧
      t.asyncPending = some p ∧ t.environment = rest := by
  have hb := blocksLeft_bounds a
  obtain ⟨t, h1, h2, h3, h4⟩ := runBlocks_advance (post := post) (r2 := r2) ha hs hi k (by omega)
    (fun i hi => hw i (by omega)) (.inl he)
  obtain ⟨u, g1, g2, g3, g4⟩ := hw k (by omega) t h2.2.1.2.2.2 h2.2.2.2.2.1
  obtain ⟨n1, n2⟩ := nextBlock_blockFrom ha hk
  have e1 := atBoundary_cons (s := u.setGpr r2 (writeBack m (nextBlock m (blockFrom a k)) (u.gpr r2))) (p := some p)
    (rest := rest) (by simp [g2.2.2.1, h4])
  have v1 := (atBoundary_same (u.setGpr r2 (writeBack m (nextBlock m (blockFrom a k)) (u.gpr r2)))).1
  rw [e1] at v1
  have ep : u.asyncPending = none := by rw [g2.2.1, h3]
  refine ⟨_, ?_, blocksDone_succ ha (by omega) h2 g2 g3 g4 v1 rfl rfl rfl, ?_, rfl⟩
  · rw [show blocksInMegabyte = (255 - k + 1) + k by unfold blocksInMegabyte; omega, h1 (255 - k + 1)]
    simp only [runBlocks, g1]
    rw [if_neg (by rw [n1]; exact n2), e1, if_pos (by simp [ep])]
  · simp [ep]

/-- A run that meets a block it cannot work on, `k` blocks on, short of the boundary. -/
theorem runBlocks_addressing {unit : Word → State → Option State} {post : Nat → State → State → Prop}
    {m : AddressingMode} {r2 : Reg} {a : Word} (ha : isBlockAddress m a) {s : State} {k : Nat} (hq : s.quiet)
    (hk : k < blocksLeft a) (hw : ∀ i, i < k → unitWorks unit post a s i)
    (hn : ∀ t : State, t.installation = s.installation → unit (blockFrom a k) t = none) :
    ∃ t, runBlocks unit m r2 blocksInMegabyte a s = .addressing t ∧ blocksDone post m r2 a k s t ∧ t.quiet := by
  have hb := blocksLeft_bounds a
  obtain ⟨t, h1, h2, h3, h4⟩ := runBlocks_advance (post := post) (rest := []) (r2 := r2) ha hq.1 hq.2.2 k hk hw
    (.inr ⟨hq.2.1, rfl⟩)
  refine ⟨t, ?_, h2, h3, h4, h2.2.2.2.2.1⟩
  rw [show blocksInMegabyte = (255 - k + 1) + k by unfold blocksInMegabyte; omega, h1 (255 - k + 1)]
  simp only [runBlocks, hn t h2.2.1.2.2.2]

end Sys2Proof.Machine
end

