-- ==== Sys2Proof/Laws/PerInstr.lean ====
section
/-! SUPPORT. A statement made for each instruction: the length of its encoding is the length that bits 0-1 of its
first byte announce (R200). -/

namespace Sys2Proof.Laws.EncodingLength

/-- The encoding of `i` is as long as its first byte says. -/
def Statement (i : Instr) : Prop :=
  ∃ b bs, encode i = b :: bs ∧ (b :: bs).length = instrLength b

theorem sske (m3 : Mask) (r1 : Reg) (r2 : Reg) : Statement (.sske m3 r1 r2) := ⟨_, _, rfl, rfl⟩

theorem pfmf (r1 : Reg) (r2 : Reg) : Statement (.pfmf r1 r2) := ⟨_, _, rfl, rfl⟩

theorem lctl (r1 : Reg) (r3 : Reg) (b2 : Reg) (d2 : Nat) : Statement (.lctl r1 r3 b2 d2) := ⟨_, _, rfl, rfl⟩

theorem lctlg (r1 : Reg) (r3 : Reg) (b2 : Reg) (dl2 : Nat) (dh2 : Nat) : Statement (.lctlg r1 r3 b2 dl2 dh2) := ⟨_, _, rfl, rfl⟩

theorem stctl (r1 : Reg) (r3 : Reg) (b2 : Reg) (d2 : Nat) : Statement (.stctl r1 r3 b2 d2) := ⟨_, _, rfl, rfl⟩

theorem stctg (r1 : Reg) (r3 : Reg) (b2 : Reg) (dl2 : Nat) (dh2 : Nat) : Statement (.stctg r1 r3 b2 dl2 dh2) := ⟨_, _, rfl, rfl⟩

theorem lpsw (b2 : Reg) (d2 : Nat) : Statement (.lpsw b2 d2) := ⟨_, _, rfl, rfl⟩

theorem lpswe (b2 : Reg) (d2 : Nat) : Statement (.lpswe b2 d2) := ⟨_, _, rfl, rfl⟩

theorem mvcp (r1 : Reg) (r3 : Reg) (b1 : Reg) (d1 : Nat) (b2 : Reg) (d2 : Nat) : Statement (.mvcp r1 r3 b1 d1 b2 d2) := ⟨_, _, rfl, rfl⟩

theorem mvcs (r1 : Reg) (r3 : Reg) (b1 : Reg) (d1 : Nat) (b2 : Reg) (d2 : Nat) : Statement (.mvcs r1 r3 b1 d1 b2 d2) := ⟨_, _, rfl, rfl⟩

theorem mvck (r1 : Reg) (r3 : Reg) (b1 : Reg) (d1 : Nat) (b2 : Reg) (d2 : Nat) : Statement (.mvck r1 r3 b1 d1 b2 d2) := ⟨_, _, rfl, rfl⟩

theorem mvcsk (b1 : Reg) (d1 : Nat) (b2 : Reg) (d2 : Nat) : Statement (.mvcsk b1 d1 b2 d2) := ⟨_, _, rfl, rfl⟩

theorem mvcdk (b1 : Reg) (d1 : Nat) (b2 : Reg) (d2 : Nat) : Statement (.mvcdk b1 d1 b2 d2) := ⟨_, _, rfl, rfl⟩

theorem mvpg (r1 : Reg) (r2 : Reg) : Statement (.mvpg r1 r2) := ⟨_, _, rfl, rfl⟩

theorem iske (r1 : Reg) (r2 : Reg) : Statement (.iske r1 r2) := ⟨_, _, rfl, rfl⟩

theorem ivsk (r1 : Reg) (r2 : Reg) : Statement (.ivsk r1 r2) := ⟨_, _, rfl, rfl⟩

theorem rrbe (r1 : Reg) (r2 : Reg) : Statement (.rrbe r1 r2) := ⟨_, _, rfl, rfl⟩

theorem tprot (b1 : Reg) (d1 : Nat) (b2 : Reg) (d2 : Nat) : Statement (.tprot b1 d1 b2 d2) := ⟨_, _, rfl, rfl⟩

theorem ex (r1 : Reg) (x2 : Reg) (b2 : Reg) (d2 : Nat) : Statement (.ex r1 x2 b2 d2) := ⟨_, _, rfl, rfl⟩

theorem bc (m1 : Mask) (x2 : Reg) (b2 : Reg) (d2 : Nat) : Statement (.bc m1 x2 b2 d2) := ⟨_, _, rfl, rfl⟩

theorem bcr (m1 : Mask) (r2 : Reg) : Statement (.bcr m1 r2) := ⟨_, _, rfl, rfl⟩

end Sys2Proof.Laws.EncodingLength
end

