-- ==== Sys2Proof/Laws/Translation.lean ====
section
/-! SUPPORT. Translation and storage references: what each can do to the state. -/

namespace Sys2Proof.Machine

/-! ## What an access to storage keeps -/

/-- Between the two states only reference bits were set. -/
def onlyReferences (s t : State) : Prop :=
  t.interleaving = s.interleaving ∧ t.mem = s.mem ∧ sameAccess s t ∧
    ∀ b, (t.key b).c = (s.key b).c ∧ ((s.key b).r = true → (t.key b).r = true)

theorem onlyReferences.refl (s : State) : onlyReferences s s := ⟨rfl, rfl, sameAccess.refl s, fun _ => ⟨rfl, id⟩⟩

theorem onlyReferences.trans {s t u : State} (h : onlyReferences s t) (g : onlyReferences t u) :
    onlyReferences s u := by
  obtain ⟨h1, h2, h3, h4⟩ := h
  obtain ⟨g1, g2, g3, g4⟩ := g
  exact ⟨g1.trans h1, g2.trans h2, h3.trans g3, fun b => ⟨(g4 b).1.trans (h4 b).1, fun hr => (g4 b).2 ((h4 b).2 hr)⟩⟩

/-- What the accesses of a fetch keep: the CPU, what is pending, the boundaries to come, the invariant; and where no
other agent acts, everything but reference bits. -/
def accessKeeps (s t : State) : Prop :=
  cpuSame s t ∧ t.asyncPending = s.asyncPending ∧ t.environment = s.environment ∧ (s.Inv → t.Inv) ∧
    (s.interleaving = [] → onlyReferences s t)

theorem accessKeeps.refl (s : State) : accessKeeps s s :=
  ⟨cpuSame.refl s, rfl, rfl, id, fun _ => onlyReferences.refl s⟩

theorem accessKeeps.trans {s t u : State} (h : accessKeeps s t) (g : accessKeeps t u) : accessKeeps s u := by
  obtain ⟨h1, h2, h3, h4, h5⟩ := h
  obtain ⟨g1, g2, g3, g4, g5⟩ := g
  exact ⟨h1.trans g1, g2.trans h2, g3.trans h3, fun h => g4 (h4 h),
    fun h => (h5 h).trans (g5 ((h5 h).1.trans h))⟩

theorem accessKeeps.alone {s t : State} (h : accessKeeps s t) (hi : s.interleaving = []) : t.interleaving = [] :=
  (h.2.2.2.2 hi).1.trans hi

theorem accessKeeps.available {s t : State} (h : accessKeeps s t) (aa : Word) : t.available aa = s.available aa :=
  h.1.available aa

theorem drawn_accessKeeps (s : State) (n : Nat) : accessKeeps s (s.drawn n) :=
  ⟨⟨rfl, rfl, ⟨rfl, rfl, rfl, rfl⟩, rfl, rfl⟩, rfl, rfl, fun h => h.of_eq rfl rfl rfl,
    fun _ => ⟨rfl, rfl, fun _ => ⟨rfl, rfl, rfl⟩, fun _ => ⟨rfl, id⟩⟩⟩

theorem beforeAccess_accessKeeps (s : State) : accessKeeps s s.beforeAccess := by
  obtain ⟨h1, h2, h3, h4⟩ := beforeAccess_same s
  refine ⟨h1, h2, h3, h4, fun h => ?_⟩
  rw [beforeAccess_alone h]
  exact onlyReferences.refl s

/-- Recording a reference changes no C. -/
theorem recordReference_change (aa : Word) (s : State) (b : Nat) :
    ((recordReference aa s).key b).c = (s.key b).c := by
  simp only [State.key, keyState_recordReference]
  split <;> simp

theorem recordReference_accessKeeps {s : State} {aa : Word} (ha : s.available aa = true) :
    accessKeeps s (recordReference aa s) :=
  ⟨⟨rfl, rfl, ⟨rfl, rfl, rfl, rfl⟩, rfl, rfl⟩, rfl, rfl, fun h => h.recordReference ha,
    fun _ => ⟨rfl, rfl, recordReference_sameAccess aa s,
      fun b => ⟨recordReference_change aa s b, (recordReference_records aa s b).1⟩⟩⟩

/-! ## The buffer -/

/-- What a free choice answers is a candidate. -/
theorem pick_mem {α : Type} {l : List α} {n : Nat} {c : α} (h : pick l n = some c) : c ∈ l := by
  cases l with
  | nil => cases h
  | cons a l => exact List.mem_of_getElem? h

@[simp] theorem pick_nil {α : Type} (n : Nat) : pick ([] : List α) n = none := rfl

/-- From an empty buffer nothing is used. -/
theorem pickCopy_empty {s : State} (h : s.tlb = []) (q : TableRequest) (ps : Bool) : pickCopy s q ps = none := by
  rw [pickCopy, h]
  rfl

theorem State.usableFrames_empty {s : State} (h : s.tlb = []) (asce va : Word) : s.usableFrames asce va = [] := by
  rw [State.usableFrames, h]
  rfl

/-- Under a real-space designation no frame of the buffer brings an attribute of a table entry. -/
theorem State.usableFrames_realSpace {s : State} {asce va : Word} {f : Translation} (h : asceRealSpace asce = true)
    (hf : f ∈ s.usableFrames asce va) : f.attributes = noAttributes := by
  obtain ⟨e, -, he⟩ := List.mem_filterMap.mp hf
  cases e <;> simp only [TlbEntry.frameFor, h, if_true, Bool.true_and, reduceCtorEq, Option.ite_none_left_eq_some,
    Option.ite_none_right_eq_some, Option.some.injEq] at he
  all_goals exact he.2 ▸ rfl

/-! ## Table entries -/

theorem tableFetch_available {s : State} {origin offset e : Word} (h : tableFetch s origin offset = some e) :
    s.available (tableAddress s origin offset) = true := by
  simp only [tableFetch] at h
  split at h
  · next ha => exact State.availableMany_first (by omega) ha
  · cases h

/-- Where no other agent acts, a fetch of a table entry answers what storage holds. -/
theorem Walk.fetch_alone {w : Walk} (h : w.state.interleaving = []) (origin offset : Word) :
    (w.fetch origin offset).1 = tableFetch w.state origin offset := by
  simp only [Walk.fetch, beforeAccess_alone h]
  split <;> simp_all

theorem Walk.fetch_keeps (w : Walk) (origin offset : Word) :
    accessKeeps w.state (w.fetch origin offset).2.state ∧ (w.fetch origin offset).2.formed = w.formed := by
  have h := beforeAccess_accessKeeps w.state
  simp only [Walk.fetch]
  split
  · exact ⟨h, rfl⟩
  · next e he => exact ⟨h.trans (recordReference_accessKeeps (tableFetch_available he)), rfl⟩

theorem Walk.drawn_keeps (w : Walk) : accessKeeps w.state w.drawn.state := drawn_accessKeeps w.state 1

theorem readTable_keeps (va : Word) (ps : Bool) (level : Nat) (origin : Word) (tf tl : BitVec 2) (w : Walk) :
    accessKeeps w.state (readTable va ps level origin tf tl w).2.state := by
  have h := w.drawn_keeps
  have h1 := h.trans (w.drawn.fetch_keeps origin ((indexAt level va).setWidth 64 <<< 3)).1
  unfold readTable
  dsimp only
  split
  · exact h
  split
  · exact h
  split
  · next _ he => rw [he] at h1; exact h1
  · next _ _ he =>
    rw [he] at h1
    split
    · exact h1
    split
    · exact h1
    · exact h1

theorem walkTables_keeps (va : Word) (ps : Bool) (level : Nat) (origin : Word) (tf tl : BitVec 2) (p : Bool) (w : Walk) :
    accessKeeps w.state (walkTables va ps level origin tf tl p w).2.state := by
  induction level generalizing origin tf tl p w with
  | zero =>
    have h := readTable_keeps va ps 0 origin tf tl w
    simp only [walkTables]
    split
    · next _ _ he => rw [he] at h; exact h
    · next _ _ he => rw [he] at h; exact h
  | succ level ih =>
    have h := readTable_keeps va ps (level + 1) origin tf tl w
    simp only [walkTables]
    split
    · next _ _ he => rw [he] at h; exact h
    · next _ _ he => rw [he] at h; exact h.trans (ih _ _ _ _ _)

theorem readPage_keeps (va : Word) (ps : Bool) (r : SegmentRead) (w : Walk) :
    accessKeeps w.state (readPage va ps r w).2.state := by
  have h := w.drawn_keeps
  have h1 := h.trans (w.drawn.fetch_keeps (pageTableOrigin r.ste) ((pageIndex va).setWidth 64 <<< 3)).1
  unfold readPage
  dsimp only
  split
  · exact h
  split
  · next _ he => rw [he] at h1; exact h1
  · next _ _ he =>
    rw [he] at h1
    split
    · exact h1
    split
    · exact h1
    split
    · exact h1
    · exact h1

theorem reachFrame_keeps (asce va : Word) (w : Walk) : accessKeeps w.state (reachFrame asce va w).2.state := by
  have h := walkTables_keeps va (ascePrivateSpace asce) (asceDesignation asce) (tableOrigin asce) 0 (tableLength asce)
    false w
  unfold reachFrame
  dsimp only
  split
  · next _ _ he => rw [he] at h; exact h
  · next r w1 he =>
    rw [he] at h
    split
    · exact h
    split
    · exact h
    · have h2 := h.trans (readPage_keeps va (ascePrivateSpace asce) r w1)
      split
      · next _ _ hf => rw [hf] at h2; exact h2
      · next _ _ hf => rw [hf] at h2; exact h2

theorem findFrame_keeps (asce va : Word) (w : Walk) : accessKeeps w.state (findFrame asce va w).2.state := by
  unfold findFrame
  split
  · exact w.drawn_keeps
  split
  · exact w.drawn_keeps
  · exact w.drawn_keeps.trans (reachFrame_keeps asce va w.drawn)

/-! ## Translation and references -/

/-- What a fetch keeps: what its accesses keep, the buffer apart. -/
def fetchKeeps (s t : State) : Prop := accessKeeps s { t with tlb := s.tlb }

theorem accessKeeps.fetchKeeps {s t : State} (h : accessKeeps s t) : fetchKeeps s t :=
  ⟨⟨h.1.1, h.1.2.1, h.1.2.2.1, rfl, h.1.2.2.2.2⟩, h.2.1, h.2.2.1, h.2.2.2.1, h.2.2.2.2⟩

theorem fetchKeeps.refl (s : State) : fetchKeeps s s := accessKeeps.refl s

theorem fetchKeeps.trans {s t u : State} (h : fetchKeeps s t) (g : fetchKeeps t u) : fetchKeeps s u := by
  obtain ⟨⟨h1, h2, h3, _, h4⟩, h5, h6, h7, h8⟩ := h
  obtain ⟨⟨g1, g2, g3, _, g4⟩, g5, g6, g7, g8⟩ := g
  exact ⟨⟨g1.trans h1, g2.trans h2, h3.trans g3, rfl, g4.trans h4⟩, g5.trans h5, g6.trans h6, fun h => g7 (h7 h),
    fun h => (h8 h).trans (g8 ((h8 h).1.trans h))⟩

theorem fetchKeeps.available {s t : State} (h : fetchKeeps s t) (aa : Word) : t.available aa = s.available aa :=
  h.1.available aa

/-- A fetch keeps the PSW and the pending interruption. -/
theorem fetchKeeps.psw {s t : State} (h : fetchKeeps s t) : t.psw = s.psw := h.1.2.1

/-- What translation keeps; an exception leaves the buffer as it was (R370). -/
theorem translate_keeps (s : State) (asce va : Word) (st : Bool) :
    fetchKeeps s (translate s asce va st).2 ∧
      ∀ e t, translate s asce va st = (.error e, t) → t.tlb = s.tlb := by
  have h := findFrame_keeps asce va ⟨s, []⟩
  unfold translate
  split
  · exact ⟨fetchKeeps.refl s, fun _ _ he => by cases he; rfl⟩
  split
  · next _ _ he => rw [he] at h; exact ⟨h.fetchKeeps, fun _ _ hf => by cases hf; exact h.1.2.2.2.1⟩
  · next _ _ he =>
    rw [he] at h
    split
    · exact ⟨h.fetchKeeps, fun _ _ hf => by cases hf; exact h.1.2.2.2.1⟩
    · exact ⟨h.fetchKeeps, fun _ _ hf => by cases hf⟩

/-- Every state that a reference answers with keeps what a fetch keeps. -/
def Res.keeps {α : Type} (s : State) : Res α → Prop
  | .ok _ t => fetchKeeps s t
  | .exception _ _ t => fetchKeeps s t
  | .stop _ => True

theorem locate_keeps (kind : ReferenceKind) (sel : OperandSpace) (la : Word) (s : State) :
    (locate kind sel la s).keeps s := by
  unfold locate
  split
  · split
    · exact trivial
    · next asce _ =>
      have h := (translate_keeps s asce la (kind = .store)).1
      split
      · next _ _ he => rw [he] at h; exact h
      · next _ _ he => rw [he] at h; exact h
  · exact fetchKeeps.refl s

/-- A permitted reference designates available storage. -/
theorem permit_keeps (kind : ReferenceKind) (akey : BitVec 4) (sel : OperandSpace) (la : Word) (s : State) :
    (permit kind akey sel la s).keeps s ∧
      ∀ aa att t, permit kind akey sel la s = .ok (aa, att) t → t.available aa = true := by
  have h := locate_keeps kind sel la s
  unfold permit
  split
  · exact ⟨trivial, fun _ _ _ e => by cases e⟩
  · next he => rw [he] at h; exact ⟨h, fun _ _ _ e => by cases e⟩
  · next aa att t he =>
    rw [he] at h
    split
    · exact ⟨h, fun _ _ _ e => by cases e⟩
    · next ha =>
      have hu := beforeAccess_accessKeeps t
      have hd : fetchKeeps s (t.beforeAccess.drawn 2) :=
        h.trans (hu.trans (drawn_accessKeeps _ 2)).fetchKeeps
      dsimp only
      split
      · refine ⟨hd, fun _ _ _ e => ?_⟩
        cases e
        have hb : t.beforeAccess.available aa = t.available aa := hu.available aa
        simpa [hb] using ha
      · exact ⟨hd, fun _ _ _ e => by cases e⟩

theorem fetchBytes_keeps (kind : ReferenceKind) (akey : BitVec 4) (sel : OperandSpace) (la : Word) (n : Nat)
    (s : State) : (fetchBytes kind akey sel la n s).keeps s := by
  obtain ⟨h, ha⟩ := permit_keeps kind akey sel la s
  unfold fetchBytes
  split
  · exact trivial
  · next he => rw [he] at h; exact h
  · next aa att t he =>
    rw [he] at h
    exact h.trans (recordReference_accessKeeps (ha _ _ _ he)).fetchKeeps

theorem fetchFour_keeps (s : State) : (fetchFour s).keeps s := by
  unfold fetchFour fetchPart
  dsimp only
  split
  · have h1 := fetchBytes_keeps .ifetch (pswKey s.psw) .primary (fetchAddress s) 2 s
    split
    · exact trivial
    · next he => rw [he] at h1; exact h1
    · next first t he =>
      rw [he] at h1
      have h2 := fetchBytes_keeps .ifetch (pswKey t.psw) .primary (addrMode s.mode (fetchAddress s + 2)) 2 t
      split
      · exact trivial
      · next hf => rw [hf] at h2; exact h1.trans h2
      · next hf => rw [hf] at h2; exact h1.trans h2
  · exact fetchBytes_keeps _ _ _ _ _ s

/-- A fetch of instruction text keeps what a fetch keeps. -/
theorem fetchInstruction_keeps (s : State) : (fetchInstruction s).keeps s := by
  have h := fetchFour_keeps s
  unfold fetchInstruction
  split
  · exact trivial
  · next he => rw [he] at h; exact h
  · next he => rw [he] at h; exact h

end Sys2Proof.Machine
end

