-- ==== Sys2Proof/Tests/Slice0.lean ====
section
/-! SUPPORT. Tests: ill-formed terms refused, words of every constructor decoded, vectors of 95_test_vectors.md, and
for each obligation with hypotheses a state that meets them. "Vector X" names a row of 95_test_vectors.md. -/

namespace Sys2Proof.Tests

/- The proofs are kernel evaluations, one after another so that they stay within the memory of a check. -/
set_option Elab.async false

open Sys2Proof.Machine
open Sys2Proof.Config (oldPswLocation newPswLocation)

/-! ## Helpers -/

/-- Reset with the plain PSW of 95_test_vectors.md section 0: supervisor, DAT off, 64-bit mode. -/
def start (pc : Word) : State := { State.reset with psw := (0x0000000180000000 : Word) ++ pc }

/-- Two general registers loaded. -/
def regs (s : State) (r1 : Reg) (v1 : Word) (r2 : Reg) (v2 : Word) : State := (s.setGpr r1 v1).setGpr r2 v2

/-- Bytes placed in storage. -/
def put (s : State) (a : Nat) (bs : List Byte) : State := s.setMem (Memory.writeMany s.mem a bs)

/-- Eight bytes placed in storage. -/
def put8 (s : State) (a : Nat) (v : Word) : State := put s a (bytesOf 8 v)

/-- A valid key from its seven bits. -/
def keyed (s : State) (b : Nat) (k : BitVec 7) : State :=
  s.setKeyState b ⟨⟨field k 0 3, bitAt k 4, bitAt k 5, bitAt k 6⟩, false⟩

/-- The seven bits of the key of a block. -/
def keyAt (s : State) (b : Nat) : BitVec 7 := keyBits (s.key b)

/-- `p` of the next state; false of a stop. -/
def after (o : Host.Outcome State Fault Refusal) (p : State → Bool) : Bool :=
  match o with
  | .next t => p t
  | .fault _ => false
  | .refused _ => false

theorem exists_of_after {o : Host.Outcome State Fault Refusal} {p : State → Bool} (h : after o p = true) :
    ∃ t, o = .next t ∧ p t = true := by
  cases o with
  | next t => exact ⟨t, rfl, h⟩
  | fault _ => cases h
  | refused _ => cases h

/-- The result of a reference that completes. -/
def resultOf {α : Type} : Res α → Option α
  | .ok a _ => some a
  | .exception _ _ _ => none
  | .stop _ => none

theorem exists_of_result {α : Type} {r : Res α} {a : α} (h : resultOf r = some a) : ∃ t, r = .ok a t := by
  cases r with
  | ok b t => cases h; exact ⟨t, rfl⟩
  | exception _ _ _ => cases h
  | stop _ => cases h

/-- The exception of a reference that ends in one. -/
def exceptionOf {α : Type} : Res α → Option (ProgramException × Word)
  | .ok _ _ => none
  | .exception e a _ => some (e, a)
  | .stop _ => none

theorem exists_of_exception {α : Type} {r : Res α} {e : ProgramException} {a : Word}
    (h : exceptionOf r = some (e, a)) : ∃ t, r = .exception e a t := by
  cases r with
  | ok _ _ => cases h
  | exception f b t => cases h; exact ⟨t, rfl⟩
  | stop _ => cases h

/-- The answer of a translation: an address with its attributes, or none. -/
def translated (r : Except ProgramException Translation × State) : Option Translation := r.1.toOption

theorem exists_of_translated {r : Except ProgramException Translation × State} {a : Translation}
    (h : translated r = some a) : ∃ t, r = (.ok a, t) := by
  obtain ⟨(e | b), t⟩ := r
  · cases h
  · cases h; exact ⟨t, rfl⟩

/-- The exception of a translation. -/
def refusedBy (r : Except ProgramException Translation × State) : Option ProgramException :=
  match r.1 with
  | .ok _ => none
  | .error e => some e

theorem exists_of_refused {r : Except ProgramException Translation × State} {e : ProgramException}
    (h : refusedBy r = some e) : ∃ t, r = (.error e, t) := by
  obtain ⟨(f | b), t⟩ := r
  · cases h; exact ⟨t, rfl⟩
  · cases h

/-! ## Well-formedness: one ill-formed term for each check -/

theorem test_wellFormed_refuses_lctl : (Instr.lctl 1 3 2 4096).wellFormed = false := by decide
theorem test_wellFormed_refuses_lctlg :
    (Instr.lctlg 1 3 2 4096 0).wellFormed = false ∧ (Instr.lctlg 1 3 2 0 256).wellFormed = false := by decide
theorem test_wellFormed_refuses_stctl : (Instr.stctl 1 3 2 4096).wellFormed = false := by decide
theorem test_wellFormed_refuses_stctg :
    (Instr.stctg 1 3 2 4096 0).wellFormed = false ∧ (Instr.stctg 1 3 2 0 256).wellFormed = false := by decide
theorem test_wellFormed_refuses_lpsw :
    (Instr.lpsw 1 4096).wellFormed = false ∧ (Instr.lpswe 1 4096).wellFormed = false := by decide
theorem test_wellFormed_refuses_mvcp :
    (Instr.mvcp 1 2 3 4096 4 0).wellFormed = false ∧ (Instr.mvcp 1 2 3 0 4 4096).wellFormed = false := by decide
theorem test_wellFormed_refuses_mvcs :
    (Instr.mvcs 1 2 3 4096 4 0).wellFormed = false ∧ (Instr.mvcs 1 2 3 0 4 4096).wellFormed = false := by decide
theorem test_wellFormed_refuses_mvck :
    (Instr.mvck 1 2 3 4096 4 0).wellFormed = false ∧ (Instr.mvck 1 2 3 0 4 4096).wellFormed = false := by decide
theorem test_wellFormed_refuses_mvcsk :
    (Instr.mvcsk 3 4096 4 0).wellFormed = false ∧ (Instr.mvcsk 3 0 4 4096).wellFormed = false := by decide
theorem test_wellFormed_refuses_mvcdk :
    (Instr.mvcdk 3 4096 4 0).wellFormed = false ∧ (Instr.mvcdk 3 0 4 4096).wellFormed = false := by decide
theorem test_wellFormed_refuses_tprot :
    (Instr.tprot 3 4096 4 0).wellFormed = false ∧ (Instr.tprot 3 0 4 4096).wellFormed = false := by decide
theorem test_wellFormed_refuses_ex_bc :
    (Instr.ex 1 2 3 4096).wellFormed = false ∧ (Instr.bc 1 2 3 4096).wellFormed = false := by decide

/-! ## Decoding: the bits of every row written out from R202, R203, R210 -/

theorem test_decode_sske : decode [0b10110010, 0b00101011, 0b01100000, 0b00110100] = .ok (.sske 6 3 4) := by decide
theorem test_decode_pfmf : decode [0b10111001, 0b10101111, 0b00000000, 0b00010010] = .ok (.pfmf 1 2) := by decide
theorem test_decode_lctl : decode [0b10110111, 0b00010011, 0b00100101, 0b01100111] = .ok (.lctl 1 3 2 0x567) := by
  decide
theorem test_decode_lctlg :
    decode [0b11101011, 0b00010011, 0b00100101, 0b01100111, 0b10001001, 0b00101111] =
      .ok (.lctlg 1 3 2 0x567 0x89) := by decide
theorem test_decode_stctl : decode [0b10110110, 0b11110000, 0b00011111, 0b11111110] = .ok (.stctl 15 0 1 0xFFE) := by
  decide
theorem test_decode_stctg :
    decode [0b11101011, 0b00010011, 0b00100101, 0b01100111, 0b10001001, 0b00100101] =
      .ok (.stctg 1 3 2 0x567 0x89) := by decide
theorem test_decode_lpsw : decode [0b10000010, 0b00000000, 0b11000000, 0b00010000] = .ok (.lpsw 12 0x010) := by decide
theorem test_decode_lpswe : decode [0b10110010, 0b10110010, 0b11000000, 0b00010000] = .ok (.lpswe 12 0x010) := by
  decide
theorem test_decode_mvcp :
    decode [0b11011010, 0b00010010, 0b00110100, 0b01010110, 0b01111000, 0b10011010] =
      .ok (.mvcp 1 2 3 0x456 7 0x89A) := by decide
theorem test_decode_mvcs :
    decode [0b11011011, 0b00010010, 0b00110100, 0b01010110, 0b01111000, 0b10011010] =
      .ok (.mvcs 1 2 3 0x456 7 0x89A) := by decide
theorem test_decode_mvck :
    decode [0b11011001, 0b00010010, 0b00110100, 0b01010110, 0b01111000, 0b10011010] =
      .ok (.mvck 1 2 3 0x456 7 0x89A) := by decide
theorem test_decode_mvcsk :
    decode [0b11100101, 0b00001110, 0b00010010, 0b00110100, 0b01010110, 0b01111000] =
      .ok (.mvcsk 1 0x234 5 0x678) := by decide
theorem test_decode_mvcdk :
    decode [0b11100101, 0b00001111, 0b00010010, 0b00110100, 0b01010110, 0b01111000] =
      .ok (.mvcdk 1 0x234 5 0x678) := by decide
theorem test_decode_mvpg : decode [0b10110010, 0b01010100, 0b00000000, 0b00100011] = .ok (.mvpg 2 3) := by decide
theorem test_decode_iske : decode [0b10110010, 0b00101001, 0b00000000, 0b00100011] = .ok (.iske 2 3) := by decide
theorem test_decode_ivsk : decode [0b10110010, 0b00100011, 0b00000000, 0b00100011] = .ok (.ivsk 2 3) := by decide
theorem test_decode_rrbe : decode [0b10110010, 0b00101010, 0b00000000, 0b00100011] = .ok (.rrbe 2 3) := by decide
theorem test_decode_tprot :
    decode [0b11100101, 0b00000001, 0b00010010, 0b00110100, 0b01010110, 0b01111000] =
      .ok (.tprot 1 0x234 5 0x678) := by decide
theorem test_decode_ex : decode [0b01000100, 0b00010010, 0b00110100, 0b01010110] = .ok (.ex 1 2 3 0x456) := by decide
theorem test_decode_bc : decode [0b01000111, 0b10000010, 0b00110100, 0b01010110] = .ok (.bc 8 2 3 0x456) := by decide
theorem test_decode_bcr : decode [0b00000111, 0b11111110] = .ok (.bcr 15 14) := by decide

/-- The table's numbers: a four-byte and a six-byte row, and one of two bytes. -/
theorem test_decodeTableWord :
    decodeTableWord 32 0xB22B6034 = some (.sske 6 3 4) ∧
      decodeTableWord 48 0xEB132567892F = some (.lctlg 1 3 2 0x567 0x89) ∧ decodeTableWord 16 0x07FE = some (.bcr 15 14) ∧
      decodeTableWord 32 0xB22C0000 = none := by decide

/-- From reset, a placed SSKE runs as the very next step. -/
theorem test_withFetchWord :
    after (step (State.reset.withFetchWord 32 0xB22B0012)) (fun t => pswAddress t.psw = 4) = true := by
  decide +kernel

/-! ## Vectors of 95_test_vectors.md -/

/-- Section 2.1: the reverse case and the last byte of the area. -/
theorem test_prefixing :
    applyPrefix 0x10 0x1FFF = 0x21FFF ∧ applyPrefix 0x10 0x2000 = 0x2000 ∧ applyPrefix 0x10 0x21234 = 0x1234 := by
  decide

/-- Vector S-3. -/
theorem test_sske_conditional_equal :
    after (exec (.sske 6 1 2) (keyed (regs (start 0x2000) 1 0x36 2 0x5000) 5 0b0011000))
      (fun t => keyAt t 5 = 0b0011000 && t.gpr 1 = 0x3036 && pswCc t.psw = 0 && pswAddress t.psw = 0x2004) = true := by
  decide +kernel

/-- Vector M-3: wrap at 16 MB. -/
theorem test_sske_multiple_wraps :
    after (exec (.sske 1 1 2) (regs { State.reset with psw := 0x2000, installation :=
        { Config.defaultInstallation with storage := [⟨0, 0x1000⟩] } } 1 0x36 2 0xAAAAAAAA55FFE7FF))
      (fun t => keyAt t 0xFFE = 0b0011011 && keyAt t 0xFFF = 0b0011011 && keyAt t 0 = 0 && t.gpr 2 = 0xAAAAAAAA000007FF)
      = true := by decide +kernel

/-- Vector F-4: both functions, the key as given although the block was stored into. -/
theorem test_pfmf_small :
    after (exec (.pfmf 1 2) (keyed (put (regs (start 0x2000) 1 0x30020 2 0x5000) 0x4FFF [255, 255, 255]) 5 0x7F))
      (fun t => keyAt t 5 = 0b0010000 && t.byte 0x4FFF = 255 && t.byte 0x5000 = 0 && t.byte 0x5001 = 0) = true := by
  decide +kernel

/-- Vector F-12: a 1 MB frame is at an absolute address, not prefixed. -/
theorem test_pfmf_large_absolute :
    after (exec (.pfmf 1 2) { regs (start 0x2000) 1 0x31020 2 0xFE000 with prefixReg := 0x20 })
      (fun t => keyAt t 0xFE = 0b0010000 && keyAt t 0xFF = 0b0010000 && t.gpr 2 = 0x100000) = true := by decide +kernel

/-- Vector I-2: an odd instruction address; old PSW, length code and code. -/
theorem test_odd_address :
    after (step (start 0x2001)) (fun t =>
      Memory.readMany t.mem 0x150 16 = bytesOf 16 (start 0x2001).psw && Memory.readMany t.mem 0x8C 4 = [0, 0, 0, 6])
      = true := by decide +kernel

/-- Image T5 of section 2.3. -/
def fiveLevels : State :=
  put8 (put8 (put8 (put8 (put8 (start 0x2000) 0x10010 0x1100C) 0x11008 0x12008) 0x12008 0x13004) 0x13018 0x14800)
    0x14810 0x7A000

/-- The virtual address and the ASCE of image T5. -/
def va5 : Word := 0x0040040080302ABC
def asce5 : Word := 0x1000C

/-- Vectors T-1, T-10, T-12. -/
theorem test_five_levels :
    translated (Machine.translate fiveLevels asce5 va5 false) = some ⟨.real 0x7AABC, ⟨false, none, false⟩⟩ ∧
      refusedBy (Machine.translate fiveLevels asce5 0x4000000000000000 false) = some .regionFirstTranslation ∧
      refusedBy (Machine.translate (put8 fiveLevels 0x11008 0x12028) asce5 va5 false) =
        some .regionSecondTranslation := by decide +kernel

/-- Image T1 of section 2.3 with a segment-table entry, enhanced DAT on. -/
def oneSegment (ste : Word) : State :=
  put8 { start 0x2000 with crs := State.reset.crs.set 0 0x800000 } 0x10008 ste

/-- Vectors T-25 and T-26. -/
theorem test_segment_frame :
    translated (Machine.translate (oneSegment 0x319D00) 0x10000 0x123456 true) =
        some ⟨.absolute 0x323456, ⟨false, some (9, true), true⟩⟩ ∧
      refusedBy (Machine.translate (oneSegment 0x319F00) 0x10000 0x123456 true) = some .protection := by
  decide +kernel

/-! ## Witnesses: states that meet the hypotheses of each obligation -/

/-- One SSKE at an address, its key in register 1 and its block in register 2. -/
def program (pc : Word) (m3 : Reg) (block : Word) : State :=
  put (regs (start pc) 1 0x36 2 block) pc.toNat [0xB2, 0x2B, packNibbles m3 0, 0x12]

/-- The state `s` in the problem state. -/
def inProblemState (s : State) : State := { s with psw := setField s.psw 15 15 1 }

/-- The state `s` with other blocks of storage. -/
def withBlocks (s : State) (n : Nat) : State :=
  { s with installation := { Config.defaultInstallation with storage := [⟨0, n⟩] } }

/-- Interruption schedules: the interruption comes at the end of unit `k + 1`. -/
def interruptedAfter (s : State) (k : Nat) : State :=
  { s with environment := List.replicate k ⟨[], none⟩ ++ ⟨[], some .external⟩ :: [] }

theorem witness_DecodeEncode :
    (Instr.lctlg 15 15 15 4095 255).wellFormed = true ∧ (Instr.mvcp 15 15 15 4095 15 4095).wellFormed = true := by
  decide

/-- An instruction; zeros; and the first four bytes of a six-byte instruction at the very end of storage. -/
theorem witness_StepRunsDecodedInstruction :
    (let s := program 0x2000 0 0x5000
     s.atBoundary.asyncPending = none ∧ pswWait s.atBoundary.psw = false ∧ pswModeInvalid s.atBoundary.psw = false ∧
       bitAt s.atBoundary.psw 127 = false ∧ (∃ t, fetchInstruction s.atBoundary = .ok [0xB2, 0x2B, 0x00, 0x12] t) ∧
       decode [0xB2, 0x2B, 0x00, 0x12] = .ok (.sske 0 1 2)) ∧
    (let s := start 0x2000
     s.atBoundary.asyncPending = none ∧ pswWait s.atBoundary.psw = false ∧ pswModeInvalid s.atBoundary.psw = false ∧
       bitAt s.atBoundary.psw 127 = false ∧ (∃ t, fetchInstruction s.atBoundary = .ok [0, 0, 0, 0] t) ∧
       decode [0, 0, 0, 0] = .error (.unassigned 0 0)) ∧
    (let s := put (start 0x7FFFFC) 0x7FFFFC [0xDA]
     s.atBoundary.asyncPending = none ∧ pswWait s.atBoundary.psw = false ∧ pswModeInvalid s.atBoundary.psw = false ∧
       bitAt s.atBoundary.psw 127 = false ∧ (∃ t, fetchInstruction s.atBoundary = .ok [0xDA, 0, 0, 0] t) ∧
       decode [0xDA, 0, 0, 0] = .error .truncated) := by
  refine ⟨⟨rfl, ?_, ?_, ?_, exists_of_result ?_, ?_⟩, ⟨rfl, ?_, ?_, ?_, exists_of_result ?_, ?_⟩,
    ⟨rfl, ?_, ?_, ?_, exists_of_result ?_, ?_⟩⟩ <;> decide +kernel

/-- The invalid mode; an odd address under an untried new PSW; a fetch past the end of storage. -/
theorem witness_EarlyExceptionIsTaken :
    (let s := { State.reset with psw := 0x00000001000000000000000000002000 }
     s.atBoundary.asyncPending = none ∧ pswWait s.atBoundary.psw = false ∧ pswModeInvalid s.atBoundary.psw = true) ∧
    (let s := { start 0x2001 with newPswUntried := true }
     s.atBoundary.asyncPending = none ∧ pswWait s.atBoundary.psw = false ∧ bitAt s.atBoundary.psw 127 = true ∧
       s.atBoundary.newPswUntried = true) ∧
    (let s := start 0x800000
     s.atBoundary.asyncPending = none ∧ pswWait s.atBoundary.psw = false ∧ pswModeInvalid s.atBoundary.psw = false ∧
       bitAt s.atBoundary.psw 127 = false ∧
       ∃ t, fetchInstruction s.atBoundary = .exception .addressing 0x800000 t) := by
  refine ⟨?_, ?_, ⟨rfl, ?_, ?_, ?_, exists_of_exception ?_⟩⟩ <;> decide +kernel

/-- Pending before the boundary, and made pending at it, in the wait state. -/
theorem witness_PendingInterruptionIsTaken :
    { start 0x2000 with asyncPending := some .external }.atBoundary.asyncPending = some .external ∧
      { State.reset with psw := 0x00020001800000000000000000000000, environment := [⟨[], some .restart⟩] }.atBoundary.asyncPending
        = some .restart := by decide +kernel

theorem witness_WaitStateIdles :
    let s := { State.reset with psw := 0x00020001800000000000000000000000 }
    s.quiet ∧ pswWait s.psw = true := ⟨⟨rfl, rfl, rfl⟩, by decide⟩

/-- DAT on, the five levels of image T5 under the primary ASCE; the block of the page frame has the key ACC 3, F 1. -/
def mapped (pc : Word) : State :=
  keyed { fiveLevels with psw := (0x0400000180000000 : Word) ++ pc, crs := State.reset.crs.set 1 asce5 } 0x7A 0b0011100

/-- DAT on with the segment frame of vectors T-25 and T-26; its entry provides ACC 9, F 1. -/
def mappedSegment (ste : Word) : State :=
  { oneSegment ste with
    psw := 0x04000001800000000000000000123456
    crs := (State.reset.crs.set 0 0x800000).set 1 0x10000 }

/-- The last place where four bytes lie in one block and the first where they do not; the second half in a missing
block; the first; and an instruction of six bytes. -/
theorem witness_InstructionFetch :
    (fetchAddress (start 0x2FFC)).toNat % 4096 = 4092 ∧ 4092 < (fetchAddress (start 0x2FFE)).toNat % 4096 ∧
      (∃ t, fetchFour (start 0x2FFC) = .ok [0, 0, 0, 0] t) ∧ (∃ t, fetchFour (start 0x2FFE) = .ok [0, 0, 0, 0] t) ∧
      (∃ t, fetchBytes .ifetch 0 .primary 0x7FFFFE 2 (start 0x7FFFFE) = .ok [0, 0] t) ∧
      (∃ t, fetchFour (start 0x7FFFFE) = .exception .addressing 0x800000 t) ∧
      (∃ t, fetchBytes .ifetch 0 .primary 0x800FFE 2 (start 0x800FFE) = .exception .addressing 0x800FFE t) ∧
      ∃ t, fetchInstruction (put (start 0x2000) 0x2000 [0xDA, 1, 2, 3, 4, 5]) = .ok [0xDA, 1, 2, 3, 4, 5] t := by
  refine ⟨?_, ?_, exists_of_result ?_, exists_of_result ?_, exists_of_result ?_, exists_of_exception ?_,
    exists_of_exception ?_, exists_of_result ?_⟩ <;> decide +kernel

/-- A translation exception; a located page and segment frame; with DAT off the last block that exists and the first
that does not; keys that permit and that do not, and an entry's that differs from its block's. -/
theorem witness_FetchReference :
    (pswDat (mapped 0).psw = true ∧ effectiveAsce (mapped 0) .fetch .primary = some asce5 ∧
      ∃ t, Machine.translate (mapped 0) asce5 0x4000000000000000 false = (.error .regionFirstTranslation, t)) ∧
    (∃ t, (mapped 0).locates .ifetch .primary va5 0x7AABC ⟨false, none, false⟩ t) ∧
    (mapped 0).available 0x7AABC = true ∧ ((mapped 0).keyState (blockOf 0x7AABC)).cbcInvalid = false ∧
    keyPermits .ifetch 3 ((mapped 0).key 0x7A).acc ((mapped 0).key 0x7A).f = true ∧
    keyPermits .ifetch 4 ((mapped 0).key 0x7A).acc ((mapped 0).key 0x7A).f = false ∧
    (let s := mappedSegment 0x319D00
     (∃ t, s.locates .fetch .primary 0x123456 0x323456 ⟨false, some (9, true), true⟩ t) ∧
       s.available 0x323456 = true ∧ keyPermits .fetch 3 (s.key 0x323).acc (s.key 0x323).f = true ∧
       entryPermits .fetch 3 (s.key 0x323) (some (9, true)) = false) ∧
    (let s := start 0x2000
     s.locates .fetch .primary 0x7FFFFF (applyPrefix s.prefixReg 0x7FFFFF) ⟨false, none, false⟩ s ∧
       s.available (applyPrefix s.prefixReg 0x7FFFFF) = true ∧
       s.available (applyPrefix s.prefixReg 0x800000) = false) := by
  refine ⟨⟨?_, ?_, exists_of_refused ?_⟩, ?_, ?_, ?_, ?_, ?_, ⟨?_, ?_, ?_, ?_⟩, ⟨?_, ?_, ?_⟩⟩
  case refine_4 =>
    obtain ⟨t, ht⟩ := exists_of_translated (r := Machine.translate (mapped 0) asce5 va5 (decide (ReferenceKind.ifetch = .store)))
      (a := ⟨.real 0x7AABC, ⟨false, none, false⟩⟩) (by decide +kernel)
    refine ⟨t, ?_⟩
    rw [State.locates, if_pos (by decide +kernel)]
    exact ⟨asce5, _, by decide +kernel, ht, by decide +kernel, rfl⟩
  case refine_9 =>
    obtain ⟨t, ht⟩ := exists_of_translated
      (r := Machine.translate (mappedSegment 0x319D00) 0x10000 0x123456 (decide (ReferenceKind.fetch = .store)))
      (a := ⟨.absolute 0x323456, ⟨false, some (9, true), true⟩⟩) (by decide +kernel)
    refine ⟨t, ?_⟩
    rw [State.locates, if_pos (by decide +kernel)]
    exact ⟨0x10000, _, by decide +kernel, ht, rfl, rfl⟩
  case refine_13 =>
    rw [State.locates, if_neg (by decide +kernel)]
    exact ⟨rfl, rfl, rfl⟩
  all_goals decide +kernel

/-- The block keyed is another than the instruction's. -/
theorem witness_StepExecutesSske :
    let s := program 0x2FFC 0 0x3000
    let aa := applyPrefix s.prefixReg (fetchAddress s)
    let k := s.keyState (blockOf aa)
    s.quiet ∧ pswWait s.psw = false ∧ pswModeInvalid s.psw = false ∧ bitAt s.psw 127 = false ∧
      pswDat s.psw = false ∧ pswProblem s.psw = false ∧ crossesBlock (fetchAddress s) 4 = false ∧
      s.available aa = true ∧ k.cbcInvalid = false ∧
      keyPermits .ifetch (pswKey s.psw) k.key.acc k.key.f = true ∧
      Memory.readMany s.mem aa.toNat 4 = encode (.sske 0 1 2) ∧
      (sskeControls s.installation 0).mb = false ∧ (sskeControls s.installation 0).conditional = false ∧
      s.available (s.realBlockIn 2) = true := by
  refine ⟨⟨rfl, rfl, rfl⟩, ?_⟩; decide +kernel

/-- For `InterruptionSwapsPsw`, `PendingInterruptionIsTaken` and `ProgramInterruptionSaves`: prefix zero, and a prefix
whose area is the last of storage; an exception with and one without identification. -/
theorem witness_interruptions :
    (start 0x2000).interleaving = [] ∧ (start 0x2000).prefixAreaAvailable = true ∧
      { start 0x2000 with prefixReg := 0x3FF }.prefixAreaAvailable = true ∧
      storesTeid .protection = true ∧ storesTeid .addressing = false := by decide +kernel

/-- A byte differs after a swap; R and C of the block are set before. -/
theorem witness_InterruptionSwapsPsw :
    let s := keyed (start 0x2000) 0 0b0000011
    s.interleaving = [] ∧ (s.key (blockOf (applyPrefix s.prefixReg 0))).c = true ∧
      (s.key (blockOf (applyPrefix s.prefixReg 0))).r = true ∧
      ((pswSwap .io s).map fun t => decide (t.byte 0x174 ≠ s.byte 0x174)) = some true := by
  decide +kernel

/-- A byte differs afterwards; R and C of the block are set before. -/
theorem witness_ProgramInterruptionRecordsChange :
    let s := keyed (start 0x2000) 0 0b0000011
    s.interleaving = [] ∧ (s.key (blockOf (applyPrefix s.prefixReg 0))).c = true ∧ (s.key (blockOf (applyPrefix s.prefixReg 0))).r = true ∧
      ∃ t, takeProgramInterruption .protection 2 0x5123 s = .next t ∧ decide (t.byte 0x8F ≠ s.byte 0x8F) = true := by
  refine ⟨rfl, ?_, ?_, exists_of_after ?_⟩ <;> decide +kernel

theorem witness_ReturnRestoresPsw :
    (start 0x2000).interleaving = [] ∧ (∃ t, pswSwap .external (start 0x2000) = some t) ∧
      ∃ t, takeProgramInterruption .specification 0 0x2000 (start 0x2000) = .next t ∧ true = true := by
  refine ⟨rfl, Option.isSome_iff_exists.mp ?_, exists_of_after (p := fun _ => true) ?_⟩ <;> decide +kernel

/-- The first prefix whose area lies past the end of storage. -/
theorem witness_SwapWithoutStorageStops :
    { start 0x2000 with prefixReg := 0x400 }.prefixAreaAvailable = false := by decide +kernel

theorem witness_ProblemStateTraps :
    pswProblem (inProblemState (start 0x2000)).psw = true ∧
      (inProblemState (start 0x2000)).installation.edatInstalled = true := by decide +kernel

/-- The first and the last bit of each field, and the first and the last reserved frame-size code. -/
theorem witness_PfmfSpecialConditions :
    (start 0x2000).installation.edatInstalled = true ∧ pswProblem (start 0x2000).psw = false ∧
      field ((start 0x2000).setGpr 1 0x80000000 |>.gpr 1) 32 45 ≠ 0 ∧
      field ((start 0x2000).setGpr 1 0x40000 |>.gpr 1) 32 45 ≠ 0 ∧
      bitAt ((start 0x2000).setGpr 1 0x800 |>.gpr 1) 52 = true ∧
      bitAt ((start 0x2000).setGpr 1 0x100 |>.gpr 1) 55 = true ∧
      bitAt ((start 0x2000).setGpr 1 0x1 |>.gpr 1) 63 = true ∧
      (field ((start 0x2000).setGpr 1 0x2000 |>.gpr 1) 49 51).toNat = 2 ∧
      (field ((start 0x2000).setGpr 1 0x7000 |>.gpr 1) 49 51).toNat = 7 := by decide +kernel

theorem witness_ProblemStateKeepsKeys :
    let s := inProblemState (program 0x2000 0 0x5000)
    s.unshared ∧ pswProblem s.psw = true ∧ ∃ t, step s = .next t ∧ decide (t.byte 0x8F = 2) = true := by
  refine ⟨⟨by decide +kernel, rfl⟩, ?_, exists_of_after ?_⟩ <;> decide +kernel

/-- A step in which other agents set a key at the boundary and another within the instruction. -/
theorem witness_StepKeepsControls :
    let s := { program 0x2000 0 0x5000 with
      environment := [⟨[.setKey 0x6000 ⟨9, true, false, false⟩], none⟩],
      interleaving := [⟨[], none⟩, ⟨[.setKey 0x7000 ⟨9, true, false, false⟩], none⟩] }
    ∃ t, step s = .next t ∧ decide (keyAt t 5 = 0b0011011 ∧ keyAt t 6 = 0b1001100 ∧ keyAt t 7 = 0b1001100) = true :=
  exists_of_after (by decide +kernel)

/-- An execution that completes, of both forms, and one that ends in an interruption. -/
theorem witness_SskeWritesNoStorage :
    (program 0x2000 0 0x5000).unshared ∧
      (let s := program 0x2000 0 0x5000
       pswProblem s.psw = false ∧ (sskeControls s.installation 0).mb = false ∧ s.available (s.realBlockIn 2) = true ∧
         ∃ t, exec (.sske 0 1 2) s = .next t ∧ decide (keyAt t 5 = 0b0011011) = true) ∧
      (let s := program 0x2000 1 0x7FF000
       (sskeControls s.installation 1).mb = true ∧ s.megabyteAvailable (s.blockIn 2) = true ∧
         ∃ t, exec (.sske 1 1 2) s = .next t ∧ decide (keyAt t 0x7FF = 0b0011011) = true) ∧
      ∃ t, exec (.sske 0 1 2) (program 0x2000 0 0x800000) = .next t ∧ decide (t.byte 0x8F = 5) = true := by
  refine ⟨⟨by decide +kernel, rfl⟩, ⟨?_, ?_, ?_, exists_of_after ?_⟩, ⟨?_, ?_, exists_of_after ?_⟩, exists_of_after ?_⟩ <;>
    decide +kernel

/-- The last block of storage; no other agent acting, and one that sets that key and another in the gap before. -/
theorem witness_SskeUnconditionalSetsKey :
    let s := program 0x2000 0 0x7FF000
    let u := { s with interleaving := [⟨[.setKey 0x7FF000 ⟨9, true, false, false⟩, .store 0x6000 1 false], none⟩] }
    pswProblem s.psw = false ∧ (sskeControls s.installation 0).mb = false ∧
      (sskeControls s.installation 0).conditional = false ∧ s.available (s.realBlockIn 2) = true ∧
      s.interleaving = [] ∧ u.available (u.realBlockIn 2) = true ∧ keyAt u.beforeAccess 0x7FF = 0b1001100 ∧
      u.beforeAccess.byte 0x6000 = 1 := by decide +kernel

/-- Every row of the table: masks MR and MC (6), MC alone (2), MR alone (4). -/
theorem witness_SskeConditionalTable :
    let s := program 0x2000 6 0x5000
    let new := keyOfRegister (s.gpr 1)
    pswProblem s.psw = false ∧ s.interleaving = [] ∧ s.available (s.realBlockIn 2) = true ∧
      blockOf (s.realBlockIn 2) = 5 ∧ (∀ m ∈ [(6 : Mask), 2, 4], (sskeControls s.installation m).mb = false ∧
        (sskeControls s.installation m).conditional = true) ∧
      ((s.setKeyState 5 ⟨new, true⟩).keyState 5).cbcInvalid = true ∧
      ((keyed s 5 0b0100000).key 5).acc ≠ new.acc ∧ ((keyed s 5 0b0011111).key 5).f ≠ new.f ∧
      ((keyed s 5 0b0011010).key 5).r = new.r ∧ ((keyed s 5 0b0011001).key 5).r ≠ new.r ∧
      ((keyed s 5 0b0011001).key 5).c = new.c ∧ ((keyed s 5 0b0011010).key 5).c ≠ new.c := by decide +kernel

/-- The first block past the end of storage. -/
theorem witness_SingleBlockAddressing :
    let s := (program 0x2000 0 0x800000).setGpr 3 0x30020
    pswProblem s.psw = false ∧ s.available (s.realBlockIn 2) = false ∧ (sskeControls s.installation 6).mb = false ∧
      s.installation.edatInstalled = true ∧ frameReserved (s.gpr 3) = false ∧ frameSize (s.gpr 3) = 0 ∧
      (frameSetKey (s.gpr 3) || frameClear (s.gpr 3)) = true := by decide +kernel

/-- The last block of a megabyte, the last of storage; and a whole megabyte. -/
theorem witness_SskeMultipleSetsKeys :
    (let s := program 0x2000 1 0x7FF000
     pswProblem s.psw = false ∧ (sskeControls s.installation 1).mb = true ∧
       (sskeControls s.installation 1).conditional = false ∧ s.quiet ∧ s.megabyteAvailable (s.blockIn 2) = true) ∧
    (let s := program 0x2000 1 0x200000
     s.quiet ∧ s.megabyteAvailable (s.blockIn 2) = true ∧ blocksLeft (s.blockIn 2) = 256) := by
  refine ⟨⟨?_, ?_, ?_, ⟨rfl, rfl, rfl⟩, ?_⟩, ⟨⟨rfl, rfl, rfl⟩, ?_, ?_⟩⟩ <;> decide +kernel

/-- Every combination of masks; a key that agrees and one whose checking-block code is invalid; R1 = R2 too. -/
theorem witness_SskeMultipleConditional :
    let s := (keyed (program 0x2000 7 0x2FE000) 0x2FE 0b0011000).setKeyState 0x2FF ⟨⟨0, false, false, false⟩, true⟩
    pswProblem s.psw = false ∧ s.quiet ∧ s.megabyteAvailable (s.blockIn 2) = true ∧
      (∀ m ∈ [(7 : Mask), 3, 5], (sskeControls s.installation m).mb = true ∧
        (sskeControls s.installation m).conditional = true) ∧
      blocksLeft (s.blockIn 2) = 2 ∧ (s.keyState 0x2FE).cbcInvalid = false ∧
      (s.key 0x2FE).acc = (keyOfRegister (s.gpr 1)).acc ∧ (s.key 0x2FE).f = (keyOfRegister (s.gpr 1)).f ∧
      s.megabyteAvailable (s.blockIn 1) = true := by
  refine ⟨?_, ⟨rfl, rfl, rfl⟩, ?_⟩ <;> decide +kernel

/-- Interrupted after the first of two blocks; with and without a mask bit in effect. -/
theorem witness_SskeInterrupted :
    let s := interruptedAfter (program 0x2000 1 0x2FE000) 0
    pswProblem s.psw = false ∧ (sskeControls s.installation 1).mb = true ∧
      (sskeControls s.installation 7).mb = true ∧ (sskeControls s.installation 1).conditional = false ∧
      (sskeControls s.installation 7).conditional = true ∧ s.asyncPending = none ∧ s.interleaving = [] ∧
      s.environment = List.replicate 0 ⟨[], none⟩ ++ ⟨[], some .external⟩ :: [] ∧ 0 + 1 < blocksLeft (s.blockIn 2) ∧
      s.megabyteAvailable (s.blockIn 2) = true := by decide +kernel

/-- The first block missing, and the second. -/
theorem witness_SskeMultipleAddressing :
    (let s := program 0x2000 1 0x800000
     pswProblem s.psw = false ∧ (sskeControls s.installation 1).mb = true ∧
       (sskeControls s.installation 1).conditional = false ∧ s.quiet ∧ 0 < blocksLeft (s.blockIn 2) ∧
       blockAvailable s.installation (blockOf (s.blockIn 2) + 0) = false) ∧
    (let s := withBlocks (program 0x2000 1 0x7FE000) 0x7FF
     pswProblem s.psw = false ∧ (sskeControls s.installation 7).mb = true ∧
       (sskeControls s.installation 7).conditional = true ∧ s.quiet ∧ 1 < blocksLeft (s.blockIn 2) ∧
       (∀ i : Nat, i < 1 → blockAvailable s.installation (blockOf (s.blockIn 2) + i) = true) ∧
       blockAvailable s.installation (blockOf (s.blockIn 2) + 1) = false) := by
  refine ⟨⟨?_, ?_, ?_, ⟨rfl, rfl, rfl⟩, ?_⟩, ⟨?_, ?_, ?_, ⟨rfl, rfl, rfl⟩, ?_⟩⟩ <;> decide +kernel

/-- Interrupted after the first of two blocks: no mask bit and both in effect, all blocks there; the block after the
interruption missing. -/
theorem witness_SskeResumes :
    (let s := interruptedAfter (program 0x2000 1 0x2FE000) 0
     s.undisturbed ∧ s.megabyteAvailable (s.blockIn 2) = true ∧
       (sskeControls s.installation 1).conditional = false ∧ (sskeControls s.installation 7).conditional = true ∧
       (∃ t, exec (.sske 1 1 2) s = .next t ∧ t.asyncPending.isSome = true) ∧
       ∃ t, exec (.sske 7 1 2) s = .next t ∧ t.asyncPending.isSome = true) ∧
    (let s := withBlocks (interruptedAfter (program 0x2000 1 0x7FE000) 0) 0x7FF
     s.undisturbed ∧ 1 < blocksLeft (s.blockIn 2) ∧
       (∀ i : Nat, i < 1 → blockAvailable s.installation (blockOf (s.blockIn 2) + i) = true) ∧
       blockAvailable s.installation (blockOf (s.blockIn 2) + 1) = false ∧
       ∃ t, exec (.sske 1 1 2) s = .next t ∧ t.asyncPending.isSome = true) := by
  refine ⟨⟨⟨rfl, ?_, rfl⟩, ?_, ?_, ?_, exists_of_after ?_, exists_of_after ?_⟩,
    ⟨⟨rfl, ?_, rfl⟩, ?_, ?_, ?_, exists_of_after ?_⟩⟩ <;> decide +kernel

theorem witness_PfmfRefusedForms :
    { start 0x2000 with installation := { Config.defaultInstallation with edatInstalled := false } }.installation.edatInstalled
        = false ∧
      (let s := (start 0x2000).setGpr 1 0x31030
       s.installation.edatInstalled = true ∧ pswProblem s.psw = false ∧ frameReserved (s.gpr 1) = false ∧
         frameSize (s.gpr 1) ≠ 0) := by decide +kernel

/-- PFMF with the given control word in register 1 and block in register 2. -/
def frame (r block : Word) : State := regs (start 0x2000) 1 r 2 block

/-- Set key and clear; clear alone over a byte that is not zero; set key alone, with each mask. -/
theorem witness_PfmfSmallFrame (r : Word) (hr : r ∈ [(0x30020 : Word), 0x10000, 0x20420, 0x20220, 0x20620]) :
    let s := put (frame r 0x7FF000) 0x7FF000 [255]
    s.installation.edatInstalled = true ∧ pswProblem s.psw = false ∧ frameReserved (s.gpr 1) = false ∧
      frameSize (s.gpr 1) = 0 ∧ (frameSetKey (s.gpr 1) || frameClear (s.gpr 1)) = true ∧
      s.interleaving = [] ∧ s.available (s.realBlockIn 2) = true ∧ s.byte 0x7FF000 ≠ 0 := by
  fin_cases hr <;> decide +kernel

/-- Both frame sizes; a block that does not exist. -/
theorem witness_PfmfNoFunction :
    (let s := frame 0 0x800000
     s.installation.edatInstalled = true ∧ pswProblem s.psw = false ∧ frameReserved (s.gpr 1) = false ∧
       (frameSetKey (s.gpr 1) || frameClear (s.gpr 1)) = false ∧ frameSize (s.gpr 1) = 0) ∧
    (let s := frame 0x1000 0x8FF000
     s.installation.edatInstalled = true ∧ pswProblem s.psw = false ∧ frameReserved (s.gpr 1) = false ∧
       (frameSetKey (s.gpr 1) || frameClear (s.gpr 1)) = false ∧ frameSize (s.gpr 1) = 1 ∧ (1 : Reg) ≠ 2 ∧ s.quiet) := by
  refine ⟨?_, ⟨?_, ?_, ?_, ?_, ?_, ?_, ⟨rfl, rfl, rfl⟩⟩⟩ <;> decide +kernel

/-- Set key and clear, clear alone, set key alone with masks, over two blocks. -/
theorem witness_PfmfLargeFrame (r : Word) (hr : r ∈ [(0x31030 : Word), 0x11000, 0x21630]) :
    let s := put (frame r 0x2FE000) 0x2FF000 [255]
    s.installation.edatInstalled = true ∧ pswProblem s.psw = false ∧ frameReserved (s.gpr 1) = false ∧
      frameSize (s.gpr 1) = 1 ∧ (1 : Reg) ≠ 2 ∧ (frameSetKey (s.gpr 1) || frameClear (s.gpr 1)) = true ∧ s.quiet ∧
      s.megabyteAvailable (s.blockIn 2) = true ∧ blocksLeft (s.blockIn 2) = 2 ∧ s.byte 0x2FF000 ≠ 0 := by
  fin_cases hr <;> (refine ⟨?_, ?_, ?_, ?_, ?_, ?_, ⟨rfl, rfl, rfl⟩, ?_⟩ <;> decide +kernel)

theorem witness_PfmfInterrupted :
    let s := interruptedAfter (frame 0x31030 0x2FE000) 0
    s.installation.edatInstalled = true ∧ pswProblem s.psw = false ∧ frameReserved (s.gpr 1) = false ∧
      frameSize (s.gpr 1) = 1 ∧ (1 : Reg) ≠ 2 ∧ s.asyncPending = none ∧ s.interleaving = [] ∧
      s.environment = List.replicate 0 ⟨[], none⟩ ++ ⟨[], some .external⟩ :: [] ∧ 0 + 1 < blocksLeft (s.blockIn 2) ∧
      s.megabyteAvailable (s.blockIn 2) = true ∧ frameSetKey (s.gpr 1) = true := by decide +kernel

/-- The first block missing, and the second. -/
theorem witness_PfmfLargeAddressing :
    (let s := frame 0x31030 0x800000
     s.installation.edatInstalled = true ∧ pswProblem s.psw = false ∧ frameReserved (s.gpr 1) = false ∧
       frameSize (s.gpr 1) = 1 ∧ (1 : Reg) ≠ 2 ∧ (frameSetKey (s.gpr 1) || frameClear (s.gpr 1)) = true ∧ s.quiet ∧
       0 < blocksLeft (s.blockIn 2) ∧ blockAvailable s.installation (blockOf (s.blockIn 2) + 0) = false) ∧
    (let s := withBlocks (frame 0x31030 0x7FE000) 0x7FF
     s.installation.edatInstalled = true ∧ pswProblem s.psw = false ∧ frameReserved (s.gpr 1) = false ∧
       frameSize (s.gpr 1) = 1 ∧ (1 : Reg) ≠ 2 ∧ (frameSetKey (s.gpr 1) || frameClear (s.gpr 1)) = true ∧ s.quiet ∧
       1 < blocksLeft (s.blockIn 2) ∧
       (∀ i : Nat, i < 1 → blockAvailable s.installation (blockOf (s.blockIn 2) + i) = true) ∧
       blockAvailable s.installation (blockOf (s.blockIn 2) + 1) = false) := by
  refine ⟨⟨?_, ?_, ?_, ?_, ?_, ?_, ⟨rfl, rfl, rfl⟩, ?_⟩, ⟨?_, ?_, ?_, ?_, ?_, ?_, ⟨rfl, rfl, rfl⟩, ?_⟩⟩ <;> decide +kernel

/-- Interrupted after the first of two blocks: all blocks there; no function selected; the block after the interruption
missing. -/
theorem witness_PfmfResumes :
    (let s := interruptedAfter (frame 0x31030 0x2FE000) 0
     s.undisturbed ∧ s.megabyteAvailable (s.blockIn 2) = true ∧
       ∃ t, exec (.pfmf 1 2) s = .next t ∧ t.asyncPending.isSome = true) ∧
    (let s := interruptedAfter (frame 0x1000 0x8FE000) 0
     s.undisturbed ∧ (frameSetKey (s.gpr 1) || frameClear (s.gpr 1)) = false ∧
       ∃ t, exec (.pfmf 1 2) s = .next t ∧ t.asyncPending.isSome = true) ∧
    (let s := withBlocks (interruptedAfter (frame 0x31030 0x7FE000) 0) 0x7FF
     s.undisturbed ∧ 1 < blocksLeft (s.blockIn 2) ∧ (frameSetKey (s.gpr 1) || frameClear (s.gpr 1)) = true ∧
       (∀ i : Nat, i < 1 → blockAvailable s.installation (blockOf (s.blockIn 2) + i) = true) ∧
       blockAvailable s.installation (blockOf (s.blockIn 2) + 1) = false ∧
       ∃ t, exec (.pfmf 1 2) s = .next t ∧ t.asyncPending.isSome = true) := by
  refine ⟨⟨⟨rfl, ?_, rfl⟩, ?_, exists_of_after ?_⟩, ⟨⟨rfl, ?_, rfl⟩, ?_, exists_of_after ?_⟩,
    ⟨⟨rfl, ?_, rfl⟩, ?_, ?_, ?_, ?_, exists_of_after ?_⟩⟩ <;> decide +kernel

/-- Both masks, a 4 KB frame and a 1 MB frame. -/
theorem witness_PfmfSetsKeysAsSske :
    (let s := frame 0x20630 0x7FF000
     s.installation.edatInstalled = true ∧ pswProblem s.psw = false ∧ frameReserved (s.gpr 1) = false ∧
       frameSetKey (s.gpr 1) = true ∧ frameClear (s.gpr 1) = false ∧ bitAt (6 : Mask) 1 = bitAt (s.gpr 1) 53 ∧
       bitAt (6 : Mask) 2 = bitAt (s.gpr 1) 54 ∧ s.quiet ∧ frameSize (s.gpr 1) = 0 ∧
       bitAt (6 : Mask) 3 = false ∧ s.available (s.realBlockIn 2) = true) ∧
    (let s := frame 0x21030 0x7FE000
     s.installation.edatInstalled = true ∧ pswProblem s.psw = false ∧ frameReserved (s.gpr 1) = false ∧
       frameSetKey (s.gpr 1) = true ∧ frameClear (s.gpr 1) = false ∧ bitAt (1 : Mask) 1 = bitAt (s.gpr 1) 53 ∧
       bitAt (1 : Mask) 2 = bitAt (s.gpr 1) 54 ∧ (1 : Reg) ≠ 2 ∧ s.quiet ∧ frameSize (s.gpr 1) ≠ 0 ∧
       bitAt (1 : Mask) 3 = true ∧ s.megabyteAvailable (s.blockIn 2) = true) := by
  refine ⟨⟨?_, ?_, ?_, ?_, ?_, ?_, ?_, ⟨rfl, rfl, rfl⟩, ?_⟩, ⟨?_, ?_, ?_, ?_, ?_, ?_, ?_, ?_, ⟨rfl, rfl, rfl⟩, ?_⟩⟩ <;>
    decide +kernel

/-- One clause each: a store into the piece already cleared, at its last byte; a key set between reading and setting,
with each pair of masks; a store into the new PSW that is loaded. -/
theorem witness_OtherAgentsBetweenAccesses :
    (let s := { frame 0x10000 0x5000 with interleaving := [⟨[], some (0, 0x100)⟩, ⟨[.store 0x50FF 7 false], none⟩] }
     s.installation.edatInstalled = true ∧ pswProblem s.psw = false ∧ frameReserved (s.gpr 1) = false ∧
       frameSize (s.gpr 1) = 0 ∧ frameSetKey (s.gpr 1) = false ∧ frameClear (s.gpr 1) = true ∧
       s.available (s.realBlockIn 2) = true ∧ blockOf 0x50FF = blockOf (s.realBlockIn 2)) ∧
    (let s := { keyed (program 0x2000 2 0x5000) 5 0b0011001 with
        interleaving := [⟨[], none⟩, ⟨[.setKey 0x5000 ⟨9, true, false, false⟩], none⟩] }
     pswProblem s.psw = false ∧ (∀ m ∈ [(6 : Mask), 2, 4], (sskeControls s.installation m).mb = false ∧
         (sskeControls s.installation m).conditional = true) ∧ s.available (s.realBlockIn 2) = true ∧
       (s.keyState (blockOf (s.realBlockIn 2))).cbcInvalid = false ∧ blockOf 0x5000 = blockOf (s.realBlockIn 2) ∧
       (s.key 5).acc = (keyOfRegister (s.gpr 1)).acc ∧ (s.key 5).f = (keyOfRegister (s.gpr 1)).f ∧
       (s.key 5).r ≠ (keyOfRegister (s.gpr 1)).r ∧ (s.setGpr 1 0x34 |>.key 5).c ≠ (keyOfRegister 0x34).c ∧
       (s.key 5).acc ≠ (keyOfRegister 0x46).acc) ∧
    (let s := { start 0x2000 with interleaving := [⟨[], none⟩, ⟨[.store 0x1F0 2 false], none⟩] }
     s.prefixAreaAvailable = true ∧ s.available 0x1F0 = true ∧ applyPrefix s.prefixReg (newPswLocation .io) = 0x1F0) := by
  decide +kernel

/-- The three cases of prefixing, at the edges of the two areas. -/
theorem witness_PrefixingRule :
    field (0x1FFF : Word) 0 50 = 0 ∧ field (0x20000 : Word) 0 50 = 0x10 ∧ field (0x21FFF : Word) 0 50 = 0x10 ∧
      field (0x2000 : Word) 0 50 ≠ 0 ∧ field (0x2000 : Word) 0 50 ≠ 0x10 := by decide

/-- Every value of the address-space control. -/
theorem witness_EffectiveAsceSelection :
    ∀ v : BitVec 2, pswAs (setField (start 0x2000).psw 16 17 v) = v := by decide +kernel

/-- A token whose block is the last of storage; and one past it with an empty buffer. -/
theorem witness_RealSpaceDesignation :
    bitAt (0x7FF02C : Word) 58 = true ∧
      (start 0x2000).available (tableAddress (start 0x2000) (field (0x7FF02C : Word) 0 51 ++ (0 : BitVec 12)) 0) = true ∧
      bitAt (0x80002C : Word) 58 = true ∧ (start 0x2000).tlb = [] := by decide +kernel

/-- Each part of the address that is not zero at its last bit, under the greatest designation that forbids it; and an
address in which none is. -/
theorem witness_AsceTypeException :
    bitAt (0x8 : Word) 58 = false ∧ (field (0x8 : Word) 60 61).toNat = 2 ∧ field (0x0020000000000000 : Word) 0 10 ≠ 0 ∧
      (field (0x4 : Word) 60 61).toNat = 1 ∧ field (0x0000040000000000 : Word) 11 21 ≠ 0 ∧
      (field (0x0 : Word) 60 61).toNat = 0 ∧ field (0x80000000 : Word) 22 32 ≠ 0 ∧
      field (0x7FFFFFFF : Word) 22 32 = 0 := by decide

/-- The table that storage leads to at a level, the given number of levels below the one designated: its origin, offset
and length, and the protection on the way. -/
def tableAt (s : State) (asce va : Word) : Nat → Nat → Option (Word × BitVec 2 × BitVec 2 × Bool)
  | 0, l =>
    if (field asce 60 61).toNat = l ∧ (l < 3 → field va 0 10 = 0) ∧ (l < 2 → field va 11 21 = 0) ∧
        (l < 1 → field va 22 32 = 0) then
      some (tableOrigin asce, 0, field asce 62 63, false)
    else none
  | d + 1, l =>
    match tableAt s asce va d (l + 1) with
    | none => none
    | some (o, tf, tl, p) =>
      match s.entryAt va (l + 1) o tf tl with
      | .ok e => some (tableOrigin e, field e 56 57, field e 62 63, p || (s.edatApplies && bitAt e 54))
      | .error _ => none

theorem reaches_of_tableAt {s : State} {asce va : Word} {d l : Nat} {o : Word} {tf tl : BitVec 2} {p : Bool}
    (h : tableAt s asce va d l = some (o, tf, tl, p)) : s.Reaches asce va l o tf tl p := by
  induction d generalizing l o tf tl p with
  | zero =>
    rw [tableAt] at h
    split at h
    · rename_i c
      obtain ⟨rfl, h3, h2, h1⟩ := c
      cases h
      exact .designated h3 h2 h1
    · cases h
  | succ d ih =>
    rw [tableAt] at h
    split at h
    · cases h
    · rename_i ha
      split at h
      · rename_i he
        cases h
        exact .byEntry (ih ha) he
      · cases h

theorem tableAt_of_reaches {s : State} {asce va : Word} {l : Nat} {o : Word} {tf tl : BitVec 2} {p : Bool}
    (h : s.Reaches asce va l o tf tl p) : ∃ d, d + l = (field asce 60 61).toNat ∧ tableAt s asce va d l = some (o, tf, tl, p) := by
  induction h with
  | designated h3 h2 h1 => exact ⟨0, Nat.zero_add _, by rw [tableAt, if_pos ⟨rfl, h3, h2, h1⟩]; rfl⟩
  | byEntry above entry ih =>
    obtain ⟨d, hd, ht⟩ := ih
    exact ⟨d + 1, by omega, by rw [tableAt, ht]; simp only [entry]; rfl⟩

theorem leads_of_tableAt {s : State} {asce va o ste : Word} {tf tl : BitVec 2} {p : Bool} (d : Nat)
    (h : tableAt s asce va d 0 = some (o, tf, tl, p)) (he : s.entryAt va 0 o tf tl = .ok ste) :
    s.leadsTo asce va o p ste := ⟨tf, tl, reaches_of_tableAt h, he⟩

/-- The last doubleword of storage and the first past it; the segment level of image T5, which holds an entry; and, with
another entry one level up or there, the same level reached and failing: index below the offset, above the length, table
not in storage, entry invalid, and of another table type. -/
theorem witness_TableFetchAndChecks :
    (let s := fiveLevels
     (tableAddress s 0x7FF000 0xFF8).toNat % 8 = 0 ∧ s.available (tableAddress s 0x7FF000 0xFF8) = true ∧
       s.available (tableAddress s 0x7FF000 0x1000) = false ∧ s.tlb = [] ∧ s.interleaving = [] ∧
       bitAt asce5 58 = false ∧ s.entryAt va5 0 0x13000 0 0 = .ok 0x14800) ∧
    (let s := put8 fiveLevels 0x12008 0x13047
     s.Reaches asce5 va5 0 0x13000 1 3 false ∧ s.entryAt va5 0 0x13000 1 3 = .error .segmentTranslation) ∧
    (let s := put8 fiveLevels 0x12008 0x13004
     s.Reaches asce5 (va5 + 0x20000000) 0 0x13000 0 0 false ∧
       s.entryAt (va5 + 0x20000000) 0 0x13000 0 0 = .error .segmentTranslation) ∧
    (let s := put8 fiveLevels 0x12008 0x800004
     s.Reaches asce5 va5 0 0x800000 0 0 false ∧ s.entryAt va5 0 0x800000 0 0 = .error .addressing) ∧
    (let s := put8 fiveLevels 0x13018 0x20
     s.Reaches asce5 va5 0 0x13000 0 0 false ∧ s.entryAt va5 0 0x13000 0 0 = .error .segmentTranslation) ∧
    (let s := put8 fiveLevels 0x13018 0x4
     s.Reaches asce5 va5 0 0x13000 0 0 false ∧ s.entryAt va5 0 0x13000 0 0 = .error .translationSpecification) := by
  refine ⟨?_, ⟨reaches_of_tableAt (d := 3) ?_, ?_⟩, ⟨reaches_of_tableAt (d := 3) ?_, ?_⟩,
    ⟨reaches_of_tableAt (d := 3) ?_, ?_⟩, ⟨reaches_of_tableAt (d := 3) ?_, ?_⟩,
    ⟨reaches_of_tableAt (d := 3) ?_, ?_⟩⟩ <;> decide +kernel

/-- Image T5 with the given entries of its segment table and of its page table. -/
def fiveLevelsWith (ste pte : Word) : State := put8 (put8 fiveLevels 0x13018 ste) 0x14810 pte

/-- The segment table of image T5 reached under each designation type; the region-table entries protect nothing. -/
theorem leads_fiveLevels (pte : Word) (hp : pte ∈ [(0x7A000 : Word), 0x7A400, 0x7A800]) :
    let s := fiveLevelsWith 0x14800 pte
    s.leadsTo 0x13000 0x00302ABC 0x13000 false 0x14800 ∧ s.leadsTo 0x12004 0x80302ABC 0x13000 false 0x14800 ∧
      s.leadsTo 0x11008 0x0000040080302ABC 0x13000 false 0x14800 ∧ s.leadsTo asce5 va5 0x13000 false 0x14800 := by
  refine ⟨leads_of_tableAt (tf := 0) (tl := 0) 0 ?_ ?_, leads_of_tableAt (tf := 0) (tl := 0) 1 ?_ ?_,
    leads_of_tableAt (tf := 0) (tl := 0) 2 ?_ ?_, leads_of_tableAt (tf := 0) (tl := 0) 3 ?_ ?_⟩ <;>
    fin_cases hp <;> decide +kernel

/-- Image T5 with enhanced DAT: the region-second entry protects, the segment-table entry is of format control one. -/
def fiveLevelsEdat : State :=
  put8 (put8 { fiveLevels with crs := State.reset.crs.set 0 0x800000 } 0x11008 0x12208) 0x13018 0x300400

/-- Entries that provide ACC and F, and that do not, in one table. -/
theorem witness_SegmentFrameTranslation (ste : Word) (hs : ste ∈ [(0x319D00 : Word), 0x300400]) :
    (oneSegment ste).tlb = [] ∧ (oneSegment ste).interleaving = [] ∧ (oneSegment ste).edatApplies = true ∧
      bitAt (0x10000 : Word) 58 = false ∧ (oneSegment ste).leadsTo 0x10000 0x123456 0x10000 false ste ∧
      (bitAt (0x10000 : Word) 55 && bitAt ste 59) = false ∧ bitAt ste 53 = true := by
  refine ⟨rfl, rfl, ?_, ?_, leads_of_tableAt (tf := 0) (tl := 0) 0 ?_ ?_, ?_, ?_⟩ <;> fin_cases hs <;> decide +kernel

/-- One reached through three region tables. -/
theorem witness_SegmentFrameTranslation_regions :
    fiveLevelsEdat.tlb = [] ∧ fiveLevelsEdat.interleaving = [] ∧ fiveLevelsEdat.edatApplies = true ∧
      bitAt asce5 58 = false ∧ fiveLevelsEdat.leadsTo asce5 va5 0x13000 true 0x300400 ∧
      (bitAt asce5 55 && bitAt (0x300400 : Word) 59) = false ∧ bitAt (0x300400 : Word) 53 = true := by
  refine ⟨rfl, rfl, ?_, ?_, leads_of_tableAt (tf := 0) (tl := 0) 3 ?_ ?_, ?_, ?_⟩ <;> decide +kernel

/-- Under each designation type (`leads_fiveLevels`): a valid page, an invalid one, and one with bit 52 set. -/
theorem witness_PageFrameTranslation (pte : Word) (hp : pte ∈ [(0x7A000 : Word), 0x7A400, 0x7A800]) :
    let s := fiveLevelsWith 0x14800 pte
    (bitAt asce5 58 = false ∧ bitAt asce5 55 = false ∧ bitAt (0x13000 : Word) 58 = false ∧
      bitAt (0x13000 : Word) 55 = false) ∧
      s.tlb = [] ∧ s.interleaving = [] ∧ (s.edatApplies && bitAt (0x14800 : Word) 53) = false ∧
      s.pageEntryAt va5 0x14800 = some pte ∧ bitAt (0x7A400 : Word) 53 = true ∧ bitAt (0x7A800 : Word) 52 = true := by
  refine ⟨?_, rfl, rfl, ?_, ?_, ?_⟩ <;> fin_cases hp <;> decide +kernel

/-- A page table that is not in storage, in a common segment; and a common segment under a private-space ASCE. -/
theorem witness_PageFrameTranslation_exceptions :
    (let s := fiveLevelsWith 0x900010 0
     s.tlb = [] ∧ s.interleaving = [] ∧ s.leadsTo asce5 va5 0x13000 false 0x900010 ∧
       (bitAt asce5 55 && bitAt (0x900010 : Word) 59) = false ∧ (s.edatApplies && bitAt (0x900010 : Word) 53) = false ∧
       s.pageEntryAt va5 0x900010 = none) ∧
    (let s := fiveLevelsWith 0x14810 0x7A000
     s.tlb = [] ∧ s.interleaving = [] ∧ bitAt (asce5 + 0x100) 58 = false ∧
       s.leadsTo (asce5 + 0x100) va5 0x13000 false 0x14810 ∧ bitAt (asce5 + 0x100) 55 = true ∧
       bitAt (0x14810 : Word) 59 = true) := by
  refine ⟨⟨rfl, rfl, leads_of_tableAt (tf := 0) (tl := 0) 3 ?_ ?_, ?_⟩,
    ⟨rfl, rfl, ?_, leads_of_tableAt (tf := 0) (tl := 0) 3 ?_ ?_, ?_⟩⟩ <;> decide +kernel

theorem witness_WithoutEnhancedDat :
    fiveLevels.tlb = [] ∧ fiveLevels.edatApplies = false ∧
      ∃ tr, Machine.translate fiveLevels asce5 va5 false = (.ok ⟨.real 0x7AABC, ⟨false, none, false⟩⟩, tr) :=
  ⟨rfl, by decide +kernel, exists_of_translated test_five_levels.1⟩

/-- A store that completes; and a machine on which a fetch completes and a store is refused. -/
theorem witness_StoreNeedsNoProtection :
    (∃ t, Machine.translate fiveLevels asce5 va5 true = (.ok ⟨.real 0x7AABC, ⟨false, none, false⟩⟩, t)) ∧
      fiveLevelsEdat.tlb = [] ∧ fiveLevelsEdat.interleaving = [] ∧
      translated (Machine.translate fiveLevelsEdat asce5 va5 false) =
        some ⟨.absolute 0x302ABC, ⟨true, none, false⟩⟩ ∧
      refusedBy (Machine.translate fiveLevelsEdat asce5 va5 true) = some .protection := by
  refine ⟨exists_of_translated ?_, rfl, rfl, ?_, ?_⟩ <;> decide +kernel

/-- Image T5 with, in its buffer, a copy of its segment-table entry, a protected page frame for its address, a segment frame of a
common segment for the same address in every space, and a virtual-equals-real page of the token 0x10000. -/
def buffered : State :=
  { fiveLevels with tlb := [.table ⟨.segment, 0x13000, 0x13000, 3, false, false, 0x14800⟩,
      .frame ⟨0x10000, field va5 0 32, field va5 33 43, some (field va5 44 51), false,
        ⟨.real 0x7A000, ⟨true, none, true⟩⟩⟩,
      .frame ⟨0x50000, field va5 0 32, field va5 33 43, none, true, ⟨.absolute 0x300000, ⟨true, none, false⟩⟩⟩,
      .realSpace ⟨0x10000, 0x9⟩] }

/-- What may be used: under the ASCE of the tag; under it, with private space; under another; for the next page; under a
real-space designation with that token, with another, and with one that is not valid. -/
theorem witness_BufferMatching :
    let p : Translation := ⟨.real 0x7A000, ⟨true, none, true⟩⟩
    let bare : Translation := ⟨.real 0x7A000, ⟨false, none, false⟩⟩
    let c : Translation := ⟨.absolute 0x300000, ⟨true, none, false⟩⟩
    let r : Translation := ⟨.real 0x9000, ⟨false, none, false⟩⟩
    buffered.usableFrames asce5 va5 = [p, c] ∧ buffered.usableFrames (asce5 + 0x100) va5 = [p] ∧
      buffered.usableFrames 0x5000C va5 = [c] ∧ buffered.usableFrames asce5 (va5 + 0x1000) = [c] ∧
      buffered.usableFrames 0x10020 0x9123 = [r] ∧ buffered.usableFrames 0x20020 0x9123 = [] ∧
      buffered.usableFrames 0x800020 0x1000 = [bare, r] ∧
      (⟨.segment, 0x13000, 0x13000, 3⟩ : TableRequest).answeredBy true ⟨.segment, 0x13000, 0x13000, 3, false, false, 0⟩
        = true ∧
      (⟨.segment, 0x13000, 0x13000, 3⟩ : TableRequest).answeredBy true ⟨.segment, 0x13000, 0x13000, 3, true, false, 0⟩
        = false := by decide +kernel

theorem pickCopy_replicate {s : State} {c : TableCopy} {q : TableRequest} (h : q.answeredBy false c = true)
    (hs : s.tlb = List.replicate (Config.freeChoice s.draws + 1) (.table c)) : pickCopy s q false = some c := by
  have h1 : s.tlb.filterMap (q.copyIn false) = List.replicate (Config.freeChoice s.draws + 1) c := by
    rw [hs]; simp [TableRequest.copyIn, h]
  have h2 : pick (List.replicate (Config.freeChoice s.draws + 1) c) s.draws = some c := by
    change (List.replicate (Config.freeChoice s.draws + 1) c)[Config.freeChoice s.draws]? = some c
    simp
  exact (congrArg (pick · s.draws) h1).trans h2

/-- A translation that ends in an exception, one under a real-space designation and one through tables that complete; and
a buffer so long that the free choice falls on a copy. -/
theorem witness_BufferLifecycle :
    (∃ t, Machine.translate fiveLevels asce5 0x4000000000000000 false = (.error .regionFirstTranslation, t)) ∧
      (∃ t, Machine.translate fiveLevels 0x10020 0x9123 false = (.ok ⟨.real 0x9123, noAttributes⟩, t)) ∧
      (∃ t, Machine.translate fiveLevels asce5 va5 false = (.ok ⟨.real 0x7AABC, ⟨false, none, false⟩⟩, t)) ∧
      let c : TableCopy := ⟨.segment, 0x13000, 0x13000, 3, false, false, 0x14800⟩
      pickCopy { fiveLevels with tlb := List.replicate (Config.freeChoice 0 + 1) (.table c) }
        ⟨.segment, 0x13000, 0x13000, 3⟩ false = some c := by
  refine ⟨exists_of_refused ?_, exists_of_translated ?_, exists_of_translated ?_, ?_⟩
  · decide +kernel
  · decide +kernel
  · decide +kernel
  · exact pickCopy_replicate rfl rfl

/-- Image T5, its segment common, with a true copy of its segment-table entry formed in another space and the true page
frame in its buffer. -/
def withCopies : State :=
  { fiveLevelsWith 0x14810 0x7A000 with tlb := [.table ⟨.segment, 0x70000, 0x70000, 3, true, false, 0x14810⟩,
      .frame ⟨0x10000, field va5 0 32, field va5 33 43, some (field va5 44 51), true,
        ⟨.real 0x7A000, ⟨false, none, false⟩⟩⟩] }

theorem withCopies_coherent : withCopies.coherentAt asce5 va5 := by
  refine ⟨?_, ?_, ?_⟩
  · intro level origin tf tl p e c hr he hc hq
    obtain rfl : c = ⟨.segment, 0x70000, 0x70000, 3, true, false, 0x14810⟩ := by simpa [withCopies] using hc
    obtain ⟨d, hd, ht⟩ := tableAt_of_reaches hr
    have hl : level = 0 := by
      match level with
      | 0 => rfl
      | 1 | 2 | _ + 3 => exact absurd hq (by simp [TableRequest.answeredBy, levelAt])
    subst hl
    obtain rfl : d = 3 := hd.trans (by decide +kernel)
    rw [show tableAt withCopies asce5 va5 3 0 = some (0x13000, 0, 0, false) by decide +kernel] at ht
    cases ht
    rw [show withCopies.entryAt va5 0 0x13000 0 0 = .ok 0x14810 by decide +kernel] at he
    cases he
    exact ⟨rfl, by decide +kernel⟩
  · intro origin p ste e c _ _ hc hq
    obtain rfl : c = ⟨.segment, 0x70000, 0x70000, 3, true, false, 0x14810⟩ := by simpa [withCopies] using hc
    exact absurd hq (by simp [TableRequest.answeredBy])
  · intro f t hf ht
    have h1 : withCopies.usableFrames asce5 va5 = [⟨.real 0x7A000, ⟨false, none, false⟩⟩] := by decide +kernel
    have h2 : translated (Machine.translate { withCopies with tlb := [] } asce5 va5 false) =
        some ⟨.real 0x7AABC, ⟨false, none, false⟩⟩ := by decide +kernel
    rw [h1, List.mem_singleton] at hf
    rw [translated, ht] at h2
    cases h2
    rw [hf]
    decide +kernel

theorem witness_CoherentBufferIsInvisible :
    withCopies.tlb.length = 2 ∧ withCopies.usableFrames asce5 va5 ≠ [] ∧ withCopies.interleaving = [] ∧
      withCopies.coherentAt asce5 va5 ∧
      ∃ t, (Machine.translate { withCopies with tlb := [] } asce5 va5 true).1 = .ok t := by
  refine ⟨by decide +kernel, by decide +kernel, rfl, withCopies_coherent, ?_⟩
  obtain ⟨t, ht⟩ := exists_of_translated (r := Machine.translate { withCopies with tlb := [] } asce5 va5 true)
    (a := ⟨.real 0x7AABC, ⟨false, none, false⟩⟩) (by decide +kernel)
  exact ⟨_, by rw [ht]⟩

/-- The key of the block: equal, the zero access key, and different with and without fetch protection. -/
theorem witness_KeyProtectionTable :
    keyMatches 3 3 = true ∧ keyMatches 0 3 = true ∧ keyMatches 4 3 = false := by decide

/-- The last byte of a block with DAT off, with a matching and with another key; with DAT on, a page, a segment frame
whose entry permits where its block does not, and a protected segment; the first missing block. -/
theorem witness_OperandStore :
    crossesBlock 0x5FFF [(0xFF : Byte)].length = false ∧ crossesBlock va5 [(0xFF : Byte)].length = false ∧
    crossesBlock 0x123456 [(0xFF : Byte)].length = false ∧
    (let s := keyed (start 0x2000) 5 0b0011000
     s.locates .store .primary 0x5FFF 0x5FFF ⟨false, none, false⟩ s ∧ s.available 0x5FFF = true ∧
       (s.keyState (blockOf 0x5FFF)).cbcInvalid = false ∧
       keyPermits .store 3 (s.key (blockOf 0x5FFF)).acc (s.key (blockOf 0x5FFF)).f = true ∧
       keyPermits .store 4 (s.key (blockOf 0x5FFF)).acc (s.key (blockOf 0x5FFF)).f = false ∧
       Memory.readMany s.mem 0x5FFF [(0xFF : Byte)].length ≠ [0xFF] ∧
       s.locates .store .primary 0x800000 0x800000 ⟨false, none, false⟩ s ∧ s.available 0x800000 = false) ∧
    (∃ t, (mapped 0).locates .store .primary va5 0x7AABC ⟨false, none, false⟩ t) ∧
    (let s := keyed (mappedSegment 0x319D00) 0x323 0b0011000
     (∃ t, s.locates .store .primary 0x123456 0x323456 ⟨false, some (9, true), true⟩ t) ∧
       keyPermits .store 9 (s.key 0x323).acc (s.key 0x323).f = false ∧
       entryPermits .store 9 (s.key 0x323) (some (9, true)) = true) ∧
    (let s := mappedSegment 0x319F00
     effectiveAsce s .store .primary = some 0x10000 ∧
       ∃ t, Machine.translate s 0x10000 0x123456 true = (.error .protection, t)) := by
  refine ⟨?_, ?_, ?_, ⟨?_, ?_, ?_, ?_, ?_, ?_, ?_, ?_⟩, ?_, ⟨?_, ?_, ?_⟩, ⟨?_, exists_of_refused ?_⟩⟩
  case refine_4 =>
    rw [State.locates, if_neg (by decide +kernel)]
    exact ⟨by decide +kernel, rfl, rfl⟩
  case refine_10 =>
    rw [State.locates, if_neg (by decide +kernel)]
    exact ⟨by decide +kernel, rfl, rfl⟩
  case refine_12 =>
    obtain ⟨t, ht⟩ := exists_of_translated (r := Machine.translate (mapped 0) asce5 va5 (decide (ReferenceKind.store = .store)))
      (a := ⟨.real 0x7AABC, ⟨false, none, false⟩⟩) (by decide +kernel)
    refine ⟨t, ?_⟩
    rw [State.locates, if_pos (by decide +kernel)]
    exact ⟨asce5, _, by decide +kernel, ht, by decide +kernel, rfl⟩
  case refine_13 =>
    obtain ⟨t, ht⟩ := exists_of_translated
      (r := Machine.translate (keyed (mappedSegment 0x319D00) 0x323 0b0011000) 0x10000 0x123456
        (decide (ReferenceKind.store = .store)))
      (a := ⟨.absolute 0x323456, ⟨false, some (9, true), true⟩⟩) (by decide +kernel)
    refine ⟨t, ?_⟩
    rw [State.locates, if_pos (by decide +kernel)]
    exact ⟨0x10000, _, by decide +kernel, ht, rfl, rfl⟩
  all_goals decide +kernel

theorem witness_FailedStoreChangesNothing :
    (keyed (start 0x2000) 5 0b0011000).interleaving = [] ∧
      ∃ t, memWrite 4 .primary 0x5FFF [0xFF] (keyed (start 0x2000) 5 0b0011000) = .exception .protection 0x5FFF t :=
  ⟨rfl, exists_of_exception (by decide +kernel)⟩

/-- A step from a state that holds bytes and keys. -/
theorem witness_StepKeepsInvariant :
    let s := keyed (program 0x2000 0 0x5000) 5 0b1110111
    s.Inv ∧ ∃ t, step s = .next t ∧ decide (keyAt t 5 = 0b0011011) = true := by
  refine ⟨⟨?_, ?_, ?_, ?_⟩, exists_of_after ?_⟩ <;> decide +kernel

end Sys2Proof.Tests
end

section
/-! PROOFS. Other agents that act between two single accesses of an instruction (R9, R74): the rules of the gaps, and
the three scenarios of O36. -/

namespace Sys2Proof.Machine

open Sys2Proof.Config (InterruptionClass newPswLocation)

/-! ## A gap, and what an agent does in it -/

/-- The machine with another schedule of the gaps. -/
def State.withGaps (s : State) (gaps : List AccessGap) : State := { s with interleaving := gaps }

@[simp] theorem State.withGaps_interleaving (s : State) (gaps : List AccessGap) :
    (s.withGaps gaps).interleaving = gaps := rfl
@[simp] theorem State.withGaps_byte (s : State) (gaps : List AccessGap) (y : Nat) :
    (s.withGaps gaps).byte y = s.byte y := rfl
@[simp] theorem State.withGaps_keyState (s : State) (gaps : List AccessGap) (b : Nat) :
    (s.withGaps gaps).keyState b = s.keyState b := rfl
@[simp] theorem State.withGaps_available (s : State) (gaps : List AccessGap) (aa : Word) :
    (s.withGaps gaps).available aa = s.available aa := rfl

/-- The head of the schedule is consumed and its actions happen. -/
theorem beforeAccess_cons {s : State} {g : AccessGap} {rest : List AccessGap} (h : s.interleaving = g :: rest) :
    s.beforeAccess = g.actions.foldl applyAction (s.withGaps rest) := by
  simp [State.beforeAccess, State.withGaps, h]

/-- A byte stored by another agent is read where it was stored, and no other byte changes. -/
theorem byte_applyAction_store {s : State} {aa : Word} (ha : s.available aa = true) (v : Byte) (o : Bool) (y : Nat) :
    (applyAction s (.store aa v o)).byte y = if aa.toNat = y then v else s.byte y := by
  simp [applyAction, ha, State.byte, Memory.read_write]

@[simp] theorem applyAction_interleaving (s : State) (a : AgentAction) :
    (applyAction s a).interleaving = s.interleaving := by
  obtain ⟨_, _, _, h⟩ := applyAction_same s a
  exact h

theorem applyAction_setKey {s : State} {aa : Word} (ha : s.available aa = true) (k : StorageKey) :
    applyAction s (.setKey aa k) = s.setKeyState (blockOf aa) ⟨k, false⟩ := by
  simp [applyAction, ha]

theorem available_of_blockOf_eq {s : State} {x aa : Word} (h : blockOf x = blockOf aa) (ha : s.available aa = true) :
    s.available x = true := by
  rw [State.available, h]
  exact ha

/-! ## A clearing in pieces -/

theorem byte_clearPiece (aa : Word) (sel : Nat → Bool) (s : State) (y : Nat) :
    (clearPiece aa sel s).byte y = if sel y = true then 0 else s.byte y :=
  Memory.read_clear s.mem sel y

theorem leftOf_single (b o n y : Nat) :
    leftOf b [(o, n)] y = true ↔ y / 4096 = b ∧ ¬ (o ≤ y % 4096 ∧ y % 4096 < o + n) := by
  simp [leftOf, imp_iff_not_or]

@[simp] theorem clearPiece_interleaving (aa : Word) (sel : Nat → Bool) (s : State) :
    (clearPiece aa sel s).interleaving = s.interleaving := rfl

@[simp] theorem clearPiece_available (aa : Word) (sel : Nat → Bool) (s : State) (x : Word) :
    (clearPiece aa sel s).available x = s.available x := rfl

/-- One piece is cleared, another agent stores, and the rest is cleared. -/
theorem clearBlock_storeBetween {aa x : Word} {v : Byte} {p : Nat × Nat} {s : State}
    (h : s.interleaving = [⟨[], some p⟩, ⟨[.store x v false], none⟩]) :
    clearBlock aa s =
      clearPiece aa (leftOf (blockOf aa) [p])
        (applyAction
          ((clearPiece aa (fun y => leftOf (blockOf aa) [] y && !leftOf (blockOf aa) [p] y)
            (s.withGaps [⟨[.store x v false], none⟩])).withGaps [])
          (.store x v false)) := by
  rw [clearBlock, h]
  rfl

/-- A byte stored between the two pieces survives exactly where its place was cleared before (R262, R373). -/
theorem byte_clearBlock_storeBetween {aa x : Word} {v : Byte} {o n : Nat} {s : State}
    (h : s.interleaving = [⟨[], some (o, n)⟩, ⟨[.store x v false], none⟩]) (hb : blockOf x = blockOf aa)
    (ha : s.available aa = true) (y : Nat) :
    (clearBlock aa s).byte y =
      if y / 4096 ≠ blockOf x then s.byte y
      else if y = x.toNat ∧ o ≤ y % 4096 ∧ y % 4096 < o + n then v else 0 := by
  have hx : s.available x = true := available_of_blockOf_eq hb ha
  rw [clearBlock_storeBetween h, byte_clearPiece, byte_applyAction_store (by simpa using hx), State.withGaps_byte,
    byte_clearPiece, State.withGaps_byte, ← hb]
  by_cases hy : y / 4096 = blockOf x
  · by_cases hp : o ≤ y % 4096 ∧ y % 4096 < o + n
    · simp [leftOf, hy, hp, eq_comm]
    · rw [if_pos ((leftOf_single ..).2 ⟨hy, hp⟩), if_neg (not_not.2 hy), if_neg fun g => hp g.2]
  · have hxy : x.toNat ≠ y := fun e => hy (by rw [← e, blockOf])
    simp [leftOf, hy, hxy]

theorem clearBlock_storeBetween_interleaving {aa x : Word} {v : Byte} {p : Nat × Nat} {s : State}
    (h : s.interleaving = [⟨[], some p⟩, ⟨[.store x v false], none⟩]) : (clearBlock aa s).interleaving = [] := by
  rw [clearBlock_storeBetween h, clearPiece_interleaving, applyAction_interleaving, State.withGaps_interleaving]

/-- PFMF that only clears, on one 4 KB frame that exists, is the clearing of its block. -/
theorem exec_pfmf_clear {r1 r2 : Reg} {s : State} (hi : s.installation.edatInstalled = true)
    (hp : pswProblem s.psw = false) (hr : frameReserved (s.gpr r1) = false) (hz : frameSize (s.gpr r1) = 0)
    (hk : frameSetKey (s.gpr r1) = false) (hc : frameClear (s.gpr r1) = true)
    (ha : s.available (s.realBlockIn r2) = true) :
    exec (.pfmf r1 r2) s = .next ((clearBlock (s.realBlockIn r2) s).advance 4) := by
  have hunit : frameUnit (s.gpr r1) (applyPrefix s.prefixReg (blockAddr s.mode (s.gpr r2))) s =
      some (clearBlock (s.realBlockIn r2) s) := by
    change frameUnit (s.gpr r1) (s.realBlockIn r2) s = _
    simp [frameUnit, frameBlock, hk, hc, ha]
  calc exec (.pfmf r1 r2) s = pfmfSmall r1 r2 s := by
        change execPfmf r1 r2 s = _
        simp [execPfmf, hi, hp, hr, hz]
    _ = .next ((clearBlock (s.realBlockIn r2) s).advance 4) := by
        simp only [pfmfSmall, serialize, hunit]

/-! ## A key read and then set -/

/-- The machine between the reading and the setting of a key by a conditional SSKE: both gaps are past (R74). -/
def State.beforeKeySet (s : State) : State := (s.beforeAccess.drawn 2).beforeAccess

/-- Setting a key changes no other key where the other agents do not. -/
theorem setKeyBlock_sameKeysBut {b : Nat} (new : StorageKey) (mr mc : Bool) {s : State}
    (hread : sameKeysBut b s s.beforeAccess) (hset : sameKeysBut b s s.beforeKeySet) :
    sameKeysBut b s (setKeyBlock b new mr mc s).state := by
  have setKey (t : State) (k : KeyState) : sameKeysBut b t (t.setKeyState b k) :=
    fun _ hc => State.keyState_setKeyState_ne t k hc
  rcases setKeyBlock_cases b new mr mc s with h | h | ⟨k, h | h⟩ <;> rw [h]
  · exact hread.trans (setKey _ _)
  · exact hread
  · exact hset.trans (setKey _ _)
  · exact hset.trans (setKey _ _)

section
variable {b : Nat} {new : StorageKey} {mr mc : Bool} {s : State}

/-- With a mask bit in effect and a valid key read, the outcome is one of the three of R226 that compare, and the old
key is the one read. -/
theorem setKeyBlock_valid (hm : (mr || mc) = true) (hv : (s.beforeAccess.keyState b).cbcInvalid = false) :
    (setKeyBlock b new mr mc s).old = s.beforeAccess.key b ∧
      ((setKeyBlock b new mr mc s).outcome = .notSet ∨ (setKeyBlock b new mr mc s).outcome = .full ∨
        (setKeyBlock b new mr mc s).outcome = .partialSet) := by
  unfold setKeyBlock
  simp only [hm, hv, Bool.not_true, Bool.false_eq_true, if_false]
  repeat' split
  all_goals simp

/-- Where the key read differs in ACC or F, the whole key is replaced. -/
theorem setKeyBlock_accessDiffers (hm : (mr || mc) = true) (hv : (s.beforeAccess.keyState b).cbcInvalid = false)
    (h : (s.beforeAccess.key b).acc ≠ new.acc ∨ (s.beforeAccess.key b).f ≠ new.f) :
    (setKeyBlock b new mr mc s).state = replaceKey b new s.beforeKeySet := by
  simp [setKeyBlock, State.beforeKeySet, hm, hv, h]

/-- Where the key read agrees in ACC and F and both masks are in effect, nothing is set. -/
theorem setKeyBlock_bothMasks (hr : mr = true) (hc : mc = true)
    (hv : (s.beforeAccess.keyState b).cbcInvalid = false) (hacc : (s.beforeAccess.key b).acc = new.acc)
    (hf : (s.beforeAccess.key b).f = new.f) :
    (setKeyBlock b new mr mc s).state = s.beforeAccess.drawn 2 := by
  simp [setKeyBlock, hr, hc, hv, hacc, hf]

/-- Where the key read agrees in ACC and F but not in the one compared bit, the whole key is replaced, or the compared
bit and an open one are put in the key as it is by then. -/
theorem setKeyBlock_comparedDiffers (hm : mr = !mc) (hv : (s.beforeAccess.keyState b).cbcInvalid = false)
    (hacc : (s.beforeAccess.key b).acc = new.acc) (hf : (s.beforeAccess.key b).f = new.f)
    (h : if mc = true then (s.beforeAccess.key b).r ≠ new.r else (s.beforeAccess.key b).c ≠ new.c) :
    (setKeyBlock b new mr mc s).state = replaceKey b new s.beforeKeySet ∨
      ∃ bit, (setKeyBlock b new mr mc s).state =
        adjustKey b (adjustedKey mc new bit (s.beforeKeySet.key b)) s.beforeKeySet := by
  cases hfree : Config.freeBit s.beforeAccess.draws
  · right
    refine ⟨Config.freeBit (s.beforeAccess.draws + 1), ?_⟩
    cases mc <;> simp_all [setKeyBlock, State.beforeKeySet]
  · left
    cases mc <;> simp_all [setKeyBlock, State.beforeKeySet]

end

/-! ## The conditional SSKE -/

theorem sskeConditionalResult_keyState (r1 : Reg) (res : SetKeyResult) (b : Nat) :
    (sskeConditionalResult r1 res).keyState b = res.state.keyState b := by
  unfold sskeConditionalResult
  dsimp only
  split
  · rfl
  · split <;> rfl

/-- R1 receives the old key unless the outcome leaves it open or alone (R229). -/
theorem field_sskeConditionalResult (r1 : Reg) {res : SetKeyResult}
    (h : res.outcome = .notSet ∨ res.outcome = .full ∨ res.outcome = .partialSet) :
    field ((sskeConditionalResult r1 res).gpr r1) 48 54 = keyBits res.old := by
  have hgpr : (sskeConditionalResult r1 res).gpr r1 = withOldKey (res.state.gpr r1) res.old := by
    rcases h with h | h | h <;> simp [sskeConditionalResult, h, ccOfOutcome]
  rw [hgpr, withOldKey,
    field_setField_outside _ (a := 55) (b := 55) _ (by omega) (by omega) (by omega) (by omega) (by omega),
    field_setField_same (a := 48) (b := 54) _ (keyBits res.old) (by omega) (by omega)]

/-- The conditional single-block SSKE on a block that exists. -/
theorem exec_sske_conditional {m3 : Mask} {r1 r2 : Reg} {s : State} (hp : pswProblem s.psw = false)
    (hb : (sskeControls s.installation m3).mb = false)
    (hc : (sskeControls s.installation m3).conditional = true) (ha : s.available (s.realBlockIn r2) = true) :
    exec (.sske m3 r1 r2) s = .next ((sskeConditionalResult r1
      (setKeyBlock (blockOf (s.realBlockIn r2)) (keyOfRegister (s.gpr r1)) (sskeControls s.installation m3).mr
        (sskeControls s.installation m3).mc s)).advance 4) := by
  have hblock : keyBlock s (blockAddr s.mode (s.gpr r2)) false = some (blockOf (s.realBlockIn r2)) := if_pos ha
  calc exec (.sske m3 r1 r2) s = sskeConditional (sskeControls s.installation m3) r1 r2 s := by
        change execSske m3 r1 r2 s = _
        simp [execSske, hp, hb, hc]
    _ = _ := by simp only [sskeConditional, serialize, hblock]

/-! ## The PSW swap -/

/-- The store of an old PSW, whatever is done in the gap before it. -/
theorem storeReal_some {loc : Word} {bs : List Byte} {s : State} (hp : s.prefixAreaAvailable = true)
    (h : field loc 0 50 = 0) (hl : (field loc 51 63).toNat + bs.length ≤ 4096) (hb : 0 < bs.length) :
    ∃ u, storeReal loc bs s = some u ∧ swapKeeps s u ∧ u.interleaving = s.beforeAccess.interleaving := by
  have ha : s.beforeAccess.availableMany (applyPrefix s.prefixReg loc) bs.length = true :=
    ((beforeAccess_same s).1.availableMany _ _).trans (availableMany_assigned hp h hl hb)
  have hs : storeReal loc bs s = some _ := absStore_eq ha
  exact ⟨_, hs, (storeReal_keeps h (by omega) hs).2, rfl⟩

/-- The load of a new PSW from storage as the gap before it leaves it. -/
theorem loadNewPsw_some {c : InterruptionClass} {s : State} (hp : s.prefixAreaAvailable = true) :
    loadNewPsw c s = some ((recordReference (applyPrefix s.prefixReg (newPswLocation c)) s.beforeAccess).setPsw
      (wordOf 128 (Memory.readMany s.beforeAccess.mem (assigned s (newPswLocation c)) 16))) := by
  obtain ⟨_, h, _, hl⟩ := location_low c
  have ha : s.beforeAccess.availableMany (applyPrefix s.prefixReg (newPswLocation c)) 16 = true :=
    ((beforeAccess_same s).1.availableMany _ _).trans (availableMany_assigned hp h hl (by omega))
  rw [loadNewPsw, absLoad_eq ha]
  rfl

theorem swapKeeps.available {s t : State} (h : swapKeeps s t) (aa : Word) : t.available aa = s.available aa := by
  obtain ⟨_, ⟨_, _, _, hinstallation⟩, _⟩ := h
  rw [State.available, State.available, hinstallation]

/-! ## The three scenarios -/

/-- PFMF clears a block in two pieces, and another agent stores in between (R262, R373). -/
theorem pfmf_clear_storeBetween {r1 r2 : Reg} {s : State} {o n : Nat} {x : Word} {v : Byte}
    (hi : s.installation.edatInstalled = true) (hp : pswProblem s.psw = false)
    (hr : frameReserved (s.gpr r1) = false) (hz : frameSize (s.gpr r1) = 0) (hk : frameSetKey (s.gpr r1) = false)
    (hc : frameClear (s.gpr r1) = true) (ha : s.available (s.realBlockIn r2) = true)
    (hb : blockOf x = blockOf (s.realBlockIn r2))
    (h : s.interleaving = [⟨[], some (o, n)⟩, ⟨[.store x v false], none⟩]) :
    ∃ t, exec (.pfmf r1 r2) s = .next t ∧ t.interleaving = [] ∧
      ∀ y : Nat, t.byte y =
        if y / 4096 ≠ blockOf x then s.byte y
        else if y = x.toNat ∧ o ≤ y % 4096 ∧ y % 4096 < o + n then v else 0 :=
  ⟨_, exec_pfmf_clear hi hp hr hz hk hc ha, clearBlock_storeBetween_interleaving h,
    byte_clearBlock_storeBetween h hb ha⟩

/-- Another agent sets a key between its reading and its setting: what is read, and what is then set upon. -/
theorem keySetBetween {s : State} {x : Word} {k : StorageKey} (hx : s.available x = true)
    (h : s.interleaving = [⟨[], none⟩, ⟨[.setKey x k], none⟩]) :
    (∀ c, s.beforeAccess.keyState c = s.keyState c) ∧ s.beforeKeySet.keyState (blockOf x) = ⟨k, false⟩ ∧
      sameKeysBut (blockOf x) s s.beforeKeySet := by
  have hread : s.beforeAccess = s.withGaps [⟨[.setKey x k], none⟩] := beforeAccess_cons h
  have hset : s.beforeKeySet = applyAction ((s.drawn 2).withGaps []) (.setKey x k) := by
    rw [State.beforeKeySet, hread]
    exact beforeAccess_cons (s := (s.withGaps [⟨[.setKey x k], none⟩]).drawn 2) rfl
  rw [applyAction_setKey (by simpa using hx)] at hset
  rw [hread, hset]
  exact ⟨State.withGaps_keyState s _, State.keyState_setKeyState_same .., fun _ hc => State.keyState_setKeyState_ne _ _ hc⟩

/-- A partial replacement keeps the key it meets but for the compared bit and the open one. -/
theorem adjustedKey_keeps (mc : Bool) (new : StorageKey) (bit : Bool) (k : StorageKey) :
    (adjustedKey mc new bit k).acc = k.acc ∧ (adjustedKey mc new bit k).f = k.f ∧
      if mc = true then (adjustedKey mc new bit k).r = new.r else (adjustedKey mc new bit k).c = new.c := by
  cases mc <;> simp [adjustedKey]

/-- One mask in effect, and a key read that agrees in ACC and F but not in the compared bit: the key `k` met at the
setting is replaced whole, or kept but for the compared bit and the open one. -/
theorem setKeyBlock_partialOver {b : Nat} {new k : StorageKey} {mr mc : Bool} {s : State} (hm : mr = !mc)
    (hread : s.beforeAccess.keyState b = s.keyState b) (hset : s.beforeKeySet.keyState b = ⟨k, false⟩)
    (hv : (s.keyState b).cbcInvalid = false) (hacc : (s.key b).acc = new.acc) (hf : (s.key b).f = new.f)
    (h : if mc = true then (s.key b).r ≠ new.r else (s.key b).c ≠ new.c) :
    let t := (setKeyBlock b new mr mc s).state
    t.keyState b = ⟨new, false⟩ ∨
      ((t.key b).acc = k.acc ∧ (t.key b).f = k.f ∧ (if mc = true then (t.key b).r = new.r else (t.key b).c = new.c) ∧
        (t.keyState b).cbcInvalid = false) := by
  have hkey : s.beforeAccess.key b = s.key b := congrArg KeyState.key hread
  have hmeet : s.beforeKeySet.key b = k := congrArg KeyState.key hset
  rcases setKeyBlock_comparedDiffers (new := new) hm (by rw [hread, hv]) (by rw [hkey, hacc]) (by rw [hkey, hf])
    (by rwa [hkey]) with hs | ⟨bit, hs⟩
  · left
    rw [hs, replaceKey_key]
  · right
    obtain ⟨hkacc, hkf, hkbit⟩ := adjustedKey_keeps mc new bit k
    rw [hmeet] at hs
    simp only [State.key, hs, adjustKey_key, hset]
    exact ⟨hkacc, hkf, hkbit, trivial⟩

/-- A key read and then set by another agent before it is set: overwritten by a whole replacement, kept but for the
compared bit and the open one by a partial one, and not met at all where nothing is set (R226). -/
theorem setKeyBlock_keySetBetween {b : Nat} {new k : StorageKey} {c : KeyControls} {s : State}
    (hc : c.conditional = true) (hread : s.beforeAccess.keyState b = s.keyState b)
    (hset : s.beforeKeySet.keyState b = ⟨k, false⟩) (hv : (s.keyState b).cbcInvalid = false) :
    let t := (setKeyBlock b new c.mr c.mc s).state
    ((s.key b).acc ≠ new.acc ∨ (s.key b).f ≠ new.f → t.keyState b = ⟨new, false⟩) ∧
      ((s.key b).acc = new.acc → (s.key b).f = new.f →
        (c.mr = true → c.mc = true → t.key b = s.key b) ∧
        (c.mr = false → (s.key b).r ≠ new.r →
          t.keyState b = ⟨new, false⟩ ∨
            ((t.key b).acc = k.acc ∧ (t.key b).f = k.f ∧ (t.key b).r = new.r ∧ (t.keyState b).cbcInvalid = false)) ∧
        (c.mc = false → (s.key b).c ≠ new.c →
          t.keyState b = ⟨new, false⟩ ∨
            ((t.key b).acc = k.acc ∧ (t.key b).f = k.f ∧ (t.key b).c = new.c ∧
              (t.keyState b).cbcInvalid = false))) := by
  have hkey : s.beforeAccess.key b = s.key b := congrArg KeyState.key hread
  have hvalid : (s.beforeAccess.keyState b).cbcInvalid = false := by rw [hread, hv]
  have hmasks : (c.mr || c.mc) = true := hc
  refine ⟨fun hdiff => ?whole, fun hacc hf => ⟨fun hmr hmc => ?nothing, fun hmr hr => ?reference,
    fun hmc hch => ?change⟩⟩
  case whole => rw [setKeyBlock_accessDiffers hmasks hvalid (by rwa [hkey]), replaceKey_key]
  case nothing =>
    rw [setKeyBlock_bothMasks hmr hmc hvalid (by rw [hkey, hacc]) (by rw [hkey, hf]), State.key_drawn, hkey]
  case reference =>
    have hmc : c.mc = true := by simpa [hmr] using hmasks
    simpa [hmc] using setKeyBlock_partialOver (mr := c.mr) (mc := c.mc) (by simp [hmr, hmc]) hread hset hv hacc hf
      (by simpa [hmc] using hr)
  case change =>
    have hmr : c.mr = true := by simpa [hmc] using hmasks
    simpa [hmc] using setKeyBlock_partialOver (mr := c.mr) (mc := c.mc) (by simp [hmr, hmc]) hread hset hv hacc hf
      (by simpa [hmc] using hch)

/-- A conditional SSKE reads a key, and another agent sets it before SSKE does (R226, R229). -/
theorem sske_keySetBetween {m3 : Mask} {r1 r2 : Reg} {s : State} {x : Word} {k : StorageKey}
    (hp : pswProblem s.psw = false) (hb : (sskeControls s.installation m3).mb = false)
    (hc : (sskeControls s.installation m3).conditional = true) (ha : s.available (s.realBlockIn r2) = true)
    (hv : (s.keyState (blockOf (s.realBlockIn r2))).cbcInvalid = false) (hx : blockOf x = blockOf (s.realBlockIn r2))
    (h : s.interleaving = [⟨[], none⟩, ⟨[.setKey x k], none⟩]) :
    let c := sskeControls s.installation m3
    let b := blockOf (s.realBlockIn r2)
    let new := keyOfRegister (s.gpr r1)
    ∃ t, exec (.sske m3 r1 r2) s = .next t ∧ field (t.gpr r1) 48 54 = keyBits (s.key b) ∧ sameKeysBut b s t ∧
      t.keyState b = (setKeyBlock b new c.mr c.mc s).state.keyState b := by
  intro c b new
  obtain ⟨hread, _, hothers⟩ := keySetBetween (available_of_blockOf_eq hx ha) h
  rw [hx] at hothers
  have hkeys (d : Nat) := sskeConditionalResult_keyState r1 (setKeyBlock b new c.mr c.mc s) d
  obtain ⟨hold, houtcome⟩ :=
    setKeyBlock_valid (b := b) (new := new) (mr := c.mr) (mc := c.mc) (s := s) hc (by rw [hread]; exact hv)
  refine ⟨_, exec_sske_conditional hp hb hc ha, ?_, fun d hd => ?_, hkeys b⟩
  · rw [State.gpr_advance, field_sskeConditionalResult r1 houtcome, hold, State.key, hread]
    rfl
  · rw [State.keyState_advance, hkeys d]
    exact setKeyBlock_sameKeysBut new c.mr c.mc (fun e _ => hread e) hothers d hd

/-- Another agent stores between the two halves of a PSW swap (R77). -/
theorem pswSwap_storeBetween (cl : InterruptionClass) {s : State} {x : Word} {v : Byte}
    (hp : s.prefixAreaAvailable = true) (hx : s.available x = true)
    (h : s.interleaving = [⟨[], none⟩, ⟨[.store x v false], none⟩]) :
    ∃ t, pswSwap cl s = some t ∧ t.byte x.toNat = v ∧ t.interleaving = [] ∧
      t.psw = wordOf 128 (Memory.readMany t.mem (assigned s (newPswLocation cl)) 16) := by
  obtain ⟨hlow, _, hlen, _⟩ := location_low cl
  obtain ⟨u, hu, hkeeps, hgaps⟩ :=
    storeReal_some (bs := bytesOf 16 s.psw) hp hlow (by simpa using hlen) (by simp)
  have hgap : u.beforeAccess = applyAction (u.withGaps []) (.store x v false) :=
    beforeAccess_cons (g := ⟨[.store x v false], none⟩) (hgaps.trans (by rw [beforeAccess_cons h]; rfl))
  have hux : (u.withGaps []).available x = true := (hkeeps.available x).trans hx
  have hswap : pswSwap cl s = loadNewPsw cl u := by rw [pswSwap, hu, Option.bind_some]
  refine ⟨_, hswap.trans (loadNewPsw_some (hkeeps.prefixAreaAvailable.trans hp)), ?_, ?_, ?_⟩
  · rw [State.byte_setPsw, recordReference_byte, hgap, byte_applyAction_store hux, if_pos rfl]
  · rw [State.setPsw_interleaving, recordReference_interleaving, hgap, applyAction_interleaving,
      State.withGaps_interleaving]
  · rw [State.setPsw_psw, State.setPsw_mem, recordReference_mem, hkeeps.assigned]

/-- Settles O36: each scenario follows the two gaps of its schedule through the accesses of its instruction. -/
theorem otherAgentsBetweenAccesses : Obligations.OtherAgentsBetweenAccesses := by
  unfold Obligations.OtherAgentsBetweenAccesses
  refine ⟨?clearing, ?keySetting, ?swap⟩
  case clearing =>
    intro r1 r2 s o n x v hi hp hr hz hk hc ha hb h
    exact pfmf_clear_storeBetween hi hp hr hz hk hc ha hb h
  case keySetting =>
    intro m3 r1 r2 s x k c b old new hp hb hc ha hv hx h
    obtain ⟨t, hexec, hr1, hothers, ht⟩ := sske_keySetBetween (r1 := r1) hp hb hc ha hv hx h
    obtain ⟨hread, hset, _⟩ := keySetBetween (available_of_blockOf_eq hx ha) h
    have hkey : t.key b = (setKeyBlock b new c.mr c.mc s).state.key b := congrArg KeyState.key ht
    refine ⟨t, hexec, hr1, hothers, ?_⟩
    rw [ht, hkey]
    exact setKeyBlock_keySetBetween hc (hread b) (hx ▸ hset) hv
  case swap =>
    intro cl s x v hp hx h
    exact pswSwap_storeBetween cl hp hx h

end Sys2Proof.Machine
end

section
/-! PROOFS. The PSW outside a replaced field (R33, R35), and what the state reads as after reset (R45). -/

namespace Sys2Proof.Machine

/-! ## The PSW outside a replaced field -/

/-- The frame of a condition-code write: every field that bits 18 and 19 do not meet. -/
theorem field_pswSetCc_outside (p : BitVec 128) (v : BitVec 2) {c d : Nat} (hc : c ≤ d) (hd : d < 128)
    (h : d < 18 ∨ 19 < c) : field (pswSetCc p v) c d = field p c d :=
  field_setField_outside p (a := 18) (b := 19) v (by omega) hd (by omega) hc h

/-- The frame of an instruction-address write: every field to the left of bit 64. -/
theorem field_pswSetAddress_outside (p : BitVec 128) (a : Word) {c d : Nat} (hc : c ≤ d) (h : d < 64) :
    field (pswSetAddress p a) c d = field p c d :=
  field_setField_outside p (a := 64) (b := 127) a (by omega) (by omega) (by omega) hc (.inl h)

/-- Settles O39: each write is read back, and the fields on both sides of it lie in its frame. -/
theorem pswFieldsAreApart : Obligations.PswFieldsAreApart := by
  unfold Obligations.PswFieldsAreApart
  intro p v a
  refine ⟨pswCc_setCc p v, ?leftOfCc, ?rightOfCc, pswAddress_setAddress p a, ?leftOfAddress⟩
  case leftOfCc => exact field_pswSetCc_outside p v (by omega) (by omega) (.inl (by omega))
  case rightOfCc => exact field_pswSetCc_outside p v (by omega) (by omega) (.inr (by omega))
  case leftOfAddress => exact field_pswSetAddress_outside p a (by omega) (by omega)

/-! ## What is read after reset -/

@[simp] theorem State.reset_gpr (r : Reg) : State.reset.gpr r = 0 := Vector.getElem_replicate r.isLt
@[simp] theorem State.reset_cr (r : Reg) : State.reset.cr r = 0 := Vector.getElem_replicate r.isLt
@[simp] theorem State.reset_ar (r : Reg) : State.reset.ar r = 0 := Vector.getElem_replicate r.isLt

/-- No byte is listed after reset, so each reads as an unlisted one. -/
@[simp] theorem State.reset_byte (a : Nat) : State.reset.byte a = unlistedByte := rfl

/-- No key is listed after reset, so each block has the unlisted key. -/
@[simp] theorem State.reset_keyState (b : Nat) : State.reset.keyState b = unlistedKey := rfl

/-- Settles O59: the registers are full of zeros, and nothing is listed in storage, the keys, the buffer and the two
schedules. -/
theorem resetValues : Obligations.ResetValues := by
  unfold Obligations.ResetValues
  refine ⟨fun r => ⟨State.reset_gpr r, State.reset_cr r, State.reset_ar r⟩, ?psw, ?prefixReg, State.reset_byte,
    State.reset_keyState, ?tlb, ?asyncPending, ?environment, ?interleaving⟩
  all_goals rfl

end Sys2Proof.Machine
end

section
/-! PROOFS. Prefixing (R60, R61) and effective addresses (R12, R58). -/

namespace Sys2Proof.Machine

/-! ## A real address as its bits 0-50 and 51-63 -/

theorem field_prefixed_left (p : BitVec 51) (x : BitVec 13) : field (n := 64) (p ++ x) 0 50 = p := by
  apply BitVec.eq_of_toNat_eq
  rw [toNat_field, toNat_prefixed]
  have := p.isLt
  omega

theorem field_prefixed_right (p : BitVec 51) (x : BitVec 13) : field (n := 64) (p ++ x) 51 63 = x := by
  apply BitVec.eq_of_toNat_eq
  rw [toNat_field, toNat_prefixed]
  have := x.isLt
  omega

theorem prefixed_fields {p : BitVec 51} {ra : Word} (h : field ra 0 50 = p) : p ++ field ra 51 63 = ra := by
  subst h
  apply BitVec.eq_of_toNat_eq
  refine (toNat_prefixed _ _).trans ?_
  rw [toNat_field, toNat_field]
  have := ra.isLt
  omega

/-! ## The cases of prefixing; `applyPrefix_low` is the first -/

/-- The 8 KB that `p` names are moved to the first 8 KB; where `p` is zero they are there already. -/
theorem applyPrefix_own {p : BitVec 51} {ra : Word} (h : field ra 0 50 = p) :
    applyPrefix p ra = (0 : BitVec 51) ++ field ra 51 63 := by
  by_cases h0 : field ra 0 50 = 0
  · rw [applyPrefix_low p h0, ← h, h0]
  · rw [applyPrefix, if_neg h0, if_pos h]

theorem applyPrefix_other {p : BitVec 51} {ra : Word} (h0 : field ra 0 50 ≠ 0) (h : field ra 0 50 ≠ p) :
    applyPrefix p ra = ra := by rw [applyPrefix, if_neg h0, if_neg h]

theorem applyPrefix_zero (ra : Word) : applyPrefix 0 ra = ra := by
  by_cases h : field ra 0 50 = 0
  · rw [applyPrefix_low 0 h, prefixed_fields h]
  · exact applyPrefix_other h h

/-- Settles O40: each case of the rule, read off field by field. -/
theorem prefixingRule : Obligations.PrefixingRule := by
  unfold Obligations.PrefixingRule
  intro p ra
  refine ⟨fun h => ?low, fun _ h => ?own, applyPrefix_other, fun h => h ▸ applyPrefix_zero ra⟩
  case low =>
    rw [applyPrefix_low p h]
    exact ⟨field_prefixed_left p _, field_prefixed_right p _⟩
  case own =>
    rw [applyPrefix_own h]
    exact ⟨field_prefixed_left 0 _, field_prefixed_right 0 _⟩

/-- Settles O41: prefixing exchanges the first 8 KB with the 8 KB that `p` names and moves nothing else. -/
theorem prefixingIsInvolution : Obligations.PrefixingIsInvolution := by
  unfold Obligations.PrefixingIsInvolution
  intro p ra
  by_cases h0 : field ra 0 50 = 0
  · rw [applyPrefix_low p h0, applyPrefix_own (field_prefixed_left p _), field_prefixed_right, prefixed_fields h0]
  by_cases hp : field ra 0 50 = p
  · rw [applyPrefix_own hp, applyPrefix_low p (field_prefixed_left 0 _), field_prefixed_right, prefixed_fields hp]
  · rw [applyPrefix_other h0 hp, applyPrefix_other h0 hp]

/-- Settles O38: the forms are the definitions, and the cut of a mode is a remainder. -/
theorem effectiveAddressForms : Obligations.EffectiveAddressForms := by
  unfold Obligations.EffectiveAddressForms
  intro s x b d
  exact ⟨rfl, rfl, fun v => ⟨toNat_addrMode .bits24 v, toNat_addrMode .bits31 v, rfl⟩⟩

end Sys2Proof.Machine
end

section
/-! PROOFS. One fetch within a block (R66, R93, R166, R168), and the text of an instruction (R57, R62, R63). -/

namespace Sys2Proof.Machine

/-! ## What a fetch leaves as it was, no other agent acting -/

/-- Only reference bits, the buffer and the count of draws can differ after the accesses of a fetch. -/
theorem fetchKeeps.reference {s t : State} (h : fetchKeeps s t) (hi : s.interleaving = []) :
    referenceKeeps s t ∧ sameStorage s t ∧
      ∀ c, (t.key c).c = (s.key c).c ∧ ((s.key c).r = true → (t.key c).r = true) := by
  obtain ⟨⟨hgprs, hpsw, hcontrols, -, huntried⟩, hpending, henv, -, halone⟩ := h
  obtain ⟨hgaps, hmem, haccess, hkeys⟩ := halone hi
  exact ⟨⟨hgprs, hpsw, hcontrols, hpending, henv, hgaps, huntried, haccess⟩, fun a => congrArg (Memory.read · a) hmem,
    hkeys⟩

theorem fetchKeeps.alone {s t : State} (h : fetchKeeps s t) (hi : s.interleaving = []) :
    t.interleaving = [] ∧ t.mem = s.mem ∧ sameAccess s t := by
  obtain ⟨-, -, -, -, halone⟩ := h
  obtain ⟨hgaps, hmem, haccess, -⟩ := halone hi
  exact ⟨hgaps.trans hi, hmem, haccess⟩

/-! ## Where a reference leads -/

/-- With DAT on, an exception of the translation is the outcome of the reference, at the address that met it (R93). -/
theorem locate_translationException {kind : ReferenceKind} {sel : OperandSpace} {la asce : Word}
    {e : ProgramException} {s t : State} (hk : kind ≠ .store) (hd : pswDat s.psw = true)
    (ha : effectiveAsce s kind sel = some asce) (ht : translate s asce la false = (.error e, t)) :
    locate kind sel la s = .exception e la t := by
  rw [locate, if_pos hd, ha]
  simp only [decide_eq_false hk, ht]

/-- With DAT on, a completed translation leads to the absolute address of what it answers (R93, R60). -/
theorem locate_translated {kind : ReferenceKind} {sel : OperandSpace} {la asce : Word} {r : Translation}
    {s t : State} (hd : pswDat s.psw = true) (ha : effectiveAsce s kind sel = some asce)
    (ht : translate s asce la (kind = .store) = (.ok r, t)) :
    locate kind sel la s = .ok (absoluteAddress t r.address, r.attributes) t := by
  rw [locate, if_pos hd, ha]
  simp only [ht]

/-- An absolute address depends on the state by `prefixReg` alone. -/
theorem absoluteAddress_congr {s t : State} (h : t.prefixReg = s.prefixReg) (a : TranslatedAddress) :
    absoluteAddress t a = absoluteAddress s a := by
  cases a with
  | real ra => exact congrArg (applyPrefix · ra) h
  | absolute aa => rfl

/-- What it is for a reference to lead to an absolute address is what `locate` answers. -/
theorem State.locates.locate_eq {kind : ReferenceKind} {sel : OperandSpace} {la aa : Word} {att : Attributes}
    {s t : State} (h : s.locates kind sel la aa att t) : locate kind sel la s = .ok (aa, att) t := by
  unfold State.locates at h
  split at h
  · next hd =>
    obtain ⟨asce, r, ha, ht, rfl, rfl⟩ := h
    have hp : t.prefixReg = s.prefixReg := by
      obtain ⟨⟨-, -, ⟨-, -, hp, -⟩, -⟩, -⟩ := (translate_keeps s asce la (kind = .store)).1
      rwa [ht] at hp
    have hl := locate_translated hd ha ht
    rw [absoluteAddress_congr hp] at hl
    exact hl
  · next hd =>
    obtain ⟨rfl, rfl, rfl⟩ := h
    rw [locate, if_neg hd]
    rfl

theorem State.locates.keeps {kind : ReferenceKind} {sel : OperandSpace} {la aa : Word} {att : Attributes}
    {s t : State} (h : s.locates kind sel la aa att t) : fetchKeeps s t := by
  have hk := locate_keeps kind sel la s
  rwa [h.locate_eq] at hk

theorem fetchBytes_of_exception {kind : ReferenceKind} {akey : BitVec 4} {sel : OperandSpace} {la a : Word} {n : Nat}
    {e : ProgramException} {s t : State} (h : locate kind sel la s = .exception e a t) :
    fetchBytes kind akey sel la n s = .exception e a t := by
  simp only [fetchBytes, permit, h]

/-- A located fetch: availability, then the key check, then the bytes and the recording (R66 steps 3 to 6). -/
theorem fetchBytes_of_located {kind : ReferenceKind} {sel : OperandSpace} {la aa : Word} {att : Attributes}
    {s t : State} (h : locate kind sel la s = .ok (aa, att) t) (akey : BitVec 4) (n : Nat) :
    fetchBytes kind akey sel la n s =
      if t.available aa = false then .exception .addressing la t
      else if keyCheck kind akey t.beforeAccess aa att = true then
        .ok (Memory.readMany t.beforeAccess.mem aa.toNat n) (recordReference aa (t.beforeAccess.drawn 2))
      else .exception .protection la (t.beforeAccess.drawn 2) := by
  simp only [fetchBytes, permit, h]
  cases ha : t.available aa
  · simp
  · cases hc : keyCheck kind akey t.beforeAccess aa att <;> simp

/-! ## The key check -/

/-- A valid key of a block, as any state with the same ACC, F and validity gives it. -/
theorem blockKey_valid {s t : State} {aa : Word} (ht : sameAccess s t)
    (h : (s.keyState (blockOf aa)).cbcInvalid = false) :
    blockKey t aa = ((s.key (blockOf aa)).acc, (s.key (blockOf aa)).f) := by
  obtain ⟨hacc, hf, hcbc⟩ := ht (blockOf aa)
  simp only [State.key] at hacc hf
  simp [blockKey, State.key, hcbc, h, hacc, hf]

/-- The check is against the key of the block or against the key that a segment-table entry provides (R166, R168). -/
theorem keyCheck_eq_or {s t : State} {aa : Word} (ht : sameAccess s t)
    (h : (s.keyState (blockOf aa)).cbcInvalid = false) (kind : ReferenceKind) (akey : BitVec 4) (att : Attributes) :
    keyCheck kind akey t aa att = keyPermits kind akey (s.key (blockOf aa)).acc (s.key (blockOf aa)).f ∨
      keyCheck kind akey t aa att = entryPermits kind akey (s.key (blockOf aa)) att.steKey := by
  have hb := blockKey_valid ht h
  rw [keyCheck]
  cases att.steKey with
  | none => exact .inl (by rw [keySource, hb])
  | some e =>
    rw [keySource]
    split
    · exact .inr rfl
    · exact .inl (by rw [hb])

/-! ## One fetch -/

/-- Settles O8: the branches of the path of a reference, in its order. What every branch leaves as it was is one lemma
(`fetchKeeps.reference`). -/
theorem fetchReference : Obligations.FetchReference := by
  unfold Obligations.FetchReference
  intro kind akey sel la n s hstore hi
  refine ⟨fun asce e t hd ha ht => ?translation, fun aa att t0 hl => ⟨fun ha => ?unavailable, fun ha hv => ?checked⟩⟩
  case translation =>
    obtain ⟨hk, hbuffer⟩ := translate_keeps s asce la false
    rw [ht] at hk
    obtain ⟨hr, hs, -⟩ := hk.reference hi
    exact ⟨fetchBytes_of_exception (locate_translationException hstore hd ha ht), hr, hs, hbuffer e t ht⟩
  case unavailable =>
    obtain ⟨hr, hs, -⟩ := hl.keeps.reference hi
    rw [fetchBytes_of_located hl.locate_eq, if_pos ((hl.keeps.available aa).trans ha)]
    exact ⟨rfl, hr, hs⟩
  case checked =>
    obtain ⟨hgaps, hmem, haccess⟩ := hl.keeps.alone hi
    have ha0 : t0.available aa = true := (hl.keeps.available aa).trans ha
    have hd : fetchKeeps s (t0.drawn 2) := hl.keeps.trans (drawn_accessKeeps t0 2).fetchKeeps
    have hp := keyCheck_eq_or haccess hv kind akey att
    rw [fetchBytes_of_located hl.locate_eq, if_neg (by simp [ha0]), beforeAccess_alone hgaps, hmem]
    cases hc : keyCheck kind akey t0 aa att with
    | true =>
      have hk : fetchKeeps s (recordReference aa (t0.drawn 2)) :=
        hd.trans (recordReference_accessKeeps (s := t0.drawn 2) ha0).fetchKeeps
      obtain ⟨hr, hs, hbits⟩ := hk.reference hi
      exact ⟨_, hr, hs, rfl, hbits,
        .inl ⟨if_pos rfl, by simpa only [hc, eq_comm] using hp, recordReference_sameKeysBut aa (t0.drawn 2)⟩⟩
    | false =>
      obtain ⟨hr, hs, hbits⟩ := hd.reference hi
      exact ⟨_, hr, hs, rfl, hbits, .inr ⟨if_neg Bool.false_ne_true, by simpa only [hc, eq_comm] using hp, rfl⟩⟩

/-! ## The text of an instruction -/

theorem fetchBytes_length {kind : ReferenceKind} {akey : BitVec 4} {sel : OperandSpace} {la : Word} {n : Nat}
    {bs : List Byte} {s t : State} (h : fetchBytes kind akey sel la n s = .ok bs t) : bs.length = n := by
  unfold fetchBytes at h
  split at h
  · cases h
  · cases h
  · cases h
    exact Memory.length_readMany ..

theorem fetchBytes_psw {kind : ReferenceKind} {akey : BitVec 4} {sel : OperandSpace} {la : Word} {n : Nat}
    {bs : List Byte} {s t : State} (h : fetchBytes kind akey sel la n s = .ok bs t) : t.psw = s.psw := by
  have hk := fetchBytes_keeps kind akey sel la n s
  rw [h] at hk
  exact fetchKeeps.psw hk

/-- Four bytes cross a 4 KB boundary from offset 4093 on. -/
theorem crossesBlock_four (la : Word) : crossesBlock la 4 = true ↔ 4092 < la.toNat % 4096 := by
  rw [crossesBlock, decide_eq_true_iff]
  omega

theorem fetchFour_within {s : State} (h : (fetchAddress s).toNat % 4096 ≤ 4092) :
    fetchFour s = fetchBytes .ifetch (pswKey s.psw) .primary (fetchAddress s) 4 s :=
  if_neg (by rw [crossesBlock_four]; omega)

theorem fetchFour_firstException {s t : State} {e : ProgramException} {a : Word}
    (hc : 4092 < (fetchAddress s).toNat % 4096)
    (h : fetchBytes .ifetch (pswKey s.psw) .primary (fetchAddress s) 2 s = .exception e a t) :
    fetchFour s = .exception e a t := by
  simp only [fetchFour, (crossesBlock_four _).mpr hc, if_true, fetchPart, h]

section
variable {s t : State} {first : List Byte} (hc : 4092 < (fetchAddress s).toNat % 4096)
  (hf : fetchBytes .ifetch (pswKey s.psw) .primary (fetchAddress s) 2 s = .ok first t)
include hc hf

/-- The second reference is made with the PSW key too: the first leaves the PSW as it was. -/
theorem fetchFour_secondException {e : ProgramException} {a : Word} {u : State}
    (h : fetchBytes .ifetch (pswKey s.psw) .primary (addrMode s.mode (fetchAddress s + 2)) 2 t = .exception e a u) :
    fetchFour s = .exception e a u := by
  rw [← fetchBytes_psw hf] at h
  simp only [fetchFour, (crossesBlock_four _).mpr hc, if_true, fetchPart, hf, h]

theorem fetchFour_bothParts {second : List Byte} {u : State}
    (h : fetchBytes .ifetch (pswKey s.psw) .primary (addrMode s.mode (fetchAddress s + 2)) 2 t = .ok second u) :
    fetchFour s = .ok (first ++ second) u := by
  rw [← fetchBytes_psw hf] at h
  simp only [fetchFour, (crossesBlock_four _).mpr hc, if_true, fetchPart, hf, h]

end

theorem fetchFour_length {s t : State} {bs : List Byte} (h : fetchFour s = .ok bs t) : bs.length = 4 := by
  unfold fetchFour at h
  dsimp only at h
  split at h
  · split at h
    · cases h
    · cases h
    · next hf =>
      split at h
      · cases h
      · cases h
      · next hs =>
        cases h
        rw [List.length_append, fetchBytes_length hf, fetchBytes_length hs]
  · exact fetchBytes_length h

theorem fetchInstruction_of_exception {s t : State} {e : ProgramException} {a : Word}
    (h : fetchFour s = .exception e a t) : fetchInstruction s = .exception e a t := by
  simp only [fetchInstruction, h]

theorem fetchInstruction_of_ok {s t : State} {bs : List Byte} (h : fetchFour s = .ok bs t) :
    fetchInstruction s = .ok (if instrLength (bs.headD 0) = 6 then bs ++ peekRest t else bs) t := by
  simp only [fetchInstruction, h]

/-- Settles O7: the text begins with the four bytes, and they are one reference or two as the boundary lies. -/
theorem instructionFetch : Obligations.InstructionFetch := by
  unfold Obligations.InstructionFetch
  intro s
  refine ⟨fun bs t h => ?text, fun e a t => fetchInstruction_of_exception, fetchFour_within, fun hc =>
    ⟨fun e a t => fetchFour_firstException hc, fun first t hf => ⟨fetchBytes_psw hf, fun e a u =>
      fetchFour_secondException hc hf, fun second u => fetchFour_bothParts hc hf⟩⟩⟩
  case text =>
    have hlen := fetchFour_length h
    refine ⟨_, fetchInstruction_of_ok h, hlen, ?_, fun h6 => if_neg h6⟩
    split
    · exact List.take_left' hlen
    · exact List.take_of_length_le hlen.le

end Sys2Proof.Machine
end

section
/-! PROOFS. The invariant after reset, and that every step keeps it (R50, R53, R40). -/

namespace Sys2Proof.Machine

/-- Settles O57: nothing is listed after reset. -/
theorem invariantAtReset : Obligations.InvariantAtReset :=
  ⟨⟨.nil, List.forall_mem_nil _⟩, .nil, List.forall_mem_nil _, List.forall_mem_nil _⟩

/-! ## Interruptions -/

theorem State.Inv.advance {s : State} (h : s.Inv) (n : Word) : (s.advance n).Inv := h.setPsw _

theorem State.Inv.takeProgramInterruption {e : ProgramException} {ilc : BitVec 2} {a : Word} {s t : State}
    (hs : s.Inv) (h : takeProgramInterruption e ilc a s = .next t) : t.Inv := by
  unfold Machine.takeProgramInterruption at h
  split at h
  · next u hu =>
    cases h
    exact (hs.programSwap hu).of_eq rfl rfl rfl
  · cases h

theorem State.Inv.takeEarlyException {e : ProgramException} {a : Word} {s t : State} (hs : s.Inv)
    (h : takeEarlyException e a s = .next t) : t.Inv := by
  unfold Machine.takeEarlyException at h
  split at h
  · cases h
  · exact hs.takeProgramInterruption h

theorem State.Inv.raiseInInstruction {e : ProgramException} {a : Word} {s t : State} (hs : s.Inv)
    (h : raiseInInstruction e a s = .next t) : t.Inv := by
  refine State.Inv.takeProgramInterruption ?_ h
  split
  · exact hs
  · exact hs.advance 4

theorem State.Inv.takeAsyncInterruption {c : AsyncClass} {s t : State} (hs : s.Inv)
    (h : takeAsyncInterruption c s = .next t) : t.Inv := by
  unfold Machine.takeAsyncInterruption at h
  split at h
  · next u hu =>
    cases h
    exact (hs.pswSwap hu).of_eq rfl rfl rfl
  · cases h

/-! ## SSKE -/

/-- A block that an address designates exists. -/
theorem keyBlock_available {s : State} {a : Word} {ab : Bool} {b : Nat} (h : keyBlock s a ab = some b) :
    blockAvailable s.installation b = true := by
  simp only [keyBlock, Option.ite_none_right_eq_some, Option.some.injEq] at h
  obtain ⟨ha, rfl⟩ := h
  exact ha

theorem State.Inv.setKeyBlock {s : State} (hs : s.Inv) {b : Nat} (hb : blockAvailable s.installation b = true)
    (new : StorageKey) (mr mc : Bool) : (setKeyBlock b new mr mc s).state.Inv :=
  (setKeyBlock_keeps b new mr mc s).2.2 hb hs

theorem State.Inv.sskeConditionalResult {res : SetKeyResult} (h : res.state.Inv) (r1 : Reg) :
    (sskeConditionalResult r1 res).Inv := by
  unfold Machine.sskeConditionalResult
  dsimp only
  split
  · exact h
  split
  · exact h.of_eq rfl rfl rfl
  · exact h.of_eq rfl rfl rfl

theorem State.Inv.sskeMultipleResult {s : State} (h : s.Inv) (c : KeyControls) (r1 r2 : Reg) (cc : BitVec 2) :
    (sskeMultipleResult c r1 r2 cc s).Inv := by
  unfold Machine.sskeMultipleResult
  split
  · exact h.of_eq rfl rfl rfl
  · exact h

theorem State.Inv.sskeUnit {new : StorageKey} {c : KeyControls} {a : Word} {s t : State} (hs : s.Inv)
    (h : sskeUnit new c a s = some t) : t.Inv := by
  obtain ⟨b, hb, rfl⟩ := Option.map_eq_some_iff.mp h
  exact hs.setKeyBlock (keyBlock_available hb) ..

theorem State.Inv.sskeUnconditional {r1 r2 : Reg} {s t : State} (hs : s.Inv)
    (h : sskeUnconditional r1 r2 s = .next t) : t.Inv := by
  unfold Machine.sskeUnconditional at h
  dsimp only at h
  split at h
  · exact hs.raiseInInstruction h
  · next hb =>
    cases h
    exact (hs.setKeyBlock (keyBlock_available hb) ..).advance 4

theorem State.Inv.sskeConditional {c : KeyControls} {r1 r2 : Reg} {s t : State} (hs : s.Inv)
    (h : sskeConditional c r1 r2 s = .next t) : t.Inv := by
  unfold Machine.sskeConditional at h
  dsimp only at h
  split at h
  · exact hs.raiseInInstruction h
  · next hb =>
    cases h
    exact ((hs.setKeyBlock (keyBlock_available hb) ..).sskeConditionalResult r1).advance 4

/-- A run whose unit keeps the invariant ends in a state that meets it, however it ends. -/
theorem State.Inv.runBlocks {unit : Word → State → Option State}
    (hu : ∀ a s t, s.Inv → unit a s = some t → t.Inv) (m : AddressingMode) (r2 : Reg) (fuel : Nat) (a : Word)
    {s : State} (hs : s.Inv) :
    match runBlocks unit m r2 fuel a s with
    | .completed t => t.Inv
    | .interrupted t => t.Inv
    | .addressing t => t.Inv :=
  runBlocks_keeps (P := State.Inv) (fun a s t v h hst => (hu a s t h hst).setGpr r2 v)
    (fun s h => (atBoundary_same s).2 h) fuel a hs

theorem State.Inv.sskeMultiple {c : KeyControls} {r1 r2 : Reg} {s t : State} (hs : s.Inv)
    (h : sskeMultiple c r1 r2 s = .next t) : t.Inv := by
  have hr := State.Inv.runBlocks (unit := Machine.sskeUnit (keyOfRegister (s.gpr r1)) c)
    (fun _ _ _ hi hst => hi.sskeUnit hst) s.mode r2 blocksInMegabyte (blockAddr s.mode (s.gpr r2)) hs
  unfold Machine.sskeMultiple at h
  simp only [serialize] at h
  split at h
  · next he =>
    rw [he] at hr
    cases h
    exact (hr.sskeMultipleResult ..).advance 4
  · next he =>
    rw [he] at hr
    cases h
    exact hr.sskeMultipleResult ..
  · next he =>
    rw [he] at hr
    exact (hr.sskeMultipleResult ..).raiseInInstruction h

theorem State.Inv.execSske {m3 : Mask} {r1 r2 : Reg} {s t : State} (hs : s.Inv)
    (h : execSske m3 r1 r2 s = .next t) : t.Inv := by
  unfold Machine.execSske at h
  dsimp only at h
  split at h
  · exact hs.raiseInInstruction h
  split at h
  · exact hs.sskeMultiple h
  split at h
  · exact hs.sskeConditional h
  · exact hs.sskeUnconditional h

/-! ## PFMF -/

theorem State.Inv.frameUnit {r a : Word} {s t : State} (hs : s.Inv) (h : frameUnit r a s = some t) : t.Inv := by
  unfold Machine.frameUnit at h
  split at h
  · split at h
    · next ha =>
      cases h
      exact (frameBlock_keeps r a s).2 ha hs
    · cases h
  · cases h
    exact hs

theorem State.Inv.pfmfSmall {r1 r2 : Reg} {s t : State} (hs : s.Inv) (h : pfmfSmall r1 r2 s = .next t) : t.Inv := by
  unfold Machine.pfmfSmall at h
  dsimp only at h
  split at h
  · exact hs.raiseInInstruction h
  · next hu =>
    cases h
    exact (hs.frameUnit hu).advance 4

theorem State.Inv.pfmfLarge {r1 r2 : Reg} {s t : State} (hs : s.Inv) (h : pfmfLarge r1 r2 s = .next t) : t.Inv := by
  have hr := State.Inv.runBlocks (unit := Machine.frameUnit (s.gpr r1)) (fun _ _ _ hi hst => hi.frameUnit hst) s.mode r2
    blocksInMegabyte (blockAddr s.mode (s.gpr r2)) hs
  unfold Machine.pfmfLarge at h
  simp only [serialize] at h
  split at h
  · next he =>
    rw [he] at hr
    cases h
    exact hr.advance 4
  · next he =>
    rw [he] at hr
    cases h
    exact hr
  · next he =>
    rw [he] at hr
    exact hr.raiseInInstruction h

theorem State.Inv.execPfmf {r1 r2 : Reg} {s t : State} (hs : s.Inv) (h : execPfmf r1 r2 s = .next t) : t.Inv := by
  unfold Machine.execPfmf at h
  split at h
  · cases h
  split at h
  · exact hs.raiseInInstruction h
  split at h
  · exact hs.raiseInInstruction h
  split at h
  · exact hs.pfmfSmall h
  split at h
  · cases h
  · exact hs.pfmfLarge h

/-! ## The step -/

/-- Only SSKE and PFMF answer with a next state: every other instruction is refused (R302). -/
theorem exec_next_cases {i : Instr} {s t : State} (h : exec i s = .next t) :
    (∃ m3 r1 r2, i = .sske m3 r1 r2 ∧ execSske m3 r1 r2 s = .next t) ∨
      ∃ r1 r2, i = .pfmf r1 r2 ∧ execPfmf r1 r2 s = .next t := by
  cases i with
  | sske m3 r1 r2 => exact .inl ⟨m3, r1, r2, rfl, h⟩
  | pfmf r1 r2 => exact .inr ⟨r1, r2, rfl, h⟩
  | _ => cases h

theorem State.Inv.exec {i : Instr} {s t : State} (hs : s.Inv) (h : exec i s = .next t) : t.Inv := by
  obtain ⟨m3, r1, r2, -, he⟩ | ⟨r1, r2, -, he⟩ := exec_next_cases h
  · exact hs.execSske he
  · exact hs.execPfmf he

theorem fetchKeeps.inv {s t : State} (h : fetchKeeps s t) (hs : s.Inv) : t.Inv := by
  obtain ⟨-, -, -, hi, -⟩ := h
  exact (hi hs).of_eq rfl rfl rfl

theorem State.Inv.runInstruction {s t : State} (hs : s.Inv) (h : runInstruction s = .next t) : t.Inv := by
  have hf := fetchInstruction_keeps s
  unfold Machine.runInstruction at h
  split at h
  · cases h
  · next he =>
    rw [he] at hf
    exact State.Inv.takeEarlyException (fetchKeeps.inv hf hs) h
  · next text u he =>
    rw [he] at hf
    split at h
    · cases h
    · have hu : u.Inv := fetchKeeps.inv hf hs
      have hv : ({ u with newPswUntried := false } : State).Inv := hu.of_eq rfl rfl rfl
      exact hv.exec h

theorem State.Inv.instructionCycle {s t : State} (hs : s.Inv) (h : instructionCycle s = .next t) : t.Inv := by
  unfold Machine.instructionCycle at h
  split at h
  · exact hs.takeAsyncInterruption h
  split at h
  · cases h
    exact hs
  split at h
  · exact hs.takeEarlyException h
  split at h
  · exact hs.takeEarlyException h
  · exact hs.runInstruction h

/-- Settles O58: the boundary keeps the invariant whatever other agents do, and so does each branch of the cycle. -/
theorem stepKeepsInvariant : Obligations.StepKeepsInvariant := by
  unfold Obligations.StepKeepsInvariant
  intro s t hs h
  exact ((atBoundary_same s).2 hs).instructionCycle h

end Sys2Proof.Machine
end

section
/-! PROOFS. Fields of addresses, which address-space-control element is used (R95), and which entries of the buffer may
be (R146, R148, R150, R151). -/

namespace Sys2Proof.Machine

/-! ## A word as two fields side by side -/

/-- The left part of two parts of a word. -/
theorem field_append_left {m k : Nat} (x : BitVec (m + 1)) (y : BitVec k) : field (x ++ y) 0 m = x := by
  apply BitVec.eq_of_getLsbD_eq
  intro i hi
  have hk : m + 1 + k - 1 - m = k := by omega
  have hm : i ≤ m := by omega
  rw [field, BitVec.getLsbD_extractLsb', hk, BitVec.getLsbD_append]
  simp [hm]

/-- A page or frame address with its byte index put back. -/
theorem page_append_byteIndex (va : Word) : field va 0 51 ++ field va 52 63 = va := by
  apply BitVec.eq_of_toNat_eq
  refine (BitVec.toNat_append _ _).trans ?_
  rw [Nat.shiftLeft_eq, mul_comm, ← Nat.two_pow_add_eq_or_of_lt (field va 52 63).isLt, toNat_field, toNat_field]
  have := va.isLt
  omega

theorem withinFrame_pageFrame (va : Word) (page : BitVec 52) :
    withinFrame va (.real (page ++ (0 : BitVec 12))) = .real (page ++ field va 52 63) :=
  congrArg (fun x : BitVec 52 => TranslatedAddress.real (x ++ field va 52 63)) (field_append_left page (0 : BitVec 12))

theorem withinFrame_segmentFrame (va : Word) (segment : BitVec 44) :
    withinFrame va (.absolute (segment ++ (0 : BitVec 20))) = .absolute (segment ++ field va 44 63) :=
  congrArg (fun x : BitVec 44 => TranslatedAddress.absolute (x ++ field va 44 63))
    (field_append_left segment (0 : BitVec 20))

theorem withinFrame_own (va : Word) : withinFrame va (.real va) = .real va :=
  congrArg TranslatedAddress.real (page_append_byteIndex va)

/-! ## The effective address-space-control element -/

/-- A fetch and a store of an operand use the same element. -/
theorem effectiveAsce_operand {kind : ReferenceKind} (h : kind ≠ .ifetch) (s : State) (sel : OperandSpace) :
    effectiveAsce s kind sel = effectiveAsce s .fetch sel := by
  cases kind with
  | ifetch => exact absurd rfl h
  | fetch => rfl
  | store => rfl

/-- Settles O42: the cases of the kind of reference, of the operand space and of the address-space control. -/
theorem effectiveAsceSelection : Obligations.EffectiveAsceSelection := by
  unfold Obligations.EffectiveAsceSelection
  intro s sel b
  refine ⟨fun h => if_pos h, fun h => if_neg h, fun kind hk => ?_⟩
  simp only [effectiveAsce_operand hk]
  refine ⟨rfl, rfl, fun h => if_pos h, fun h => ?accessRegister, fun h => ?secondary, fun h => ?home⟩
  case accessRegister => simp [effectiveAsce, arAsce, h]
  case secondary => simp [effectiveAsce, h]
  case home => simp [effectiveAsce, h]

/-! ## The frames of the buffer that may be used -/

theorem FrameCopy.covers_iff (c : FrameCopy) (va : Word) :
    c.covers va = true ↔ c.region = field va 0 32 ∧ c.segment = field va 33 43 ∧
      (c.page = none ∨ c.page = some (pageIndex va)) := by
  simp [FrameCopy.covers, and_assoc]

theorem FrameCopy.answers_iff (c : FrameCopy) (asce va : Word) :
    c.answers asce va = true ↔ c.covers va = true ∧
      if c.common = true then ascePrivateSpace asce = false else c.origin = tableOrigin asce := by
  cases hc : c.common <;> simp [FrameCopy.answers, hc]

/-- Under a table designation a frame answers by its tag, and nothing else does. -/
theorem TlbEntry.frameFor_table {asce : Word} (h : asceRealSpace asce = false) (s : State) (va : Word) (e : TlbEntry)
    (f : Translation) :
    e.frameFor s asce va = some f ↔ ∃ c, e = .frame c ∧ f = c.frame ∧ c.answers asce va = true := by
  cases e with
  | table c => simp [TlbEntry.frameFor]
  | frame c => simp [TlbEntry.frameFor, h, and_comm, eq_comm (a := f)]
  | realSpace c => simp [TlbEntry.frameFor, h]

theorem mem_usableFrames_table {s : State} {asce va : Word} {f : Translation} (h : asceRealSpace asce = false) :
    f ∈ s.usableFrames asce va ↔ ∃ c, .frame c ∈ s.tlb ∧ f = c.frame ∧ c.answers asce va = true := by
  simp only [State.usableFrames, List.mem_filterMap, TlbEntry.frameFor_table h]
  constructor
  · rintro ⟨_, he, c, rfl, hc⟩
    exact ⟨c, he, hc⟩
  · rintro ⟨c, he, hc⟩
    exact ⟨_, he, c, rfl, hc⟩

/-- Under a real-space designation with a valid token the virtual-equals-real entries of that token and page answer. -/
theorem mem_usableFrames_validToken {s : State} {asce va : Word} {f : Translation} (h : asceRealSpace asce = true)
    (ht : tokenValid s asce = true) :
    f ∈ s.usableFrames asce va ↔
      ∃ c, .realSpace c ∈ s.tlb ∧ c.token = tableOrigin asce ∧ c.page = field va 0 51 ∧
        f = ⟨.real (c.page ++ (0 : BitVec 12)), noAttributes⟩ := by
  simp only [State.usableFrames, List.mem_filterMap]
  constructor
  · rintro ⟨e, he, hf⟩
    cases e with
    | table c => cases hf
    | frame c => simp [TlbEntry.frameFor, h, ht] at hf
    | realSpace c =>
      simp only [TlbEntry.frameFor, h, ht, Bool.not_true, Bool.false_or, Bool.true_and, Bool.and_eq_true,
        decide_eq_true_eq, Option.ite_none_right_eq_some, Option.some.injEq] at hf
      obtain ⟨⟨htoken, hpage⟩, rfl⟩ := hf
      exact ⟨c, he, htoken, hpage, rfl⟩
  · rintro ⟨c, he, htoken, hpage, rfl⟩
    exact ⟨_, he, by simp [TlbEntry.frameFor, h, htoken, hpage]⟩

/-- With a token that is not valid every entry but a common segment's frame answers, for its address alone. -/
theorem mem_usableFrames_invalidToken {s : State} {asce va : Word} {f : Translation} (h : asceRealSpace asce = true)
    (ht : tokenValid s asce = false) :
    f ∈ s.usableFrames asce va ↔
      (∃ c, .frame c ∈ s.tlb ∧ c.common = false ∧ f = ⟨c.frame.address, noAttributes⟩) ∨
        ∃ c, .realSpace c ∈ s.tlb ∧ f = ⟨.real (c.page ++ (0 : BitVec 12)), noAttributes⟩ := by
  simp only [State.usableFrames, List.mem_filterMap]
  constructor
  · rintro ⟨e, he, hf⟩
    cases e with
    | table c => cases hf
    | frame c =>
      simp only [TlbEntry.frameFor, h, ht, if_true, Bool.false_or, Option.ite_none_left_eq_some, Option.some.injEq,
        Bool.not_eq_true] at hf
      obtain ⟨hc, rfl⟩ := hf
      exact .inl ⟨c, he, hc, rfl⟩
    | realSpace c =>
      simp only [TlbEntry.frameFor, h, ht, Bool.not_false, Bool.true_or, Bool.and_self, if_true,
        Option.some.injEq] at hf
      exact .inr ⟨c, he, hf.symm⟩
  · rintro (⟨c, he, hc, rfl⟩ | ⟨c, he, rfl⟩)
    · exact ⟨_, he, by simp [TlbEntry.frameFor, h, ht, hc]⟩
    · exact ⟨_, he, by simp [TlbEntry.frameFor, h, ht]⟩

/-! ## The copies of table entries that may stand in -/

theorem TableRequest.answeredBy_iff (q : TableRequest) (ps : Bool) (c : TableCopy) :
    q.answeredBy ps c = true ↔ c.level = q.level ∧ c.index = q.index ∧
      if c.common = true then ps = false ∧ (q.level = .segment ∨ c.origin = q.origin)
      else c.origin = q.origin ∧ c.space = q.space := by
  cases hc : c.common <;> simp [TableRequest.answeredBy, hc, and_assoc]

/-- A copy that is used is in the buffer and may stand in for the entry. -/
theorem pickCopy_some {s : State} {q : TableRequest} {ps : Bool} {c : TableCopy} (h : pickCopy s q ps = some c) :
    .table c ∈ s.tlb ∧ q.answeredBy ps c = true := by
  obtain ⟨e, he, hc⟩ := List.mem_filterMap.mp (pick_mem h)
  cases e with
  | table d =>
    simp only [TableRequest.copyIn, Option.ite_none_right_eq_some, Option.some.injEq] at hc
    obtain ⟨ha, rfl⟩ := hc
    exact ⟨he, ha⟩
  | frame d => cases hc
  | realSpace d => cases hc

/-- Settles O50: each kind of designation and of entry has its own equivalence. -/
theorem bufferMatching : Obligations.BufferMatching := by
  unfold Obligations.BufferMatching
  refine ⟨fun s asce va f h => ?table, fun s asce va f h => ?realSpace, TableRequest.answeredBy_iff⟩
  case table =>
    simp only [mem_usableFrames_table h, FrameCopy.answers_iff, FrameCopy.covers_iff, and_assoc]
    rfl
  case realSpace =>
    dsimp only
    split
    · next ht => exact mem_usableFrames_validToken h ht
    · next ht => exact mem_usableFrames_invalidToken h (Bool.not_eq_true _ ▸ ht)

end Sys2Proof.Machine
end

section
/-! PROOFS. What each part of a translation can answer, and the designations and exceptions that need no table: the
real-space designation (R98), the ASCE-type exception (R100), DAT protection (R128), and what is never answered without
enhanced DAT (R134). -/

namespace Sys2Proof.Machine

/-! ## Translation, from its frame -/

/-- The last step of a translation: a frame with its DAT protection is refused to a store (R128). -/
def checkProtection (isStore : Bool) (va : Word) (f : Translation) : Except ProgramException Translation :=
  if isStore && f.attributes.protect then .error .protection else .ok (f.place va)

/-- The ASCE-type check applies to a table designation alone. -/
theorem translate_asceType {asce va : Word} (hr : asceRealSpace asce = false)
    (h : asceTypeFails (asceDesignation asce) va = true) (s : State) (isStore : Bool) :
    translate s asce va isStore = (.error .asceType, s) := by
  rw [translate, hr, h]
  rfl

/-- Past the ASCE-type check, a translation answers the frame found unless its protection refuses it. -/
theorem translate_fst {asce va : Word}
    (h : asceRealSpace asce = true ∨ asceTypeFails (asceDesignation asce) va = false) (s : State) (isStore : Bool) :
    (translate s asce va isStore).1 = (findFrame asce va ⟨s, []⟩).1.bind (checkProtection isStore va) := by
  have hpast : ¬ (!asceRealSpace asce && asceTypeFails (asceDesignation asce) va) = true := by
    rcases h with h | h <;> simp [h]
  rw [translate, if_neg hpast]
  obtain ⟨_ | f, w⟩ := findFrame asce va ⟨s, []⟩
  · rfl
  · change Prod.fst (if _ then _ else _) = if _ then _ else _
    split <;> rfl

/-- A translation that completes found a frame, and keeps what was formed on the way to it. -/
theorem translate_ok {s t : State} {asce va : Word} {isStore : Bool} {r : Translation}
    (h : translate s asce va isStore = (.ok r, t)) :
    ∃ f w, findFrame asce va ⟨s, []⟩ = (.ok f, w) ∧ (isStore && f.attributes.protect) = false ∧ r = f.place va ∧
      t = { w.state with tlb := w.formed ++ w.state.tlb } := by
  unfold translate at h
  split at h
  · cases h
  split at h
  · cases h
  · next f w hf =>
    split at h
    · cases h
    · next hp =>
      cases h
      exact ⟨f, w, hf, Bool.eq_false_iff.mpr hp, rfl, rfl⟩

/-- Where a frame comes from: the buffer, the real-space designation, or the tables. -/
theorem findFrame_cases (asce va : Word) (w : Walk) :
    (∃ f ∈ w.state.usableFrames asce va, findFrame asce va w = (.ok f, w.drawn)) ∨
      (asceRealSpace asce = true ∧ findFrame asce va w =
        (.ok ⟨.real va, noAttributes⟩, w.drawn.form (.realSpace ⟨tableOrigin asce, field va 0 51⟩))) ∨
      (asceRealSpace asce = false ∧ findFrame asce va w = reachFrame asce va w.drawn) := by
  unfold findFrame
  split
  · next f hf => exact .inl ⟨f, pick_mem hf, rfl⟩
  · split
    · next hr => exact .inr (.inl ⟨hr, rfl⟩)
    · next hr => exact .inr (.inr ⟨Bool.eq_false_iff.mpr hr, rfl⟩)

/-! ## The real-space designation -/

/-- A virtual-equals-real frame that may be used under a valid token gives the virtual address. -/
theorem place_of_usable_realSpace {s : State} {asce va : Word} {f : Translation} (hr : asceRealSpace asce = true)
    (h : s.tlb = [] ∨ tokenValid s asce = true) (hf : f ∈ s.usableFrames asce va) :
    (f.place va).address = .real va := by
  rcases h with h | h
  · rw [State.usableFrames_empty h] at hf
    cases hf
  · obtain ⟨c, -, -, hpage, rfl⟩ := (mem_usableFrames_validToken hr h).mp hf
    rw [hpage]
    exact (withinFrame_pageFrame va _).trans (congrArg _ (page_append_byteIndex va))

/-- Under a real-space designation a frame is found without an access, and no entry's protection, keys or override come
with it (R98, R129). -/
theorem findFrame_realSpace {asce : Word} (hr : asceRealSpace asce = true) (va : Word) (w : Walk) :
    ∃ f v, findFrame asce va w = (.ok f, v) ∧ v.state = w.state.drawn 1 ∧ f.attributes = noAttributes ∧
      (w.state.tlb = [] ∨ tokenValid w.state asce = true → (f.place va).address = .real va) := by
  rcases findFrame_cases asce va w with ⟨f, hf, h⟩ | ⟨-, h⟩ | ⟨hn, -⟩
  · exact ⟨f, _, h, rfl, State.usableFrames_realSpace hr hf, fun hv => place_of_usable_realSpace hr hv hf⟩
  · exact ⟨_, _, h, rfl, rfl, fun _ => withinFrame_own va⟩
  · simp [hr] at hn

/-- Settles O43: the frame found comes without protection, keys and override, and nothing but the count of draws and the
buffer changes. -/
theorem realSpaceDesignation : Obligations.RealSpaceDesignation := by
  unfold Obligations.RealSpaceDesignation
  intro s asce va isStore hr
  obtain ⟨f, w, hf, hw, hatt, hplace⟩ := findFrame_realSpace hr va ⟨s, []⟩
  have ht : translate s asce va isStore =
      (.ok ⟨(f.place va).address, noAttributes⟩, { w.state with tlb := w.formed ++ w.state.tlb }) := by
    have hr' : asceRealSpace asce = true := hr
    simp only [translate, hr', hf, Bool.not_true, Bool.false_and, Bool.false_eq_true, if_false, hatt, noAttributes,
      Bool.and_false, Translation.place]
  refine ⟨_, _, ht, ?mem, ?keys, ?interleaving, ?gprs, ?psw, ?controls, fun h => ⟨hplace h, ?_⟩⟩
  case controls => exact hw ▸ sameControls.refl s
  case mem | keys | interleaving | gprs | psw => exact hw ▸ rfl
  · rw [hplace h]
    rfl

/-! ## One entry of a region, segment or page table -/

/-- What a walk can raise: not the ASCE-type exception, which comes before it, nor that of protection, which comes after
it. -/
def walkException (e : ProgramException) : Prop := e ≠ .asceType ∧ e ≠ .protection

theorem levelException_walkException (level : Nat) : walkException (levelException level) := by
  unfold levelException
  split <;> simp [walkException]

/-- The request for an entry of a region or segment table: it is its own space (R150). -/
def tableRequest (va : Word) (level : Nat) (origin : Word) : TableRequest :=
  ⟨levelAt level, origin, origin, (indexAt level va).toNat⟩

/-- The request for the page-table entry that a segment-table entry leads to. -/
def pageRequest (va : Word) (r : SegmentRead) : TableRequest :=
  ⟨.page, pageTableOrigin r.ste, r.segmentTable, (pageIndex va).toNat⟩

/-- The fetch of an entry of a region or segment table, once no copy is used. -/
def tableEntryFetch (va : Word) (level : Nat) (origin : Word) (w : Walk) : Option Word × Walk :=
  w.drawn.fetch origin ((indexAt level va).setWidth 64 <<< 3)

/-- The fetch of the page-table entry, once no copy is used. -/
def pageEntryFetch (va : Word) (r : SegmentRead) (w : Walk) : Option Word × Walk :=
  w.drawn.fetch (pageTableOrigin r.ste) ((pageIndex va).setWidth 64 <<< 3)

section
variable {va origin : Word} {ps : Bool} {level : Nat} {tf tl : BitVec 2} {w v : Walk}

/-- An entry of a region or segment table that is read is a copy, or is fetched and valid and of its level's type. -/
theorem readTable_ok {e : EntryRead} (h : readTable va ps level origin tf tl w = (.ok e, v)) :
    (∃ c, pickCopy w.state (tableRequest va level origin) ps = some c ∧ e = ⟨c.entry, c.edat⟩ ∧ v = w.drawn) ∨
      (pickCopy w.state (tableRequest va level origin) ps = none ∧
        ∃ u, tableEntryFetch va level origin w = (some e.entry, u) ∧ bitAt e.entry 58 = false ∧
          (field e.entry 60 61).toNat = level ∧ e.edat = w.state.edatApplies ∧
          v = u.form (copyOf w.state (tableRequest va level origin) (level == 0 && bitAt e.entry 59) e.entry)) := by
  unfold readTable at h
  dsimp only at h
  split at h
  · next c hc =>
    cases h
    exact .inl ⟨c, hc, rfl, rfl⟩
  · next hc =>
    refine .inr ⟨hc, ?_⟩
    split at h
    · cases h
    split at h
    · cases h
    · next e u hf =>
      split at h
      · cases h
      · next hi =>
        split at h
        · cases h
        · next ht =>
          cases h
          exact ⟨u, hf, Bool.eq_false_iff.mpr hi, not_not.mp ht, rfl, rfl⟩

theorem readTable_exception {x : ProgramException} (h : (readTable va ps level origin tf tl w).1 = .error x) :
    walkException x := by
  have hlevel := levelException_walkException level
  unfold readTable at h
  dsimp only at h
  split at h
  · cases h
  split at h
  · cases h
    exact hlevel
  split at h
  · cases h
    exact ⟨nofun, nofun⟩
  split at h
  · cases h
    exact hlevel
  split at h
  · cases h
    exact ⟨nofun, nofun⟩
  · cases h

/-- A page-table entry that is read is a copy, or is fetched, valid, and zero in the bits that must be. -/
theorem readPage_ok {r : SegmentRead} {e : EntryRead} (h : readPage va ps r w = (.ok e, v)) :
    (∃ c, pickCopy w.state (pageRequest va r) ps = some c ∧ e = ⟨c.entry, c.edat⟩ ∧ v = w.drawn) ∨
      (pickCopy w.state (pageRequest va r) ps = none ∧
        ∃ u, pageEntryFetch va r w = (some e.entry, u) ∧ bitAt e.entry 53 = false ∧ e.edat = w.state.edatApplies ∧
          v = u.form (copyOf w.state (pageRequest va r) (bitAt r.ste 59) e.entry)) := by
  unfold readPage at h
  dsimp only at h
  split at h
  · next c hc =>
    cases h
    exact .inl ⟨c, hc, rfl, rfl⟩
  · next hc =>
    refine .inr ⟨hc, ?_⟩
    split at h
    · cases h
    · next e u hf =>
      split at h
      · cases h
      · next hi =>
        split at h
        · cases h
        split at h
        · cases h
        · cases h
          exact ⟨u, hf, Bool.eq_false_iff.mpr hi, rfl, rfl⟩

theorem readPage_exception {r : SegmentRead} {x : ProgramException} (h : (readPage va ps r w).1 = .error x) :
    walkException x := by
  unfold readPage at h
  dsimp only at h
  repeat' split at h
  all_goals cases h
  all_goals exact ⟨nofun, nofun⟩

end

/-! ## The walk -/

section
variable {va origin : Word} {ps : Bool} {level : Nat} {tf tl : BitVec 2} {p : Bool} {w v : Walk}

/-- The walk ends at the segment table. -/
theorem walkTables_zero_ok {r : SegmentRead} (h : walkTables va ps 0 origin tf tl p w = (.ok r, v)) :
    ∃ e, readTable va ps 0 origin tf tl w = (.ok e, v) ∧ r = ⟨e.entry, e.edat, p, origin⟩ := by
  rw [walkTables] at h
  split at h
  · cases h
  · next e u he =>
    cases h
    exact ⟨e, he, rfl⟩

/-- Above it, the walk goes on in the table that the entry read designates. -/
theorem walkTables_succ_ok {r : SegmentRead} (h : walkTables va ps (level + 1) origin tf tl p w = (.ok r, v)) :
    ∃ e u, readTable va ps (level + 1) origin tf tl w = (.ok e, u) ∧
      walkTables va ps level (tableOrigin e.entry) (tableOffset e.entry) (tableLength e.entry)
        (p || (e.edat && bitAt e.entry 54)) u = (.ok r, v) := by
  rw [walkTables] at h
  split at h
  · cases h
  · next e u he => exact ⟨e, u, he, h⟩

theorem walkTables_exception {x : ProgramException} (h : (walkTables va ps level origin tf tl p w).1 = .error x) :
    walkException x := by
  induction level generalizing origin tf tl p w with
  | zero =>
    rw [walkTables] at h
    split at h
    · next he =>
      cases h
      exact readTable_exception (congrArg Prod.fst he)
    · cases h
  | succ level ih =>
    rw [walkTables] at h
    split at h
    · next he =>
      cases h
      exact readTable_exception (congrArg Prod.fst he)
    · exact ih h

/-- The entry of the buffer that the frame of an address forms. -/
def frameEntry (asce va ste : Word) (page : Option (BitVec 8)) (f : Translation) : TlbEntry :=
  .frame ⟨tableOrigin asce, field va 0 32, field va 33 43, page, bitAt ste 59, f⟩

/-- A frame that the tables give is a segment frame, or a page frame by a page-table entry read. -/
theorem reachFrame_ok {asce : Word} {f : Translation} (h : reachFrame asce va w = (.ok f, v)) :
    ∃ r u, walkTables va (ascePrivateSpace asce) (asceDesignation asce) (tableOrigin asce) 0 (tableLength asce) false
        w = (.ok r, u) ∧
      (ascePrivateSpace asce && bitAt r.ste 59) = false ∧
      (((r.edat && bitAt r.ste 53) = true ∧ f = segmentFrame r ∧ v = u.form (frameEntry asce va r.ste none f)) ∨
        ∃ e u', readPage va (ascePrivateSpace asce) r u = (.ok e, u') ∧ f = pageFrame r e ∧
          v = u'.form (frameEntry asce va r.ste (some (pageIndex va)) f)) := by
  unfold reachFrame at h
  dsimp only at h
  split at h
  · cases h
  · next r u hw =>
    split at h
    · cases h
    · next hc =>
      refine ⟨r, u, hw, Bool.eq_false_iff.mpr hc, ?_⟩
      split at h
      · next hs =>
        cases h
        exact .inl ⟨hs, rfl, rfl⟩
      · split at h
        · cases h
        · next e u' he =>
          cases h
          exact .inr ⟨e, u', he, rfl, rfl⟩

theorem reachFrame_exception {asce : Word} {x : ProgramException} (h : (reachFrame asce va w).1 = .error x) :
    walkException x := by
  unfold reachFrame at h
  dsimp only at h
  split at h
  · next he =>
    cases h
    exact walkTables_exception (congrArg Prod.fst he)
  · split at h
    · cases h
      exact ⟨nofun, nofun⟩
    split at h
    · cases h
    split at h
    · next he =>
      cases h
      exact readPage_exception (congrArg Prod.fst he)
    · cases h

theorem findFrame_exception {asce : Word} {x : ProgramException} (h : (findFrame asce va w).1 = .error x) :
    walkException x := by
  rcases findFrame_cases asce va w with ⟨f, -, hf⟩ | ⟨-, hf⟩ | ⟨-, hf⟩ <;> rw [hf] at h
  · cases h
  · cases h
  · exact reachFrame_exception h

end

/-! ## The ASCE-type exception and DAT protection -/

theorem asceTypeFails_iff (dt : Nat) (va : Word) :
    asceTypeFails dt va = true ↔
      (dt < 3 ∧ field va 0 10 ≠ 0) ∨ (dt < 2 ∧ field va 11 21 ≠ 0) ∨ (dt < 1 ∧ field va 22 32 ≠ 0) := by
  simp [asceTypeFails, or_assoc]

/-- Past the ASCE-type check, an exception of a translation is one of the walk, or the protection of a store. -/
theorem translate_exception {s : State} {asce va : Word} {isStore : Bool} {x : ProgramException}
    (hpast : asceRealSpace asce = true ∨ asceTypeFails (asceDesignation asce) va = false)
    (h : (translate s asce va isStore).1 = .error x) : walkException x ∨ (isStore = true ∧ x = .protection) := by
  rw [translate_fst hpast] at h
  cases hf : (findFrame asce va ⟨s, []⟩).1 with
  | error e =>
    rw [hf] at h
    cases h
    exact .inl (findFrame_exception hf)
  | ok f =>
    rw [hf] at h
    change checkProtection isStore va f = _ at h
    unfold checkProtection at h
    split at h
    · next hp =>
      cases h
      exact .inr ⟨(Bool.and_eq_true _ _ ▸ hp).1, rfl⟩
    · cases h

/-- Settles O44: the check comes first, and what follows it raises other exceptions. -/
theorem asceTypeException : Obligations.AsceTypeException := by
  unfold Obligations.AsceTypeException
  intro s asce va isStore hr
  dsimp only
  split
  · next h => exact translate_asceType hr ((asceTypeFails_iff _ _).mpr h) s isStore
  · next h =>
    intro hx
    have hpast : asceTypeFails (asceDesignation asce) va = false :=
      Bool.eq_false_iff.mpr fun hf => h ((asceTypeFails_iff _ _).mp hf)
    rcases translate_exception (.inr hpast) hx with ⟨hne, -⟩ | ⟨-, he⟩
    · exact hne rfl
    · cases he

/-- A fetch is never refused by DAT protection. -/
theorem translate_fetch_ne_protection (s : State) (asce va : Word) :
    (translate s asce va false).1 ≠ .error .protection := by
  intro h
  by_cases hpast : asceRealSpace asce = true ∨ asceTypeFails (asceDesignation asce) va = false
  · rcases translate_exception hpast h with ⟨-, hne⟩ | ⟨hst, -⟩
    · exact hne rfl
    · cases hst
  · simp only [not_or, Bool.not_eq_true, Bool.not_eq_false] at hpast
    rw [translate_asceType hpast.1 hpast.2] at h
    cases h

/-! ## Without enhanced DAT -/

section
variable {va origin : Word} {ps : Bool} {level : Nat} {tf tl : BitVec 2} {p : Bool} {w v : Walk}

/-- From an empty buffer no entry is read under another setting of enhanced DAT than the present one. -/
theorem readTable_edat {e : EntryRead} (ht : w.state.tlb = [])
    (h : readTable va ps level origin tf tl w = (.ok e, v)) : e.edat = w.state.edatApplies := by
  rcases readTable_ok h with ⟨c, hc, -⟩ | ⟨-, _, -, -, -, hedat, -⟩
  · rw [pickCopy_empty ht] at hc
    cases hc
  · exact hedat

theorem readPage_edat {r : SegmentRead} {e : EntryRead} (ht : w.state.tlb = [])
    (h : readPage va ps r w = (.ok e, v)) : e.edat = w.state.edatApplies := by
  rcases readPage_ok h with ⟨c, hc, -⟩ | ⟨-, _, -, -, hedat, -⟩
  · rw [pickCopy_empty ht] at hc
    cases hc
  · exact hedat

theorem accessKeeps.edatApplies {s t : State} (h : accessKeeps s t) : t.edatApplies = s.edatApplies := by
  obtain ⟨⟨-, -, ⟨hcrs, -, -, hinst⟩, -⟩, -⟩ := h
  simp only [State.edatApplies, State.cr, hcrs, hinst]

theorem accessKeeps.tlb {s t : State} (h : accessKeeps s t) : t.tlb = s.tlb := by
  obtain ⟨⟨-, -, -, htlb, -⟩, -⟩ := h
  exact htlb

theorem readTable_state {x : Except ProgramException EntryRead} (h : readTable va ps level origin tf tl w = (x, v)) :
    accessKeeps w.state v.state := by
  have hk := readTable_keeps va ps level origin tf tl w
  rwa [h] at hk

theorem walkTables_state {x : Except ProgramException SegmentRead}
    (h : walkTables va ps level origin tf tl p w = (x, v)) :
    accessKeeps w.state v.state := by
  have hk := walkTables_keeps va ps level origin tf tl p w
  rwa [h] at hk

theorem walkTables_edat {r : SegmentRead} (ht : w.state.tlb = [])
    (h : walkTables va ps level origin tf tl p w = (.ok r, v)) : r.edat = w.state.edatApplies := by
  induction level generalizing origin tf tl p w with
  | zero =>
    obtain ⟨e, he, rfl⟩ := walkTables_zero_ok h
    exact readTable_edat ht he
  | succ level ih =>
    obtain ⟨e, u, he, hw⟩ := walkTables_succ_ok h
    have hu := readTable_state he
    exact (ih (hu.tlb.trans ht) hw).trans hu.edatApplies

end

/-- Without enhanced DAT and with an empty buffer, the tables give page frames without an override (R134). -/
theorem reachFrame_withoutEdat {asce va : Word} {f : Translation} {w v : Walk} (ht : w.state.tlb = [])
    (hd : w.state.edatApplies = false) (h : reachFrame asce va w = (.ok f, v)) :
    (∃ ra, f.address = .real ra) ∧ f.attributes.steKey = none ∧ f.attributes.co = false := by
  obtain ⟨r, u, hw, -, ⟨hs, -⟩ | ⟨e, u', he, rfl, -⟩⟩ := reachFrame_ok h
  · simp [walkTables_edat ht hw, hd] at hs
  · have hu := walkTables_state hw
    have hedat : e.edat = false := (readPage_edat (hu.tlb.trans ht) he).trans (hu.edatApplies.trans hd)
    refine ⟨⟨_, rfl⟩, rfl, ?_⟩
    change (e.edat && _) = false
    rw [hedat, Bool.false_and]

/-- Settles O48: the frame is the address itself or comes from the tables. -/
theorem withoutEnhancedDat : Obligations.WithoutEnhancedDat := by
  unfold Obligations.WithoutEnhancedDat
  intro s t asce va isStore r ht hd h
  obtain ⟨f, w, hf, -, rfl, -⟩ := translate_ok h
  rcases findFrame_cases asce va ⟨s, []⟩ with ⟨g, hg, -⟩ | ⟨-, he⟩ | ⟨-, he⟩
  · rw [State.usableFrames_empty ht] at hg
    cases hg
  · cases he.symm.trans hf
    exact ⟨⟨_, rfl⟩, rfl, rfl⟩
  · obtain ⟨⟨ra, hra⟩, hkey, hco⟩ := reachFrame_withoutEdat (w := Walk.drawn ⟨s, []⟩) ht hd (he.symm.trans hf)
    exact ⟨⟨field ra 0 51 ++ field va 52 63, congrArg (withinFrame va) hra⟩, hkey, hco⟩

end Sys2Proof.Machine
end

section
/-! PROOFS. Where a table entry lies and how it is fetched (R104 to R106), and a translation that reads storage alone:
the walk as a function of what storage holds, and the exceptions and results that follow from it (R101 to R129). -/

namespace Sys2Proof.Machine

/-! ## The bytes of a table entry -/

theorem beNat_lt (bs : List Byte) : beNat bs < 256 ^ bs.length := by
  induction bs using List.reverseRecOn with
  | nil => simp [beNat]
  | append_singleton bs b ih =>
    rw [beNat_append, List.length_append, List.length_singleton, pow_succ]
    have := b.isLt
    omega

/-- The bytes of a number, leftmost first, are its digits. -/
theorem beNat_digit (bs : List Byte) {i : Nat} (h : i < bs.length) :
    beNat bs / 256 ^ (bs.length - 1 - i) % 256 = bs[i].toNat := by
  induction bs using List.reverseRecOn with
  | nil => cases h
  | append_singleton bs b ih =>
    rw [beNat_append]
    simp only [List.length_append, List.length_singleton] at h ⊢
    have hb := b.isLt
    by_cases hi : i < bs.length
    · rw [List.getElem_append_left hi, ← ih hi, show bs.length + 1 - 1 - i = bs.length - 1 - i + 1 by omega, pow_succ',
        ← Nat.div_div_eq_div_mul, show (beNat bs * 256 + b.toNat) / 256 = beNat bs by omega]
    · obtain rfl : i = bs.length := by omega
      simp only [Nat.add_sub_cancel, Nat.sub_self, pow_zero, Nat.div_one, List.getElem_concat_length]
      omega

/-- The bytes of a doubleword, leftmost first, are its bytes. -/
theorem field_wordOf_bytes {bs : List Byte} (h8 : bs.length = 8) {i : Nat} (hi : i < 8) :
    (field (wordOf 64 bs) (8 * i) (8 * i + 7)).toNat = (bs[i]'(h8 ▸ hi)).toNat := by
  have hlt : beNat bs < 2 ^ 64 := by
    have := beNat_lt bs
    rw [h8] at this
    omega
  have hdigit := beNat_digit bs (h8 ▸ hi)
  rw [toNat_field, wordOf, BitVec.toNat_ofNat, Nat.mod_eq_of_lt hlt, ← hdigit, h8, show (256 : Nat) = 2 ^ 8 from rfl,
    ← pow_mul, show 64 - 1 - (8 * i + 7) = 8 * (8 - 1 - i) by omega, show 8 * i + 7 - 8 * i + 1 = 8 by omega]

/-- An aligned doubleword lies in one block. -/
theorem availableMany_doubleword {s : State} {aa : Word} (h8 : aa.toNat % 8 = 0) :
    s.availableMany aa 8 = s.available aa := by
  cases ha : s.available aa with
  | true => exact State.availableMany_of_block ha (by omega)
  | false =>
    rw [Bool.eq_false_iff] at ha ⊢
    exact fun h => ha (State.availableMany_first (by omega) h)

/-- The fetch of an aligned entry (R105, R106). -/
theorem tableFetch_aligned {s : State} {origin offset : Word} (h8 : (tableAddress s origin offset).toNat % 8 = 0) :
    (s.available (tableAddress s origin offset) = false → tableFetch s origin offset = none) ∧
      (s.available (tableAddress s origin offset) = true → ∃ e, tableFetch s origin offset = some e ∧
        ∀ i : Nat, i < 8 →
          (field e (8 * i) (8 * i + 7)).toNat = (s.byte ((tableAddress s origin offset).toNat + i)).toNat) := by
  simp only [tableFetch, availableMany_doubleword h8]
  refine ⟨fun ha => by simp [ha], fun ha => ⟨_, if_pos ha, fun i hi => ?_⟩⟩
  rw [field_wordOf_bytes (Memory.length_readMany ..) hi]
  simp [Memory.readMany, State.byte]

theorem toNat_tableOrigin (e : Word) : (tableOrigin e).toNat = e.toNat / 4096 * 4096 := by
  rw [tableOrigin, toNat_append_zeros, toNat_field]
  have := e.isLt
  omega

theorem toNat_pageTableOrigin (e : Word) : (pageTableOrigin e).toNat = e.toNat / 2048 * 2048 := by
  rw [pageTableOrigin, toNat_append_zeros, toNat_field]
  have := e.isLt
  omega

/-- The offset of an entry is eight times its index. -/
theorem toNat_entryOffset {n : Nat} (hn : n ≤ 61) (idx : BitVec n) : (idx.setWidth 64 <<< 3).toNat = 8 * idx.toNat := by
  have hlt : idx.toNat < 2 ^ 61 := lt_of_lt_of_le idx.isLt (Nat.pow_le_pow_right (by omega) hn)
  rw [BitVec.toNat_shiftLeft, BitVec.toNat_setWidth, Nat.shiftLeft_eq]
  omega

/-- A walk's fetch answers what storage holds after the gap before it, and records at most a reference. -/
theorem Walk.fetch_records (w : Walk) (origin offset : Word) :
    (w.fetch origin offset).1 = tableFetch w.state.beforeAccess origin offset ∧
      sameStorage w.state.beforeAccess (w.fetch origin offset).2.state ∧
      ∀ b, ((w.fetch origin offset).2.state.key b).c = (w.state.beforeAccess.key b).c := by
  simp only [Walk.fetch]
  split
  · next h => exact ⟨h.symm, fun _ => rfl, fun _ => rfl⟩
  · next h => exact ⟨h.symm, fun _ => rfl, recordReference_change _ _⟩

/-! ## What a walk reads of a state -/

/-- The two states hold the same storage, and the same controls to read it under. -/
def sameTables (s t : State) : Prop := t.mem = s.mem ∧ sameControls s t

theorem accessKeeps.sameTables {s t : State} (h : accessKeeps s t) (hi : s.interleaving = []) : sameTables s t := by
  obtain ⟨⟨-, -, hcontrols, -⟩, -, -, -, halone⟩ := h
  obtain ⟨-, hmem, -⟩ := halone hi
  exact ⟨hmem, hcontrols⟩

theorem sameTables.edatApplies {s t : State} (h : sameTables s t) : t.edatApplies = s.edatApplies := by
  obtain ⟨-, hcrs, -, -, hinst⟩ := h
  simp only [State.edatApplies, State.cr, hcrs, hinst]

theorem sameTables.tableAddress {s t : State} (h : sameTables s t) (origin offset : Word) :
    tableAddress t origin offset = tableAddress s origin offset := by
  obtain ⟨-, -, -, hprefix, hinst⟩ := h
  rw [Machine.tableAddress, Machine.tableAddress, hprefix, hinst]

theorem sameTables.tableFetch {s t : State} (h : sameTables s t) (origin offset : Word) :
    tableFetch t origin offset = tableFetch s origin offset := by
  have ha := h.tableAddress origin offset
  obtain ⟨hmem, -, -, -, hinst⟩ := h
  unfold Machine.tableFetch State.availableMany
  rw [ha, hmem, hinst]

theorem sameTables.entryAt {s t : State} (h : sameTables s t) (va : Word) (level : Nat) (origin : Word)
    (tf tl : BitVec 2) : t.entryAt va level origin tf tl = s.entryAt va level origin tf tl := by
  simp only [State.entryAt, h.tableFetch]

theorem sameTables.pageEntryAt {s t : State} (h : sameTables s t) (va ste : Word) :
    t.pageEntryAt va ste = s.pageEntryAt va ste := h.tableFetch ..

/-! ## Translation from storage alone -/

/-- The segment-table entry that storage leads to from a table of a level. -/
def State.segmentFrom (s : State) (va : Word) :
    Nat → Word → BitVec 2 → BitVec 2 → Bool → Except ProgramException SegmentRead
  | 0, origin, tf, tl, p => (s.entryAt va 0 origin tf tl).map fun e => ⟨e, s.edatApplies, p, origin⟩
  | level + 1, origin, tf, tl, p =>
    (s.entryAt va (level + 1) origin tf tl).bind fun e =>
      s.segmentFrom va level (tableOrigin e) (tableOffset e) (tableLength e) (p || (s.edatApplies && bitAt e 54))

/-- The page-table entry that a segment-table entry leads to, with its checks in order (R124, R125). -/
def State.pageFrom (s : State) (va ste : Word) : Except ProgramException Word :=
  match s.pageEntryAt va ste with
  | none => .error .addressing
  | some pte =>
    if bitAt pte 53 then .error .pageTranslation
    else if bitAt pte 52 || (!s.edatApplies && bitAt pte 55) then .error .translationSpecification
    else .ok pte

/-- The frame that a segment-table entry leads to (R121, R126, R127). -/
def State.frameBelow (s : State) (asce va : Word) (r : SegmentRead) : Except ProgramException Translation :=
  if ascePrivateSpace asce && bitAt r.ste 59 then .error .translationSpecification
  else if r.edat && bitAt r.ste 53 then .ok (segmentFrame r)
  else (s.pageFrom va r.ste).map fun e => pageFrame r ⟨e, s.edatApplies⟩

/-- The frame that a designation leads to. -/
def State.frameFrom (s : State) (asce va : Word) : Except ProgramException Translation :=
  if asceRealSpace asce then .ok ⟨.real va, noAttributes⟩
  else
    (s.segmentFrom va (asceDesignation asce) (tableOrigin asce) 0 (tableLength asce) false).bind (s.frameBelow asce va)

/-- The translation of an address by what storage holds. -/
def State.translationFrom (s : State) (asce va : Word) (isStore : Bool) : Except ProgramException Translation :=
  if !asceRealSpace asce && asceTypeFails (asceDesignation asce) va then .error .asceType
  else (s.frameFrom asce va).bind (checkProtection isStore va)

/-- A page-table entry that passes the checks is what storage holds. -/
theorem pageEntryAt_of_pageFrom {s : State} {va ste e : Word} (h : s.pageFrom va ste = .ok e) :
    s.pageEntryAt va ste = some e := by
  unfold State.pageFrom at h
  split at h
  · cases h
  · next pte hpte =>
    split at h
    · cases h
    split at h
    · cases h
    · cases h
      exact hpte

theorem checkProtection_ok_iff (isStore : Bool) (va : Word) (f r : Translation) :
    checkProtection isStore va f = .ok r ↔ (isStore && f.attributes.protect) = false ∧ f.place va = r := by
  unfold checkProtection
  cases isStore && f.attributes.protect <;> simp

theorem translationFrom_past {asce va : Word}
    (h : asceRealSpace asce = true ∨ asceTypeFails (asceDesignation asce) va = false) (s : State) (isStore : Bool) :
    s.translationFrom asce va isStore = (s.frameFrom asce va).bind (checkProtection isStore va) :=
  if_neg (by rcases h with h | h <;> simp [h])

/-- What storage must say for a translation to complete. -/
theorem translationFrom_ok {s : State} {asce va : Word} {isStore : Bool} {r : Translation}
    (h : s.translationFrom asce va isStore = .ok r) :
    (asceRealSpace asce = true ∨ asceTypeFails (asceDesignation asce) va = false) ∧
      ∃ f, s.frameFrom asce va = .ok f ∧ (isStore && f.attributes.protect) = false ∧ r = f.place va := by
  have hpast : asceRealSpace asce = true ∨ asceTypeFails (asceDesignation asce) va = false := by
    by_contra hn
    simp only [not_or, Bool.not_eq_true, Bool.not_eq_false] at hn
    simp [State.translationFrom, hn] at h
  refine ⟨hpast, ?_⟩
  rw [translationFrom_past hpast] at h
  cases hf : s.frameFrom asce va with
  | error e => rw [hf] at h; cases h
  | ok f =>
    rw [hf] at h
    obtain ⟨hp, hr⟩ := (checkProtection_ok_iff ..).mp h
    exact ⟨f, rfl, hp, hr.symm⟩

theorem sameTables.segmentFrom {s t : State} (h : sameTables s t) (va : Word) (level : Nat) (origin : Word)
    (tf tl : BitVec 2) (p : Bool) : t.segmentFrom va level origin tf tl p = s.segmentFrom va level origin tf tl p := by
  induction level generalizing origin tf tl p with
  | zero => simp only [State.segmentFrom, h.entryAt, h.edatApplies]
  | succ level ih => simp only [State.segmentFrom, h.entryAt, h.edatApplies, ih]

theorem sameTables.frameBelow {s t : State} (h : sameTables s t) (asce va : Word) (r : SegmentRead) :
    t.frameBelow asce va r = s.frameBelow asce va r := by
  simp only [State.frameBelow, State.pageFrom, h.pageEntryAt, h.edatApplies]

theorem sameTables.translationFrom {s t : State} (h : sameTables s t) (asce va : Word) (isStore : Bool) :
    t.translationFrom asce va isStore = s.translationFrom asce va isStore := by
  have hf : t.frameBelow asce va = s.frameBelow asce va := funext (h.frameBelow asce va)
  simp only [State.translationFrom, State.frameFrom, h.segmentFrom, hf]

/-- A store's translation is a fetch's, but for the protection exception (R128). -/
theorem translationFrom_store (s : State) (asce va : Word) :
    s.translationFrom asce va true =
      match s.translationFrom asce va false with
      | .ok r => if r.attributes.protect then .error .protection else .ok r
      | .error e => .error e := by
  unfold State.translationFrom
  split
  · rfl
  · cases s.frameFrom asce va <;> rfl

/-! ## A walk whose buffer holds nothing stale answers from storage -/

/-- An empty buffer holds nothing stale. -/
theorem State.coherentAt_empty {s : State} (h : s.tlb = []) (asce va : Word) : s.coherentAt asce va := by
  refine ⟨?tables, ?pages, ?frames⟩
  case tables =>
    intro _ _ _ _ _ _ c _ _ hc
    rw [h] at hc
    cases hc
  case pages =>
    intro _ _ _ _ c _ _ hc
    rw [h] at hc
    cases hc
  case frames =>
    intro f _ hf
    rw [State.usableFrames_empty h] at hf
    cases hf

/-- A walk that its accesses brought here from a state in which no other agent acts. -/
def Walk.aloneFrom (s : State) (w : Walk) : Prop := accessKeeps s w.state ∧ s.interleaving = []

theorem Walk.aloneFrom.drawn {s : State} {w : Walk} (h : w.aloneFrom s) : w.drawn.aloneFrom s :=
  ⟨h.1.trans w.drawn_keeps, h.2⟩

theorem Walk.aloneFrom.sameTables {s : State} {w : Walk} (h : w.aloneFrom s) : sameTables s w.state :=
  h.1.sameTables h.2

/-- A fetch of a walk left alone answers what storage holds. -/
theorem Walk.aloneFrom.fetch {s : State} {w : Walk} (h : w.aloneFrom s) (origin offset : Word) :
    (w.fetch origin offset).1 = tableFetch s origin offset :=
  (Walk.fetch_alone (h.1.alone h.2) origin offset).trans (h.sameTables.tableFetch origin offset)

theorem outsideTable_iff (tf tl : BitVec 2) (idx : BitVec 11) :
    outsideTable tf tl idx = true ↔ (field idx 0 1).toNat < tf.toNat ∨ tl.toNat < (field idx 0 1).toNat := by
  simp [outsideTable]

/-- A region- or segment-table entry is read as storage holds it, if a copy used agrees with that. -/
theorem readTable_alone {s : State} {w : Walk} (hw : w.aloneFrom s) (va : Word) (ps : Bool) (level : Nat)
    (origin : Word) (tf tl : BitVec 2)
    (hcopy : ∀ c, pickCopy w.state (tableRequest va level origin) ps = some c →
      s.entryAt va level origin tf tl = .ok c.entry ∧ c.edat = s.edatApplies) :
    (readTable va ps level origin tf tl w).1 = (s.entryAt va level origin tf tl).map fun e => ⟨e, s.edatApplies⟩ := by
  unfold readTable
  dsimp only
  split
  · next c hc =>
    obtain ⟨he, hd⟩ := hcopy c hc
    rw [he, hd]
    rfl
  · have hf := hw.drawn.fetch origin ((indexAt level va).setWidth 64 <<< 3)
    have hd := hw.sameTables.edatApplies
    simp only [State.entryAt, outsideTable_iff]
    split
    · rfl
    · rw [← hf]
      obtain ⟨_ | e, u⟩ := w.drawn.fetch origin ((indexAt level va).setWidth 64 <<< 3)
      · rfl
      · dsimp only
        split
        · rfl
        split
        · rfl
        · rw [hd]
          rfl

/-- The same of a page-table entry. -/
theorem readPage_alone {s : State} {w : Walk} (hw : w.aloneFrom s) (va : Word) (ps : Bool) (r : SegmentRead)
    (hcopy : ∀ c, pickCopy w.state (pageRequest va r) ps = some c →
      s.pageFrom va r.ste = .ok c.entry ∧ c.edat = s.edatApplies) :
    (readPage va ps r w).1 = (s.pageFrom va r.ste).map fun e => ⟨e, s.edatApplies⟩ := by
  unfold readPage
  dsimp only
  split
  · next c hc =>
    obtain ⟨he, hd⟩ := hcopy c hc
    rw [he, hd]
    rfl
  · have hf : _ = s.pageEntryAt va r.ste :=
      hw.drawn.fetch (pageTableOrigin r.ste) ((pageIndex va).setWidth 64 <<< 3)
    have hd := hw.sameTables.edatApplies
    rw [State.pageFrom, ← hf]
    obtain ⟨_ | e, u⟩ := w.drawn.fetch (pageTableOrigin r.ste) ((pageIndex va).setWidth 64 <<< 3)
    · rfl
    · dsimp only
      split
      · rfl
      · rw [hd]
        cases bitAt e 52 <;> cases !s.edatApplies && bitAt e 55 <;> rfl

/-! ## The tables that storage leads to -/

theorem except_ok_of_bind {ε α β : Type} {x : Except ε α} {f : α → Except ε β} {b : β} (h : x.bind f = .ok b) :
    ∃ a, x = .ok a := by
  cases x with
  | error e => cases h
  | ok a => exact ⟨a, rfl⟩

theorem except_ok_of_map {ε α β : Type} {x : Except ε α} {f : α → β} {b : β} (h : x.map f = .ok b) :
    ∃ a, x = .ok a := by
  cases x with
  | error e => cases h
  | ok a => exact ⟨a, rfl⟩

/-- Storage leads to a segment-table entry only through an entry of each table. -/
theorem entryAt_ok_of_segmentFrom {s : State} {va : Word} {level : Nat} {origin : Word} {tf tl : BitVec 2} {p : Bool}
    {r : SegmentRead} (h : s.segmentFrom va level origin tf tl p = .ok r) :
    ∃ e, s.entryAt va level origin tf tl = .ok e := by
  cases level with
  | zero =>
    rw [State.segmentFrom] at h
    cases he : s.entryAt va 0 origin tf tl with
    | error x => rw [he] at h; cases h
    | ok e => exact ⟨e, rfl⟩
  | succ level =>
    rw [State.segmentFrom] at h
    exact except_ok_of_bind h

/-- An address that passes the ASCE-type check is led to the table that the designation names. -/
theorem State.Reaches.of_typePasses (s : State) {asce va : Word} (h : asceTypeFails (asceDesignation asce) va = false) :
    s.Reaches asce va (asceDesignation asce) (tableOrigin asce) 0 (tableLength asce) false := by
  have hn := mt (asceTypeFails_iff (asceDesignation asce) va).mpr (Bool.eq_false_iff.mp h)
  simp only [not_or, not_and, not_not] at hn
  obtain ⟨third, second, first⟩ := hn
  exact .designated third second first

section
variable {s : State} {asce va : Word} {level : Nat} {origin : Word} {tf tl : BitVec 2} {p : Bool}

/-- An address that is led to a table passes the ASCE-type check. -/
theorem State.Reaches.typePasses (h : s.Reaches asce va level origin tf tl p) :
    asceTypeFails (asceDesignation asce) va = false := by
  induction h with
  | designated third second first =>
    refine Bool.eq_false_iff.mpr fun hf => ?_
    rcases (asceTypeFails_iff _ _).mp hf with ⟨hd, hne⟩ | ⟨hd, hne⟩ | ⟨hd, hne⟩
    · exact hne (third hd)
    · exact hne (second hd)
    · exact hne (first hd)
  | byEntry _ _ ih => exact ih

/-- Where storage leads to a table, the walk from the designation is the walk from that table. -/
theorem State.Reaches.segmentFrom_eq (h : s.Reaches asce va level origin tf tl p) :
    s.segmentFrom va (asceDesignation asce) (tableOrigin asce) 0 (tableLength asce) false =
      s.segmentFrom va level origin tf tl p := by
  induction h with
  | designated => rfl
  | byEntry _ entry ih => rw [ih, State.segmentFrom, entry]; rfl

theorem leadsTo_of_segmentFrom {r : SegmentRead} (hr : s.Reaches asce va level origin tf tl p)
    (h : s.segmentFrom va level origin tf tl p = .ok r) :
    s.leadsTo asce va r.segmentTable r.protect r.ste ∧ r.edat = s.edatApplies := by
  induction level generalizing origin tf tl p with
  | zero =>
    obtain ⟨e, he⟩ := entryAt_ok_of_segmentFrom h
    rw [State.segmentFrom, he] at h
    cases h
    exact ⟨⟨tf, tl, hr, he⟩, rfl⟩
  | succ level ih =>
    obtain ⟨e, he⟩ := entryAt_ok_of_segmentFrom h
    rw [State.segmentFrom, he] at h
    exact ih (hr.byEntry he) h

end

theorem walkTables_zero_fst (va : Word) (ps : Bool) (origin : Word) (tf tl : BitVec 2) (p : Bool) (w : Walk) :
    (walkTables va ps 0 origin tf tl p w).1 =
      (readTable va ps 0 origin tf tl w).1.map fun e => ⟨e.entry, e.edat, p, origin⟩ := by
  rw [walkTables]
  obtain ⟨_ | e, u⟩ := readTable va ps 0 origin tf tl w <;> rfl

section
variable {s : State} {asce va : Word} (hc : s.coherentAt asce va)
include hc

/-- A copy used for a reached table agrees with storage where storage holds an entry, and from an empty buffer none is
used. -/
theorem State.coherentAt.tableCopy {level : Nat} {origin : Word} {tf tl : BitVec 2} {p : Bool} {w : Walk}
    (hr : s.Reaches asce va level origin tf tl p) (hw : w.aloneFrom s)
    (hok : s.tlb = [] ∨ ∃ e, s.entryAt va level origin tf tl = .ok e) {c : TableCopy}
    (h : pickCopy w.state (tableRequest va level origin) (ascePrivateSpace asce) = some c) :
    s.entryAt va level origin tf tl = .ok c.entry ∧ c.edat = s.edatApplies := by
  obtain ⟨hmem, hans⟩ := pickCopy_some h
  rw [hw.1.tlb] at hmem
  rcases hok with h0 | ⟨e, he⟩
  · rw [h0] at hmem
    cases hmem
  · obtain ⟨rfl, hd⟩ := hc.1 level origin tf tl p e c hr he hmem hans
    exact ⟨he, hd⟩

/-- The same of a copy used for a page-table entry. -/
theorem State.coherentAt.pageCopy {r : SegmentRead} {p : Bool} {w : Walk}
    (hl : s.leadsTo asce va r.segmentTable p r.ste) (hw : w.aloneFrom s)
    (hok : s.tlb = [] ∨ ∃ e, s.pageFrom va r.ste = .ok e) {c : TableCopy}
    (h : pickCopy w.state (pageRequest va r) (ascePrivateSpace asce) = some c) :
    s.pageFrom va r.ste = .ok c.entry ∧ c.edat = s.edatApplies := by
  obtain ⟨hmem, hans⟩ := pickCopy_some h
  rw [hw.1.tlb] at hmem
  rcases hok with h0 | ⟨e, he⟩
  · rw [h0] at hmem
    cases hmem
  · obtain ⟨rfl, hd⟩ := hc.2.1 r.segmentTable p r.ste e c hl (pageEntryAt_of_pageFrom he) hmem hans
    exact ⟨he, hd⟩

/-- An entry of a reached table is read as storage holds it. -/
theorem readTable_reached {level : Nat} {origin : Word} {tf tl : BitVec 2} {p : Bool} {w : Walk}
    (hr : s.Reaches asce va level origin tf tl p) (hw : w.aloneFrom s)
    (hok : s.tlb = [] ∨ ∃ r, s.segmentFrom va level origin tf tl p = .ok r) :
    (readTable va (ascePrivateSpace asce) level origin tf tl w).1 =
      (s.entryAt va level origin tf tl).map fun e => ⟨e, s.edatApplies⟩ :=
  readTable_alone hw va _ level origin tf tl fun _ =>
    hc.tableCopy hr hw (hok.imp_right fun ⟨_, h⟩ => entryAt_ok_of_segmentFrom h)

/-- The walk from a reached table ends as storage says, where storage leads to an entry or the buffer is empty. -/
theorem walkTables_alone {level : Nat} {origin : Word} {tf tl : BitVec 2} {p : Bool} {w : Walk}
    (hr : s.Reaches asce va level origin tf tl p) (hw : w.aloneFrom s)
    (hok : s.tlb = [] ∨ ∃ r, s.segmentFrom va level origin tf tl p = .ok r) :
    (walkTables va (ascePrivateSpace asce) level origin tf tl p w).1 = s.segmentFrom va level origin tf tl p := by
  have hread := readTable_reached hc hr hw hok
  induction level generalizing origin tf tl p w with
  | zero =>
    rw [walkTables_zero_fst, hread, State.segmentFrom]
    cases s.entryAt va 0 origin tf tl <;> rfl
  | succ level ih =>
    rw [walkTables, State.segmentFrom]
    rcases hx : readTable va (ascePrivateSpace asce) (level + 1) origin tf tl w with ⟨x, u⟩
    rw [hx] at hread
    cases he : s.entryAt va (level + 1) origin tf tl with
    | error e =>
      rw [he] at hread
      obtain rfl : x = .error e := hread
      rfl
    | ok e =>
      rw [he] at hread
      obtain rfl : x = .ok ⟨e, s.edatApplies⟩ := hread
      have hu : u.aloneFrom s := ⟨hw.1.trans (readTable_state hx), hw.2⟩
      have hok' := hok.imp_right fun ⟨r, h⟩ => Exists.intro r (by rwa [State.segmentFrom, he] at h)
      exact ih (hr.byEntry he) hu hok' (readTable_reached hc (hr.byEntry he) hu hok')

/-- Below a segment-table entry that storage leads to, the walk ends as storage says. -/
theorem readPage_reached {r : SegmentRead} {p : Bool} {w : Walk} (hl : s.leadsTo asce va r.segmentTable p r.ste)
    (hw : w.aloneFrom s) (hok : s.tlb = [] ∨ ∃ e, s.pageFrom va r.ste = .ok e) :
    (readPage va (ascePrivateSpace asce) r w).1 = (s.pageFrom va r.ste).map fun e => ⟨e, s.edatApplies⟩ :=
  readPage_alone hw va _ r fun _ => hc.pageCopy hl hw hok

/-- The walk from a table designation ends as storage says. -/
theorem reachFrame_alone {w : Walk} (hreal : asceRealSpace asce = false)
    (hpast : asceTypeFails (asceDesignation asce) va = false) (hw : w.aloneFrom s)
    (hok : s.tlb = [] ∨ ∃ f, s.frameFrom asce va = .ok f) :
    (reachFrame asce va w).1 = s.frameFrom asce va := by
  have hr := State.Reaches.of_typePasses s hpast
  have hfrom : s.frameFrom asce va = _ := if_neg (Bool.eq_false_iff.mp hreal)
  rw [hfrom] at hok ⊢
  have hwalk := walkTables_alone hc hr hw (hok.imp_right fun ⟨_, h⟩ => except_ok_of_bind h)
  unfold reachFrame
  rcases hx : walkTables va (ascePrivateSpace asce) (asceDesignation asce) (tableOrigin asce) 0 (tableLength asce)
    false w with ⟨x, u⟩
  rw [hx] at hwalk
  cases hs : s.segmentFrom va (asceDesignation asce) (tableOrigin asce) 0 (tableLength asce) false with
  | error e =>
    rw [hs] at hwalk
    obtain rfl : x = .error e := hwalk
    rfl
  | ok r =>
    rw [hs] at hwalk hok
    obtain rfl : x = .ok r := hwalk
    have hu : u.aloneFrom s := ⟨hw.1.trans (walkTables_state hx), hw.2⟩
    obtain ⟨hl, -⟩ := leadsTo_of_segmentFrom hr hs
    change _ = s.frameBelow asce va r
    change s.tlb = [] ∨ ∃ f, s.frameBelow asce va r = .ok f at hok
    unfold State.frameBelow at hok ⊢
    dsimp only
    split
    · rfl
    split
    · rfl
    · next hcommon hformat =>
      rw [if_neg hcommon, if_neg hformat] at hok
      have hpage := readPage_reached hc hl hu (hok.imp_right fun ⟨_, h⟩ => except_ok_of_map h)
      rcases hy : readPage va (ascePrivateSpace asce) r u with ⟨y, v⟩
      rw [hy] at hpage
      obtain rfl : y = _ := hpage
      cases s.pageFrom va r.ste <;> rfl

end

/-! ## The whole translation -/

/-- A frame found, no other agent acting, is a frame of the buffer or the one that storage leads to. -/
theorem findFrame_alone {s : State} {asce va : Word} (hi : s.interleaving = []) (hc : s.coherentAt asce va)
    (hpast : asceRealSpace asce = true ∨ asceTypeFails (asceDesignation asce) va = false)
    (hok : s.tlb = [] ∨ ∃ f, s.frameFrom asce va = .ok f) :
    (∃ f ∈ s.usableFrames asce va, (findFrame asce va ⟨s, []⟩).1 = .ok f) ∨
      (findFrame asce va ⟨s, []⟩).1 = s.frameFrom asce va := by
  rcases findFrame_cases asce va ⟨s, []⟩ with ⟨f, hf, h⟩ | ⟨hreal, h⟩ | ⟨hreal, h⟩ <;> rw [h]
  · exact .inl ⟨f, hf, rfl⟩
  · exact .inr (if_pos hreal).symm
  · have hw : (Walk.drawn ⟨s, []⟩).aloneFrom s := ⟨drawn_accessKeeps s 1, hi⟩
    exact .inr (reachFrame_alone hc hreal (hpast.resolve_left (by simp [hreal])) hw hok)

/-- With an empty buffer and no other agent acting, a translation is what storage says, whatever is drawn. -/
theorem translate_empty {s : State} (ht : s.tlb = []) (hi : s.interleaving = []) (asce va : Word) (isStore : Bool) :
    (translate s asce va isStore).1 = s.translationFrom asce va isStore := by
  unfold State.translationFrom
  split
  · next h =>
    simp only [Bool.and_eq_true, Bool.not_eq_true'] at h
    rw [translate_asceType h.1 h.2]
  · next h =>
    have hpast : asceRealSpace asce = true ∨ asceTypeFails (asceDesignation asce) va = false := by
      simpa [or_iff_not_imp_left] using h
    rw [translate_fst hpast]
    rcases findFrame_alone hi (State.coherentAt_empty ht asce va) hpast (.inl ht) with ⟨f, hf, -⟩ | h
    · rw [State.usableFrames_empty ht] at hf
      cases hf
    · rw [h]

/-- Settles O49: protection is what completion excludes for a store, and past the frame nothing else tells a store from
a fetch. -/
theorem storeNeedsNoProtection : Obligations.StoreNeedsNoProtection := by
  unfold Obligations.StoreNeedsNoProtection
  intro s asce va
  refine ⟨fun r t h => ?completes, translate_fetch_ne_protection s asce va, fun ht hi d => ?agrees⟩
  case completes =>
    obtain ⟨f, w, -, hp, rfl, -⟩ := translate_ok h
    exact hp
  case agrees =>
    have hd : sameTables s { s with draws := d } := ⟨rfl, sameControls.refl s⟩
    rw [translate_empty ht hi, translate_empty (s := { s with draws := d }) ht hi, hd.translationFrom]
    exact translationFrom_store s asce va

/-- Settles O52: a frame of the buffer that is used is the one that storage leads to, and a walk reads what storage
holds. -/
theorem coherentBufferIsInvisible : Obligations.CoherentBufferIsInvisible := by
  unfold Obligations.CoherentBufferIsInvisible
  intro s asce va isStore t hi hc h
  have hempty : sameTables s { s with tlb := [] } := ⟨rfl, sameControls.refl s⟩
  have hfrom (st : Bool) : (translate { s with tlb := [] } asce va st).1 = s.translationFrom asce va st :=
    (translate_empty (s := { s with tlb := [] }) rfl hi asce va st).trans (hempty.translationFrom asce va st)
  rw [hfrom] at h
  obtain ⟨hpast, f, hf, hp, rfl⟩ := translationFrom_ok h
  rw [translate_fst hpast]
  rcases findFrame_alone hi hc hpast (.inr ⟨f, hf⟩) with ⟨g, hg, hfound⟩ | hfound <;> rw [hfound]
  · have hplace : g.place va = f.place va := by
      refine hc.2.2 g (f.place va) hg ((hfrom false).trans ?_)
      rw [translationFrom_past hpast, hf]
      rfl
    have hprotect : g.attributes.protect = f.attributes.protect := congrArg (·.attributes.protect) hplace
    exact (checkProtection_ok_iff ..).mpr ⟨hprotect ▸ hp, hplace⟩
  · rw [← translationFrom_past hpast, h]

/-! ## What follows for the tables that storage leads to -/

section
variable {s : State} {asce va : Word} (ht : s.tlb = []) (hi : s.interleaving = []) (hreal : asceRealSpace asce = false)
include ht hi hreal

/-- From a table that storage leads to, the translation goes on as storage says. -/
theorem translate_reached {level : Nat} {origin : Word} {tf tl : BitVec 2} {p : Bool}
    (hr : s.Reaches asce va level origin tf tl p) (isStore : Bool) :
    (translate s asce va isStore).1 =
      ((s.segmentFrom va level origin tf tl p).bind (s.frameBelow asce va)).bind (checkProtection isStore va) := by
  rw [translate_empty ht hi, translationFrom_past (.inr hr.typePasses), ← hr.segmentFrom_eq]
  exact congrArg (Except.bind · _) (if_neg (Bool.eq_false_iff.mp hreal))

/-- A table level whose checks fail ends the translation in its exception. -/
theorem translate_entryFails {level : Nat} {origin : Word} {tf tl : BitVec 2} {p : Bool} {x : ProgramException}
    (hr : s.Reaches asce va level origin tf tl p) (hx : s.entryAt va level origin tf tl = .error x) (isStore : Bool) :
    (translate s asce va isStore).1 = .error x := by
  rw [translate_reached ht hi hreal hr]
  cases level <;> rw [State.segmentFrom, hx] <;> rfl

/-- From a segment-table entry that storage leads to, the translation goes on as storage says. -/
theorem translate_led {origin ste : Word} {p : Bool} (hl : s.leadsTo asce va origin p ste) (isStore : Bool) :
    (translate s asce va isStore).1 =
      (s.frameBelow asce va ⟨ste, s.edatApplies, p, origin⟩).bind (checkProtection isStore va) := by
  obtain ⟨tf, tl, hr, he⟩ := hl
  rw [translate_reached ht hi hreal hr, State.segmentFrom, he]
  rfl

theorem translate_ledToException {origin ste : Word} {p : Bool} {x : ProgramException}
    (hl : s.leadsTo asce va origin p ste)
    (hx : s.frameBelow asce va ⟨ste, s.edatApplies, p, origin⟩ = .error x) (isStore : Bool) :
    (translate s asce va isStore).1 = .error x := by
  rw [translate_led ht hi hreal hl, hx]
  rfl

/-- A frame is given to a fetch, and to a store where it is not protected (R128). -/
theorem translate_ledToFrame {origin ste : Word} {p : Bool} {f t : Translation} (hl : s.leadsTo asce va origin p ste)
    (hf : s.frameBelow asce va ⟨ste, s.edatApplies, p, origin⟩ = .ok f) (hplace : f.place va = t) :
    (translate s asce va false).1 = .ok t ∧
      (translate s asce va true).1 = if t.attributes.protect then .error .protection else .ok t := by
  rw [translate_led ht hi hreal hl, translate_led ht hi hreal hl, hf, ← hplace]
  exact ⟨rfl, rfl⟩

end

/-- Settles O45: a level of the walk is its entry in storage, and the walk to it is what storage leads to. -/
theorem tableFetchAndChecks : Obligations.TableFetchAndChecks := by
  unfold Obligations.TableFetchAndChecks
  refine ⟨fun s origin offset h8 => tableFetch_aligned h8, fun e idx px => ?numbers, fun w origin offset => ?fetch,
    fun va => ⟨rfl, rfl, rfl, rfl, rfl, rfl, rfl, rfl⟩, fun w va ps level origin tf tl ht hi => ?level,
    fun s asce va isStore level origin tf tl p x ht hi hreal hr hx => translate_entryFails ht hi hreal hr hx isStore⟩
  case numbers =>
    exact ⟨toNat_tableOrigin e, toNat_pageTableOrigin e, toNat_entryOffset (by omega) idx,
      toNat_entryOffset (by omega) px⟩
  case fetch =>
    obtain ⟨hfetch, hstorage, hchange⟩ := w.fetch_records origin offset
    exact ⟨hfetch, (w.fetch_keeps origin offset).2, hstorage, hchange⟩
  case level =>
    refine readTable_alone ⟨accessKeeps.refl _, hi⟩ va ps level origin tf tl fun c hc => ?_
    rw [pickCopy_empty ht] at hc
    cases hc

/-! ## The two kinds of frame -/

theorem segmentFrame_place (r : SegmentRead) (va : Word) :
    (segmentFrame r).place va = ⟨.absolute (field r.ste 0 43 ++ field va 44 63), (segmentFrame r).attributes⟩ :=
  congrArg (Translation.mk · _) (withinFrame_segmentFrame va _)

theorem pageFrame_place (r : SegmentRead) (e : EntryRead) (va : Word) :
    (pageFrame r e).place va = ⟨.real (field e.entry 0 51 ++ field va 52 63), (pageFrame r e).attributes⟩ :=
  congrArg (Translation.mk · _) (withinFrame_pageFrame va _)

section
variable {s : State} {asce : Word} {r : SegmentRead}

theorem frameBelow_common (va : Word) (h : (ascePrivateSpace asce && bitAt r.ste 59) = true) :
    s.frameBelow asce va r = .error .translationSpecification := if_pos h

theorem frameBelow_segment (va : Word) (hc : (ascePrivateSpace asce && bitAt r.ste 59) = false)
    (hs : (r.edat && bitAt r.ste 53) = true) : s.frameBelow asce va r = .ok (segmentFrame r) := by
  rw [State.frameBelow, if_neg (Bool.eq_false_iff.mp hc), if_pos hs]

theorem frameBelow_page (va : Word) (hc : (ascePrivateSpace asce && bitAt r.ste 59) = false)
    (hs : (r.edat && bitAt r.ste 53) = false) :
    s.frameBelow asce va r = (s.pageFrom va r.ste).map fun e => pageFrame r ⟨e, s.edatApplies⟩ := by
  rw [State.frameBelow, if_neg (Bool.eq_false_iff.mp hc), if_neg (Bool.eq_false_iff.mp hs)]

end

/-- Settles O46: with format control one the frame is the segment's. -/
theorem segmentFrameTranslation : Obligations.SegmentFrameTranslation := by
  unfold Obligations.SegmentFrameTranslation
  intro s asce va origin ste p ht hi hd hreal hl hcommon hformat
  exact translate_ledToFrame ht hi hreal hl
    (frameBelow_segment va hcommon (Bool.and_eq_true _ _ ▸ ⟨hd, hformat⟩)) (segmentFrame_place _ va)

/-- Settles O47: else the frame is the page's, behind the checks of the page-table entry. -/
theorem pageFrameTranslation : Obligations.PageFrameTranslation := by
  unfold Obligations.PageFrameTranslation
  intro s asce va origin ste p ht hi hreal hl
  refine ⟨fun hps hcommon => ?common, fun hcommon hformat => ?page⟩
  case common =>
    exact translate_ledToException ht hi hreal hl (frameBelow_common va (Bool.and_eq_true _ _ ▸ ⟨hps, hcommon⟩))
  case page =>
    have hbelow := frameBelow_page (s := s) (r := ⟨ste, s.edatApplies, p, origin⟩) va hcommon hformat
    have exception {x : ProgramException} (hx : s.pageFrom va ste = .error x) (st : Bool) :
        (translate s asce va st).1 = .error x :=
      translate_ledToException ht hi hreal hl (by rw [hbelow, hx]; rfl) st
    split
    · next he => exact exception (by simp [State.pageFrom, he])
    · next pte he =>
      dsimp only
      split
      · next hinvalid => exact exception (by simp [State.pageFrom, he, hinvalid])
      · next hvalid =>
        split
        · next hbits => exact exception (by rw [State.pageFrom, he]; exact (if_neg hvalid).trans (if_pos hbits))
        · next hbits =>
          have hfrom : s.pageFrom va ste = .ok pte := by
            rw [State.pageFrom, he]
            exact (if_neg hvalid).trans (if_neg hbits)
          exact translate_ledToFrame ht hi hreal hl (by rw [hbelow, hfrom]; rfl) (pageFrame_place _ ⟨pte, _⟩ va)

end Sys2Proof.Machine
end

section
/-! PROOFS. What a translation leaves in the buffer: the copies that a walk forms, and the frame at its end (R145, R146,
R149, R150, R370). -/

namespace Sys2Proof.Machine

/-! ## What a larger buffer may use -/

theorem UsesTable.mono {b b' : List TlbEntry} (hb : b ⊆ b') {asce va : Word} {level : Nat} {origin : Word}
    (h : UsesTable b asce va level origin) : UsesTable b' asce va level origin := by
  induction h with
  | designated => exact .designated
  | byEntry _ held answers ih => exact .byEntry ih (hb held) answers

theorem usesSegment.mono {b b' : List TlbEntry} (hb : b ⊆ b') {asce va origin : Word} {c : TableCopy}
    (h : usesSegment b asce va origin c) : usesSegment b' asce va origin c := by
  obtain ⟨htable, hmem, hans⟩ := h
  exact ⟨htable.mono hb, hb hmem, hans⟩

/-! ## The copies that a walk has formed -/

/-- The buffer as a walk that completes now would leave it. -/
def Walk.buffer (w : Walk) : List TlbEntry := w.formed ++ w.state.tlb

theorem Walk.buffer_subset_form (w : Walk) (x : TlbEntry) : w.buffer ⊆ (w.form x).buffer :=
  List.subset_cons_self x w.buffer

/-- A page-table entry at the index of the address, in the page table of a segment-table entry used (R150). -/
def isPageCopy (asce va : Word) (buffer : List TlbEntry) (c : TableCopy) : Prop :=
  c.level = .page ∧ c.index = (pageIndex va).toNat ∧ bitAt c.entry 53 = false ∧
    ∃ ste, usesSegment buffer asce va c.space ste ∧ c.origin = pageTableOrigin ste.entry ∧
      c.common = bitAt ste.entry 59

/-- A region- or segment-table entry at the index of the address, in a table used, valid and of its level's type. -/
def isTableCopy (asce va : Word) (buffer : List TlbEntry) (c : TableCopy) : Prop :=
  ∃ l : Nat, l ≤ asceDesignation asce ∧ c.level = levelAt l ∧ c.index = (indexAt l va).toNat ∧
    UsesTable buffer asce va l c.origin ∧ c.space = c.origin ∧ c.common = (l == 0 && bitAt c.entry 59) ∧
    bitAt c.entry 58 = false ∧ (field c.entry 60 61).toNat = l

/-- A copy that the walk of an address may form: of an entry of a table that it used, as storage holds it where no other
agent acts. -/
def isFormedCopy (s : State) (asce va : Word) (buffer : List TlbEntry) (c : TableCopy) : Prop :=
  c.edat = s.edatApplies ∧
    (s.interleaving = [] → tableFetch s c.origin (BitVec.ofNat 64 c.index <<< 3) = some c.entry) ∧
    (isPageCopy asce va buffer c ∨ isTableCopy asce va buffer c)

theorem isFormedCopy.mono {s : State} {asce va : Word} {b b' : List TlbEntry} (hb : b ⊆ b') {c : TableCopy}
    (h : isFormedCopy s asce va b c) : isFormedCopy s asce va b' c := by
  obtain ⟨hedat, hfetch, ⟨hlevel, hindex, hvalid, ste, hste, hrest⟩ | ⟨l, hl, hlevel, hindex, huses, hrest⟩⟩ := h
  · exact ⟨hedat, hfetch, .inl ⟨hlevel, hindex, hvalid, ste, hste.mono hb, hrest⟩⟩
  · exact ⟨hedat, hfetch, .inr ⟨l, hl, hlevel, hindex, huses.mono hb, hrest⟩⟩

/-- A walk begun in a state has kept what accesses keep, and formed copies of entries it used, nothing else. -/
def Walk.formsCopies (s : State) (asce va : Word) (w : Walk) : Prop :=
  accessKeeps s w.state ∧ ∀ x ∈ w.formed, ∃ c, x = .table c ∧ isFormedCopy s asce va w.buffer c

section
variable {s : State} {asce va : Word} {w v : Walk}

/-- Accesses that form nothing keep it so. -/
theorem Walk.formsCopies.of_keeps (h : w.formsCopies s asce va) (hk : accessKeeps w.state v.state)
    (hf : v.formed = w.formed) : v.formsCopies s asce va ∧ v.buffer = w.buffer := by
  have hb : v.buffer = w.buffer := by rw [Walk.buffer, Walk.buffer, hf, hk.tlb]
  refine ⟨⟨h.1.trans hk, ?_⟩, hb⟩
  rw [hf, hb]
  exact h.2

theorem Walk.formsCopies.form (h : w.formsCopies s asce va) {c : TableCopy}
    (hc : isFormedCopy s asce va (w.form (.table c)).buffer c) : (w.form (.table c)).formsCopies s asce va := by
  refine ⟨h.1, fun x hx => ?_⟩
  rcases List.mem_cons.mp hx with rfl | hx
  · exact ⟨c, rfl, hc⟩
  · obtain ⟨d, rfl, hd⟩ := h.2 x hx
    exact ⟨d, rfl, hd.mono (w.buffer_subset_form _)⟩

/-- A fetch forms nothing, and answers what storage holds at an index where no other agent acts. -/
theorem Walk.formsCopies.fetch (h : w.formsCopies s asce va) {origin e : Word} {n : Nat} {idx : BitVec n}
    (hf : w.drawn.fetch origin (idx.setWidth 64 <<< 3) = (some e, v)) :
    v.formsCopies s asce va ∧ v.buffer = w.buffer ∧
      (s.interleaving = [] → tableFetch s origin (BitVec.ofNat 64 idx.toNat <<< 3) = some e) := by
  obtain ⟨hk, hformed⟩ := w.drawn.fetch_keeps origin (idx.setWidth 64 <<< 3)
  rw [hf] at hk hformed
  obtain ⟨hv, hb⟩ := h.of_keeps (w.drawn_keeps.trans hk) hformed
  refine ⟨hv, hb, fun hi => ?_⟩
  have ha : w.aloneFrom s := ⟨h.1, hi⟩
  rw [BitVec.ofNat_toNat, ← ha.drawn.fetch, hf]

/-! ## A walk forms copies only of entries it used -/

/-- The copy formed of a fetched region- or segment-table entry may stand in for it again, unless it is of a common
segment and the private-space control is one (R146). -/
theorem tableRequest_answeredBy_formed {level : Nat} {origin e : Word} {ps edat : Bool}
    (h : (ps && (level == 0 && bitAt e 59)) = false) :
    (tableRequest va level origin).answeredBy ps
      ⟨levelAt level, origin, origin, (indexAt level va).toNat, level == 0 && bitAt e 59, edat, e⟩ = true := by
  rw [TableRequest.answeredBy_iff]
  refine ⟨rfl, rfl, ?_⟩
  split
  · next hc =>
    have hcommon : (level == 0 && bitAt e 59) = true := hc
    rw [hcommon, Bool.and_true] at h
    exact ⟨h, .inr rfl⟩
  · exact ⟨rfl, rfl⟩

/-- A table entry read is a copy in the buffer that the walk would leave. -/
theorem readTable_forms {level : Nat} {origin : Word} {tf tl : BitVec 2} {e : EntryRead}
    (hw : w.formsCopies s asce va) (hu : UsesTable w.buffer asce va level origin) (hl : level ≤ asceDesignation asce)
    (h : readTable va (ascePrivateSpace asce) level origin tf tl w = (.ok e, v)) :
    v.formsCopies s asce va ∧ w.buffer ⊆ v.buffer ∧ ∃ c, .table c ∈ v.buffer ∧ c.entry = e.entry ∧
      ((ascePrivateSpace asce && (level == 0 && bitAt e.entry 59)) = false →
        (tableRequest va level origin).answeredBy (ascePrivateSpace asce) c = true) := by
  rcases readTable_ok h with ⟨c, hc, rfl, rfl⟩ | ⟨-, u, hf, hvalid, htype, -, rfl⟩
  · obtain ⟨hmem, hans⟩ := pickCopy_some hc
    obtain ⟨hv, hb⟩ := hw.of_keeps w.drawn_keeps rfl
    exact ⟨hv, hb ▸ List.Subset.refl _, c, List.mem_append_right _ hmem, rfl, fun _ => hans⟩
  · obtain ⟨hv, hb, hfetch⟩ := hw.fetch hf
    have hsub := hb ▸ u.buffer_subset_form
      (copyOf w.state (tableRequest va level origin) (level == 0 && bitAt e.entry 59) e.entry)
    exact ⟨hv.form ⟨hw.1.edatApplies, hfetch,
      .inr ⟨level, hl, rfl, rfl, hu.mono hsub, rfl, rfl, hvalid, htype⟩⟩, hsub, _, List.mem_cons_self, rfl,
      tableRequest_answeredBy_formed⟩

/-- A walk forms copies of the entries it used, and a copy of the segment-table entry it ends with is in the buffer that
it would leave. -/
theorem walkTables_forms {level : Nat} {origin : Word} {tf tl : BitVec 2} {p : Bool} {r : SegmentRead}
    (hw : w.formsCopies s asce va) (hu : UsesTable w.buffer asce va level origin) (hl : level ≤ asceDesignation asce)
    (h : walkTables va (ascePrivateSpace asce) level origin tf tl p w = (.ok r, v)) :
    v.formsCopies s asce va ∧ ((ascePrivateSpace asce && bitAt r.ste 59) = false →
      ∃ c, usesSegment v.buffer asce va r.segmentTable c ∧ c.entry = r.ste) := by
  induction level generalizing origin tf tl p w with
  | zero =>
    obtain ⟨e, he, rfl⟩ := walkTables_zero_ok h
    obtain ⟨hv, hb, c, hmem, hentry, hans⟩ := readTable_forms hw hu hl he
    exact ⟨hv, fun hcommon => ⟨c, ⟨hu.mono hb, hmem, hans hcommon⟩, hentry⟩⟩
  | succ level ih =>
    obtain ⟨e, u, he, hrest⟩ := walkTables_succ_ok h
    obtain ⟨hv, hb, c, hmem, hentry, hans⟩ := readTable_forms hw hu hl he
    have hnext : UsesTable u.buffer asce va level (tableOrigin e.entry) :=
      hentry ▸ .byEntry (hu.mono hb) hmem (hans (Bool.and_false _))
    exact ih hv hnext (by omega) hrest

theorem readPage_forms {r : SegmentRead} {e : EntryRead} {c : TableCopy} (hw : w.formsCopies s asce va)
    (hs : usesSegment w.buffer asce va r.segmentTable c) (hc : c.entry = r.ste)
    (h : readPage va (ascePrivateSpace asce) r w = (.ok e, v)) :
    v.formsCopies s asce va ∧ w.buffer ⊆ v.buffer := by
  rcases readPage_ok h with ⟨c, -, rfl, rfl⟩ | ⟨-, u, hf, hvalid, -, rfl⟩
  · obtain ⟨hv, hb⟩ := hw.of_keeps w.drawn_keeps rfl
    exact ⟨hv, hb ▸ List.Subset.refl _⟩
  · obtain ⟨hv, hb, hfetch⟩ := hw.fetch hf
    have hsub := hb ▸ u.buffer_subset_form (copyOf w.state (pageRequest va r) (bitAt r.ste 59) e.entry)
    exact ⟨hv.form ⟨hw.1.edatApplies, hfetch, .inl ⟨rfl, rfl, hvalid, c, hs.mono hsub,
      congrArg pageTableOrigin hc.symm, congrArg (bitAt · 59) hc.symm⟩⟩, hsub⟩

/-! ## The frame formed -/

/-- The frame that a translation leaves: tagged by the designation and the address, common as the segment-table entry
used is, of a page or of a segment as the entry that gives it. -/
def isFormedFrame (asce va : Word) (buffer : List TlbEntry) (c : FrameCopy) : Prop :=
  c.origin = tableOrigin asce ∧ c.region = field va 0 32 ∧ c.segment = field va 33 43 ∧
    (∃ origin ste, usesSegment buffer asce va origin ste ∧ c.common = bitAt ste.entry 59) ∧
    ((c.page = some (pageIndex va) ∧ ∃ ra, c.frame.address = .real ra) ∨
      (c.page = none ∧ ∃ aa, c.frame.address = .absolute aa))

/-- A walk to a frame forms that frame, and before it copies of the entries used. -/
theorem reachFrame_forms {f : Translation} (hw : w.formsCopies s asce va) (h : reachFrame asce va w = (.ok f, v)) :
    ∃ (u : Walk) (c : FrameCopy), u.formsCopies s asce va ∧ v = u.form (.frame c) ∧ c.frame = f ∧
      isFormedFrame asce va u.buffer c := by
  obtain ⟨r, u, hwalk, hcommon, hframe⟩ := reachFrame_ok h
  obtain ⟨hu, hsegment⟩ := walkTables_forms hw .designated le_rfl hwalk
  obtain ⟨ste, huses, hste⟩ := hsegment hcommon
  rcases hframe with ⟨-, rfl, rfl⟩ | ⟨e, u', hpage, rfl, rfl⟩
  · exact ⟨u, _, hu, rfl, rfl, rfl, rfl, rfl, ⟨_, ste, huses, congrArg (bitAt · 59) hste.symm⟩, .inr ⟨rfl, _, rfl⟩⟩
  · obtain ⟨hu', hb⟩ := readPage_forms hu huses hste hpage
    exact ⟨u', _, hu', rfl, rfl, rfl, rfl, rfl, ⟨_, ste, huses.mono hb, congrArg (bitAt · 59) hste.symm⟩,
      .inl ⟨rfl, _, rfl⟩⟩

end

/-- Settles O51: the three origins of a frame, each with what it forms. -/
theorem bufferLifecycle : Obligations.BufferLifecycle := by
  unfold Obligations.BufferLifecycle
  refine ⟨fun s t asce va isStore e h => (translate_keeps s asce va isStore).2 e t h, fun s t asce va isStore r h => ?_,
    fun s q ps c => pickCopy_some⟩
  obtain ⟨f, w, hf, -, rfl, rfl⟩ := translate_ok h
  rcases findFrame_cases asce va ⟨s, []⟩ with ⟨g, hg, he⟩ | ⟨hreal, he⟩ | ⟨hreal, he⟩
  · cases he.symm.trans hf
    exact ⟨.inl ⟨f, hg, rfl⟩, [], rfl, List.forall_mem_nil _⟩
  · cases he.symm.trans hf
    refine ⟨.inr (.inl ⟨hreal, congrArg (Translation.mk · _) (withinFrame_own va)⟩), [_], rfl, ?_⟩
    exact List.forall_mem_singleton.mpr ⟨hreal, rfl, rfl⟩
  · have hwalk : reachFrame asce va ⟨s.drawn 1, []⟩ = (.ok f, w) := he.symm.trans hf
    obtain ⟨u, c, hu, rfl, rfl, hframe⟩ :=
      reachFrame_forms (s := s) ⟨drawn_accessKeeps s 1, List.forall_mem_nil _⟩ hwalk
    refine ⟨.inr (.inr ⟨hreal, _, _, hwalk, rfl⟩), .frame c :: u.formed, ?tlb, fun x hx => ?_⟩
    case tlb => exact congrArg (.frame c :: u.formed ++ ·) hu.1.tlb
    have hb := u.buffer_subset_form (.frame c)
    rcases List.mem_cons.mp hx with rfl | hx
    · obtain ⟨horigin, hregion, hsegment, ⟨origin, ste, huses, hcommon⟩, hkind⟩ := hframe
      exact ⟨hreal, horigin, hregion, hsegment, rfl, ⟨origin, ste, huses.mono hb, hcommon⟩, hkind⟩
    · obtain ⟨d, rfl, hd⟩ := hu.2 x hx
      exact ⟨hreal, hd.mono hb⟩

end Sys2Proof.Machine
end

section
/-! PROOFS. Key-controlled protection (R165), reference and change recording (R181, R183, R186), and the recording of
the stores of a program interruption (R185). -/

namespace Sys2Proof.Machine

/-! ## Key-controlled protection -/

theorem keyMatches_iff {akey acc : BitVec 4} : keyMatches akey acc = true ↔ acc = akey ∨ akey = 0 := by
  rw [keyMatches, Bool.or_eq_true, decide_eq_true_iff, decide_eq_true_iff, or_comm, eq_comm (a := akey) (b := acc)]

@[simp] theorem keyPermits_store (akey acc : BitVec 4) (f : Bool) :
    keyPermits .store akey acc f = keyMatches akey acc := rfl

@[simp] theorem keyPermits_fetch (akey acc : BitVec 4) (f : Bool) :
    keyPermits .fetch akey acc f = (keyMatches akey acc || !f) := rfl

@[simp] theorem keyPermits_ifetch (akey acc : BitVec 4) (f : Bool) :
    keyPermits .ifetch akey acc f = (keyMatches akey acc || !f) := rfl

/-- Settles O53: with a match every reference is permitted; without one the fetch-protection bit decides for a fetch. -/
theorem keyProtectionTable : Obligations.KeyProtectionTable := by
  unfold Obligations.KeyProtectionTable
  intro akey acc
  refine ⟨keyMatches_iff, fun hmatch f => ?permitted, fun hnone => ?checked⟩
  case permitted => simp [hmatch]
  case checked => simp [hnone]

/-! ## Recording -/

/-- Recording a change touches no R. -/
theorem recordChange_reference (aa : Word) (co changed : Bool) (s : State) (b : Nat) :
    ((recordChange aa co changed s).key b).r = (s.key b).r := by
  simp only [State.key, keyState_recordChange]
  split <;> rfl

/-- Settles O54, from the rules of the two recordings. -/
theorem recordingRules : Obligations.RecordingRules := by
  unfold Obligations.RecordingRules
  intro aa co changed s
  refine ⟨recordReference_sameAccess aa s, recordChange_sameAccess aa co changed s, recordReference_sameKeysBut aa s,
    recordChange_sameKeysBut aa co changed s,
    fun b => ⟨recordReference_change aa s b, recordChange_reference aa co changed s b⟩,
    fun b => ⟨(recordReference_records aa s b).1, (recordChange_records aa co changed s b).2⟩, ?uncovered, rfl, rfl⟩
  case uncovered =>
    rintro rfl rfl
    exact recordChange_sets aa s

/-! ## The program interruption -/

/-- The block of the assigned locations, as a number. -/
theorem blockOf_prefixArea (s : State) : blockOf (applyPrefix s.prefixReg 0) = 2 * s.prefixReg.toNat :=
  blockOf_assigned s (by decide) (by decide)

/-- Settles O12: every access of the swap is recorded in the block of the assigned locations (`swapRecords`). -/
theorem programInterruptionRecordsChange : Obligations.ProgramInterruptionRecordsChange := by
  unfold Obligations.ProgramInterruptionRecordsChange
  intro e ilc a s t hi h
  obtain ⟨-, -, -, -, -, halone⟩ := takeProgramInterruption_keeps h
  obtain ⟨-, hkeys, haccess, hr, hc, hchanged⟩ := halone hi
  rw [blockOf_prefixArea]
  exact ⟨hkeys, haccess, hc, hr, hchanged⟩

end Sys2Proof.Machine
end

section
/-! PROOFS. One operand store within a block (R66, R93, R165, R168, R183, R186, R188). -/

namespace Sys2Proof.Machine

/-! ## Bytes stored and recorded -/

/-- The bytes of a permitted store in their places, and its recording (R66 steps 5 and 6); `memWrite_of_located` says
that it is what `memWrite` does. -/
def storeBytes (aa : Word) (co : Bool) (bs : List Byte) (s : State) : State :=
  recordChange aa co (Memory.readMany s.mem aa.toNat bs.length != bs)
    (recordReference aa (s.setMem (Memory.writeMany s.mem aa.toNat bs)))

section
variable (aa : Word) (co : Bool) (bs : List Byte) (s : State)

theorem storeBytes_sameAccess : sameAccess s (storeBytes aa co bs s) :=
  (recordReference_sameAccess aa (s.setMem _)).trans (recordChange_sameAccess aa co _ _)

theorem storeBytes_referenceKeeps : referenceKeeps s (storeBytes aa co bs s) :=
  ⟨rfl, rfl, sameControls.refl s, rfl, rfl, rfl, rfl, storeBytes_sameAccess aa co bs s⟩

theorem storeBytes_sameKeysBut : sameKeysBut (blockOf aa) s (storeBytes aa co bs s) :=
  (recordReference_sameKeysBut aa (s.setMem _)).trans (recordChange_sameKeysBut aa co _ _)

theorem storeBytes_sameStorageOutside : sameStorageOutside aa.toNat bs.length s (storeBytes aa co bs s) :=
  fun x hx => Memory.read_writeMany_outside s.mem aa.toNat bs x hx

/-- The recording of a store clears no bit. -/
theorem storeBytes_records (b : Nat) :
    ((s.key b).r = true → ((storeBytes aa co bs s).key b).r = true) ∧
      ((s.key b).c = true → ((storeBytes aa co bs s).key b).c = true) := by
  have href := recordReference_records aa (s.setMem (Memory.writeMany s.mem aa.toNat bs)) b
  have hch := recordChange_records aa co (Memory.readMany s.mem aa.toNat bs.length != bs)
    (recordReference aa (s.setMem (Memory.writeMany s.mem aa.toNat bs))) b
  exact ⟨hch.1 ∘ href.1, hch.2 ∘ href.2⟩

variable {aa co bs s}

/-- A store that changes its bytes sets C of the block, where no override covers it (R183, R186). -/
theorem storeBytes_sets (hne : Memory.readMany s.mem aa.toNat bs.length ≠ bs) (hco : co = false) :
    ((storeBytes aa co bs s).key (blockOf aa)).c = true := by
  rw [storeBytes, hco, bne_iff_ne.mpr hne]
  exact recordChange_sets aa _

end

theorem referenceKeeps.trans {s t u : State} (h : referenceKeeps s t) (g : referenceKeeps t u) :
    referenceKeeps s u := by
  obtain ⟨hgprs, hpsw, hcontrols, hpending, henv, hgaps, huntried, haccess⟩ := h
  obtain ⟨ggprs, gpsw, gcontrols, gpending, genv, ggaps, guntried, gaccess⟩ := g
  exact ⟨ggprs.trans hgprs, gpsw.trans hpsw, hcontrols.trans gcontrols, gpending.trans hpending, genv.trans henv,
    ggaps.trans hgaps, guntried.trans huntried, haccess.trans gaccess⟩

/-! ## The path of a store -/

/-- With DAT on, an exception of the translation is the outcome of a store, DAT protection among them (R128). -/
theorem locate_storeException {sel : OperandSpace} {la asce : Word} {e : ProgramException} {s t : State}
    (hd : pswDat s.psw = true) (ha : effectiveAsce s .store sel = some asce)
    (ht : translate s asce la true = (.error e, t)) : locate .store sel la s = .exception e la t := by
  rw [locate, if_pos hd, ha]
  simp only [decide_true, ht]

/-- What a located store does: availability, then the key check, then the bytes and the recording (R66 steps 3 to
6). -/
theorem memWrite_of_located {sel : OperandSpace} {la aa : Word} {bs : List Byte} {att : Attributes} {s t : State}
    (hw : crossesBlock la bs.length = false) (h : locate .store sel la s = .ok (aa, att) t) (akey : BitVec 4) :
    memWrite akey sel la bs s =
      if t.available aa = false then .exception .addressing la t
      else if keyCheck .store akey t.beforeAccess aa att = true then
        .ok () (storeBytes aa att.co bs (t.beforeAccess.drawn 2))
      else .exception .protection la (t.beforeAccess.drawn 2) := by
  rw [memWrite, if_neg (by simp [hw])]
  simp only [permit, h]
  cases ha : t.available aa
  · simp
  · cases hc : keyCheck .store akey t.beforeAccess aa att <;> simp [storeBytes]

theorem memWrite_of_exception {sel : OperandSpace} {la a : Word} {bs : List Byte} {e : ProgramException} {s t : State}
    (hw : crossesBlock la bs.length = false) (h : locate .store sel la s = .exception e a t) (akey : BitVec 4) :
    memWrite akey sel la bs s = .exception e a t := by
  rw [memWrite, if_neg (by simp [hw])]
  simp only [permit, h]

/-- Settles O55: the branches of the path of a store, in its order. The accesses before the store set reference bits at
most (`fetchKeeps.reference`); what the store itself does are the rules of `storeBytes`. -/
theorem operandStore : Obligations.OperandStore := by
  unfold Obligations.OperandStore
  intro akey sel la bs s hi hw
  refine ⟨fun asce e t hd ha ht => ?translation, fun aa att t0 hl => ⟨fun ha => ?unavailable, fun ha hv => ?checked⟩⟩
  case translation =>
    obtain ⟨hk, hbuffer⟩ := translate_keeps s asce la true
    rw [ht] at hk
    obtain ⟨hr, hs, -⟩ := hk.reference hi
    exact ⟨memWrite_of_exception hw (locate_storeException hd ha ht) akey, hr, hs, hbuffer e t ht⟩
  case unavailable =>
    obtain ⟨-, hs, -⟩ := hl.keeps.reference hi
    rw [memWrite_of_located hw hl.locate_eq, if_pos ((hl.keeps.available aa).trans ha)]
    exact ⟨rfl, hs⟩
  case checked =>
    obtain ⟨hgaps, hmem, haccess⟩ := hl.keeps.alone hi
    have ha0 : t0.available aa = true := (hl.keeps.available aa).trans ha
    have hd : fetchKeeps s (t0.drawn 2) := hl.keeps.trans (drawn_accessKeeps t0 2).fetchKeeps
    obtain ⟨hr, hs, hbits⟩ := hd.reference hi
    have hp := keyCheck_eq_or haccess hv .store akey att
    rw [memWrite_of_located hw hl.locate_eq, if_neg (by simp [ha0]), beforeAccess_alone hgaps]
    cases hc : keyCheck .store akey t0 aa att with
    | true =>
      have hkeys := storeBytes_sameKeysBut aa att.co bs (t0.drawn 2)
      have hrec := storeBytes_records aa att.co bs (t0.drawn 2)
      refine ⟨_, hr.trans (storeBytes_referenceKeeps aa att.co bs (t0.drawn 2)), rfl,
        fun c => ⟨(hrec c).1 ∘ (hbits c).2, (hrec c).2 ∘ (hbits c).1.trans, fun hne => ?otherKeys⟩,
        .inl ⟨if_pos rfl, by simpa only [hc, eq_comm] using hp, hkeys, Memory.readMany_writeMany .., fun x hx => ?outside,
          fun hne hco => ?changed⟩⟩
      case otherKeys => exact (congrArg (·.key.c) (hkeys c hne)).trans (hbits c).1
      case outside => exact (storeBytes_sameStorageOutside aa att.co bs (t0.drawn 2) x hx).trans (hs x)
      case changed => exact storeBytes_sets (s := t0.drawn 2) (by rwa [State.drawn_mem, hmem]) hco
    | false =>
      exact ⟨_, hr, rfl, fun c => ⟨(hbits c).2, (hbits c).1.trans, fun _ => (hbits c).1⟩,
        .inr ⟨if_neg Bool.false_ne_true, by simpa only [hc, eq_comm] using hp, rfl, hs⟩⟩

/-! ## A store that fails -/

/-- An exception before the key check is met by the address of the reference. -/
theorem locate_exception_address {kind : ReferenceKind} {sel : OperandSpace} {la a : Word} {e : ProgramException}
    {s t : State} (h : locate kind sel la s = .exception e a t) : a = la := by
  unfold locate at h
  split at h
  · split at h
    · cases h
    · split at h
      · cases h; rfl
      · cases h
  · cases h

theorem permit_exception_address {kind : ReferenceKind} {akey : BitVec 4} {sel : OperandSpace} {la a : Word}
    {e : ProgramException} {s t : State} (h : permit kind akey sel la s = .exception e a t) : a = la := by
  unfold permit at h
  split at h
  · cases h
  · next hl =>
    cases h
    exact locate_exception_address hl
  · split at h
    · cases h; rfl
    · dsimp only at h
      split at h
      · cases h
      · cases h; rfl

/-- A store that fails is not permitted: no byte is written before its exception is known. -/
theorem permit_of_memWrite_exception {akey : BitVec 4} {sel : OperandSpace} {la a : Word} {bs : List Byte}
    {e : ProgramException} {s t : State} (h : memWrite akey sel la bs s = .exception e a t) :
    permit .store akey sel la s = .exception e a t := by
  unfold memWrite at h
  split at h
  · cases h
  · split at h
    · cases h
    · next hp =>
      cases h
      exact hp
    · cases h

/-- Settles O56: the accesses of a reference that is not permitted set reference bits at most. -/
theorem failedStoreChangesNothing : Obligations.FailedStoreChangesNothing := by
  unfold Obligations.FailedStoreChangesNothing
  intro akey sel la bs s t e a hi h
  have hp := permit_of_memWrite_exception h
  have hk : fetchKeeps s t := by
    have hkeeps := (permit_keeps .store akey sel la s).1
    rwa [hp] at hkeeps
  obtain ⟨⟨hgprs, hpsw, hcontrols, -⟩, -, hbits⟩ := hk.reference hi
  obtain ⟨-, hmem, haccess⟩ := hk.alone hi
  exact ⟨permit_exception_address hp, hmem, hgprs, hpsw, hcontrols, haccess, fun b => (hbits b).1⟩

end Sys2Proof.Machine
end

section
/-! PROOFS. Decoding what was encoded (R200, R202, R203, R210): the fields of an instruction text are read back, the
length of each format is known from its operation code, and so every row of the opcode table is decoded to itself. -/

namespace Sys2Proof

/-! ## The fields of an instruction text, read back -/

@[simp] theorem hiNibble_packNibbles (h l : Reg) : hiNibble (packNibbles h l) = h := by
  simp only [hiNibble, packNibbles, BitVec.extractLsb'_append_eq_left]

@[simp] theorem loNibble_packNibbles (h l : Reg) : loNibble (packNibbles h l) = l := by
  simp only [loNibble, packNibbles, BitVec.extractLsb'_append_eq_right]

/-- The two parts of a displacement of 12 bits put together again. -/
theorem dispOf_packNibbles (b : Reg) {d : Nat} (hd : fits12 d = true) :
    dispOf (packNibbles b (dispHi d)) (dispLo d) = d := by
  have hlt : d < 4096 := by simpa [fits12] using hd
  simp only [dispOf, loNibble_packNibbles, dispHi, dispLo, Fin.val_ofNat, BitVec.toNat_ofNat]
  omega

theorem dispLo_toNat {d : Nat} (hd : fits8 d = true) : (dispLo d).toNat = d := by
  have hlt : d < 256 := by simpa [fits8] using hd
  exact Nat.mod_eq_of_lt hlt

/-! ## The length of an instruction (R200): what follows it is not read -/

theorem decode_twoBytes {b0 : Byte} (h : instrLength b0 = 2) (b1 : Byte) (rest : List Byte) :
    decode (b0 :: b1 :: rest) = decode2 b0 b1 := by
  simp [decode, h]

theorem decode_fourBytes {b0 : Byte} (h : instrLength b0 = 4) (b1 b2 b3 : Byte) (rest : List Byte) :
    decode (b0 :: b1 :: b2 :: b3 :: rest) = decode4 b0 b1 b2 b3 := by
  simp [decode, h]

theorem decode_sixBytes {b0 : Byte} (h : instrLength b0 = 6) (b1 b2 b3 b4 b5 : Byte) (rest : List Byte) :
    decode (b0 :: b1 :: b2 :: b3 :: b4 :: b5 :: rest) = decode6 b0 b1 b2 b3 b4 b5 := by
  simp [decode, h]

/-! ## Formats -/

theorem decode_encodeRs {op : Byte} (h : instrLength op = 4) (f g b2 : Reg) (d2 : Nat) (rest : List Byte) :
    decode (encodeRs op f g b2 d2 ++ rest) =
      decode4 op (packNibbles f g) (packNibbles b2 (dispHi d2)) (dispLo d2) :=
  decode_fourBytes h _ _ _ rest

theorem decode_encodeRre {op1 : Byte} (h : instrLength op1 = 4) (op2 : Byte) (r1 r2 : Reg) (rest : List Byte) :
    decode (encodeRre op1 op2 r1 r2 ++ rest) = decode4 op1 op2 0 (packNibbles r1 r2) :=
  decode_fourBytes h _ _ _ rest

theorem decode_encodeSs {op : Byte} (h : instrLength op = 6) (f g b1 : Reg) (d1 : Nat) (b2 : Reg) (d2 : Nat)
    (rest : List Byte) :
    decode (encodeSs op f g b1 d1 b2 d2 ++ rest) =
      decode6 op (packNibbles f g) (packNibbles b1 (dispHi d1)) (dispLo d1) (packNibbles b2 (dispHi d2)) (dispLo d2) :=
  decode_sixBytes h _ _ _ _ _ rest

theorem decode_encodeSse {op1 : Byte} (h : instrLength op1 = 6) (op2 : Byte) (b1 : Reg) (d1 : Nat) (b2 : Reg) (d2 : Nat)
    (rest : List Byte) :
    decode (encodeSse op1 op2 b1 d1 b2 d2 ++ rest) =
      decode6 op1 op2 (packNibbles b1 (dispHi d1)) (dispLo d1) (packNibbles b2 (dispHi d2)) (dispLo d2) :=
  decode_sixBytes h _ _ _ _ _ rest

theorem decode_encodeRsy {op1 : Byte} (h : instrLength op1 = 6) (op2 : Byte) (r1 r3 b2 : Reg) (dl2 dh2 : Nat)
    (rest : List Byte) :
    decode (encodeRsy op1 op2 r1 r3 b2 dl2 dh2 ++ rest) =
      decode6 op1 (packNibbles r1 r3) (packNibbles b2 (dispHi dl2)) (dispLo dl2) (dispLo dh2) op2 :=
  decode_sixBytes h _ _ _ _ _ rest

/-! ## The table -/

/-- Settles O1: the format of each row gives the length, its operation code the row, and its fields the operands. -/
theorem decodeEncode : Obligations.DecodeEncode := by
  unfold Obligations.DecodeEncode
  intro i rest hi
  cases i with
  | sske m3 r1 r2 => exact (decode_fourBytes rfl _ _ _ rest).trans (by simp [decode4])
  | lpswe b2 d2 => exact (decode_fourBytes rfl _ _ _ rest).trans (by simp [decode4, dispOf_packNibbles b2 hi])
  | bcr m1 r2 => exact (decode_twoBytes rfl _ rest).trans (by simp [decode2])
  | pfmf r1 r2 | mvpg r1 r2 | iske r1 r2 | ivsk r1 r2 | rrbe r1 r2 =>
    exact (decode_encodeRre rfl _ r1 r2 rest).trans (by simp [decode4])
  | lctl _ _ b2 d2 | stctl _ _ b2 d2 | lpsw b2 d2 | ex _ _ b2 d2 | bc _ _ b2 d2 =>
    exact (decode_encodeRs rfl _ _ b2 d2 rest).trans (by simp [decode4, dispOf_packNibbles b2 hi])
  | mvcp r1 r3 b1 d1 b2 d2 | mvcs r1 r3 b1 d1 b2 d2 | mvck r1 r3 b1 d1 b2 d2 =>
    obtain ⟨h1, h2⟩ := Bool.and_eq_true_iff.mp hi
    exact (decode_encodeSs rfl r1 r3 b1 d1 b2 d2 rest).trans
      (by simp [decode6, dispOf_packNibbles b1 h1, dispOf_packNibbles b2 h2])
  | mvcsk b1 d1 b2 d2 | mvcdk b1 d1 b2 d2 | tprot b1 d1 b2 d2 =>
    obtain ⟨h1, h2⟩ := Bool.and_eq_true_iff.mp hi
    exact (decode_encodeSse rfl _ b1 d1 b2 d2 rest).trans
      (by simp [decode6, dispOf_packNibbles b1 h1, dispOf_packNibbles b2 h2])
  | lctlg r1 r3 b2 dl2 dh2 | stctg r1 r3 b2 dl2 dh2 =>
    obtain ⟨hl, hh⟩ := Bool.and_eq_true_iff.mp hi
    exact (decode_encodeRsy rfl _ r1 r3 b2 dl2 dh2 rest).trans
      (by simp [decode6, dispOf_packNibbles b2 hl, dispLo_toNat hh])

/-- Settles O2: a word that leaves its unused bits zero is an encoding; the others are read field by field. -/
theorem decodeReadsSpecWords : Obligations.DecodeReadsSpecWords := by
  unfold Obligations.DecodeReadsSpecWords
  refine ⟨?sske, ?sskeUnused, ?pfmfUnused, ?lctl, ?lctlg, ?mvcp, ?mvcsk, ?lpswe, ?bcr, ?unassigned⟩
  case sske => exact decodeEncode (.sske 6 3 4) [] rfl
  case lctl => exact decodeEncode (.lctl 1 3 2 0x567) [] rfl
  case lctlg => exact decodeEncode (.lctlg 1 3 2 0x567 0x89) [] rfl
  case mvcp => exact decodeEncode (.mvcp 1 2 3 0x456 7 0x89A) [] rfl
  case mvcsk => exact decodeEncode (.mvcsk 1 0x234 5 0x678) [] rfl
  case lpswe => exact decodeEncode (.lpswe 12 0x010) [] rfl
  case bcr => exact decodeEncode (.bcr 15 14) [] rfl
  case sskeUnused => exact decode_fourBytes rfl 0x2B 0x1F 0xF0 []
  case pfmfUnused => exact decode_fourBytes rfl 0xAF 0xFF 0x12 []
  case unassigned => exact decode_fourBytes rfl 0x2C 0x00 0x12 []

end Sys2Proof
end

section
/-! PROOFS. The forms of PFMF that are refused (R211, R250, R265). -/

namespace Sys2Proof.Machine

theorem exec_pfmf (r1 r2 : Reg) (s : State) : exec (.pfmf r1 r2) s = execPfmf r1 r2 s := rfl

/-- The facility is asked for before anything else. -/
theorem execPfmf_notInstalled (r1 r2 : Reg) {s : State} (hi : s.installation.edatInstalled = false) :
    execPfmf r1 r2 s = .refused (.facilityNotInstalled "PFMF") := by
  simp [execPfmf, hi]

/-- What is left of PFMF once its two exceptions are excluded: the choice by frame size. -/
theorem execPfmf_permitted (r1 r2 : Reg) {s : State} (hi : s.installation.edatInstalled = true)
    (hp : pswProblem s.psw = false) (hr : frameReserved (s.gpr r1) = false) :
    execPfmf r1 r2 s =
      if frameSize (s.gpr r1) = 0 then pfmfSmall r1 r2 s
      else if r1 = r2 then .refused .frameOperandsSameRegister
      else pfmfLarge r1 r2 s := by
  simp [execPfmf, hi, hp, hr]

/-- Settles O28: the installation decides the first form; the second is the middle branch of `execPfmf_permitted`. -/
theorem pfmfRefusedForms : Obligations.PfmfRefusedForms := by
  unfold Obligations.PfmfRefusedForms
  refine ⟨fun r1 r2 s hi => ?notInstalled, fun r s hi hp hr hz => ?sameRegister⟩
  case notInstalled => rw [exec_pfmf, execPfmf_notInstalled r1 r2 hi]
  case sameRegister => rw [exec_pfmf, execPfmf_permitted r r hi hp hr, if_neg hz, if_pos rfl]

end Sys2Proof.Machine
end

section
/-! PROOFS. What the operand registers of SSKE and PFMF designate (R222, R224, R256), and the write-back of R2
(R234). -/

namespace Sys2Proof.Machine

/-! ## Fields bit by bit -/

/-- Two values agree in a field exactly where they agree in each of its bits, numbered from the right. -/
theorem field_eq_iff {n : Nat} (v w : BitVec n) {a b : Nat} (hab : a ≤ b) (hb : b < n) :
    field v a b = field w a b ↔ ∀ i, n - 1 - b ≤ i → i ≤ n - 1 - a → v.getLsbD i = w.getLsbD i := by
  constructor
  · intro h i hlo hhi
    have hbit := congrArg (BitVec.getLsbD · (i - (n - 1 - b))) h
    simpa [field, show i - (n - 1 - b) < b - a + 1 by omega, show n - 1 - b + (i - (n - 1 - b)) = i by omega] using hbit
  · intro h
    apply BitVec.eq_of_getLsbD_eq
    intro i hi
    simp only [field, BitVec.getLsbD_extractLsb', h (n - 1 - b + i) (by omega) (by omega)]

/-- Values that agree in a field agree in every part of it. -/
theorem field_eq_of_field_eq {n : Nat} {v w : BitVec n} {a b c d : Nat} (h : field v a b = field w a b) (hb : b < n)
    (hac : a ≤ c) (hcd : c ≤ d) (hdb : d ≤ b) : field v c d = field w c d := by
  rw [field_eq_iff v w (by omega) hb] at h
  rw [field_eq_iff v w hcd (by omega)]
  exact fun i hlo hhi => h i (by omega) (by omega)

/-- A field that is put back where it was changes nothing. -/
theorem setField_field {n : Nat} (v : BitVec n) (a b : Nat) : setField v a b (field v a b) = v := by
  apply BitVec.eq_of_getLsbD_eq
  intro i hi
  rw [getLsbD_setField _ _ _ _ hi]
  split
  · simp [field, show i - (n - 1 - b) < b - a + 1 by omega, show n - 1 - b + (i - (n - 1 - b)) = i by omega]
  · rfl

/-- A bit replaced by zero is zero. -/
theorem bitAt_setField_zero {n : Nat} (v : BitVec n) {a : Nat} (ha : a < n) :
    bitAt (setField v a a 0) a = false := by
  have hi : n - 1 - a < n := by omega
  simp [bitAt, BitVec.getMsbD_eq_getLsbD, getLsbD_setField _ _ _ _ hi]

/-! ## The key in a register -/

theorem getLsbD_keyBits (k : StorageKey) (i : Nat) :
    (keyBits k).getLsbD i =
      if i = 0 then k.c else if i = 1 then k.r else if i = 2 then k.f else k.acc.getLsbD (i - 3) := by
  change BitVec.getLsbD (w := 4 + 1 + 1 + 1) _ i = _
  simp only [keyBits, BitVec.getLsbD_append]
  obtain _ | _ | _ | i := i <;> simp

/-- The seven bits say which key it is. -/
theorem keyBits_injective {k l : StorageKey} (h : keyBits k = keyBits l) : k = l := by
  have hbit (i : Nat) := congrArg (BitVec.getLsbD · i) h
  simp only [getLsbD_keyBits] at hbit
  have hacc : k.acc = l.acc := BitVec.eq_of_getLsbD_eq fun i _ => by simpa using hbit (i + 3)
  obtain ⟨acc, f, r, c⟩ := k
  obtain ⟨acc', f', r', c'⟩ := l
  obtain rfl : f = f' := by simpa using hbit 2
  obtain rfl : r = r' := by simpa using hbit 1
  obtain rfl : c = c' := by simpa using hbit 0
  rw [show acc = acc' from hacc]

/-- The key is bits 56-62, ACC leftmost (R222). -/
theorem keyBits_keyOfRegister (r : Word) : keyBits (keyOfRegister r) = field r 56 62 := by
  apply BitVec.eq_of_getLsbD_eq
  intro i hi
  rw [getLsbD_keyBits]
  obtain _ | _ | _ | i := i
  all_goals simp only [keyOfRegister, field, bitAt, BitVec.getMsbD_eq_getLsbD, BitVec.getLsbD_extractLsb']
  · simp
  · simp
  · simp
  · simp [show i < 4 by omega, show 4 + i = 1 + (i + 1 + 1 + 1) by omega, hi]

/-- No other bit of the register matters to the key. -/
theorem keyOfRegister_congr {q r : Word} (h : field q 56 62 = field r 56 62) : keyOfRegister q = keyOfRegister r :=
  keyBits_injective (by rw [keyBits_keyOfRegister, keyBits_keyOfRegister, h])

/-! ## The address in a register -/

/-- Bits 52-63 of the register do not matter to the address (R224). -/
theorem blockAddr_congr {q r : Word} (h : field q 0 51 = field r 0 51) (m : AddressingMode) :
    blockAddr m q = blockAddr m r := by
  rw [field_eq_iff q r (by omega) (by omega)] at h
  apply BitVec.eq_of_getLsbD_eq
  intro i hi
  rw [getLsbD_blockAddr _ _ hi, getLsbD_blockAddr _ _ hi]
  by_cases hlo : 12 ≤ i
  · rw [h i (by omega) (by omega)]
  · simp [hlo]

/-- Bits 0-51 after a write-back depend on no other bit of the register before it. -/
theorem field_writeBack_congr {q r : Word} (h : field q 0 51 = field r 0 51) (m : AddressingMode) (a : Word) :
    field (writeBack m a q) 0 51 = field (writeBack m a r) 0 51 := by
  rw [field_eq_iff _ _ (by omega) (by omega)] at h ⊢
  intro i hlo hhi
  rw [getLsbD_writeBack _ _ _ (by omega), getLsbD_writeBack _ _ _ (by omega), h i hlo hhi]

/-- Zeros to the left of a value do not change its number. -/
theorem toNat_zeros_append {k n : Nat} (x : BitVec n) : ((0 : BitVec k) ++ x).toNat = x.toNat := by
  simp [BitVec.toNat_append]

/-- Settles O37: addresses as numbers, the key by its seven bits, and the write-back field by field. -/
theorem operandsAndWriteBack : Obligations.OperandsAndWriteBack := by
  unfold Obligations.OperandsAndWriteBack
  refine ⟨fun r => ⟨?address24, ?address31, ?address64, keyBits_keyOfRegister r, fun q => keyOfRegister_congr⟩,
    fun a => ⟨toNat_nextBlock .bits24 a, toNat_nextBlock .bits31 a, toNat_nextBlock .bits64 a⟩,
    fun a r => ⟨?writeBack24, ?writeBack31, ?writeBack64⟩⟩
  case address24 =>
    apply BitVec.eq_of_toNat_eq
    rw [toNat_blockAddr, toNat_append_zeros, toNat_zeros_append, toNat_field, modeBits]
    omega
  case address31 =>
    apply BitVec.eq_of_toNat_eq
    rw [toNat_blockAddr, toNat_append_zeros, toNat_zeros_append, toNat_field, modeBits]
    omega
  case address64 => rfl
  case writeBack24 =>
    simp (disch := omega) only [writeBack, field_setField_outside, field_setField_same, and_self]
  case writeBack31 =>
    have hbit : bitAt (writeBack .bits31 a r) 32 = false := by
      simp (disch := omega) only [writeBack, bitAt_setField_outside, bitAt_setField_zero]
    refine ⟨?_, hbit, ?_⟩
    all_goals simp (disch := omega) only [writeBack, field_setField_outside, field_setField_same, and_self]
  case writeBack64 =>
    simp (disch := omega) only [writeBack, field_setField_outside, field_setField_same, and_self]

end Sys2Proof.Machine
end

section
/-! PROOFS. The forms of SSKE and what selects them (R221, R238), the two exceptions that no form gets past (R238,
R269), and the single-block forms (R226 to R230, R236). -/

namespace Sys2Proof.Machine

/-! ## Which form is executed -/

theorem exec_sske (m3 : Mask) (r1 r2 : Reg) (s : State) : exec (.sske m3 r1 r2) s = execSske m3 r1 r2 s := rfl

section
variable {m3 : Mask} {r1 r2 : Reg} {s : State}

theorem execSske_problem (hp : pswProblem s.psw = true) :
    execSske m3 r1 r2 s = raiseInInstruction .privilegedOperation 0 s := by
  simp [execSske, hp]

theorem execSske_multiple (hp : pswProblem s.psw = false) (hb : (sskeControls s.installation m3).mb = true) :
    execSske m3 r1 r2 s = sskeMultiple (sskeControls s.installation m3) r1 r2 s := by
  simp [execSske, hp, hb]

theorem execSske_single (hp : pswProblem s.psw = false) (hb : (sskeControls s.installation m3).mb = false) :
    execSske m3 r1 r2 s =
      if (sskeControls s.installation m3).conditional = true then
        sskeConditional (sskeControls s.installation m3) r1 r2 s
      else sskeUnconditional r1 r2 s := by
  simp [execSske, hp, hb]

end

/-- An exception that suppresses is taken with the instruction address past the instruction (R318). -/
theorem raiseInInstruction_suppressing {e : ProgramException} (he : nullifies e = false) (a : Word) (s : State) :
    raiseInInstruction e a s = takeProgramInterruption e 2 a (s.advance 4) := by
  simp [raiseInInstruction, he]

/-- Settles O15: the problem state is asked for before any operand. -/
theorem problemStateTraps : Obligations.ProblemStateTraps := by
  unfold Obligations.ProblemStateTraps
  intro s hp
  refine ⟨fun m3 r1 r2 => ?sske, fun hi r1 r2 => ?pfmf⟩
  case sske => rw [exec_sske, execSske_problem hp, raiseInInstruction_suppressing rfl]
  case pfmf =>
    have hraise : execPfmf r1 r2 s = raiseInInstruction .privilegedOperation 0 s := by simp [execPfmf, hi, hp]
    rw [exec_pfmf, hraise, raiseInInstruction_suppressing rfl]

/-! ## The block of a single-block form -/

/-- The key block of a single-block form is the real block in R2, where it exists (R224). -/
theorem keyBlock_blockIn (s : State) (r2 : Reg) :
    keyBlock s (blockAddr s.mode (s.gpr r2)) false =
      if s.available (s.realBlockIn r2) = true then some (blockOf (s.realBlockIn r2)) else none := rfl

section
variable {r1 r2 : Reg} {s : State}

theorem sskeUnconditional_unavailable (ha : s.available (s.realBlockIn r2) = false) :
    sskeUnconditional r1 r2 s = raiseInInstruction .addressing 0 s := by
  simp [sskeUnconditional, serialize, keyBlock_blockIn, ha]

theorem sskeConditional_unavailable (c : KeyControls) (ha : s.available (s.realBlockIn r2) = false) :
    sskeConditional c r1 r2 s = raiseInInstruction .addressing 0 s := by
  simp [sskeConditional, serialize, keyBlock_blockIn, ha]

theorem sskeUnconditional_available (ha : s.available (s.realBlockIn r2) = true) :
    sskeUnconditional r1 r2 s = .next ((replaceKey (blockOf (s.realBlockIn r2)) (keyOfRegister (s.gpr r1))
      s.beforeAccess).advance 4) := by
  simp [sskeUnconditional, serialize, keyBlock_blockIn, ha, setKeyBlock_unconditional]

theorem execSske_single_unavailable {m3 : Mask} (hp : pswProblem s.psw = false)
    (hb : (sskeControls s.installation m3).mb = false) (ha : s.available (s.realBlockIn r2) = false) :
    execSske m3 r1 r2 s = raiseInInstruction .addressing 0 s := by
  rw [execSske_single hp hb, sskeConditional_unavailable _ ha, sskeUnconditional_unavailable ha, ite_self]

theorem pfmfSmall_unavailable (hf : (frameSetKey (s.gpr r1) || frameClear (s.gpr r1)) = true)
    (ha : s.available (s.realBlockIn r2) = false) : pfmfSmall r1 r2 s = raiseInInstruction .addressing 0 s := by
  have hunit : frameUnit (s.gpr r1) (applyPrefix s.prefixReg (blockAddr s.mode (s.gpr r2))) s = none := by
    change frameUnit (s.gpr r1) (s.realBlockIn r2) s = none
    simp [frameUnit, hf, ha]
  simp only [pfmfSmall, serialize, hunit]

end

/-- Settles O22: each form that works on one block asks first whether it exists. -/
theorem singleBlockAddressing : Obligations.SingleBlockAddressing := by
  unfold Obligations.SingleBlockAddressing
  intro r1 r2 s hp ha
  refine ⟨fun m3 hb => ?sske, fun hi hr hz hf => ?pfmf⟩
  case sske => rw [exec_sske, execSske_single_unavailable hp hb ha, raiseInInstruction_suppressing rfl]
  case pfmf =>
    rw [exec_pfmf, execPfmf_permitted r1 r2 hi hp hr, if_pos hz, pfmfSmall_unavailable hf ha,
      raiseInInstruction_suppressing rfl]

/-! ## The unconditional single-block form -/

/-- Settles O20: a gap of other agents, which leaves the CPU as it is, and then the replacement of one key. -/
theorem sskeUnconditionalSetsKey : Obligations.SskeUnconditionalSetsKey := by
  unfold Obligations.SskeUnconditionalSetsKey
  intro m3 r1 r2 s hp hb hc ha s0
  obtain ⟨⟨hgprs, hpsw, hcontrols, -, -⟩, -, -, -⟩ := beforeAccess_same s
  have hexec : exec (.sske m3 r1 r2) s = .next ((replaceKey (blockOf (s.realBlockIn r2)) (keyOfRegister (s.gpr r1))
      s0).advance 4) := by
    rw [exec_sske, execSske_single hp hb, if_neg (by simp [hc]), sskeUnconditional_available ha]
  refine ⟨_, hexec, replaceKey_key _ _ _, fun c hne => State.keyState_setKeyState_ne s0 _ hne, hgprs,
    congrArg pswAdvanced hpsw, fun _ => rfl, ⟨sameControls.refl s0, rfl, rfl, rfl, rfl, rfl⟩, hcontrols,
    beforeAccess_alone⟩

/-! ## Setting one key under a mask, no other agent acting: the rows of R226 -/

/-- The bit that is compared, R where `mc`, else C, is that of the new key (R226). -/
abbrev comparedAgrees (mc : Bool) (k new : StorageKey) : Prop := if mc = true then k.r = new.r else k.c = new.c

section
variable {b : Nat} {new : StorageKey} {mr mc : Bool} {s : State}

theorem setKeyBlock_alone_invalid (hi : s.interleaving = []) (hm : (mr || mc) = true)
    (hv : (s.keyState b).cbcInvalid = true) :
    setKeyBlock b new mr mc s = ⟨.fullCbc, s.key b, replaceKey b new (s.drawn 2)⟩ := by
  simp [setKeyBlock, beforeAccess_alone hi, beforeAccess_alone (s := s.drawn 2) hi, hm, hv]

variable (hi : s.interleaving = []) (hm : (mr || mc) = true) (hv : (s.keyState b).cbcInvalid = false)
include hi hm hv

theorem setKeyBlock_alone_accessDiffers (h : (s.key b).acc ≠ new.acc ∨ (s.key b).f ≠ new.f) :
    setKeyBlock b new mr mc s = ⟨.full, s.key b, replaceKey b new (s.drawn 2)⟩ := by
  simp [setKeyBlock, beforeAccess_alone hi, beforeAccess_alone (s := s.drawn 2) hi, hm, hv, h]

variable (hacc : (s.key b).acc = new.acc) (hf : (s.key b).f = new.f)
include hacc hf

/-- Nothing is set where both masks are in effect or the compared bit agrees. -/
theorem setKeyBlock_alone_agrees
    (h : (mr && mc) = true ∨ comparedAgrees mc (s.key b) new) :
    setKeyBlock b new mr mc s = ⟨.notSet, s.key b, s.drawn 2⟩ := by
  by_cases hboth : (mr && mc) = true
  · simp [setKeyBlock, beforeAccess_alone hi, hm, hv, hacc, hf, hboth]
  · have hcompared := h.resolve_left hboth
    simp [setKeyBlock, beforeAccess_alone hi, hm, hv, hacc, hf, hboth, hcompared]

/-- Where the one compared bit differs, the whole key is replaced, or that bit and one left open. -/
theorem setKeyBlock_alone_differs (hone : (mr && mc) = false)
    (h : ¬ comparedAgrees mc (s.key b) new) :
    setKeyBlock b new mr mc s = ⟨.full, s.key b, replaceKey b new (s.drawn 2)⟩ ∨
      ∃ bit, setKeyBlock b new mr mc s =
        ⟨.partialSet, s.key b, adjustKey b (adjustedKey mc new bit (s.key b)) (s.drawn 2)⟩ := by
  cases hfree : Config.freeBit s.draws
  · right
    refine ⟨Config.freeBit (s.draws + 1), ?_⟩
    simp [setKeyBlock, beforeAccess_alone hi, beforeAccess_alone (s := s.drawn 2) hi, hm, hv, hacc, hf, hone, h, hfree]
  · left
    simp [setKeyBlock, beforeAccess_alone hi, beforeAccess_alone (s := s.drawn 2) hi, hm, hv, hacc, hf, hone, h, hfree]

end

/-- A row of the table of R230: the key and the condition code after a conditional SSKE of a valid key. -/
def conditionalRow (c : KeyControls) (old new k : StorageKey) (cc : BitVec 2) : Prop :=
  if old.acc ≠ new.acc ∨ old.f ≠ new.f then k = new ∧ cc = 1
  else if c.mr = true ∧ c.mc = true then k = old ∧ cc = 0
  else if c.mc = true then
    if old.r = new.r then k = old ∧ cc = 0
    else (k = new ∧ cc = 1) ∨ (k.acc = old.acc ∧ k.f = old.f ∧ k.r = new.r ∧ cc = 2)
  else
    if old.c = new.c then k = old ∧ cc = 0
    else (k = new ∧ cc = 1) ∨ (k.acc = old.acc ∧ k.f = old.f ∧ k.c = new.c ∧ cc = 2)

/-- The same with the compared bit named once. -/
theorem conditionalRow_iff {c : KeyControls} {old new k : StorageKey} {cc : BitVec 2} (hacc : old.acc = new.acc)
    (hf : old.f = new.f) :
    conditionalRow c old new k cc ↔
      if (c.mr && c.mc) = true ∨ comparedAgrees c.mc old new then k = old ∧ cc = 0
      else (k = new ∧ cc = 1) ∨
        (k.acc = old.acc ∧ k.f = old.f ∧ comparedAgrees c.mc k new ∧ cc = 2) := by
  cases hmr : c.mr <;> cases hmc : c.mc <;> simp [conditionalRow, comparedAgrees, hacc, hf, hmr, hmc]

/-- Setting a valid key under a mask answers a row of the table, the old key, and a valid key. -/
theorem setKeyBlock_conditionalRow (b : Nat) (new : StorageKey) {c : KeyControls} {s : State}
    (hi : s.interleaving = []) (hc : c.conditional = true) (hv : (s.keyState b).cbcInvalid = false) :
    let res := setKeyBlock b new c.mr c.mc s
    (res.state.keyState b).cbcInvalid = false ∧
      ∃ cc, ccOfOutcome res.outcome = some cc ∧ conditionalRow c (s.key b) new (res.state.key b) cc := by
  have hm : (c.mr || c.mc) = true := hc
  have hwhole : (replaceKey b new (s.drawn 2)).key b = new := congrArg KeyState.key (replaceKey_key b new _)
  by_cases hd : (s.key b).acc ≠ new.acc ∨ (s.key b).f ≠ new.f
  · rw [setKeyBlock_alone_accessDiffers hi hm hv hd]
    refine ⟨by simp, 1, rfl, ?_⟩
    rw [conditionalRow, if_pos hd]
    exact ⟨hwhole, rfl⟩
  obtain ⟨hacc, hf⟩ : (s.key b).acc = new.acc ∧ (s.key b).f = new.f := by simpa using hd
  simp only [conditionalRow_iff hacc hf]
  by_cases ha : (c.mr && c.mc) = true ∨ comparedAgrees c.mc (s.key b) new
  · rw [setKeyBlock_alone_agrees hi hm hv hacc hf ha]
    exact ⟨hv, 0, rfl, by rw [if_pos ha]; exact ⟨rfl, rfl⟩⟩
  obtain ⟨hone, hcompared⟩ := not_or.mp ha
  rcases setKeyBlock_alone_differs hi hm hv hacc hf (by simpa using hone) hcompared with hres | ⟨bit, hres⟩ <;>
    rw [hres]
  · exact ⟨by simp, 1, rfl, by rw [if_neg ha]; exact .inl ⟨hwhole, rfl⟩⟩
  · refine ⟨by simpa using hv, 2, rfl, ?_⟩
    obtain ⟨kacc, kf, kbit⟩ := adjustedKey_keeps c.mc new bit (s.key b)
    rw [if_neg ha]
    right
    simp only [State.key, adjustKey_key]
    exact ⟨kacc, kf, kbit, trivial⟩

/-- What setting a key under a mask answers: the whole key after an invalid checking-block code, else a row of the
table. -/
theorem setKeyBlock_conditional (b : Nat) (new : StorageKey) {c : KeyControls} {s : State} (hi : s.interleaving = [])
    (hc : c.conditional = true) :
    let res := setKeyBlock b new c.mr c.mc s
    (res.state.keyState b).cbcInvalid = false ∧ ∃ cc, ccOfOutcome res.outcome = some cc ∧
      if (s.keyState b).cbcInvalid = true then res.state.key b = new ∧ cc = 3
      else (res.outcome = .notSet ∨ res.outcome = .full ∨ res.outcome = .partialSet) ∧
        conditionalRow c (s.key b) new (res.state.key b) cc := by
  intro res
  by_cases hv : (s.keyState b).cbcInvalid = true
  · have hres : res = _ := setKeyBlock_alone_invalid hi hc hv
    rw [hres]
    exact ⟨by simp, 3, rfl, by rw [if_pos hv]; exact ⟨congrArg KeyState.key (replaceKey_key b new _), rfl⟩⟩
  · have hvalid : (s.keyState b).cbcInvalid = false := by simpa using hv
    obtain ⟨hkey, cc, hcc, hrow⟩ := setKeyBlock_conditionalRow b new hi hc hvalid
    obtain ⟨-, houtcome⟩ := setKeyBlock_valid (b := b) (new := new) (mr := c.mr) (mc := c.mc) (s := s) hc
      (by rwa [beforeAccess_alone hi])
    exact ⟨hkey, cc, hcc, by rw [if_neg hv]; exact ⟨houtcome, hrow⟩⟩

/-! ## The conditional single-block form -/

section
variable {r1 : Reg} {res : SetKeyResult} {cc : BitVec 2} (h : ccOfOutcome res.outcome = some cc)
include h

theorem sskeConditionalResult_psw : (sskeConditionalResult r1 res).psw = pswSetCc res.state.psw cc := by
  unfold sskeConditionalResult
  simp only [h]
  split <;> rfl

/-- R1 is written in bits 48-55 alone (R229). -/
theorem field_sskeConditionalResult_outside {i j : Nat} (hij : i ≤ j) (hj : j < 64) (ho : j < 48 ∨ 55 < i) :
    field ((sskeConditionalResult r1 res).gpr r1) i j = field (res.state.gpr r1) i j := by
  unfold sskeConditionalResult
  simp only [h]
  split
  · simp only [State.gpr_drawn, State.gpr_setCc, State.gpr_setGpr_same]
    rw [field_setField_outside] <;> omega
  · simp only [State.gpr_setCc, State.gpr_setGpr_same, withOldKey]
    rw [field_setField_outside, field_setField_outside] <;> omega

/-- Where the old key is put in R1, bit 55 is zero (R229). -/
theorem bitAt_sskeConditionalResult (ho : res.outcome ≠ .fullCbc) :
    bitAt ((sskeConditionalResult r1 res).gpr r1) 55 = false := by
  unfold sskeConditionalResult
  simp only [h, if_neg ho, State.gpr_setCc, State.gpr_setGpr_same, withOldKey]
  exact bitAt_setField_zero _ (by omega)

theorem sskeConditionalResult_sameGprsBut : sameGprsBut r1 res.state (sskeConditionalResult r1 res) := by
  intro q hq
  unfold sskeConditionalResult
  simp only [h]
  split <;> simp [State.gpr_setGpr_ne _ _ (Ne.symm hq)]

end

/-- Nothing but R1, the condition code and the count of draws is written after the key is set. -/
theorem sskeConditionalResult_frame (r1 : Reg) (res : SetKeyResult) :
    (sskeConditionalResult r1 res).mem = res.state.mem ∧ sameElsewhere res.state (sskeConditionalResult r1 res) := by
  have hsame := sameControls.refl res.state
  unfold sskeConditionalResult
  dsimp only
  split
  · exact ⟨rfl, hsame, rfl, rfl, rfl, rfl, rfl⟩
  · split <;> exact ⟨rfl, hsame, rfl, rfl, rfl, rfl, rfl⟩

/-- What setting a key keeps, no other agent acting. -/
theorem setKeyBlock_alone (b : Nat) (new : StorageKey) (mr mc : Bool) {s : State} (hi : s.interleaving = []) :
    let t := (setKeyBlock b new mr mc s).state
    t.gprs = s.gprs ∧ t.psw = s.psw ∧ t.mem = s.mem ∧ sameKeysBut b s t ∧ sameElsewhere s t := by
  obtain ⟨⟨⟨hgprs, hpsw, hcontrols, htlb, huntried⟩, hpending, henv, halone⟩, hmem, -⟩ :=
    setKeyBlock_keeps b new mr mc s
  obtain ⟨hgaps, hkeys⟩ := halone hi
  exact ⟨hgprs, hpsw, hmem hi, hkeys, hcontrols, htlb, hpending, henv, hgaps.trans hi.symm, huntried⟩

theorem sameElsewhere.trans {s t u : State} (h : sameElsewhere s t) (g : sameElsewhere t u) : sameElsewhere s u := by
  obtain ⟨hcontrols, htlb, hpending, henv, hgaps, huntried⟩ := h
  obtain ⟨gcontrols, gtlb, gpending, genv, ggaps, guntried⟩ := g
  exact ⟨hcontrols.trans gcontrols, gtlb.trans htlb, gpending.trans hpending, genv.trans henv, ggaps.trans hgaps,
    guntried.trans huntried⟩

/-- Settles O21: the rows are those of `setKeyBlock_conditional`; what is then written is R1 and the condition code
(`sskeConditionalResult_frame`). -/
theorem sskeConditionalTable : Obligations.SskeConditionalTable := by
  unfold Obligations.SskeConditionalTable
  intro m3 r1 r2 s c b old new hp hb hc hi ha
  have hexec : exec (.sske m3 r1 r2) s =
      .next ((sskeConditionalResult r1 (setKeyBlock b new c.mr c.mc s)).advance 4) := exec_sske_conditional hp hb hc ha
  obtain ⟨hgprs, hpsw, hmem, hkeys, helse⟩ := setKeyBlock_alone b new c.mr c.mc hi
  have hold := setKeyBlock_old b new c.mr c.mc hi
  obtain ⟨hvalid, cc, hcc, hrow⟩ := setKeyBlock_conditional b new hi hc
  generalize setKeyBlock b new c.mr c.mc s = res at *
  obtain ⟨hframemem, hframe⟩ := sskeConditionalResult_frame r1 res
  have hkey (d : Nat) := sskeConditionalResult_keyState r1 res d
  have hkeyb : (sskeConditionalResult r1 res).key b = res.state.key b := congrArg KeyState.key (hkey b)
  have hgpr (q : Reg) : res.state.gpr q = s.gpr q := congrArg (fun g => g[q.val]) hgprs
  refine ⟨_, cc, hexec, ?psw, ?left, ?right, ?gprs, fun d hd => (hkey d).trans (hkeys d hd),
    (congrArg KeyState.cbcInvalid (hkey b)).trans hvalid, fun x => congrArg (Memory.read · x) (hframemem.trans hmem),
    helse.trans hframe, ?row⟩
  case psw => exact congrArg pswAdvanced ((sskeConditionalResult_psw hcc).trans (by rw [hpsw]))
  case left => exact (field_sskeConditionalResult_outside hcc (by omega) (by omega) (by omega)).trans (by rw [hgpr])
  case right => exact (field_sskeConditionalResult_outside hcc (by omega) (by omega) (by omega)).trans (by rw [hgpr])
  case gprs => exact fun q hq => (sskeConditionalResult_sameGprsBut hcc q hq).trans (hgpr q)
  case row =>
    simp only [State.key_advance, State.gpr_advance, hkeyb]
    split at hrow
    · next hv =>
      rw [if_pos hv]
      exact hrow
    · next hv =>
      rw [if_neg hv]
      obtain ⟨houtcome, hrow⟩ := hrow
      have hne : res.outcome ≠ .fullCbc := by rcases houtcome with ho | ho | ho <;> rw [ho] <;> decide
      exact ⟨(field_sskeConditionalResult r1 houtcome).trans (congrArg keyBits hold),
        bitAt_sskeConditionalResult hcc hne, hrow⟩

end Sys2Proof.Machine
end

section
/-! PROOFS. The run of the multiple-block form of SSKE (R231): a unit sets the key of one block, and what a run in which
no other agent acts can end with. -/

namespace Sys2Proof.Machine

/-! ## The blocks from an address to the megabyte boundary -/

theorem State.megabyteAvailable_iff (s : State) (a : Word) :
    s.megabyteAvailable a = true ↔ ∀ i, i < blocksLeft a → blockAvailable s.installation (blockOf a + i) = true := by
  simp [State.megabyteAvailable]

section
variable {m : AddressingMode} {a : Word} {j : Nat} (ha : isBlockAddress m a) (hj : j < blocksLeft a)
include ha hj

theorem blockFrom_isBlockAddress : isBlockAddress m (blockFrom a j) := by
  obtain ⟨hnat, hlt⟩ := toNat_blockFrom ha hj
  obtain ⟨haligned, -⟩ := ha
  exact ⟨by rw [hnat]; omega, by rw [hnat]; exact hlt⟩

theorem blocksLeft_blockFrom : blocksLeft (blockFrom a j) = blocksLeft a - j := by
  obtain ⟨hnat, -⟩ := toNat_blockFrom ha hj
  obtain ⟨haligned, -⟩ := ha
  simp only [blocksLeft, toNat_blockInMegabyte] at hj ⊢
  omega

theorem nextMegabyte_blockFrom : nextMegabyte m (blockFrom a j) = nextMegabyte m a := by
  obtain ⟨hnat, -⟩ := toNat_blockFrom ha hj
  obtain ⟨haligned, -⟩ := ha
  simp only [blocksLeft, toNat_blockInMegabyte] at hj
  apply BitVec.eq_of_toNat_eq
  rw [toNat_nextMegabyte, toNat_nextMegabyte, hnat,
    show (a.toNat + 4096 * j) / 1048576 = a.toNat / 1048576 by omega]

end

theorem blockFrom_blockFrom (a : Word) (j i : Nat) : blockFrom (blockFrom a j) i = blockFrom a (j + i) := by
  rw [blockFrom, blockFrom, blockFrom, BitVec.add_assoc, ← BitVec.ofNat_add, Nat.mul_add]

theorem addressAfter_of_lt {a : Word} {k : Nat} (hk : k < blocksLeft a) (m : AddressingMode) :
    addressAfter m a k = blockFrom a k := if_pos hk

theorem addressAfter_blocksLeft (m : AddressingMode) (a : Word) : addressAfter m a (blocksLeft a) = nextMegabyte m a :=
  if_neg (Nat.lt_irrefl _)

/-! ## A run in which no other agent acts -/

/-- Where the unit works on a block, no other agent acting, it keeps what work on a block keeps and does `post`. -/
def unitSound (unit : Word → State → Option State) (post : Nat → State → State → Prop) (a : Word) (i : Nat) : Prop :=
  ∀ t u : State, t.interleaving = [] → unit (blockFrom a i) t = some u →
    blockKeeps (blockOf a + i) t u ∧ (∀ x, x / 4096 ≠ blockOf a + i → u.byte x = t.byte x) ∧ post i t u

/-- What a run over the blocks from `a` can end with: all of them done; some of them, short of the boundary, at an
interruption; or those before a block that cannot be worked on. Only the second can end with something pending that was
not pending before. -/
def runEnds (unit : Word → State → Option State) (post : Nat → State → State → Prop) (m : AddressingMode) (r2 : Reg)
    (a : Word) (s : State) : BlockRun → Prop
  | .completed t => blocksDone post m r2 a (blocksLeft a) s t ∧ (s.asyncPending = none → t.asyncPending = none)
  | .interrupted t => ∃ k, 0 < k ∧ k < blocksLeft a ∧ blocksDone post m r2 a k s t
  | .addressing t => ∃ k, k < blocksLeft a ∧ blocksDone post m r2 a k s t ∧ unit (blockFrom a k) t = none ∧
      (s.asyncPending = none → t.asyncPending = none)

/-- The state after the unit has worked on the block at `addr`: R2 designates the next block. -/
def nextInR2 (m : AddressingMode) (r2 : Reg) (addr : Word) (u : State) : State :=
  u.setGpr r2 (writeBack m (nextBlock m addr) (u.gpr r2))

section
variable {unit : Word → State → Option State} {post : Nat → State → State → Prop} {m : AddressingMode} {r2 : Reg}

theorem runBlocks_none {addr : Word} {t : State} (h : unit addr t = none) (fuel : Nat) :
    runBlocks unit m r2 (fuel + 1) addr t = .addressing t := by
  rw [runBlocks, h]

theorem runBlocks_last {addr : Word} {t u : State} (h : unit addr t = some u)
    (hb : blockInMegabyte (nextBlock m addr) = 0) (fuel : Nat) :
    runBlocks unit m r2 (fuel + 1) addr t = .completed (nextInR2 m r2 addr u) := by
  rw [runBlocks, h]
  exact if_pos hb

theorem runBlocks_next {addr : Word} {t u : State} (h : unit addr t = some u)
    (hb : blockInMegabyte (nextBlock m addr) ≠ 0) (fuel : Nat) :
    runBlocks unit m r2 (fuel + 1) addr t =
      if (nextInR2 m r2 addr u).atBoundary.asyncPending.isSome = true then
        .interrupted (nextInR2 m r2 addr u).atBoundary
      else runBlocks unit m r2 fuel (nextBlock m addr) (nextInR2 m r2 addr u).atBoundary := by
  rw [runBlocks, h]
  exact if_neg hb

variable {a : Word} {s : State}

/-- A run goes on from the block it has come to. -/
theorem runBlocks_ends_from (ha : isBlockAddress m a) (hunit : ∀ i, i < blocksLeft a → unitSound unit post a i)
    (fuel k : Nat) {t : State} (hk : k < blocksLeft a) (hfuel : blocksLeft a ≤ k + fuel)
    (hdone : blocksDone post m r2 a k s t) (henv : ∀ b ∈ t.environment, b.actions = [])
    (hpending : s.asyncPending = none → t.asyncPending = none) :
    runEnds unit post m r2 a s (runBlocks unit m r2 fuel (blockFrom a k) t) := by
  induction fuel generalizing k t with
  | zero => omega
  | succ fuel ih =>
    cases hu : unit (blockFrom a k) t with
    | none =>
      rw [runBlocks_none hu]
      exact ⟨k, hk, hdone, hu, hpending⟩
    | some u =>
      obtain ⟨-, -, -, -, hgaps, -⟩ := id hdone
      obtain ⟨hkeeps, hbytes, hpost⟩ := hunit k hk t u hgaps hu
      have hdone1 {v : State} (hv : cpuSame (nextInR2 m r2 (blockFrom a k) u) v) :=
        blocksDone_succ ha hk hdone hkeeps hbytes hpost hv
      obtain ⟨-, hupending, huenv, hualone⟩ := hkeeps
      by_cases hlast : k + 1 = blocksLeft a
      · obtain ⟨hboundary, hzero⟩ := nextBlock_last ha hlast
        rw [runBlocks_last hu (by rw [hboundary, hzero])]
        exact ⟨hlast ▸ hdone1 (cpuSame.refl _) rfl rfl rfl, fun hp => hupending.trans (hpending hp)⟩
      · have hk1 : k + 1 < blocksLeft a := by omega
        obtain ⟨haddress, hshort⟩ := nextBlock_blockFrom ha hk1
        rw [runBlocks_next hu (by rwa [haddress]), haddress]
        have hunshared : (nextInR2 m r2 (blockFrom a k) u).unshared :=
          ⟨fun b hb => henv b (huenv ▸ hb), (hualone hgaps).1⟩
        have hsame := (atBoundary_same (nextInR2 m r2 (blockFrom a k) u)).1
        obtain ⟨p, env, hat, hacts⟩ := atBoundary_unshared hunshared
        have hdone' : blocksDone post m r2 a (k + 1) s (nextInR2 m r2 (blockFrom a k) u).atBoundary :=
          hdone1 hsame (by rw [hat]; rfl) (by rw [hat]; rfl) (by rw [hat]; rfl)
        split
        · exact ⟨k + 1, by omega, hk1, hdone'⟩
        · next hnone =>
          exact ih (k + 1) hk1 (by omega) hdone' (by rw [hat]; exact hacts) fun _ => by simpa using hnone

/-- What a run can end with, no other agent acting. -/
theorem runBlocks_ends (ha : isBlockAddress m a) (hs : s.unshared)
    (hunit : ∀ i, i < blocksLeft a → unitSound unit post a i) :
    runEnds unit post m r2 a s (runBlocks unit m r2 blocksInMegabyte a s) := by
  obtain ⟨hpos, hmax⟩ := blocksLeft_bounds a
  obtain ⟨henv, hgaps⟩ := hs
  have h := runBlocks_ends_from ha hunit blocksInMegabyte 0 hpos (by rw [Nat.zero_add]; exact hmax)
    (blocksDone_zero post m r2 a hgaps) henv id
  rwa [blockFrom_zero] at h

end

/-! ## The unit of SSKE -/

/-- The unit of SSKE on the block `i` blocks from `a`: its key is set as R226 says, and no byte changes. -/
def setsKey (c : KeyControls) (new : StorageKey) (a : Word) (i : Nat) (p q : State) : Prop :=
  keyMayBecome c new (p.keyState (blockOf a + i)) (q.keyState (blockOf a + i)) ∧ q.mem = p.mem ∧
    blockAvailable p.installation (blockOf a + i) = true

section
variable {m : AddressingMode} {a : Word} {i : Nat} (ha : isBlockAddress m a) (hi : i < blocksLeft a)
  (c : KeyControls) (new : StorageKey)
include ha hi

theorem sskeUnit_blockFrom (t : State) :
    sskeUnit new c (blockFrom a i) t =
      if blockAvailable t.installation (blockOf a + i) = true then
        some (setKeyBlock (blockOf a + i) new c.mr c.mc t).state
      else none := by
  simp only [sskeUnit, keyBlock_absolute, State.available, blockOf_blockFrom ha hi]
  split <;> rfl

theorem sskeUnit_sound : unitSound (sskeUnit new c) (setsKey c new a) a i := by
  intro t u hgaps h
  rw [sskeUnit_blockFrom ha hi] at h
  split at h
  · next hav =>
    cases h
    obtain ⟨hkeeps, hmem, -⟩ := setKeyBlock_keeps (blockOf a + i) new c.mr c.mc t
    exact ⟨hkeeps, fun x _ => congrArg (Memory.read · x) (hmem hgaps), setKeyBlock_key _ new c hgaps, hmem hgaps, hav⟩
  · cases h

theorem sskeUnit_works {s : State} (hav : blockAvailable s.installation (blockOf a + i) = true) :
    unitWorks (sskeUnit new c) (setsKey c new a) a s i := by
  intro t hinst hgaps
  have hu : sskeUnit new c (blockFrom a i) t = some _ := (sskeUnit_blockFrom ha hi c new t).trans (if_pos (hinst ▸ hav))
  exact ⟨_, hu, sskeUnit_sound ha hi c new t _ hgaps hu⟩

theorem sskeUnit_eq_none_iff (t : State) :
    sskeUnit new c (blockFrom a i) t = none ↔ blockAvailable t.installation (blockOf a + i) = false := by
  rw [sskeUnit_blockFrom ha hi]
  split <;> simp_all

end

end Sys2Proof.Machine
end

section
/-! PROOFS. The multiple-block form of SSKE: what it leaves when it completes, is interrupted, or meets a block that
does not exist (R231 to R237). -/

namespace Sys2Proof.Machine

/-! ## What is left after a number of blocks -/

/-- From `s` to `t` the multiple-block form is done with `n` blocks from `a` and leaves `w` in R2 and, with a mask bit
in effect, the condition code `cc`; the instruction address is that of `s`. -/
structure SskeLeaves (c : KeyControls) (new : StorageKey) (r1 r2 : Reg) (a : Word) (n : Nat) (w : Word) (cc : BitVec 2)
    (s t : State) : Prop where
  keys : blocksKeyed c new a n s t
  registers : registersAfterSske c r1 r2 w s t
  psw : t.psw = if c.conditional = true then pswSetCc s.psw cc else s.psw
  storage : sameStorage s t
  controls : sameControls s t
  tlb : t.tlb = s.tlb
  untried : t.newPswUntried = s.newPswUntried

/-- The condition code is one that may be set, and its own where no mask bit is in effect. -/
theorem SskeLeaves.psw_setCc {c : KeyControls} {new : StorageKey} {r1 r2 : Reg} {a : Word} {n : Nat} {w : Word}
    {cc : BitVec 2} {s t : State} (h : SskeLeaves c new r1 r2 a n w cc s t) :
    ∃ cc', t.psw = pswSetCc s.psw cc' ∧ (c.conditional = false → cc' = pswCc s.psw) := by
  have hpsw := h.psw
  split at hpsw
  · next hc => exact ⟨cc, hpsw, fun hn => absurd hc (by simp [hn])⟩
  · exact ⟨pswCc s.psw, hpsw.trans (setField_field s.psw 18 19).symm, fun _ => rfl⟩

/-! ## R1 and the condition code at the end (R233, R236, R237) -/

section
variable (c : KeyControls) (r1 r2 : Reg) (cc : BitVec 2) (s : State)

/-- Nothing but R1, the condition code and the count of draws is written at the end. -/
theorem sskeMultipleResult_frame :
    (sskeMultipleResult c r1 r2 cc s).mem = s.mem ∧ (sskeMultipleResult c r1 r2 cc s).keys = s.keys ∧
      sameElsewhere s (sskeMultipleResult c r1 r2 cc s) := by
  unfold sskeMultipleResult
  split <;> exact ⟨rfl, rfl, sameControls.refl s, rfl, rfl, rfl, rfl, rfl⟩

theorem sskeMultipleResult_psw :
    (sskeMultipleResult c r1 r2 cc s).psw = if c.conditional = true then pswSetCc s.psw cc else s.psw := by
  unfold sskeMultipleResult
  split <;> rfl

theorem sskeMultipleResult_sameGprsBut : sameGprsBut r1 s (sskeMultipleResult c r1 r2 cc s) := by
  intro q hq
  unfold sskeMultipleResult sskeFreeR1
  split
  · exact State.gpr_setGpr_ne s _ (Ne.symm hq)
  · rfl

variable {c} in
theorem sskeMultipleResult_unconditional (hc : c.conditional = false) : sskeMultipleResult c r1 r2 cc s = s := by
  simp [sskeMultipleResult, hc]

variable {r1 r2} in
/-- Only bits 48-55 of R1 are written, and where R1 is R2 only bits 52-55. -/
theorem field_sskeMultipleResult {i j : Nat} (hij : i ≤ j) (hj : j < 64) (h : j < 48 ∨ 55 < i ∨ r1 = r2 ∧ j < 52) :
    field ((sskeMultipleResult c r1 r2 cc s).gpr r1) i j = field (s.gpr r1) i j := by
  unfold sskeMultipleResult sskeFreeR1
  split
  · simp only [State.gpr_setCc, State.gpr_drawn, State.gpr_setGpr_same]
    split
    · exact field_setField_outside _ _ (by omega) hj (by omega) hij (by omega)
    · next hne =>
      have hoff : j < 48 ∨ 55 < i := by simpa [hne] using h
      exact field_setField_outside _ _ (by omega) hj (by omega) hij hoff
  · rfl

end

/-- The registers at the end of a run that leaves `w` in R2, bits 52-63 kept. -/
theorem registersAfterSske_result (c : KeyControls) (r1 : Reg) {r2 : Reg} (cc : BitVec 2) {w : Word} {s t : State}
    (hr2 : t.gpr r2 = w) (hothers : sameGprsBut r2 s t) (hw : field w 52 63 = field (s.gpr r2) 52 63) :
    registersAfterSske c r1 r2 w s (sskeMultipleResult c r1 r2 cc t) := by
  have hsame := sskeMultipleResult_sameGprsBut c r1 r2 cc t
  refine ⟨fun hc => ?unconditional, ?address, fun hne => ⟨?right, ?left⟩, ?key, fun q h1 h2 => ?others⟩
  case unconditional =>
    rw [sskeMultipleResult_unconditional r1 r2 cc t hc]
    exact ⟨hr2, hothers⟩
  case address =>
    by_cases he : r1 = r2
    · subst he
      rw [field_sskeMultipleResult c cc t (by omega) (by omega) (.inr (.inr ⟨rfl, by omega⟩)), hr2]
    · rw [hsame r2 (Ne.symm he), hr2]
  case right => rw [hsame r2 (Ne.symm hne), hr2, hw]
  case left => rw [field_sskeMultipleResult c cc t (by omega) (by omega) (.inl (by omega)), hothers r1 hne]
  case key =>
    rw [field_sskeMultipleResult c cc t (by omega) (by omega) (.inr (.inl (by omega)))]
    by_cases he : r1 = r2
    · subst he
      rw [hr2]
      exact field_eq_of_field_eq hw (by omega) (by omega) (by omega) (by omega)
    · rw [hothers r1 he]
  case others => rw [hsame q h1, hothers q h2]

section
variable {c : KeyControls} {new : StorageKey} {m : AddressingMode} {r2 : Reg} {a : Word} {k : Nat} {s t : State}

/-- The keys after a run are those of its blocks, set as R226 says. -/
theorem blocksDone.blocksKeyed (h : blocksDone (setsKey c new a) m r2 a k s t) : blocksKeyed c new a k s t := by
  obtain ⟨-, -, -, -, -, -, -, hothers, -, hblocks⟩ := h
  refine ⟨fun i hi => ?_, hothers⟩
  obtain ⟨p, q, hbefore, -, -, -, ⟨hkey, -, -⟩, hafter, -⟩ := hblocks i hi
  rwa [hafter, ← hbefore]

/-- A run of SSKE writes no storage. -/
theorem blocksDone.sameStorage (h : blocksDone (setsKey c new a) m r2 a k s t) : sameStorage s t := by
  obtain ⟨-, -, -, -, -, -, -, -, hothers, hblocks⟩ := h
  intro x
  by_cases hx : x / 4096 < blockOf a ∨ blockOf a + k ≤ x / 4096
  · exact hothers x hx
  · have hblock : x / 4096 = blockOf a + (x / 4096 - blockOf a) := by omega
    obtain ⟨p, q, -, hbefore, -, -, ⟨-, hmem, -⟩, -, hafter⟩ := hblocks (x / 4096 - blockOf a) (by omega)
    exact (hafter x hblock).trans ((congrArg (Memory.read · x) hmem).trans (hbefore x hblock))

/-- The blocks that a run of SSKE is done with exist. -/
theorem blocksDone.available (h : blocksDone (setsKey c new a) m r2 a k s t) {i : Nat} (hi : i < k) :
    blockAvailable s.installation (blockOf a + i) = true := by
  obtain ⟨-, -, -, -, -, -, -, -, -, hblocks⟩ := h
  obtain ⟨p, q, -, -, hinst, -, ⟨-, -, hav⟩, -, -⟩ := hblocks i hi
  rwa [← hinst]

end

/-- The address in R2 after a run over `k` blocks: as it was where none is done. -/
def addressLeft (m : AddressingMode) (a : Word) (k : Nat) (r : Word) : Word :=
  if k = 0 then r else writeBack m (addressAfter m a k) r

theorem field_addressLeft (m : AddressingMode) (a : Word) (k : Nat) (r : Word) :
    field (addressLeft m a k r) 52 63 = field r 52 63 := by
  unfold addressLeft
  split
  · rfl
  · exact field_writeBack m _ r (by omega) (by omega) (by omega)

/-- A run of the multiple-block form, and then its end. -/
theorem blocksDone.sskeLeaves {c : KeyControls} {new : StorageKey} {m : AddressingMode} {r1 r2 : Reg} {a : Word}
    {k : Nat} {s t : State} (h : blocksDone (setsKey c new a) m r2 a k s t) (cc : BitVec 2) :
    SskeLeaves c new r1 r2 a k (addressLeft m a k (s.gpr r2)) cc s (sskeMultipleResult c r1 r2 cc t) := by
  obtain ⟨hkeyed, hkeyedElse⟩ := h.blocksKeyed
  have hstorage := h.sameStorage
  obtain ⟨hpsw, hcontrols, htlb, huntried, -, hothers, hr2, -, -, -⟩ := h
  obtain ⟨hmem, hkeys, gcontrols, gtlb, -, -, -, guntried⟩ := sskeMultipleResult_frame c r1 r2 cc t
  have hkey (b : Nat) : (sskeMultipleResult c r1 r2 cc t).keyState b = t.keyState b := congrArg (Keys.read · b) hkeys
  exact {
    keys := ⟨fun i hi => hkey _ ▸ hkeyed i hi, fun b hb => (hkey b).trans (hkeyedElse b hb)⟩
    registers := registersAfterSske_result c r1 cc hr2 hothers (field_addressLeft m a k _)
    psw := hpsw ▸ sskeMultipleResult_psw c r1 r2 cc t
    storage := fun x => (congrArg (Memory.read · x) hmem).trans (hstorage x)
    controls := hcontrols.trans gcontrols
    tlb := gtlb.trans htlb
    untried := guntried.trans huntried }

/-! ## The three ends of the multiple-block form -/

/-- The run of the multiple-block form, from the block that R2 designates. -/
def sskeRun (c : KeyControls) (r1 r2 : Reg) (s : State) : BlockRun :=
  runBlocks (sskeUnit (keyOfRegister (s.gpr r1)) c) s.mode r2 blocksInMegabyte (s.blockIn r2) s

/-- What SSKE leaves, its operands given: the key and the address are in R1 and R2 of `s`. -/
abbrev SskeLeft (m3 : Mask) (r1 r2 : Reg) (n : Nat) (w : Word) (cc : BitVec 2) (s t : State) : Prop :=
  SskeLeaves (sskeControls s.installation m3) (keyOfRegister (s.gpr r1)) r1 r2 (s.blockIn r2) n w cc s t

section
variable {c : KeyControls} {r1 r2 : Reg} {s t : State}

theorem sskeMultiple_completed
    (h : sskeRun c r1 r2 s = .completed t) :
    sskeMultiple c r1 r2 s = .next ((sskeMultipleResult c r1 r2 ccMultiple t).advance 4) := by
  rw [sskeRun, State.blockIn] at h
  simp only [sskeMultiple, serialize, h]

theorem sskeMultiple_interrupted
    (h : sskeRun c r1 r2 s = .interrupted t) :
    sskeMultiple c r1 r2 s = .next (sskeMultipleResult c r1 r2 (ccInterrupted t) t) := by
  rw [sskeRun, State.blockIn] at h
  simp only [sskeMultiple, serialize, h]

theorem sskeMultiple_addressing
    (h : sskeRun c r1 r2 s = .addressing t) :
    sskeMultiple c r1 r2 s =
      takeProgramInterruption .addressing 2 0 ((sskeMultipleResult c r1 r2 (ccInterrupted t) t).advance 4) := by
  rw [sskeRun, State.blockIn] at h
  simp only [sskeMultiple, serialize, h, raiseInInstruction_suppressing (e := .addressing) rfl]

end

section
variable {m3 : Mask} {r1 r2 : Reg} {s : State}

/-- What R2 is left with at the boundary. -/
theorem addressLeft_blocksLeft (m : AddressingMode) (a r : Word) :
    addressLeft m a (blocksLeft a) r = writeBack m (nextMegabyte m a) r := by
  obtain ⟨hpos, -⟩ := blocksLeft_bounds a
  rw [addressLeft, if_neg (by omega), addressAfter_blocksLeft]

/-- What R2 is left with short of the boundary. -/
theorem addressLeft_of_lt {a : Word} {k : Nat} (hk : k < blocksLeft a) (m : AddressingMode) (r : Word) :
    addressLeft m a k r = if k = 0 then r else writeBack m (blockFrom a k) r := by
  rw [addressLeft, addressAfter_of_lt hk]

variable (hp : pswProblem s.psw = false) (hb : (sskeControls s.installation m3).mb = true)
include hp hb

/-- On a machine left to itself the multiple-block form completes where all its blocks exist (R231, R236). -/
theorem exec_sske_completes (r1 : Reg) (hq : s.quiet) (ha : s.megabyteAvailable (s.blockIn r2) = true) :
    ∃ t, exec (.sske m3 r1 r2) s = .next (t.advance 4) ∧ t.quiet ∧
      SskeLeft m3 r1 r2 (blocksLeft (s.blockIn r2))
        (writeBack s.mode (nextMegabyte s.mode (s.blockIn r2)) (s.gpr r2)) ccMultiple s t := by
  have haddr : isBlockAddress s.mode (s.blockIn r2) := blockAddr_isBlockAddress s.mode _
  rw [State.megabyteAvailable_iff] at ha
  obtain ⟨t, hrun, hdone, hpending, henv, hgaps⟩ := runBlocks_completes (r2 := r2) haddr hq fun i hi =>
    sskeUnit_works haddr hi (sskeControls s.installation m3) (keyOfRegister (s.gpr r1)) (ha i hi)
  obtain ⟨-, -, -, -, gpending, genv, ggaps, -⟩ :=
    sskeMultipleResult_frame (sskeControls s.installation m3) r1 r2 ccMultiple t
  refine ⟨_, ?_, ⟨gpending.trans hpending, genv.trans henv, ggaps.trans hgaps⟩,
    addressLeft_blocksLeft s.mode (s.blockIn r2) (s.gpr r2) ▸ hdone.sskeLeaves ccMultiple⟩
  rw [exec_sske, execSske_multiple hp hb, sskeMultiple_completed hrun]

/-- On a machine left to itself it ends in the addressing exception at the first block that does not exist (R235). -/
theorem exec_sske_missing (r1 : Reg) {k : Nat} (hq : s.quiet) (hk : k < blocksLeft (s.blockIn r2))
    (ha : ∀ i, i < k → blockAvailable s.installation (blockOf (s.blockIn r2) + i) = true)
    (hn : blockAvailable s.installation (blockOf (s.blockIn r2) + k) = false) :
    ∃ t cc, exec (.sske m3 r1 r2) s = takeProgramInterruption .addressing 2 0 (t.advance 4) ∧ t.quiet ∧
      SskeLeft m3 r1 r2 k
        (if k = 0 then s.gpr r2 else writeBack s.mode (blockFrom (s.blockIn r2) k) (s.gpr r2)) cc s t := by
  have haddr : isBlockAddress s.mode (s.blockIn r2) := blockAddr_isBlockAddress s.mode _
  obtain ⟨t, hrun, hdone, hpending, henv, hgaps⟩ := runBlocks_addressing (r2 := r2) haddr hq hk
    (fun i hi =>
      sskeUnit_works haddr (hi.trans hk) (sskeControls s.installation m3) (keyOfRegister (s.gpr r1)) (ha i hi))
    (fun t hinst => (sskeUnit_eq_none_iff haddr hk _ _ t).mpr (hinst ▸ hn))
  obtain ⟨-, -, -, -, gpending, genv, ggaps, -⟩ :=
    sskeMultipleResult_frame (sskeControls s.installation m3) r1 r2 (ccInterrupted t) t
  refine ⟨_, ccInterrupted t, ?_, ⟨gpending.trans hpending, genv.trans henv, ggaps.trans hgaps⟩,
    addressLeft_of_lt hk s.mode (s.gpr r2) ▸ hdone.sskeLeaves (ccInterrupted t)⟩
  rw [exec_sske, execSske_multiple hp hb, sskeMultiple_addressing hrun]

end

/-- What a machine left to itself has pending and scheduled is the same as soon as it is left to itself again. -/
theorem SskeLeaves.sameElsewhere {c : KeyControls} {new : StorageKey} {r1 r2 : Reg} {a : Word} {n : Nat} {w : Word}
    {cc : BitVec 2} {s t : State} (h : SskeLeaves c new r1 r2 a n w cc s t) (hs : s.quiet) (ht : t.quiet) :
    sameElsewhere s t := by
  obtain ⟨hpending, henv, hgaps⟩ := hs
  obtain ⟨gpending, genv, ggaps⟩ := ht
  exact ⟨h.controls, h.tlb, gpending.trans hpending.symm, genv.trans henv.symm, ggaps.trans hgaps.symm, h.untried⟩

/-- Without a mask bit in effect the key becomes the new one (R227, R228). -/
theorem keyMayBecome_unconditional {c : KeyControls} (hc : c.conditional = false) {new : StorageKey}
    {old k : KeyState} (h : keyMayBecome c new old k) : k = ⟨new, false⟩ := by
  obtain ⟨hvalid, hkey⟩ := h
  rw [if_pos (.inl hc)] at hkey
  rw [← hkey, ← hvalid]

/-- Settles O23: the completed form, each key and R2 as they are without a mask bit. -/
theorem sskeMultipleSetsKeys : Obligations.SskeMultipleSetsKeys := by
  unfold Obligations.SskeMultipleSetsKeys
  intro m3 r1 r2 s a hp hb hc hq ha
  obtain ⟨t, hexec, htq, h⟩ := exec_sske_completes hp hb r1 hq ha
  obtain ⟨hkeyed, hothers⟩ := h.keys
  obtain ⟨hregisters, -⟩ := h.registers
  obtain ⟨hr2, hgprs⟩ := hregisters hc
  have hpsw : t.psw = s.psw := by rw [h.psw, if_neg (by simp [hc])]
  exact ⟨_, hexec, fun i hi => keyMayBecome_unconditional hc (hkeyed i hi), hothers, hr2, hgprs,
    congrArg pswAdvanced hpsw, h.storage, h.sameElsewhere hq htq⟩

/-- Settles O24: the completed form with a mask bit in effect. -/
theorem sskeMultipleConditional : Obligations.SskeMultipleConditional := by
  unfold Obligations.SskeMultipleConditional
  intro m3 r1 r2 s c a hp hb hc hq ha
  obtain ⟨t, hexec, htq, h⟩ := exec_sske_completes hp hb r1 hq ha
  have hpsw : t.psw = pswSetCc s.psw 3 := by rw [h.psw, if_pos hc]; rfl
  exact ⟨_, hexec, congrArg pswAdvanced hpsw, h.keys, h.registers, h.storage, h.sameElsewhere hq htq⟩

/-- Settles O25: the run stops at the boundary after block `k + 1`, and what it is then done with is left. -/
theorem sskeInterrupted : Obligations.SskeInterrupted := by
  unfold Obligations.SskeInterrupted
  intro m3 r1 r2 s k p rest c a hp hb hpending hgaps henv hk ha
  have haddr : isBlockAddress s.mode a := blockAddr_isBlockAddress s.mode _
  rw [State.megabyteAvailable_iff] at ha
  obtain ⟨t, hrun, hdone, htpending, htenv⟩ := runBlocks_interrupted (r2 := r2) haddr hpending hgaps henv hk fun i hi =>
    sskeUnit_works haddr (hi.trans hk) c (keyOfRegister (s.gpr r1)) (ha i (hi.trans hk))
  have h := hdone.sskeLeaves (r1 := r1) (ccInterrupted t)
  rw [addressLeft_of_lt hk, if_neg (by omega)] at h
  obtain ⟨-, -, -, -, gpending, genv, -, -⟩ := sskeMultipleResult_frame c r1 r2 (ccInterrupted t) t
  refine ⟨_, ?_, gpending.trans htpending, genv.trans htenv, h.keys, h.registers, h.psw_setCc, h.storage, h.controls⟩
  rw [exec_sske, execSske_multiple hp hb, sskeMultiple_interrupted hrun]

/-- Settles O26: the run stops before the block that does not exist, and what it is then done with is left. -/
theorem sskeMultipleAddressing : Obligations.SskeMultipleAddressing := by
  unfold Obligations.SskeMultipleAddressing
  intro m3 r1 r2 s k c a w hp hb hq hk ha hn
  obtain ⟨u, cc, hexec, huq, h⟩ := exec_sske_missing hp hb r1 hq hk ha hn
  exact ⟨u, hexec, h.keys, h.registers, h.psw_setCc, h.storage, h.sameElsewhere hq huq⟩

end Sys2Proof.Machine
end

section
/-! PROOFS. How an execution of SSKE can end, no other agent acting; that it writes no storage (R220, R242); and that an
interrupted one, executed again, ends as if it had not been interrupted (R232). -/

namespace Sys2Proof.Machine

/-! ## The storage that a program interruption writes (R313) -/

/-- A swap whose first store is made finds the page of the assigned locations available. -/
theorem prefixAreaAvailable_of_programSwap {e : ProgramException} {ilc : BitVec 2} {a : Word} {s t : State}
    (h : programSwap e ilc a s = some t) : s.prefixAreaAvailable = true := by
  obtain ⟨u, hstore, -⟩ := Option.bind_eq_some_iff.mp h
  obtain ⟨h0, -, hl, -⟩ := location_low .program
  unfold storeReal absStore at hstore
  split at hstore
  · next hav =>
    have hfirst := State.availableMany_first (by simp) hav
    rw [(beforeAccess_same s).1.available, State.available, blockOf_assigned s h0 (by omega)] at hfirst
    rwa [State.prefixAreaAvailable, State.available, blockOf_prefixArea]
  · cases hstore

/-- Bytes stored at an assigned location lie in one block. -/
theorem read_writeMany_assigned {s : State} {x : Nat} (hx : x / 4096 ≠ 2 * s.prefixReg.toNat) (m : List Host.Cell)
    {loc : Word} {bs : List Byte} (h0 : field loc 0 50 = 0) (hl : (field loc 51 63).toNat + bs.length ≤ 4096) :
    Memory.read (Memory.writeMany m (assigned s loc) bs) x = Memory.read m x := by
  have hloc := assigned_eq s h0
  exact Memory.read_writeMany_outside m _ bs x (by omega)

/-- The stores of a program interruption lie in the block of the assigned locations. -/
theorem read_programStores_outside (e : ProgramException) (ilc : BitVec 2) (a : Word) {s : State} {x : Nat}
    (hx : x / 4096 ≠ 2 * s.prefixReg.toNat) : Memory.read (programStores e ilc a s) x = s.byte x := by
  obtain ⟨c0, i0, t0, cl, il, tl, ol, -⟩ := pgm_low
  obtain ⟨o0, -, -, -⟩ := location_low .program
  have hthree := (read_writeMany_assigned hx (Memory.writeMany (Memory.writeMany s.mem
      (assigned s (Config.oldPswLocation .program)) (bytesOf 16 s.psw)) (assigned s Config.codeLocation)
      (bytesOf 2 (exceptionCode e))) (bs := [ilcByte ilc]) i0 (by simp [il])).trans <|
    (read_writeMany_assigned hx _ c0 (by simp [cl])).trans
      (read_writeMany_assigned hx s.mem (bs := bytesOf 16 s.psw) o0 (by simp [ol]))
  unfold programStores
  dsimp only
  split
  · exact (read_writeMany_assigned hx _ t0 (by simp [tl])).trans hthree
  · exact hthree

/-- A program interruption changes no byte outside the page of the assigned locations. -/
theorem takeProgramInterruption_byte {e : ProgramException} {ilc : BitVec 2} {a : Word} {s t : State}
    (hi : s.interleaving = []) (h : takeProgramInterruption e ilc a s = .next t) {x : Nat}
    (hx : x / 4096 ≠ blockOf (applyPrefix s.prefixReg 0)) : t.byte x = s.byte x := by
  rw [blockOf_prefixArea] at hx
  unfold takeProgramInterruption at h
  split at h
  · next u hu =>
    cases h
    obtain ⟨v, hv, hmem, -, -⟩ :=
      programSwap_eq (e := e) (ilc := ilc) (a := a) hi (prefixAreaAvailable_of_programSwap hu)
    cases hu.symm.trans hv
    exact (congrArg (Memory.read · x) hmem).trans (read_programStores_outside e ilc a hx)
  · cases h

/-! ## How SSKE ends -/

/-- The blocks that SSKE designates all exist. -/
def State.sskeBlocksExist (s : State) (m3 : Mask) (r2 : Reg) : Bool :=
  if (sskeControls s.installation m3).mb then s.megabyteAvailable (s.blockIn r2) else s.available (s.realBlockIn r2)

/-- The endings of SSKE, no other agent acting: a program interruption, which has a cause; completion; or an
interruption of the multiple-block form after some blocks. The first two leave nothing pending that was not. -/
inductive SskeEnding (m3 : Mask) (r1 r2 : Reg) (s t : State) : Prop where
  | exception (e : ProgramException) (u : State) (taken : takeProgramInterruption e 2 0 u = .next t)
      (storage : sameStorage s u) (prefixReg : u.prefixReg = s.prefixReg) (gaps : u.interleaving = [])
      (pending : s.asyncPending = none → u.asyncPending = none)
      (cause : pswProblem s.psw = true ∨ s.sskeBlocksExist m3 r2 = false)
  | completed (storage : sameStorage s t) (pending : s.asyncPending = none → t.asyncPending = none)
  | interrupted (k : Nat) (cc : BitVec 2) (supervisor : pswProblem s.psw = false)
      (multiple : (sskeControls s.installation m3).mb = true) (short : k < blocksLeft (s.blockIn r2))
      (available : ∀ i, i < k → blockAvailable s.installation (blockOf (s.blockIn r2) + i) = true)
      (left : SskeLeft m3 r1 r2 k (writeBack s.mode (blockFrom (s.blockIn r2) k) (s.gpr r2)) cc s t)

section
variable {m3 : Mask} {r1 r2 : Reg} {s t : State}

/-- Setting one key in a single-block form ends it. -/
theorem setKeyBlock_sskeEnding (hi : s.interleaving = []) (b : Nat) (new : StorageKey) (mr mc : Bool)
    (hmem : t.mem = (setKeyBlock b new mr mc s).state.mem)
    (hpending : t.asyncPending = (setKeyBlock b new mr mc s).state.asyncPending) : SskeEnding m3 r1 r2 s t := by
  obtain ⟨-, -, gmem, -, -, -, gpending, -⟩ := setKeyBlock_alone b new mr mc hi
  exact .completed (fun x => congrArg (Memory.read · x) (hmem.trans gmem)) fun hp => hpending.trans (gpending.trans hp)

variable (hs : s.unshared) (hp : pswProblem s.psw = false)
include hs hp

theorem exec_sske_single_ending (hb : (sskeControls s.installation m3).mb = false)
    (h : exec (.sske m3 r1 r2) s = .next t) : SskeEnding m3 r1 r2 s t := by
  obtain ⟨-, hgaps⟩ := hs
  have hblocks : s.sskeBlocksExist m3 r2 = s.available (s.realBlockIn r2) := by simp [State.sskeBlocksExist, hb]
  cases ha : s.available (s.realBlockIn r2) with
  | false =>
    rw [exec_sske, execSske_single_unavailable hp hb ha, raiseInInstruction_suppressing rfl] at h
    exact .exception .addressing _ h (fun _ => rfl) rfl hgaps id (.inr (hblocks.trans ha))
  | true =>
    by_cases hc : (sskeControls s.installation m3).conditional = true
    · rw [exec_sske_conditional hp hb hc ha] at h
      cases h
      obtain ⟨hmem, -, -, hpending, -⟩ := sskeConditionalResult_frame r1 (setKeyBlock (blockOf (s.realBlockIn r2))
        (keyOfRegister (s.gpr r1)) (sskeControls s.installation m3).mr (sskeControls s.installation m3).mc s)
      exact setKeyBlock_sskeEnding hgaps _ _ _ _ hmem hpending
    · rw [exec_sske, execSske_single hp hb, if_neg hc, sskeUnconditional_available ha] at h
      cases h
      exact setKeyBlock_sskeEnding hgaps (blockOf (s.realBlockIn r2)) (keyOfRegister (s.gpr r1)) false false rfl rfl

theorem exec_sske_multiple_ending (hb : (sskeControls s.installation m3).mb = true)
    (h : exec (.sske m3 r1 r2) s = .next t) : SskeEnding m3 r1 r2 s t := by
  have haddr : isBlockAddress s.mode (s.blockIn r2) := blockAddr_isBlockAddress s.mode _
  have hends := runBlocks_ends (r2 := r2) haddr hs fun i hi =>
    sskeUnit_sound haddr hi (sskeControls s.installation m3) (keyOfRegister (s.gpr r1))
  rw [exec_sske, execSske_multiple hp hb] at h
  change runEnds _ _ _ _ _ _ (sskeRun (sskeControls s.installation m3) r1 r2 s) at hends
  cases hrun : sskeRun (sskeControls s.installation m3) r1 r2 s with
  | completed u =>
    rw [hrun] at hends
    obtain ⟨hdone, hpending⟩ := hends
    rw [sskeMultiple_completed hrun] at h
    cases h
    obtain ⟨-, -, -, -, gpending, -⟩ :=
      sskeMultipleResult_frame (sskeControls s.installation m3) r1 r2 ccMultiple u
    exact .completed (hdone.sskeLeaves (r1 := r1) ccMultiple).storage fun hp => gpending.trans (hpending hp)
  | interrupted u =>
    rw [hrun] at hends
    obtain ⟨k, hpos, hk, hdone⟩ := hends
    rw [sskeMultiple_interrupted hrun] at h
    cases h
    have hleft := hdone.sskeLeaves (r1 := r1) (ccInterrupted u)
    rw [addressLeft_of_lt hk, if_neg (by omega)] at hleft
    exact .interrupted k _ hp hb hk (fun i hi => hdone.available hi) hleft
  | addressing u =>
    rw [hrun] at hends
    obtain ⟨k, hk, hdone, hnone, hpending⟩ := hends
    rw [sskeMultiple_addressing hrun] at h
    have hleft := hdone.sskeLeaves (r1 := r1) (ccInterrupted u)
    obtain ⟨-, ⟨-, -, hprefix, hinst⟩, -, -, hgaps, -⟩ := hdone
    obtain ⟨-, -, ⟨-, -, gprefix, -⟩, -, gpending, -, ggaps, -⟩ :=
      sskeMultipleResult_frame (sskeControls s.installation m3) r1 r2 (ccInterrupted u) u
    rw [sskeUnit_eq_none_iff haddr hk, hinst] at hnone
    have hmissing : s.megabyteAvailable (s.blockIn r2) = false := by
      rw [Bool.eq_false_iff, ne_eq, State.megabyteAvailable_iff]
      exact fun hall => Bool.eq_false_iff.mp hnone (hall k hk)
    exact .exception .addressing _ h hleft.storage (gprefix.trans hprefix) (ggaps.trans hgaps)
      (fun hp => gpending.trans (hpending hp)) (.inr (by rw [State.sskeBlocksExist, if_pos hb, hmissing]))

end

/-- How SSKE ends. -/
theorem exec_sske_ending {m3 : Mask} {r1 r2 : Reg} {s t : State} (hs : s.unshared)
    (h : exec (.sske m3 r1 r2) s = .next t) : SskeEnding m3 r1 r2 s t := by
  cases hp : pswProblem s.psw with
  | true =>
    rw [exec_sske, execSske_problem hp, raiseInInstruction_suppressing rfl] at h
    exact .exception .privilegedOperation _ h (fun _ => rfl) rfl hs.2 id (.inl hp)
  | false =>
    cases hb : (sskeControls s.installation m3).mb with
    | true => exact exec_sske_multiple_ending hs hp hb h
    | false => exact exec_sske_single_ending hs hp hb h

/-- Settles O19: of the endings of SSKE only a program interruption writes storage, and that in one page. -/
theorem sskeWritesNoStorage : Obligations.SskeWritesNoStorage := by
  unfold Obligations.SskeWritesNoStorage
  intro m3 r1 r2 s t hs h
  cases exec_sske_ending hs h with
  | exception e u taken storage prefixReg gaps pending cause =>
    refine ⟨fun x hx => ?page, fun hp ha => ?excluded⟩
    case page => exact (takeProgramInterruption_byte gaps taken (prefixReg ▸ hx)).trans (storage x)
    case excluded =>
      rcases cause with hproblem | hmissing
      · rw [hp] at hproblem
        cases hproblem
      · exact absurd ha (Bool.eq_false_iff.mp hmissing)
  | completed storage => exact ⟨fun x _ => storage x, fun _ _ => storage⟩
  | interrupted k cc _ _ _ _ left => exact ⟨fun x _ => left.storage x, fun _ _ => left.storage⟩

end Sys2Proof.Machine
end

section
/-! PROOFS. The multiple-block form of SSKE executed again after an interruption (R232). -/

namespace Sys2Proof.Machine

/-! ## One execution after another -/

/-- The second execution sets the keys that the first has not come to. -/
theorem blocksKeyed.trans {c : KeyControls} {new : StorageKey} {m : AddressingMode} {a : Word} {j n : Nat}
    {s t u : State} (ha : isBlockAddress m a) (hj : j < blocksLeft a) (h : blocksKeyed c new a j s t)
    (g : blocksKeyed c new (blockFrom a j) n t u) : blocksKeyed c new a (j + n) s u := by
  obtain ⟨hdone, hothers⟩ := h
  obtain ⟨gdone, gothers⟩ := g
  rw [blockOf_blockFrom ha hj] at gdone gothers
  refine ⟨fun i hi => ?_, fun b hb => (gothers b (by omega)).trans (hothers b (by omega))⟩
  by_cases hij : i < j
  · rw [gothers _ (by omega)]
    exact hdone i hij
  · have hkey := gdone (i - j) (by omega)
    rwa [show blockOf a + j + (i - j) = blockOf a + i by omega, hothers _ (by omega)] at hkey

section
variable {c : KeyControls} {r1 r2 : Reg} {w w' : Word} {s t u : State}

/-- The second execution opens no more of R1 than the first, and R2 is what it leaves there. -/
theorem registersAfterSske.trans {v : Word} (h : registersAfterSske c r1 r2 w s t)
    (g : registersAfterSske c r1 r2 w' t u) (hv : c.conditional = false → w' = v)
    (hfield : field w' 0 51 = field v 0 51) : registersAfterSske c r1 r2 v s u := by
  obtain ⟨hplain, -, hapart, hkey, hothers⟩ := h
  obtain ⟨gplain, gaddress, gapart, gkey, gothers⟩ := g
  refine ⟨fun hc => ?_, gaddress.trans hfield, fun hne => ?_, gkey.trans hkey,
    fun q h1 h2 => (gothers q h1 h2).trans (hothers q h1 h2)⟩
  · obtain ⟨-, hgprs⟩ := hplain hc
    obtain ⟨gr2, ggprs⟩ := gplain hc
    exact ⟨gr2.trans (hv hc), fun q hq => (ggprs q hq).trans (hgprs q hq)⟩
  · obtain ⟨hright, hleft⟩ := hapart hne
    obtain ⟨gright, gleft⟩ := gapart hne
    exact ⟨gright.trans hright, gleft.trans hleft⟩

/-- An address written back after the first execution is as good as written back before it. -/
theorem registersAfterSske.writeBack_again {m : AddressingMode} {x : Word}
    (h : registersAfterSske c r1 r2 (writeBack m x (s.gpr r2)) s t) (y : Word) :
    (c.conditional = false → writeBack m y (t.gpr r2) = writeBack m y (s.gpr r2)) ∧
      field (writeBack m y (t.gpr r2)) 0 51 = field (writeBack m y (s.gpr r2)) 0 51 := by
  obtain ⟨hplain, haddress, -⟩ := h
  refine ⟨fun hc => ?_, ?_⟩
  · obtain ⟨hr2, -⟩ := hplain hc
    rw [hr2, writeBack_writeBack]
  · rw [field_writeBack_congr haddress m y, writeBack_writeBack]

variable {new : StorageKey} {m : AddressingMode} {a : Word} {j n : Nat} {cc cc' : BitVec 2}

/-- What two executions one after the other leave, measured from before the first. -/
theorem SskeLeaves.trans {v : Word} (ha : isBlockAddress m a) (hj : j < blocksLeft a)
    (h : SskeLeaves c new r1 r2 a j w cc s t) (g : SskeLeaves c new r1 r2 (blockFrom a j) n w' cc' t u)
    (hv : (c.conditional = false → w' = v) ∧ field w' 0 51 = field v 0 51) :
    SskeLeaves c new r1 r2 a (j + n) v cc' s u where
  keys := h.keys.trans ha hj g.keys
  registers := h.registers.trans g.registers hv.1 hv.2
  psw := by
    rw [g.psw, h.psw]
    split
    · exact setField_setField ..
    · rfl
  storage := fun x => (g.storage x).trans (h.storage x)
  controls := h.controls.trans g.controls
  tlb := g.tlb.trans h.tlb
  untried := g.untried.trans h.untried

/-! ## What the second execution finds -/

theorem SskeLeaves.mode (h : SskeLeaves c new r1 r2 a n w cc s t) : t.mode = s.mode := by
  rw [State.mode, h.psw, State.mode]
  split
  · exact pswMode_setCc _ _
  · rfl

theorem SskeLeaves.problem (h : SskeLeaves c new r1 r2 a n w cc s t) : pswProblem t.psw = pswProblem s.psw := by
  rw [h.psw]
  split
  · exact pswProblem_setCc _ _
  · rfl

theorem SskeLeaves.installation (h : SskeLeaves c new r1 r2 a n w cc s t) : t.installation = s.installation := by
  obtain ⟨-, -, -, hinst⟩ := h.controls
  exact hinst

/-- The key in R1 is the same (R233, R237). -/
theorem SskeLeaves.keyOfRegister (h : SskeLeaves c new r1 r2 a n w cc s t) :
    keyOfRegister (t.gpr r1) = keyOfRegister (s.gpr r1) := by
  obtain ⟨-, -, -, hkey, -⟩ := h.registers
  exact keyOfRegister_congr (field_eq_of_field_eq hkey (by omega) (by omega) (by omega) (by omega))

/-- R2 designates the block that comes next. -/
theorem SskeLeaves.blockIn {x : Word} (h : SskeLeaves c new r1 r2 a n (writeBack s.mode x (s.gpr r2)) cc s t)
    (hx : isBlockAddress s.mode x) : t.blockIn r2 = x := by
  obtain ⟨-, haddress, -⟩ := h.registers
  rw [State.blockIn, h.mode, blockAddr_congr haddress, blockAddr_writeBack hx]

/-- What is pending, scheduled and drawn plays no part in it. -/
theorem SskeLeaves.resumed (h : SskeLeaves c new r1 r2 a n w cc s t) (d : Nat) :
    SskeLeaves c new r1 r2 a n w cc s { t.resumed with draws := d } :=
  ⟨h.keys, h.registers, h.psw, h.storage, h.controls, h.tlb, h.untried⟩

end

/-! ## The second execution -/

section
variable {m3 : Mask} {r1 r2 : Reg} {s t : State} {j : Nat} {cc : BitVec 2}
  (hp : pswProblem s.psw = false) (hb : (sskeControls s.installation m3).mb = true)
  (hj : j < blocksLeft (s.blockIn r2))
  (h : SskeLeft m3 r1 r2 j (writeBack s.mode (blockFrom (s.blockIn r2) j) (s.gpr r2)) cc s t)
  (hq : t.quiet)
include hp hb hj h hq

/-- From where an execution was interrupted, the next one completes where all blocks exist. -/
theorem exec_sske_resumed_completes (ha : s.megabyteAvailable (s.blockIn r2) = true) :
    ∃ u, exec (.sske m3 r1 r2) t = .next (u.advance 4) ∧
      SskeLeft m3 r1 r2 (blocksLeft (s.blockIn r2))
        (writeBack s.mode (nextMegabyte s.mode (s.blockIn r2)) (s.gpr r2)) ccMultiple s u := by
  have haddr : isBlockAddress s.mode (s.blockIn r2) := blockAddr_isBlockAddress s.mode _
  have hblock : t.blockIn r2 = blockFrom (s.blockIn r2) j := h.blockIn (blockFrom_isBlockAddress haddr hj)
  have hleft := blocksLeft_blockFrom haddr hj
  have hav : t.megabyteAvailable (t.blockIn r2) = true := by
    rw [State.megabyteAvailable_iff, hblock, h.installation, hleft, blockOf_blockFrom haddr hj]
    rw [State.megabyteAvailable_iff] at ha
    intro i hi
    rw [Nat.add_assoc]
    exact ha (j + i) (by omega)
  obtain ⟨u, hexec, -, g⟩ := exec_sske_completes (h.problem.trans hp) (h.installation ▸ hb) r1 hq hav
  rw [SskeLeft, h.installation, h.keyOfRegister, hblock, h.mode, nextMegabyte_blockFrom haddr hj, hleft] at g
  refine ⟨u, hexec, ?_⟩
  have hall := h.trans haddr hj g (h.registers.writeBack_again _)
  rwa [Nat.add_sub_cancel' hj.le] at hall

/-- From where an execution was interrupted, the next one ends at the first block that does not exist. -/
theorem exec_sske_resumed_missing {k : Nat} (hk : k < blocksLeft (s.blockIn r2)) (hjk : j ≤ k)
    (ha : ∀ i, i < k → blockAvailable s.installation (blockOf (s.blockIn r2) + i) = true)
    (hn : blockAvailable s.installation (blockOf (s.blockIn r2) + k) = false) :
    ∃ u cc', exec (.sske m3 r1 r2) t = takeProgramInterruption .addressing 2 0 (u.advance 4) ∧
      SskeLeft m3 r1 r2 k (writeBack s.mode (blockFrom (s.blockIn r2) k) (s.gpr r2)) cc' s u := by
  have haddr : isBlockAddress s.mode (s.blockIn r2) := blockAddr_isBlockAddress s.mode _
  have hblock : t.blockIn r2 = blockFrom (s.blockIn r2) j := h.blockIn (blockFrom_isBlockAddress haddr hj)
  have hleft := blocksLeft_blockFrom haddr hj
  obtain ⟨i, rfl⟩ := Nat.exists_eq_add_of_le hjk
  obtain ⟨u, cc', hexec, -, g⟩ := exec_sske_missing (k := i) (h.problem.trans hp) (h.installation ▸ hb) r1 hq
    (by rw [hblock, hleft]; omega)
    (fun i' hi' => by
      rw [hblock, h.installation, blockOf_blockFrom haddr hj, Nat.add_assoc]
      exact ha (j + i') (by omega))
    (by rwa [hblock, h.installation, blockOf_blockFrom haddr hj, Nat.add_assoc])
  rw [SskeLeft, h.installation, h.keyOfRegister, hblock, h.mode, blockFrom_blockFrom] at g
  refine ⟨u, cc', hexec, h.trans haddr hj g ?_⟩
  split
  · next h0 =>
    obtain ⟨hplain, haddress, -⟩ := h.registers
    rw [h0, Nat.add_zero]
    exact ⟨fun hc => (hplain hc).1, haddress⟩
  · exact h.registers.writeBack_again _

end

/-- Settles O27: an execution that ends with an interruption pending is done with some blocks and no more
(`exec_sske_ending`), and the next one goes on from there. -/
theorem sskeResumes : Obligations.SskeResumes := by
  unfold Obligations.SskeResumes
  intro m3 r1 r2 s t c a hs hexec hpending d
  obtain ⟨hnone, hunshared⟩ := hs
  cases exec_sske_ending hunshared hexec with
  | exception e u taken _ _ _ pending _ =>
    obtain ⟨-, -, -, -, hsame, -⟩ := takeProgramInterruption_keeps taken
    rw [hsame, pending hnone] at hpending
    cases hpending
  | completed _ pending =>
    rw [pending hnone] at hpending
    cases hpending
  | interrupted j cc hp hb hj available left =>
    have hq : ({ t.resumed with draws := d } : State).quiet := ⟨rfl, rfl, rfl⟩
    refine ⟨fun ha => ?completes, fun k hk ha hn => ?missing⟩
    case completes =>
      obtain ⟨u, hnext, h⟩ := exec_sske_resumed_completes hp hb hj (left.resumed d) hq ha
      exact ⟨_, hnext, h.keys, h.registers, congrArg pswAdvanced h.psw, h.storage, h.controls, h.tlb⟩
    case missing =>
      have hjk : j ≤ k := by
        by_contra hlt
        exact Bool.eq_false_iff.mp hn (available k (by omega))
      obtain ⟨u, cc', hnext, h⟩ := exec_sske_resumed_missing hp hb hj (left.resumed d) hq hk hjk ha hn
      exact ⟨u, cc', hnext, h.keys, h.registers, h.psw, h.storage, h.controls⟩

end Sys2Proof.Machine
end

section
/-! PROOFS. PFMF: its special conditions (R257), the work on one block (R260 to R263), the 4 KB frame (R258), and PFMF
with neither function selected (R258, R259). -/

namespace Sys2Proof.Machine

/-! ## The special conditions -/

theorem frameReserved_iff (r : Word) :
    frameReserved r = true ↔
      field r 32 45 ≠ 0 ∨ bitAt r 52 = true ∨ bitAt r 55 = true ∨ bitAt r 63 = true ∨ 2 ≤ (frameSize r).toNat := by
  simp [frameReserved, or_assoc]

theorem execPfmf_reserved (r1 r2 : Reg) {s : State} (hi : s.installation.edatInstalled = true)
    (hp : pswProblem s.psw = false) (hr : frameReserved (s.gpr r1) = true) :
    execPfmf r1 r2 s = raiseInInstruction .specification 0 s := by
  simp [execPfmf, hi, hp, hr]

/-- Settles O16: the five conditions are those of `frameReserved`, and a specification exception suppresses. -/
theorem pfmfSpecialConditions : Obligations.PfmfSpecialConditions := by
  unfold Obligations.PfmfSpecialConditions
  intro r1 r2 s hi hp hr
  rw [exec_pfmf, execPfmf_reserved r1 r2 hi hp ((frameReserved_iff _).mpr hr), raiseInInstruction_suppressing rfl]

/-! ## The work on one block -/

/-- From `s` to `t` the work of PFMF is done on block `b`, key and bytes, `r` the contents of R1 (R261, R262). -/
def framedAt (r : Word) (b : Nat) (s t : State) : Prop :=
  frameKeyMayBecome (frameControls s.installation r) r (∃ x : Nat, x / 4096 = b ∧ s.byte x ≠ 0) (s.keyState b)
      (t.keyState b) ∧
    ∀ x : Nat, x / 4096 = b → t.byte x = if frameClear r = true then 0 else s.byte x

/-- The key and the bytes of block `b` are the same. -/
def sameBlock (b : Nat) (s t : State) : Prop :=
  t.keyState b = s.keyState b ∧ ∀ x : Nat, x / 4096 = b → t.byte x = s.byte x

/-- Only the block itself, before and after, counts. -/
theorem framedAt.congr {r : Word} {b : Nat} {s t p q : State} (h : framedAt r b p q)
    (hinst : p.installation = s.installation) (hbefore : sameBlock b s p) (hafter : sameBlock b q t) :
    framedAt r b s t := by
  obtain ⟨hkey, hbytes⟩ := h
  obtain ⟨hpkey, hpbytes⟩ := hbefore
  obtain ⟨htkey, htbytes⟩ := hafter
  have hchanged : (∃ x : Nat, x / 4096 = b ∧ p.byte x ≠ 0) ↔ ∃ x : Nat, x / 4096 = b ∧ s.byte x ≠ 0 :=
    exists_congr fun x => and_congr_right fun hx => by rw [hpbytes x hx]
  rw [hinst, hchanged, hpkey, ← htkey] at hkey
  exact ⟨hkey, fun x hx => by rw [htbytes x hx, hbytes x hx, hpbytes x hx]⟩

/-- The work on a number of blocks is the work on each of them, and none elsewhere. -/
theorem blocksFramed_iff (r a : Word) (n : Nat) (s t : State) :
    blocksFramed r a n s t ↔ (∀ i, i < n → framedAt r (blockOf a + i) s t) ∧
      ∀ b, (b < blockOf a ∨ blockOf a + n ≤ b) → sameBlock b s t := by
  constructor
  · rintro ⟨hkeys, hothers, hbytes⟩
    refine ⟨fun i hi => ⟨hkeys i hi, fun x hx => ?_⟩, fun b hb => ⟨hothers b hb, fun x hx => ?_⟩⟩
    · rw [hbytes x, hx]
      simp [hi]
    · rw [hbytes x, hx, if_neg (by omega)]
  · rintro ⟨hframed, hothers⟩
    refine ⟨fun i hi => (hframed i hi).1, fun b hb => (hothers b hb).1, fun x => ?_⟩
    by_cases hx : x / 4096 < blockOf a ∨ blockOf a + n ≤ x / 4096
    · rw [(hothers _ hx).2 x rfl, if_neg (by omega)]
    · obtain ⟨i, hi⟩ := Nat.exists_eq_add_of_le (show blockOf a ≤ x / 4096 by omega)
      rw [(hframed i (by omega)).2 x hi]
      simp [hi, show i < n by omega]

section
variable (r aa : Word) {s : State} (hi : s.interleaving = [])
include hi

theorem frameBlock_framedAt : framedAt r (blockOf aa) s (frameBlock r aa s) :=
  ⟨frameBlock_key r aa hi, fun x hx => by rw [byte_frameBlock r aa hi x]; simp [hx]⟩

theorem frameBlock_sameBlock {b : Nat} (hb : b ≠ blockOf aa) : sameBlock b s (frameBlock r aa s) :=
  ⟨(frameBlock_keeps r aa s).1.keys hi b hb, fun x hx => by rw [byte_frameBlock r aa hi x, hx]; simp [hb]⟩

/-- The work on a block changes its key and its bytes alone. -/
theorem frameBlock_framed : blocksFramed r aa 1 s (frameBlock r aa s) := by
  rw [blocksFramed_iff]
  refine ⟨fun i hlt => ?_, fun b hb => frameBlock_sameBlock r aa hi (by omega)⟩
  obtain rfl : i = 0 := by omega
  exact frameBlock_framedAt r aa hi

end

/-- Work on a block, no other agent acting, leaves the schedules and the rest of the CPU. -/
theorem blockKeeps.sameElsewhere {b : Nat} {s t : State} (h : blockKeeps b s t) (hi : s.interleaving = []) :
    sameElsewhere s t := by
  have hgaps := h.interleaving hi
  obtain ⟨⟨-, -, hcontrols, htlb, huntried⟩, hpending, henv, -⟩ := h
  exact ⟨hcontrols, htlb, hpending, henv, hgaps.trans hi.symm, huntried⟩

/-! ## The 4 KB frame -/

/-- The work on a block is refused only where a function is selected and the block does not exist (R258, R259). -/
theorem frameUnit_eq (r aa : Word) (s : State) :
    frameUnit r aa s =
      if (frameSetKey r || frameClear r) = true ∧ s.available aa = false then none else some (frameBlock r aa s) := by
  unfold frameUnit
  cases hk : frameSetKey r <;> cases hc : frameClear r <;> cases ha : s.available aa <;> simp [frameBlock, hk, hc]

theorem frameBlock_idle {r : Word} (hf : (frameSetKey r || frameClear r) = false) (aa : Word) (s : State) :
    frameBlock r aa s = s := by
  obtain ⟨hk, hc⟩ : frameSetKey r = false ∧ frameClear r = false := by simpa using hf
  simp [frameBlock, hk, hc]

theorem frameUnit_idle {r : Word} (hf : (frameSetKey r || frameClear r) = false) (aa : Word) (s : State) :
    frameUnit r aa s = some s := by
  rw [frameUnit_eq, if_neg (by simp [hf]), frameBlock_idle hf]

section
variable {r1 r2 : Reg} {s : State} (hi : s.installation.edatInstalled = true) (hp : pswProblem s.psw = false)
  (hr : frameReserved (s.gpr r1) = false)
include hi hp hr

/-- PFMF of a 4 KB frame that it can work on. -/
theorem exec_pfmf_small (hz : frameSize (s.gpr r1) = 0)
    (ha : (frameSetKey (s.gpr r1) || frameClear (s.gpr r1)) = true → s.available (s.realBlockIn r2) = true) :
    exec (.pfmf r1 r2) s = .next ((frameBlock (s.gpr r1) (s.realBlockIn r2) s).advance 4) := by
  have hunit : frameUnit (s.gpr r1) (applyPrefix s.prefixReg (blockAddr s.mode (s.gpr r2))) s =
      some (frameBlock (s.gpr r1) (s.realBlockIn r2) s) :=
    (frameUnit_eq _ (s.realBlockIn r2) s).trans (if_neg fun h => Bool.eq_false_iff.mp h.2 (ha h.1))
  rw [exec_pfmf, execPfmf_permitted r1 r2 hi hp hr, if_pos hz]
  simp only [pfmfSmall, serialize, hunit]

end

/-- Settles O29: one block worked on (`frameBlock_framed`), and the instruction address moved. -/
theorem pfmfSmallFrame : Obligations.PfmfSmallFrame := by
  unfold Obligations.PfmfSmallFrame
  intro r1 r2 s r hinst hp hr hz _ hi ha
  have hkeeps := (frameBlock_keeps r (s.realBlockIn r2) s).1
  obtain ⟨⟨hgprs, hpsw, -⟩, -⟩ := id hkeeps
  exact ⟨_, exec_pfmf_small hinst hp hr hz fun _ => ha, frameBlock_framed r (s.realBlockIn r2) hi, hgprs,
    congrArg pswAdvanced hpsw, hkeeps.sameElsewhere hi⟩

end Sys2Proof.Machine
end

section
/-! PROOFS. The 1 MB form of PFMF: which states execute it, and the form with neither function selected, for both frame
sizes (R258, R259; D30). -/

namespace Sys2Proof.Machine

/-! ## The 1 MB form -/

/-- PFMF of R1 and R2 executes the 1 MB form: no exception, no refusal, and not the 4 KB frame. -/
structure State.framesLarge (s : State) (r1 r2 : Reg) : Prop where
  installed : s.installation.edatInstalled = true
  supervisor : pswProblem s.psw = false
  unreserved : frameReserved (s.gpr r1) = false
  large : frameSize (s.gpr r1) ≠ 0
  distinct : r1 ≠ r2

/-- The run of the 1 MB form, from the block that R2 designates. -/
def frameRun (r1 r2 : Reg) (s : State) : BlockRun :=
  runBlocks (frameUnit (s.gpr r1)) s.mode r2 blocksInMegabyte (s.blockIn r2) s

section
variable {r1 r2 : Reg} {s t : State} (h : s.framesLarge r1 r2)
include h

theorem exec_pfmf_large : exec (.pfmf r1 r2) s = pfmfLarge r1 r2 s := by
  rw [exec_pfmf, execPfmf_permitted r1 r2 h.installed h.supervisor h.unreserved, if_neg h.large, if_neg h.distinct]

theorem exec_pfmf_completed (hrun : frameRun r1 r2 s = .completed t) :
    exec (.pfmf r1 r2) s = .next (t.advance 4) := by
  rw [frameRun, State.blockIn] at hrun
  rw [exec_pfmf_large h]
  simp only [pfmfLarge, serialize, hrun]

theorem exec_pfmf_interrupted (hrun : frameRun r1 r2 s = .interrupted t) : exec (.pfmf r1 r2) s = .next t := by
  rw [frameRun, State.blockIn] at hrun
  rw [exec_pfmf_large h]
  simp only [pfmfLarge, serialize, hrun]

theorem exec_pfmf_addressing (hrun : frameRun r1 r2 s = .addressing t) :
    exec (.pfmf r1 r2) s = takeProgramInterruption .addressing 2 0 (t.advance 4) := by
  rw [frameRun, State.blockIn] at hrun
  rw [exec_pfmf_large h]
  simp only [pfmfLarge, serialize, hrun, raiseInInstruction_suppressing (e := .addressing) rfl]

end

/-! ## Neither function selected -/

/-- R2 written twice holds the second address. -/
theorem nextInR2_setGpr (m : AddressingMode) (r2 : Reg) (addr x : Word) (s : State) :
    (nextInR2 m r2 addr s).setGpr r2 (writeBack m x ((nextInR2 m r2 addr s).gpr r2)) =
      s.setGpr r2 (writeBack m x (s.gpr r2)) := by
  rw [nextInR2, State.gpr_setGpr_same, writeBack_writeBack]
  simp [State.setGpr]

/-- A run whose unit does nothing, on a machine left to itself, moves R2 to the megabyte boundary and nothing else. -/
theorem runBlocks_idle {unit : Word → State → Option State} (hunit : ∀ addr s, unit addr s = some s)
    {m : AddressingMode} (r2 : Reg) (fuel : Nat) {a : Word} {s : State} (ha : isBlockAddress m a)
    (hfuel : blocksLeft a ≤ fuel) (hs : s.quiet) :
    runBlocks unit m r2 fuel a s = .completed (s.setGpr r2 (writeBack m (nextMegabyte m a) (s.gpr r2))) := by
  obtain ⟨hpos, -⟩ := blocksLeft_bounds a
  induction fuel generalizing a s with
  | zero => omega
  | succ fuel ih =>
    by_cases hlast : blocksLeft a = 1
    · obtain ⟨hnext, hzero⟩ := nextBlock_last ha (i := 0) hlast.symm
      rw [blockFrom_zero] at hnext
      rw [runBlocks_last (hunit a s) (by rw [hnext, hzero]), nextInR2, hnext]
    · have hmore : 1 < blocksLeft a := by omega
      obtain ⟨hnext, hshort⟩ := nextBlock_blockFrom ha (i := 0) hmore
      rw [blockFrom_zero] at hnext
      obtain ⟨hpending, henv, hgaps⟩ := id hs
      have hquiet : (nextInR2 m r2 a s).quiet := ⟨hpending, henv, hgaps⟩
      have hleft := blocksLeft_blockFrom ha hmore
      rw [runBlocks_next (hunit a s) (by rwa [hnext]), atBoundary_nil (s := nextInR2 m r2 a s) henv,
        if_neg (by rw [hquiet.1]; simp), hnext,
        ih (blockFrom_isBlockAddress ha hmore) (by omega) hquiet (by omega), nextMegabyte_blockFrom ha hmore,
        nextInR2_setGpr]

/-- Settles O30: the work on a block is nothing (`frameBlock_idle`), and so is a run of it but for R2. -/
theorem pfmfNoFunction : Obligations.PfmfNoFunction := by
  unfold Obligations.PfmfNoFunction
  intro r1 r2 s hi hp hr hf
  refine ⟨fun hz => ?small, fun hone hne hq => ?large⟩
  case small =>
    rw [exec_pfmf_small hi hp hr hz (fun h => absurd h (Bool.eq_false_iff.mp hf)), frameBlock_idle hf]
  case large =>
    obtain ⟨-, hmax⟩ := blocksLeft_bounds (s.blockIn r2)
    exact exec_pfmf_completed ⟨hi, hp, hr, by rw [hone]; decide, hne⟩
      (runBlocks_idle (frameUnit_idle hf) r2 blocksInMegabyte (blockAddr_isBlockAddress s.mode _) hmax hq)

end Sys2Proof.Machine
end

section
/-! PROOFS. The 1 MB form of PFMF: what it leaves when it completes, is interrupted, or meets a block that does not
exist (R259 to R264). -/

namespace Sys2Proof.Machine

/-! ## The unit of PFMF -/

/-- The block is there, or no function is selected and none is asked for (R259; D30). -/
def State.frameable (s : State) (r : Word) (b : Nat) : Prop :=
  (frameSetKey r || frameClear r) = true → blockAvailable s.installation b = true

/-- The unit of PFMF on the block `i` blocks from `a`: the work is done on it, and it could be. -/
def framesBlock (r : Word) (a : Word) (i : Nat) (p q : State) : Prop :=
  framedAt r (blockOf a + i) p q ∧ p.frameable r (blockOf a + i)

section
variable {m : AddressingMode} {a : Word} {i : Nat} (ha : isBlockAddress m a) (hi : i < blocksLeft a) (r : Word)
include ha hi

theorem frameUnit_eq_none_iff (t : State) :
    frameUnit r (blockFrom a i) t = none ↔ ¬ t.frameable r (blockOf a + i) := by
  rw [frameUnit_eq, State.available, blockOf_blockFrom ha hi, State.frameable]
  simp

theorem frameUnit_sound : unitSound (frameUnit r) (framesBlock r a) a i := by
  intro t u hgaps h
  have hframeable : t.frameable r (blockOf a + i) := by
    by_contra hn
    rw [(frameUnit_eq_none_iff ha hi r t).mpr hn] at h
    cases h
  obtain ⟨rfl, -⟩ := frameUnit_cases h
  rw [framesBlock, ← blockOf_blockFrom ha hi] at *
  exact ⟨(frameBlock_keeps r _ t).1, fun x hx => (frameBlock_sameBlock r _ hgaps hx).2 x rfl,
    frameBlock_framedAt r _ hgaps, hframeable⟩

theorem frameUnit_works {s : State} (hf : s.frameable r (blockOf a + i)) :
    unitWorks (frameUnit r) (framesBlock r a) a s i := by
  intro t hinst hgaps
  have hft : t.frameable r (blockOf a + i) := by rwa [State.frameable, hinst]
  cases hu : frameUnit r (blockFrom a i) t with
  | none => exact absurd hft ((frameUnit_eq_none_iff ha hi r t).mp hu)
  | some u => exact ⟨u, rfl, frameUnit_sound ha hi r t u hgaps hu⟩

end

/-! ## What is left after a number of blocks -/

/-- From `s` to `t` the 1 MB form is done with `n` blocks from `a`, `r` the contents of R1, and leaves `w` in R2. -/
structure PfmfLeaves (r : Word) (r2 : Reg) (a : Word) (n : Nat) (w : Word) (s t : State) : Prop where
  framed : blocksFramed r a n s t
  address : t.gpr r2 = w
  registers : sameGprsBut r2 s t
  psw : t.psw = s.psw
  controls : sameControls s t
  tlb : t.tlb = s.tlb
  untried : t.newPswUntried = s.newPswUntried

/-- What PFMF leaves, its operands given: the functions and the address are in R1 and R2 of `s`. -/
abbrev PfmfLeft (r1 r2 : Reg) (n : Nat) (w : Word) (s t : State) : Prop :=
  PfmfLeaves (s.gpr r1) r2 (s.blockIn r2) n w s t

section
variable {r : Word} {m : AddressingMode} {r2 : Reg} {a : Word} {k : Nat} {s t : State}

/-- A run of PFMF works on its blocks and on no other. -/
theorem blocksDone.blocksFramed (h : blocksDone (framesBlock r a) m r2 a k s t) : blocksFramed r a k s t := by
  obtain ⟨-, -, -, -, -, -, -, hkeys, hbytes, hblocks⟩ := h
  rw [blocksFramed_iff]
  refine ⟨fun i hi => ?_, fun b hb => ⟨hkeys b hb, fun x hx => hbytes x (hx ▸ hb)⟩⟩
  obtain ⟨p, q, hbefore, hbytesBefore, hinst, -, ⟨hframed, -⟩, hafter, hbytesAfter⟩ := hblocks i hi
  exact hframed.congr hinst ⟨hbefore, hbytesBefore⟩ ⟨hafter, hbytesAfter⟩

/-- The blocks that a run of PFMF is done with could be worked on. -/
theorem blocksDone.frameable (h : blocksDone (framesBlock r a) m r2 a k s t) {i : Nat} (hi : i < k) :
    s.frameable r (blockOf a + i) := by
  obtain ⟨-, -, -, -, -, -, -, -, -, hblocks⟩ := h
  obtain ⟨p, q, -, -, hinst, -, ⟨-, hframeable⟩, -, -⟩ := hblocks i hi
  rwa [State.frameable, ← hinst]

theorem blocksDone.pfmfLeaves (h : blocksDone (framesBlock r a) m r2 a k s t) :
    PfmfLeaves r r2 a k (addressLeft m a k (s.gpr r2)) s t := by
  have hframed := h.blocksFramed
  obtain ⟨hpsw, hcontrols, htlb, huntried, -, hothers, hr2, -, -, -⟩ := h
  exact ⟨hframed, hr2, hothers, hpsw, hcontrols, htlb, huntried⟩

/-- A machine left to itself that is left to itself again has the same pending and scheduled. -/
theorem PfmfLeaves.sameElsewhere {n : Nat} {w : Word} (h : PfmfLeaves r r2 a n w s t) (hs : s.quiet) (ht : t.quiet) :
    sameElsewhere s t := by
  obtain ⟨hpending, henv, hgaps⟩ := hs
  obtain ⟨gpending, genv, ggaps⟩ := ht
  exact ⟨h.controls, h.tlb, gpending.trans hpending.symm, genv.trans henv.symm, ggaps.trans hgaps.symm, h.untried⟩

end

/-! ## The three ends of the 1 MB form -/

section
variable {r1 r2 : Reg} {s : State} (h : s.framesLarge r1 r2)
include h

/-- On a machine left to itself the 1 MB form completes where it can work on all its blocks (R259). -/
theorem exec_pfmf_completes (hq : s.quiet)
    (hf : ∀ i, i < blocksLeft (s.blockIn r2) → s.frameable (s.gpr r1) (blockOf (s.blockIn r2) + i)) :
    ∃ t, exec (.pfmf r1 r2) s = .next (t.advance 4) ∧ t.quiet ∧
      PfmfLeft r1 r2 (blocksLeft (s.blockIn r2))
        (writeBack s.mode (nextMegabyte s.mode (s.blockIn r2)) (s.gpr r2)) s t := by
  have haddr : isBlockAddress s.mode (s.blockIn r2) := blockAddr_isBlockAddress s.mode _
  obtain ⟨t, hrun, hdone, htq⟩ := runBlocks_completes (r2 := r2) haddr hq fun i hi =>
    frameUnit_works haddr hi (s.gpr r1) (hf i hi)
  exact ⟨t, exec_pfmf_completed h hrun, htq,
    addressLeft_blocksLeft s.mode (s.blockIn r2) (s.gpr r2) ▸ hdone.pfmfLeaves⟩

/-- On a machine left to itself it ends in the addressing exception at the first block that it cannot work on
(R264). -/
theorem exec_pfmf_missing {k : Nat} (hq : s.quiet) (hk : k < blocksLeft (s.blockIn r2))
    (hf : ∀ i, i < k → s.frameable (s.gpr r1) (blockOf (s.blockIn r2) + i))
    (hn : ¬ s.frameable (s.gpr r1) (blockOf (s.blockIn r2) + k)) :
    ∃ t, exec (.pfmf r1 r2) s = takeProgramInterruption .addressing 2 0 (t.advance 4) ∧ t.quiet ∧
      PfmfLeft r1 r2 k (if k = 0 then s.gpr r2 else writeBack s.mode (blockFrom (s.blockIn r2) k) (s.gpr r2)) s t := by
  have haddr : isBlockAddress s.mode (s.blockIn r2) := blockAddr_isBlockAddress s.mode _
  obtain ⟨t, hrun, hdone, htq⟩ := runBlocks_addressing (r2 := r2) haddr hq hk
    (fun i hi => frameUnit_works haddr (hi.trans hk) (s.gpr r1) (hf i hi))
    (fun t hinst => (frameUnit_eq_none_iff haddr hk _ t).mpr (by rwa [State.frameable, hinst]))
  exact ⟨t, exec_pfmf_addressing h hrun, htq, addressLeft_of_lt hk s.mode (s.gpr r2) ▸ hdone.pfmfLeaves⟩

end

/-- Where a megabyte is there, all of its blocks can be worked on. -/
theorem State.frameable_of_megabyteAvailable {s : State} {a : Word} (ha : s.megabyteAvailable a = true) (r : Word)
    {i : Nat} (hi : i < blocksLeft a) : s.frameable r (blockOf a + i) :=
  fun _ => (State.megabyteAvailable_iff s a).mp ha i hi

/-- Settles O31: the completed form. -/
theorem pfmfLargeFrame : Obligations.PfmfLargeFrame := by
  unfold Obligations.PfmfLargeFrame
  intro r1 r2 s r a hinst hp hr hone hne _ hq ha
  obtain ⟨t, hexec, htq, h⟩ := exec_pfmf_completes ⟨hinst, hp, hr, by rw [hone]; decide, hne⟩ hq fun i hi =>
    State.frameable_of_megabyteAvailable ha r hi
  exact ⟨_, hexec, h.framed, h.address, h.registers, congrArg pswAdvanced h.psw, h.sameElsewhere hq htq⟩

/-- Settles O32: the run stops at the boundary after block `k + 1`, and what it is then done with is left. -/
theorem pfmfInterrupted : Obligations.PfmfInterrupted := by
  unfold Obligations.PfmfInterrupted
  intro r1 r2 s k p rest r a hinst hp hr hone hne hpending hgaps henv hk ha
  have haddr : isBlockAddress s.mode a := blockAddr_isBlockAddress s.mode _
  obtain ⟨t, hrun, hdone, htpending, htenv⟩ := runBlocks_interrupted (r2 := r2) haddr hpending hgaps henv hk fun i hi =>
    frameUnit_works haddr (hi.trans hk) r (State.frameable_of_megabyteAvailable ha r (hi.trans hk))
  have h := hdone.pfmfLeaves
  rw [addressLeft_of_lt hk, if_neg (by omega)] at h
  exact ⟨t, exec_pfmf_interrupted ⟨hinst, hp, hr, by rw [hone]; decide, hne⟩ hrun, htpending, htenv, h.psw, h.framed,
    h.address, h.registers, h.controls⟩

/-- Settles O33: the run stops before the block that does not exist, and what it is then done with is left. -/
theorem pfmfLargeAddressing : Obligations.PfmfLargeAddressing := by
  unfold Obligations.PfmfLargeAddressing
  intro r1 r2 s k r a hinst hp hr hone hne hf hq hk ha hn
  obtain ⟨u, hexec, huq, h⟩ := exec_pfmf_missing ⟨hinst, hp, hr, by rw [hone]; decide, hne⟩ hq hk
    (fun i hi _ => ha i hi) (fun hav => Bool.eq_false_iff.mp hn (hav hf))
  exact ⟨u, hexec, h.psw, h.framed, h.address, h.registers, h.sameElsewhere hq huq⟩

end Sys2Proof.Machine
end

section
/-! PROOFS. How an execution of PFMF can end with an interruption pending, no other agent acting; and that it, executed
again, ends as if it had not been interrupted (R264). -/

namespace Sys2Proof.Machine

/-! ## One execution after another -/

theorem sameBlock.trans {b : Nat} {s t u : State} (h : sameBlock b s t) (g : sameBlock b t u) : sameBlock b s u :=
  ⟨g.1.trans h.1, fun x hx => (g.2 x hx).trans (h.2 x hx)⟩

theorem sameBlock.refl (b : Nat) (s : State) : sameBlock b s s := ⟨rfl, fun _ _ => rfl⟩

/-- The second execution works on the blocks that the first has not come to. -/
theorem blocksFramed.trans {r : Word} {m : AddressingMode} {a : Word} {j n : Nat} {s t u : State}
    (ha : isBlockAddress m a) (hj : j < blocksLeft a) (hinst : t.installation = s.installation)
    (h : blocksFramed r a j s t) (g : blocksFramed r (blockFrom a j) n t u) : blocksFramed r a (j + n) s u := by
  rw [blocksFramed_iff] at h g ⊢
  rw [blockOf_blockFrom ha hj] at g
  obtain ⟨hframed, hothers⟩ := h
  obtain ⟨gframed, gothers⟩ := g
  refine ⟨fun i hi => ?_, fun b hb => (hothers b (by omega)).trans (gothers b (by omega))⟩
  by_cases hij : i < j
  · exact (hframed i hij).congr rfl (sameBlock.refl _ s) (gothers _ (by omega))
  · have hlater := gframed (i - j) (by omega)
    rw [show blockOf a + j + (i - j) = blockOf a + i by omega] at hlater
    exact hlater.congr hinst (hothers _ (by omega)) (sameBlock.refl _ u)

section
variable {r : Word} {r2 : Reg} {a : Word} {j n : Nat} {w w' : Word} {s t u : State}

theorem PfmfLeaves.installation (h : PfmfLeaves r r2 a n w s t) : t.installation = s.installation := by
  obtain ⟨-, -, -, hinst⟩ := h.controls
  exact hinst

/-- What two executions one after the other leave, measured from before the first. -/
theorem PfmfLeaves.trans {m : AddressingMode} (ha : isBlockAddress m a) (hj : j < blocksLeft a)
    (h : PfmfLeaves r r2 a j w s t) (g : PfmfLeaves r r2 (blockFrom a j) n w' t u) :
    PfmfLeaves r r2 a (j + n) w' s u where
  framed := h.framed.trans ha hj h.installation g.framed
  address := g.address
  registers := fun q hq => (g.registers q hq).trans (h.registers q hq)
  psw := g.psw.trans h.psw
  controls := h.controls.trans g.controls
  tlb := g.tlb.trans h.tlb
  untried := g.untried.trans h.untried

/-! ## What the second execution finds -/

theorem PfmfLeaves.mode (h : PfmfLeaves r r2 a n w s t) : t.mode = s.mode := congrArg pswMode h.psw

/-- R2 designates the block that comes next. -/
theorem PfmfLeaves.blockIn {x : Word} (h : PfmfLeaves r r2 a n (writeBack s.mode x (s.gpr r2)) s t)
    (hx : isBlockAddress s.mode x) : t.blockIn r2 = x := by
  rw [State.blockIn, h.mode, h.address, blockAddr_writeBack hx]

/-- The next execution is of the 1 MB form again. -/
theorem PfmfLeaves.framesLarge {r1 : Reg} (h : PfmfLeaves r r2 a n w s t) (hs : s.framesLarge r1 r2) :
    t.framesLarge r1 r2 := by
  have hr1 := h.registers r1 hs.distinct
  exact ⟨h.installation ▸ hs.installed, h.psw ▸ hs.supervisor, hr1 ▸ hs.unreserved, hr1 ▸ hs.large, hs.distinct⟩

/-- What is pending, scheduled and drawn plays no part in it. -/
theorem PfmfLeaves.resumed (h : PfmfLeaves r r2 a n w s t) (d : Nat) :
    PfmfLeaves r r2 a n w s { t.resumed with draws := d } :=
  ⟨h.framed, h.address, h.registers, h.psw, h.controls, h.tlb, h.untried⟩

end

/-! ## The second execution -/

section
variable {r1 r2 : Reg} {s t : State} {j : Nat} (hs : s.framesLarge r1 r2) (hj : j < blocksLeft (s.blockIn r2))
  (h : PfmfLeft r1 r2 j (writeBack s.mode (blockFrom (s.blockIn r2) j) (s.gpr r2)) s t) (hq : t.quiet)
include hs hj h hq

/-- From where an execution was interrupted, the next one completes where all blocks can be worked on. -/
theorem exec_pfmf_resumed_completes
    (hf : ∀ i, i < blocksLeft (s.blockIn r2) → s.frameable (s.gpr r1) (blockOf (s.blockIn r2) + i)) :
    ∃ u, exec (.pfmf r1 r2) t = .next (u.advance 4) ∧
      PfmfLeft r1 r2 (blocksLeft (s.blockIn r2))
        (writeBack s.mode (nextMegabyte s.mode (s.blockIn r2)) (s.gpr r2)) s u := by
  have haddr : isBlockAddress s.mode (s.blockIn r2) := blockAddr_isBlockAddress s.mode _
  have hblock : t.blockIn r2 = blockFrom (s.blockIn r2) j := h.blockIn (blockFrom_isBlockAddress haddr hj)
  have hr1 : t.gpr r1 = s.gpr r1 := h.registers r1 hs.distinct
  have hleft := blocksLeft_blockFrom haddr hj
  obtain ⟨u, hexec, -, g⟩ := exec_pfmf_completes (h.framesLarge hs) hq fun i hi => by
    rw [hblock, hleft] at hi
    rw [hblock, hr1, blockOf_blockFrom haddr hj, Nat.add_assoc, State.frameable, h.installation]
    exact hf (j + i) (by omega)
  rw [PfmfLeft, hr1, hblock, h.mode, h.address, writeBack_writeBack, nextMegabyte_blockFrom haddr hj, hleft] at g
  have hall := h.trans haddr hj g
  rw [Nat.add_sub_cancel' hj.le] at hall
  exact ⟨u, hexec, hall⟩

/-- From where an execution was interrupted, the next one ends at the first block that cannot be worked on. -/
theorem exec_pfmf_resumed_missing {k : Nat} (hk : k < blocksLeft (s.blockIn r2)) (hjk : j ≤ k)
    (hf : ∀ i, i < k → s.frameable (s.gpr r1) (blockOf (s.blockIn r2) + i))
    (hn : ¬ s.frameable (s.gpr r1) (blockOf (s.blockIn r2) + k)) :
    ∃ u, exec (.pfmf r1 r2) t = takeProgramInterruption .addressing 2 0 (u.advance 4) ∧
      PfmfLeft r1 r2 k (writeBack s.mode (blockFrom (s.blockIn r2) k) (s.gpr r2)) s u := by
  have haddr : isBlockAddress s.mode (s.blockIn r2) := blockAddr_isBlockAddress s.mode _
  have hblock : t.blockIn r2 = blockFrom (s.blockIn r2) j := h.blockIn (blockFrom_isBlockAddress haddr hj)
  have hr1 : t.gpr r1 = s.gpr r1 := h.registers r1 hs.distinct
  have hframeable (i : Nat) : t.frameable (t.gpr r1) (blockOf (t.blockIn r2) + i) ↔
      s.frameable (s.gpr r1) (blockOf (s.blockIn r2) + (j + i)) := by
    rw [hblock, hr1, blockOf_blockFrom haddr hj, Nat.add_assoc, State.frameable, State.frameable, h.installation]
  obtain ⟨i, rfl⟩ := Nat.exists_eq_add_of_le hjk
  obtain ⟨u, hexec, -, g⟩ := exec_pfmf_missing (k := i) (h.framesLarge hs) hq
    (by rw [hblock, blocksLeft_blockFrom haddr hj]; omega)
    (fun i' hi' => (hframeable i').mpr (hf (j + i') (by omega))) (mt (hframeable i).mp hn)
  have haddress : (if i = 0 then t.gpr r2 else writeBack t.mode (blockFrom (t.blockIn r2) i) (t.gpr r2)) =
      writeBack s.mode (blockFrom (s.blockIn r2) (j + i)) (s.gpr r2) := by
    rw [hblock, blockFrom_blockFrom, h.address, h.mode, writeBack_writeBack]
    split
    · next h0 => rw [h0, Nat.add_zero]
    · rfl
  rw [PfmfLeft, haddress, hr1, hblock] at g
  exact ⟨u, hexec, h.trans haddr hj g⟩

end

/-! ## How PFMF ends -/

/-- An exception met within an instruction makes nothing pending. -/
theorem raiseInInstruction_pending {e : ProgramException} {a : Word} {s t : State}
    (h : raiseInInstruction e a s = .next t) : t.asyncPending = s.asyncPending := by
  obtain ⟨-, -, -, -, hsame, -⟩ := takeProgramInterruption_keeps h
  refine hsame.trans ?_
  split <;> rfl

section
variable {r1 r2 : Reg} {s t : State}

theorem pfmfSmall_pending (h : pfmfSmall r1 r2 s = .next t) : t.asyncPending = s.asyncPending := by
  unfold pfmfSmall serialize at h
  dsimp only at h
  split at h
  · exact raiseInInstruction_pending h
  · next u hu =>
    cases h
    obtain ⟨rfl, -⟩ := frameUnit_cases hu
    obtain ⟨⟨-, hpending, -⟩, -⟩ :=
      frameBlock_keeps (s.gpr r1) (applyPrefix s.prefixReg (blockAddr s.mode (s.gpr r2))) s
    exact hpending

/-- Only the 1 MB form can make an interruption pending. -/
theorem exec_pfmf_notLarge_pending (hn : ¬ s.framesLarge r1 r2) (h : exec (.pfmf r1 r2) s = .next t) :
    t.asyncPending = s.asyncPending := by
  rw [exec_pfmf, execPfmf] at h
  split at h
  · cases h
  next hi =>
  split at h
  · exact raiseInInstruction_pending h
  next hp =>
  split at h
  · exact raiseInInstruction_pending h
  next hr =>
  split at h
  · exact pfmfSmall_pending h
  next hz =>
  split at h
  · cases h
  next hne =>
  exact absurd ⟨by simpa using hi, by simpa using hp, by simpa using hr, hz, hne⟩ hn

/-- The 1 MB form that ends with something pending that was not is done with some blocks short of the boundary, which
could be worked on, and with no more. -/
theorem exec_pfmf_large_pending (hs : s.undisturbed) (hlarge : s.framesLarge r1 r2)
    (h : exec (.pfmf r1 r2) s = .next t) (hpending : t.asyncPending ≠ none) :
    ∃ k, k < blocksLeft (s.blockIn r2) ∧ (∀ i, i < k → s.frameable (s.gpr r1) (blockOf (s.blockIn r2) + i)) ∧
      PfmfLeft r1 r2 k (writeBack s.mode (blockFrom (s.blockIn r2) k) (s.gpr r2)) s t := by
  obtain ⟨hnone, hunshared⟩ := hs
  have haddr : isBlockAddress s.mode (s.blockIn r2) := blockAddr_isBlockAddress s.mode _
  have hends := runBlocks_ends (r2 := r2) haddr hunshared fun i hi => frameUnit_sound haddr hi (s.gpr r1)
  change runEnds _ _ _ _ _ _ (frameRun r1 r2 s) at hends
  cases hrun : frameRun r1 r2 s with
  | completed u =>
    rw [hrun] at hends
    obtain ⟨-, hsame⟩ := hends
    rw [exec_pfmf_completed hlarge hrun] at h
    cases h
    exact absurd (hsame hnone) hpending
  | interrupted u =>
    rw [hrun] at hends
    obtain ⟨k, hpos, hk, hdone⟩ := hends
    rw [exec_pfmf_interrupted hlarge hrun] at h
    cases h
    have hleft := hdone.pfmfLeaves
    rw [addressLeft_of_lt hk, if_neg (by omega)] at hleft
    exact ⟨k, hk, fun i hi => hdone.frameable hi, hleft⟩
  | addressing u =>
    rw [hrun] at hends
    obtain ⟨k, -, -, -, hsame⟩ := hends
    rw [exec_pfmf_addressing hlarge hrun] at h
    obtain ⟨-, -, -, -, htaken, -⟩ := takeProgramInterruption_keeps h
    exact absurd (htaken.trans (hsame hnone)) hpending

end

/-- Settles O34: an execution that ends with an interruption pending is done with some blocks and no more
(`exec_pfmf_large_pending`), and the next one goes on from there. -/
theorem pfmfResumes : Obligations.PfmfResumes := by
  unfold Obligations.PfmfResumes
  intro r1 r2 s t r a hs hexec hpending d
  obtain ⟨hnone, -⟩ := id hs
  have hsome : t.asyncPending ≠ none := Option.isSome_iff_ne_none.mp hpending
  have hlarge : s.framesLarge r1 r2 := by
    by_contra hn
    exact hsome ((exec_pfmf_notLarge_pending hn hexec).trans hnone)
  obtain ⟨j, hj, hdone, left⟩ := exec_pfmf_large_pending hs hlarge hexec hsome
  have hq : ({ t.resumed with draws := d } : State).quiet := ⟨rfl, rfl, rfl⟩
  refine ⟨fun ha => ?completes, fun k hk hf ha hn => ?missing⟩
  case completes =>
    have hframeable : ∀ i, i < blocksLeft a → s.frameable r (blockOf a + i) := by
      intro i hi
      rcases ha with ha | hidle
      · exact State.frameable_of_megabyteAvailable ha r hi
      · exact fun hf => absurd hf (Bool.eq_false_iff.mp hidle)
    obtain ⟨u, hnext, h⟩ := exec_pfmf_resumed_completes hlarge hj (left.resumed d) hq hframeable
    exact ⟨_, hnext, h.framed, h.address, h.registers, congrArg pswAdvanced h.psw, h.controls, h.tlb⟩
  case missing =>
    have hjk : j ≤ k := by
      by_contra hlt
      exact Bool.eq_false_iff.mp hn (hdone k (by omega) hf)
    obtain ⟨u, hnext, h⟩ := exec_pfmf_resumed_missing hlarge hj (left.resumed d) hq hk hjk (fun i hi _ => ha i hi)
      (fun hav => Bool.eq_false_iff.mp hn (hav hf))
    exact ⟨u, hnext, h.psw, h.framed, h.address, h.registers, h.controls⟩

end Sys2Proof.Machine
end

section
/-! PROOFS. PFMF that sets keys and clears nothing, and SSKE of the same masks (R255, R260). -/

namespace Sys2Proof.Machine

/-! ## The two instructions side by side -/

/-- From `s` to `t` an instruction sets the keys of `n` blocks from `a`, leaves storage, puts `w` in R2 where R1 is
another register, and moves the instruction address past itself. -/
structure KeysSet (c : KeyControls) (new : StorageKey) (r1 r2 : Reg) (a : Word) (n : Nat) (w : Word) (s t : State) :
    Prop where
  keys : blocksKeyed c new a n s t
  storage : t.mem = s.mem
  address : r1 ≠ r2 → t.gpr r2 = w
  counter : pswAddress t.psw = pswAddress (pswAdvanced s.psw)

/-- ACC, F and validity are determined by the key before and the controls; R is unless MR alone is in effect, and C is
unless MC alone is (R226). -/
theorem keyMayBecome_agree {c : KeyControls} {new : StorageKey} {old k l : KeyState} (h : keyMayBecome c new old k)
    (g : keyMayBecome c new old l) :
    k.key.acc = l.key.acc ∧ k.key.f = l.key.f ∧ k.cbcInvalid = l.cbcInvalid ∧
      (c.mr = false ∨ c.mc = true → k.key.r = l.key.r) ∧ (c.mc = false ∨ c.mr = true → k.key.c = l.key.c) := by
  obtain ⟨hvalid, hkey⟩ := h
  obtain ⟨gvalid, gkey⟩ := g
  by_cases hwhole : old.cbcInvalid = true ∨ old.key.acc ≠ new.acc ∨ old.key.f ≠ new.f
  · rw [if_pos (.inr hwhole)] at hkey gkey
    simp [hvalid, gvalid, hkey, gkey]
  cases hmr : c.mr <;> cases hmc : c.mc <;> simp only [KeyControls.conditional, hmr, hmc, hwhole] at hkey gkey
  case false.false => simp_all
  case false.true =>
    by_cases hr : old.key.r = new.r <;> simp_all
  case true.false =>
    by_cases hc : old.key.c = new.c <;> simp_all
  case true.true => simp_all

/-- Each key is as it was, or is one that the controls allow. -/
theorem blocksKeyed.keyState {c : KeyControls} {new : StorageKey} {a : Word} {n : Nat} {s t : State}
    (h : blocksKeyed c new a n s t) (b : Nat) :
    t.keyState b = s.keyState b ∨ keyMayBecome c new (s.keyState b) (t.keyState b) := by
  obtain ⟨hset, hothers⟩ := h
  by_cases hb : b < blockOf a ∨ blockOf a + n ≤ b
  · exact .inl (hothers b hb)
  · obtain ⟨i, rfl⟩ := Nat.exists_eq_add_of_le (show blockOf a ≤ b by omega)
    exact .inr (hset i (by omega))

/-- Two settings of the same keys agree but for the bit that R226 leaves open. -/
theorem blocksKeyed.agree {c : KeyControls} {new : StorageKey} {a : Word} {n : Nat} {s t u : State}
    (h : blocksKeyed c new a n s t) (g : blocksKeyed c new a n s u) (b : Nat) :
    (t.key b).acc = (u.key b).acc ∧ (t.key b).f = (u.key b).f ∧
      (t.keyState b).cbcInvalid = (u.keyState b).cbcInvalid ∧
      (c.mr = false ∨ c.mc = true → (t.key b).r = (u.key b).r) ∧
      (c.mc = false ∨ c.mr = true → (t.key b).c = (u.key b).c) := by
  obtain ⟨hset, hothers⟩ := h
  obtain ⟨gset, gothers⟩ := g
  by_cases hb : b < blockOf a ∨ blockOf a + n ≤ b
  · simp [State.key, hothers b hb, gothers b hb]
  · obtain ⟨i, rfl⟩ := Nat.exists_eq_add_of_le (show blockOf a ≤ b by omega)
    exact keyMayBecome_agree (hset i (by omega)) (gset i (by omega))

/-! ## Runs that set keys write no storage -/

/-- A unit that, no other agent acting, leaves storage, the schedules and the controls. -/
def unitStoresNothing (unit : Word → State → Option State) : Prop :=
  ∀ addr t u, t.interleaving = [] → unit addr t = some u → u.mem = t.mem ∧ sameElsewhere t u

theorem runBlocks_mem {unit : Word → State → Option State} (hunit : unitStoresNothing unit) {m : AddressingMode}
    {r2 : Reg} {fuel : Nat} {a : Word} {s t : State} (hs : s.quiet)
    (hrun : runBlocks unit m r2 fuel a s = .completed t) :
    t.mem = s.mem := by
  obtain ⟨-, henv, hgaps⟩ := hs
  have hkeeps := runBlocks_keeps (unit := unit) (m := m) (r2 := r2)
    (P := fun t => t.mem = s.mem ∧ t.environment = [] ∧ t.interleaving = [])
    (fun addr t u v ⟨hmem, henv, hgaps⟩ hu => by
      obtain ⟨umem, -, -, -, uenv, ugaps, -⟩ := hunit addr t u hgaps hu
      exact ⟨umem.trans hmem, uenv.trans henv, ugaps.trans hgaps⟩)
    (fun t ⟨hmem, henv, hgaps⟩ => by
      rw [atBoundary_nil henv]
      exact ⟨hmem, henv, hgaps⟩)
    fuel a ⟨rfl, henv, hgaps⟩
  rw [hrun] at hkeeps
  obtain ⟨hmem, -⟩ := hkeeps
  exact hmem

theorem sskeUnit_storesNothing (new : StorageKey) (c : KeyControls) : unitStoresNothing (sskeUnit new c) := by
  intro addr t u hgaps h
  obtain ⟨b, -, rfl⟩ := Option.map_eq_some_iff.mp h
  obtain ⟨-, -, hmem, -, helse⟩ := setKeyBlock_alone b new c.mr c.mc hgaps
  exact ⟨hmem, helse⟩

/-! ## SSKE -/

/-- One key set as R226 says. -/
theorem setKeyBlock_blocksKeyed (aa : Word) (new : StorageKey) (c : KeyControls) {s : State}
    (hi : s.interleaving = []) : blocksKeyed c new aa 1 s (setKeyBlock (blockOf aa) new c.mr c.mc s).state := by
  obtain ⟨-, -, -, hothers, -⟩ := setKeyBlock_alone (blockOf aa) new c.mr c.mc hi
  refine ⟨fun i hlt => ?_, fun b hb => hothers b (by omega)⟩
  obtain rfl : i = 0 := by omega
  exact setKeyBlock_key (blockOf aa) new c hi

theorem pswAddress_pswAdvanced_setCc (p : BitVec 128) (cc : BitVec 2) :
    pswAddress (pswAdvanced (pswSetCc p cc)) = pswAddress (pswAdvanced p) := by
  simp [pswAdvanced]

section
variable {m3 : Mask} {r1 r2 : Reg} {s : State} (hp : pswProblem s.psw = false)
include hp

theorem exec_sske_single_setsKeys (hb : (sskeControls s.installation m3).mb = false) (hi : s.interleaving = [])
    (ha : s.available (s.realBlockIn r2) = true) :
    ∃ u, exec (.sske m3 r1 r2) s = .next u ∧
      KeysSet (sskeControls s.installation m3) (keyOfRegister (s.gpr r1)) r1 r2 (s.realBlockIn r2) 1 (s.gpr r2)
        s u := by
  have hkeyed := setKeyBlock_blocksKeyed (s.realBlockIn r2) (keyOfRegister (s.gpr r1))
    (sskeControls s.installation m3) hi
  by_cases hc : (sskeControls s.installation m3).conditional = true
  · refine ⟨_, exec_sske_conditional hp hb hc ha, ?_⟩
    obtain ⟨-, cc, hcc, -⟩ := setKeyBlock_conditional (blockOf (s.realBlockIn r2)) (keyOfRegister (s.gpr r1)) hi hc
    obtain ⟨hgprs, hpsw, hmem, -, -⟩ := setKeyBlock_alone (blockOf (s.realBlockIn r2)) (keyOfRegister (s.gpr r1))
      (sskeControls s.installation m3).mr (sskeControls s.installation m3).mc hi
    generalize setKeyBlock (blockOf (s.realBlockIn r2)) (keyOfRegister (s.gpr r1)) (sskeControls s.installation m3).mr
      (sskeControls s.installation m3).mc s = res at *
    obtain ⟨hkeys, hothers⟩ := hkeyed
    have hkey (b : Nat) := sskeConditionalResult_keyState r1 res b
    obtain ⟨hframe, -⟩ := sskeConditionalResult_frame r1 res
    refine ⟨⟨fun i hlt => ?_, fun b hb => (hkey b).trans (hothers b hb)⟩, hframe.trans hmem, fun hne => ?_, ?_⟩
    · rw [State.keyState_advance, hkey]
      exact hkeys i hlt
    · exact (sskeConditionalResult_sameGprsBut hcc r2 hne.symm).trans (congrArg (fun g => g[r2.val]) hgprs)
    · change pswAddress (pswAdvanced (sskeConditionalResult r1 res).psw) = _
      rw [sskeConditionalResult_psw hcc, hpsw, pswAddress_pswAdvanced_setCc]
  · obtain ⟨hmr, hmc⟩ : (sskeControls s.installation m3).mr = false ∧ (sskeControls s.installation m3).mc = false := by
      simpa [KeyControls.conditional] using hc
    rw [hmr, hmc, setKeyBlock_unconditional, beforeAccess_alone hi] at hkeyed
    rw [exec_sske, execSske_single hp hb, if_neg hc, sskeUnconditional_available ha, beforeAccess_alone hi]
    exact ⟨_, rfl, hkeyed, rfl, fun _ => rfl, rfl⟩

theorem exec_sske_multiple_setsKeys (hb : (sskeControls s.installation m3).mb = true) (hq : s.quiet)
    (ha : s.megabyteAvailable (s.blockIn r2) = true) :
    ∃ u, exec (.sske m3 r1 r2) s = .next u ∧
      KeysSet (sskeControls s.installation m3) (keyOfRegister (s.gpr r1)) r1 r2 (s.blockIn r2)
        (blocksLeft (s.blockIn r2)) (writeBack s.mode (nextMegabyte s.mode (s.blockIn r2)) (s.gpr r2)) s u := by
  have haddr : isBlockAddress s.mode (s.blockIn r2) := blockAddr_isBlockAddress s.mode _
  rw [State.megabyteAvailable_iff] at ha
  obtain ⟨t, hrun, hdone, -⟩ := runBlocks_completes (r2 := r2) haddr hq fun i hi =>
    sskeUnit_works haddr hi (sskeControls s.installation m3) (keyOfRegister (s.gpr r1)) (ha i hi)
  have hmem := runBlocks_mem (sskeUnit_storesNothing _ _) hq hrun
  have hleft := hdone.sskeLeaves (r1 := r1) ccMultiple
  obtain ⟨hframe, -⟩ := sskeMultipleResult_frame (sskeControls s.installation m3) r1 r2 ccMultiple t
  obtain ⟨-, -, -, -, -, -, hr2, -⟩ := hdone
  have hexec : exec (.sske m3 r1 r2) s =
      .next ((sskeMultipleResult (sskeControls s.installation m3) r1 r2 ccMultiple t).advance 4) := by
    rw [exec_sske, execSske_multiple hp hb, sskeMultiple_completed hrun]
  refine ⟨_, hexec, hleft.keys, hframe.trans hmem, fun hne => ?_, ?_⟩
  · exact (sskeMultipleResult_sameGprsBut _ r1 r2 ccMultiple t r2 hne.symm).trans
      (hr2.trans (addressLeft_blocksLeft s.mode (s.blockIn r2) (s.gpr r2)))
  · change pswAddress (pswAdvanced (sskeMultipleResult _ r1 r2 ccMultiple t).psw) = _
    rw [hleft.psw]
    split
    · exact pswAddress_pswAdvanced_setCc _ _
    · rfl

end

/-! ## PFMF -/

section
variable {r : Word} (hk : frameSetKey r = true) (hc : frameClear r = false)
include hk hc

/-- Where keys are set and nothing is cleared, the work on a block is the setting of its key (R260). -/
theorem frameBlock_setsKey (aa : Word) (s : State) :
    frameBlock r aa s = (setKeyBlock (blockOf aa) (keyOfRegister r) (frameControls s.installation r).mr
      (frameControls s.installation r).mc s).state := by
  simp [frameBlock, hk, hc, setFrameKey]

theorem frameUnit_storesNothing : unitStoresNothing (frameUnit r) := by
  intro addr t u hgaps h
  obtain ⟨rfl, -⟩ := frameUnit_cases h
  rw [frameBlock_setsKey hk hc]
  obtain ⟨-, -, hmem, -, helse⟩ := setKeyBlock_alone (blockOf addr) (keyOfRegister r)
    (frameControls t.installation r).mr (frameControls t.installation r).mc hgaps
  exact ⟨hmem, helse⟩

theorem blocksFramed.blocksKeyed {a : Word} {n : Nat} {s t : State} (h : blocksFramed r a n s t) :
    blocksKeyed (frameControls s.installation r) (keyOfRegister r) a n s t := by
  obtain ⟨hframed, hothers, -⟩ := h
  refine ⟨fun i hi => ?_, hothers⟩
  have hkey := hframed i hi
  rwa [frameKeyMayBecome, if_pos hk, if_pos hc] at hkey

end

/-- PFMF puts nothing in R1, and of the PSW it moves the instruction address alone. -/
def keepsR1AndCc (r1 : Reg) (s t : State) : Prop := t.gpr r1 = s.gpr r1 ∧ t.psw = pswAdvanced s.psw

section
variable {r1 r2 : Reg} {s : State} (hk : frameSetKey (s.gpr r1) = true) (hc : frameClear (s.gpr r1) = false)
include hk hc

theorem exec_pfmf_small_setsKeys (hinst : s.installation.edatInstalled = true) (hp : pswProblem s.psw = false)
    (hr : frameReserved (s.gpr r1) = false) (hz : frameSize (s.gpr r1) = 0) (hi : s.interleaving = [])
    (ha : s.available (s.realBlockIn r2) = true) :
    ∃ t, exec (.pfmf r1 r2) s = .next t ∧ keepsR1AndCc r1 s t ∧
      KeysSet (frameControls s.installation (s.gpr r1)) (keyOfRegister (s.gpr r1)) r1 r2 (s.realBlockIn r2) 1 (s.gpr r2)
        s t := by
  refine ⟨_, exec_pfmf_small hinst hp hr hz fun _ => ha, ?_⟩
  rw [frameBlock_setsKey hk hc]
  obtain ⟨hgprs, hpsw, hmem, -⟩ := setKeyBlock_alone (blockOf (s.realBlockIn r2)) (keyOfRegister (s.gpr r1))
    (frameControls s.installation (s.gpr r1)).mr (frameControls s.installation (s.gpr r1)).mc hi
  have hpswAdvanced := congrArg pswAdvanced hpsw
  exact ⟨⟨congrArg (fun g => g[r1.val]) hgprs, hpswAdvanced⟩,
    setKeyBlock_blocksKeyed (s.realBlockIn r2) (keyOfRegister (s.gpr r1)) _ hi, hmem,
    fun _ => congrArg (fun g => g[r2.val]) hgprs, congrArg pswAddress hpswAdvanced⟩

theorem exec_pfmf_large_setsKeys (hlarge : s.framesLarge r1 r2) (hq : s.quiet)
    (ha : s.megabyteAvailable (s.blockIn r2) = true) :
    ∃ t, exec (.pfmf r1 r2) s = .next t ∧ keepsR1AndCc r1 s t ∧
      KeysSet (frameControls s.installation (s.gpr r1)) (keyOfRegister (s.gpr r1)) r1 r2 (s.blockIn r2)
        (blocksLeft (s.blockIn r2)) (writeBack s.mode (nextMegabyte s.mode (s.blockIn r2)) (s.gpr r2)) s t := by
  have haddr : isBlockAddress s.mode (s.blockIn r2) := blockAddr_isBlockAddress s.mode _
  obtain ⟨t, hrun, hdone, -⟩ := runBlocks_completes (r2 := r2) haddr hq fun i hi =>
    frameUnit_works haddr hi (s.gpr r1) (State.frameable_of_megabyteAvailable ha _ hi)
  have hmem := runBlocks_mem (frameUnit_storesNothing hk hc) hq hrun
  have hleft := hdone.pfmfLeaves
  have hpswAdvanced := congrArg pswAdvanced hleft.psw
  exact ⟨_, exec_pfmf_completed hlarge hrun, ⟨hleft.registers r1 hlarge.distinct, hpswAdvanced⟩,
    hleft.framed.blocksKeyed hk hc, hmem,
    fun _ => hleft.address.trans (addressLeft_blocksLeft s.mode (s.blockIn r2) (s.gpr r2)),
    congrArg pswAddress hpswAdvanced⟩

end

/-! ## The comparison -/

/-- The multiple-block control plays no part in what a key becomes. -/
theorem blocksKeyed.of_masks {c c' : KeyControls} (hmr : c.mr = c'.mr) (hmc : c.mc = c'.mc) {new : StorageKey}
    {a : Word} {n : Nat} {s t : State} (h : blocksKeyed c new a n s t) : blocksKeyed c' new a n s t := by
  obtain ⟨mr, mc, mb⟩ := c
  obtain ⟨mr', mc', mb'⟩ := c'
  obtain rfl : mr = mr' := hmr
  obtain rfl : mc = mc' := hmc
  exact h

theorem frameControls_masks {r : Word} {m3 : Mask} (i : Config.Installation) (hk : frameSetKey r = true)
    (h1 : bitAt m3 1 = bitAt r 53) (h2 : bitAt m3 2 = bitAt r 54) :
    (frameControls i r).mr = (sskeControls i m3).mr ∧ (frameControls i r).mc = (sskeControls i m3).mc := by
  simp [frameControls, sskeControls, hk, h1, h2]

/-- What is claimed of PFMF and SSKE of the same masks, once both set the same keys. -/
theorem KeysSet.compare {c : KeyControls} {new : StorageKey} {r1 r2 : Reg} {a : Word} {n : Nat} {w : Word}
    {s t u : State} (h : KeysSet c new r1 r2 a n w s t) (hkept : keepsR1AndCc r1 s t)
    (g : KeysSet c new r1 r2 a n w s u) :
    (∀ b : Nat, (t.key b).acc = (u.key b).acc ∧ (t.key b).f = (u.key b).f ∧
      (t.keyState b).cbcInvalid = (u.keyState b).cbcInvalid ∧
      (c.mr = false ∨ c.mc = true → (t.key b).r = (u.key b).r) ∧
      (c.mc = false ∨ c.mr = true → (t.key b).c = (u.key b).c) ∧
      (t.keyState b = s.keyState b ∨ keyMayBecome c new (s.keyState b) (t.keyState b)) ∧
      (u.keyState b = s.keyState b ∨ keyMayBecome c new (s.keyState b) (u.keyState b))) ∧
    t.mem = u.mem ∧ (r1 ≠ r2 → t.gpr r2 = u.gpr r2) ∧ pswAddress t.psw = pswAddress u.psw ∧ t.gpr r1 = s.gpr r1 ∧
      pswCc t.psw = pswCc s.psw := by
  obtain ⟨hr1, hpsw⟩ := hkept
  refine ⟨fun b => ?_, h.storage.trans g.storage.symm, fun hne => (h.address hne).trans (g.address hne).symm,
    h.counter.trans g.counter.symm, hr1, by simp [hpsw, pswAdvanced]⟩
  obtain ⟨hacc, hf, hvalid, hr, hc⟩ := h.keys.agree g.keys b
  exact ⟨hacc, hf, hvalid, hr, hc, h.keys.keyState b, g.keys.keyState b⟩

/-- Settles O35: both set the keys of the same blocks under the same masks (`KeysSet`), of one block or of those up to
the megabyte boundary. -/
theorem pfmfSetsKeysAsSske : Obligations.PfmfSetsKeysAsSske := by
  unfold Obligations.PfmfSetsKeysAsSske
  intro m3 r1 r2 s d r c hinst hp hr hk hc h1 h2 hform hq ha
  obtain ⟨hmr, hmc⟩ := frameControls_masks s.installation hk h1 h2
  have hmb : c.mb = bitAt m3 3 := by simp [c, sskeControls, hinst]
  obtain ⟨-, -, hgaps⟩ := id hq
  by_cases hz : frameSize r = 0
  · rw [if_pos hz] at ha
    obtain ⟨hsingle, hav⟩ := ha
    obtain ⟨t, hpfmf, hkept, h⟩ := exec_pfmf_small_setsKeys (r2 := r2) hk hc hinst hp hr hz hgaps hav
    obtain ⟨u, hsske, g⟩ := exec_sske_single_setsKeys (m3 := m3) (r1 := r1) (r2 := r2) (s := { s with draws := d }) hp
      (hmb.trans hsingle) hgaps hav
    exact ⟨t, u, hpfmf, hsske, KeysSet.compare { h with keys := h.keys.of_masks hmr hmc } hkept
      ⟨g.keys, g.storage, g.address, g.counter⟩⟩
  · rw [if_neg hz] at ha
    obtain ⟨hmultiple, hav⟩ := ha
    have hlarge : s.framesLarge r1 r2 := ⟨hinst, hp, hr, hz, hform.resolve_left hz⟩
    obtain ⟨t, hpfmf, hkept, h⟩ := exec_pfmf_large_setsKeys (r2 := r2) hk hc hlarge hq hav
    obtain ⟨u, hsske, g⟩ := exec_sske_multiple_setsKeys (m3 := m3) (r1 := r1) (r2 := r2) (s := { s with draws := d }) hp
      (hmb.trans hmultiple) hq hav
    exact ⟨t, u, hpfmf, hsske, KeysSet.compare { h with keys := h.keys.of_masks hmr hmc } hkept
      ⟨g.keys, g.storage, g.address, g.counter⟩⟩

end Sys2Proof.Machine
end

section
/-! PROOFS. Control and access registers, prefix and installation along a step (R302, R310), and the instructions that
are named only (R302, R211). -/

namespace Sys2Proof.Machine

/-! ## What is known to keep more -/

theorem cpuSame.controls {s t : State} (h : cpuSame s t) : sameControls s t := by
  obtain ⟨-, -, hcontrols, -, -⟩ := h
  exact hcontrols

theorem blockKeeps.controls {b : Nat} {s t : State} (h : blockKeeps b s t) : sameControls s t := h.1.controls

theorem fetchKeeps.controls {s t : State} (h : fetchKeeps s t) : sameControls s t :=
  cpuSame.controls (t := { t with tlb := s.tlb }) h.1

theorem advance_sameControls (s : State) (n : Word) : sameControls s (s.advance n) := ⟨rfl, rfl, rfl, rfl⟩

theorem setGpr_sameControls (s : State) (r : Reg) (v : Word) : sameControls s (s.setGpr r v) := ⟨rfl, rfl, rfl, rfl⟩

theorem sskeConditionalResult_sameControls (r1 : Reg) (res : SetKeyResult) :
    sameControls res.state (sskeConditionalResult r1 res) := by
  obtain ⟨-, hcontrols, -⟩ := sskeConditionalResult_frame r1 res
  exact hcontrols

theorem sskeMultipleResult_sameControls (c : KeyControls) (r1 r2 : Reg) (cc : BitVec 2) (s : State) :
    sameControls s (sskeMultipleResult c r1 r2 cc s) := by
  obtain ⟨-, -, hcontrols, -⟩ := sskeMultipleResult_frame c r1 r2 cc s
  exact hcontrols

/-! ## Interruptions -/

section
variable {e : ProgramException} {ilc : BitVec 2} {a : Word} {s t : State}

theorem takeProgramInterruption_sameControls (h : takeProgramInterruption e ilc a s = .next t) : sameControls s t := by
  obtain ⟨-, hcontrols, -⟩ := takeProgramInterruption_keeps h
  exact hcontrols

theorem takeEarlyException_sameControls (h : takeEarlyException e a s = .next t) : sameControls s t := by
  obtain ⟨-, hcontrols, -⟩ := takeEarlyException_keeps h
  exact hcontrols

theorem raiseInInstruction_sameControls (h : raiseInInstruction e a s = .next t) : sameControls s t := by
  obtain ⟨-, hcontrols, -⟩ := raiseInInstruction_keeps h
  exact hcontrols

theorem takeAsyncInterruption_sameControls {c : AsyncClass} (h : takeAsyncInterruption c s = .next t) :
    sameControls s t := by
  obtain ⟨-, hcontrols, -⟩ := takeAsyncInterruption_keeps h
  exact hcontrols

end

/-! ## The run over blocks -/

/-- The state in which a run over blocks leaves the machine, however it ends. -/
def BlockRun.endState : BlockRun → State
  | .completed s => s
  | .interrupted s => s
  | .addressing s => s

/-- A run whose unit keeps the controls keeps them: R2 is written between two units, and other agents reach storage and
keys alone. -/
theorem runBlocks_sameControls {unit : Word → State → Option State}
    (hunit : ∀ a u v, unit a u = some v → sameControls u v) (m : AddressingMode) (r2 : Reg) (fuel : Nat) (a : Word)
    (s : State) : sameControls s (runBlocks unit m r2 fuel a s).endState := by
  have hrun := runBlocks_keeps (unit := unit) (m := m) (r2 := r2) (P := sameControls s)
    (fun a u v w hu hv => (hu.trans (hunit a u v hv)).trans (setGpr_sameControls v r2 w))
    (fun u hu => hu.trans (atBoundary_same u).1.controls) fuel a (sameControls.refl s)
  cases he : runBlocks unit m r2 fuel a s with
  | completed t => rw [he] at hrun; exact hrun
  | interrupted t => rw [he] at hrun; exact hrun
  | addressing t => rw [he] at hrun; exact hrun

/-! ## SSKE -/

theorem sskeUnit_sameControls {new : StorageKey} {c : KeyControls} {a : Word} {s t : State}
    (h : sskeUnit new c a s = some t) : sameControls s t := by
  obtain ⟨b, -, rfl⟩ := Option.map_eq_some_iff.mp h
  exact (setKeyBlock_keeps b new c.mr c.mc s).1.controls

section
variable {m3 : Mask} {c : KeyControls} {r1 r2 : Reg} {s t : State}

theorem sskeMultiple_sameControls (h : sskeMultiple c r1 r2 s = .next t) : sameControls s t := by
  have hrun : sameControls s (sskeRun c r1 r2 s).endState :=
    runBlocks_sameControls (fun _ _ _ => sskeUnit_sameControls) ..
  cases he : sskeRun c r1 r2 s with
  | completed u =>
    rw [he] at hrun
    rw [sskeMultiple_completed he] at h
    cases h
    exact (hrun.trans (sskeMultipleResult_sameControls ..)).trans (advance_sameControls ..)
  | interrupted u =>
    rw [he] at hrun
    rw [sskeMultiple_interrupted he] at h
    cases h
    exact hrun.trans (sskeMultipleResult_sameControls ..)
  | addressing u =>
    rw [he] at hrun
    rw [sskeMultiple_addressing he] at h
    have hresult := hrun.trans (sskeMultipleResult_sameControls c r1 r2 (ccInterrupted u) u)
    exact (hresult.trans (advance_sameControls _ 4)).trans (takeProgramInterruption_sameControls h)

theorem exec_sske_single_sameControls (hp : pswProblem s.psw = false) (hb : (sskeControls s.installation m3).mb = false)
    (h : exec (.sske m3 r1 r2) s = .next t) : sameControls s t := by
  cases ha : s.available (s.realBlockIn r2) with
  | false =>
    rw [exec_sske, execSske_single_unavailable hp hb ha] at h
    exact raiseInInstruction_sameControls h
  | true =>
    by_cases hc : (sskeControls s.installation m3).conditional = true
    · rw [exec_sske_conditional hp hb hc ha] at h
      cases h
      exact ((setKeyBlock_keeps ..).1.controls.trans (sskeConditionalResult_sameControls ..)).trans
        (advance_sameControls ..)
    · rw [exec_sske, execSske_single hp hb, if_neg hc, sskeUnconditional_available ha] at h
      cases h
      exact ((beforeAccess_same s).1.controls.trans (replaceKey_keeps ..).controls).trans (advance_sameControls ..)

theorem exec_sske_sameControls (h : exec (.sske m3 r1 r2) s = .next t) : sameControls s t := by
  cases hp : pswProblem s.psw with
  | true =>
    rw [exec_sske, execSske_problem hp] at h
    exact raiseInInstruction_sameControls h
  | false =>
    cases hb : (sskeControls s.installation m3).mb with
    | true =>
      rw [exec_sske, execSske_multiple hp hb] at h
      exact sskeMultiple_sameControls h
    | false => exact exec_sske_single_sameControls hp hb h

end

/-! ## PFMF -/

theorem frameUnit_sameControls {r a : Word} {s t : State} (h : frameUnit r a s = some t) : sameControls s t := by
  obtain ⟨rfl, -⟩ := frameUnit_cases h
  exact (frameBlock_keeps r a s).1.controls

section
variable {r1 r2 : Reg} {s t : State}

theorem pfmfSmall_sameControls (h : pfmfSmall r1 r2 s = .next t) : sameControls s t := by
  unfold pfmfSmall serialize at h
  dsimp only at h
  split at h
  · exact raiseInInstruction_sameControls h
  · next hunit =>
    cases h
    exact (frameUnit_sameControls hunit).trans (advance_sameControls ..)

theorem exec_pfmf_large_sameControls (hlarge : s.framesLarge r1 r2) (h : exec (.pfmf r1 r2) s = .next t) :
    sameControls s t := by
  have hrun : sameControls s (frameRun r1 r2 s).endState :=
    runBlocks_sameControls (fun _ _ _ => frameUnit_sameControls) ..
  cases he : frameRun r1 r2 s with
  | completed u =>
    rw [he] at hrun
    rw [exec_pfmf_completed hlarge he] at h
    cases h
    exact hrun.trans (advance_sameControls ..)
  | interrupted u =>
    rw [he] at hrun
    rw [exec_pfmf_interrupted hlarge he] at h
    cases h
    exact hrun
  | addressing u =>
    rw [he] at hrun
    rw [exec_pfmf_addressing hlarge he] at h
    exact (hrun.trans (advance_sameControls _ 4)).trans (takeProgramInterruption_sameControls h)

/-- Short of the 1 MB form PFMF is refused, raises an exception, or works on one frame. -/
theorem exec_pfmf_sameControls (h : exec (.pfmf r1 r2) s = .next t) : sameControls s t := by
  have hexec := h
  rw [exec_pfmf, execPfmf] at h
  split at h
  · cases h
  next hi =>
  split at h
  · exact raiseInInstruction_sameControls h
  next hp =>
  split at h
  · exact raiseInInstruction_sameControls h
  next hr =>
  split at h
  · exact pfmfSmall_sameControls h
  next hz =>
  split at h
  · cases h
  next hne =>
  exact exec_pfmf_large_sameControls ⟨by simpa using hi, by simpa using hp, by simpa using hr, hz, hne⟩ hexec

end

/-! ## The step -/

theorem exec_sameControls {i : Instr} {s t : State} (h : exec i s = .next t) : sameControls s t := by
  obtain ⟨m3, r1, r2, rfl, -⟩ | ⟨r1, r2, rfl, -⟩ := exec_next_cases h
  · exact exec_sske_sameControls h
  · exact exec_pfmf_sameControls h

/-- The fetch keeps the controls, and so does the exception or the instruction that follows it. -/
theorem runInstruction_sameControls {s t : State} (h : runInstruction s = .next t) : sameControls s t := by
  have hfetch := fetchInstruction_keeps s
  unfold runInstruction at h
  split at h
  · cases h
  · next he =>
    rw [he] at hfetch
    exact (fetchKeeps.controls hfetch).trans (takeEarlyException_sameControls h)
  · next text u he =>
    rw [he] at hfetch
    split at h
    · cases h
    · have hmark : sameControls u { u with newPswUntried := false } := ⟨rfl, rfl, rfl, rfl⟩
      exact ((fetchKeeps.controls hfetch).trans hmark).trans (exec_sameControls h)

theorem instructionCycle_sameControls {s t : State} (h : instructionCycle s = .next t) : sameControls s t := by
  unfold instructionCycle at h
  split at h
  · exact takeAsyncInterruption_sameControls h
  split at h
  · cases h
    exact sameControls.refl s
  split at h
  · exact takeEarlyException_sameControls h
  split at h
  · exact takeEarlyException_sameControls h
  · exact runInstruction_sameControls h

/-- Settles O18: what other agents do at the boundary leaves the controls alone, and so does each branch of the
cycle. -/
theorem stepKeepsControls : Obligations.StepKeepsControls := by
  unfold Obligations.StepKeepsControls
  intro s t h
  exact (atBoundary_same s).1.controls.trans (instructionCycle_sameControls h)

/-! ## The instructions named only -/

/-- Settles O60: each of the nineteen arms of `exec` looks at neither the state nor an operand. -/
theorem namedOnlyAreRefused : Obligations.NamedOnlyAreRefused := by
  unfold Obligations.NamedOnlyAreRefused
  intros
  and_intros <;> rfl

end Sys2Proof.Machine
end

section
/-! PROOFS. The instruction cycle branch by branch (R350), with the exceptions met before an instruction is decoded
(R331, R338) and the wait state (R345); and what a step in the problem state cannot change (R341). -/

namespace Sys2Proof.Machine

/-! ## The branches of the cycle -/

/-- A pending interruption comes before everything else, the wait state included. -/
theorem step_of_pending {s : State} {c : AsyncClass} (h : s.atBoundary.asyncPending = some c) :
    step s = takeAsyncInterruption c s.atBoundary := by
  simp only [step, instructionCycle, h]

section
variable {s : State} (hpending : s.atBoundary.asyncPending = none)
include hpending

theorem step_of_waiting (hw : pswWait s.atBoundary.psw = true) : step s = .next s.atBoundary := by
  simp only [step, instructionCycle, hpending, hw, if_true]

variable (hw : pswWait s.atBoundary.psw = false)
include hw

/-- The two checks of the PSW raise the same exception at the same address (R331, R70). -/
theorem step_of_invalidPsw (h : pswModeInvalid s.atBoundary.psw = true ∨ bitAt s.atBoundary.psw 127 = true) :
    step s = takeEarlyException .specification (pswAddress s.atBoundary.psw) s.atBoundary := by
  simp only [step, instructionCycle, hpending, hw, Bool.false_eq_true, if_false]
  split
  · rfl
  · next hmode => rw [if_pos (h.resolve_left hmode)]

theorem step_of_validPsw (hmode : pswModeInvalid s.atBoundary.psw = false) (hodd : bitAt s.atBoundary.psw 127 = false) :
    step s = runInstruction s.atBoundary := by
  simp only [step, instructionCycle, hpending, hw, hmode, hodd, Bool.false_eq_true, if_false]

end

section
variable {s t : State} {text : List Byte}

theorem runInstruction_of_exception {e : ProgramException} {a : Word} (h : fetchInstruction s = .exception e a t) :
    runInstruction s = takeEarlyException e a t := by
  simp only [runInstruction, h]

theorem runInstruction_of_decoded (h : fetchInstruction s = .ok text t) {i : Instr} (hi : decode text = .ok i) :
    runInstruction s = exec i { t with newPswUntried := false } := by
  simp only [runInstruction, h, hi]

theorem runInstruction_of_undecoded (h : fetchInstruction s = .ok text t) {d : DecodeError}
    (hd : decode text = .error d) : runInstruction s = .refused (refusalOfDecode d) := by
  simp only [runInstruction, h, hd]

end

/-- All that a cycle that answers a next state can have done: an asynchronous interruption; nothing, in the wait state;
an exception met before decoding, the fetch perhaps made; or the fetch and an instruction. -/
theorem instructionCycle_cases {s t : State} (h : instructionCycle s = .next t) :
    (∃ c, takeAsyncInterruption c s = .next t) ∨ t = s ∨
      (∃ e a u, fetchKeeps s u ∧ takeEarlyException e a u = .next t) ∨
      ∃ i u, fetchKeeps s u ∧ exec i { u with newPswUntried := false } = .next t := by
  unfold instructionCycle at h
  split at h
  · exact .inl ⟨_, h⟩
  split at h
  · cases h
    exact .inr (.inl rfl)
  split at h
  · exact .inr (.inr (.inl ⟨_, _, s, fetchKeeps.refl s, h⟩))
  split at h
  · exact .inr (.inr (.inl ⟨_, _, s, fetchKeeps.refl s, h⟩))
  have hfetch := fetchInstruction_keeps s
  unfold runInstruction at h
  split at h
  · cases h
  · next he =>
    rw [he] at hfetch
    exact .inr (.inr (.inl ⟨_, _, _, hfetch, h⟩))
  · next he =>
    rw [he] at hfetch
    split at h
    · cases h
    · exact .inr (.inr (.inr ⟨_, _, hfetch, h⟩))

/-! ## Decoding, exceptions before it, and the wait state -/

/-- Settles O3: past the checks of the cycle the outcome of the decoding decides. -/
theorem stepRunsDecodedInstruction : Obligations.StepRunsDecodedInstruction := by
  unfold Obligations.StepRunsDecodedInstruction
  intro s t text hpending hw hmode hodd hfetch
  rw [step_of_validPsw hpending hw hmode hodd]
  exact ⟨fun i => runInstruction_of_decoded hfetch, fun d => runInstruction_of_undecoded hfetch⟩

/-- Settles O4: the fetch keeps the PSW and the mark of R338, so that the exception finds both as the boundary left
them. -/
theorem earlyExceptionIsTaken : Obligations.EarlyExceptionIsTaken := by
  unfold Obligations.EarlyExceptionIsTaken
  intro s hpending hw
  split
  case isTrue h => exact step_of_invalidPsw hpending hw h
  case isFalse h =>
    intro t e a hfetch
    obtain ⟨hmode, hodd⟩ : pswModeInvalid s.atBoundary.psw = false ∧ bitAt s.atBoundary.psw 127 = false := by
      simpa using h
    have hkeeps := fetchInstruction_keeps s.atBoundary
    rw [hfetch] at hkeeps
    obtain ⟨⟨-, hpsw, -, -, hmark⟩, -⟩ := hkeeps
    refine ⟨hpsw, ?_⟩
    rw [step_of_validPsw hpending hw hmode hodd, runInstruction_of_exception hfetch, takeEarlyException, hmark]

/-- Settles O6, by induction on the number of steps: the boundary brings nothing, and the wait state does nothing. -/
theorem waitStateIdles : Obligations.WaitStateIdles := by
  unfold Obligations.WaitStateIdles
  intro n s hquiet hw
  obtain ⟨hpending, henv, -⟩ := hquiet
  have hstep : step s = .next s := by
    have hb := atBoundary_nil henv
    have h := step_of_waiting (s := s) (by rw [hb, hpending]) (by rw [hb, hw])
    rwa [hb] at h
  induction n with
  | zero => rfl
  | succ n ih => rw [runFor, hstep]; exact ih

/-! ## The problem state -/

/-- ACC, F and validity of every key, and the general registers, are the same. -/
def sameAccessAndGprs (s t : State) : Prop := sameAccess s t ∧ t.gprs = s.gprs

theorem sameAccessAndGprs.trans {s t u : State} (h : sameAccessAndGprs s t) (g : sameAccessAndGprs t u) :
    sameAccessAndGprs s u := ⟨sameAccess.trans h.1 g.1, g.2.trans h.2⟩

section
variable {s t : State} (hi : s.interleaving = [])
include hi

theorem takeProgramInterruption_sameAccessAndGprs {e : ProgramException} {ilc : BitVec 2} {a : Word}
    (h : takeProgramInterruption e ilc a s = .next t) : sameAccessAndGprs s t := by
  obtain ⟨hgprs, -, -, -, -, halone⟩ := takeProgramInterruption_keeps h
  obtain ⟨-, -, haccess, -⟩ := halone hi
  exact ⟨haccess, hgprs⟩

theorem takeEarlyException_sameAccessAndGprs {e : ProgramException} {a : Word}
    (h : takeEarlyException e a s = .next t) : sameAccessAndGprs s t := by
  unfold takeEarlyException at h
  split at h
  · cases h
  · exact takeProgramInterruption_sameAccessAndGprs hi h

theorem takeAsyncInterruption_sameAccessAndGprs {c : AsyncClass} (h : takeAsyncInterruption c s = .next t) :
    sameAccessAndGprs s t := by
  obtain ⟨hgprs, -, -, -, -, halone⟩ := takeAsyncInterruption_keeps h
  obtain ⟨-, -, haccess, -⟩ := halone hi
  exact ⟨haccess, hgprs⟩

theorem fetchKeeps.sameAccessAndGprs (h : fetchKeeps s t) : sameAccessAndGprs s t := by
  obtain ⟨-, -, haccess⟩ := h.alone hi
  obtain ⟨⟨hgprs, -⟩, -⟩ := h
  exact ⟨haccess, hgprs⟩

end

/-- In the problem state an instruction that answers a next state has raised the privileged-operation exception: both
defined instructions are privileged, and PFMF without its facility is refused. -/
theorem exec_problem_next {i : Instr} {s t : State} (hp : pswProblem s.psw = true) (h : exec i s = .next t) :
    takeProgramInterruption .privilegedOperation 2 0 (s.advance 4) = .next t := by
  obtain ⟨hsske, hpfmf⟩ := problemStateTraps s hp
  obtain ⟨m3, r1, r2, rfl, -⟩ | ⟨r1, r2, rfl, -⟩ := exec_next_cases h
  · exact (hsske m3 r1 r2).symm.trans h
  · cases hinst : s.installation.edatInstalled with
    | true => exact (hpfmf hinst r1 r2).symm.trans h
    | false =>
      rw [exec_pfmf, execPfmf_notInstalled r1 r2 hinst] at h
      cases h

/-- A cycle in the problem state, no other agent acting within it. -/
theorem instructionCycle_problem {s t : State} (hi : s.interleaving = []) (hp : pswProblem s.psw = true)
    (h : instructionCycle s = .next t) : sameAccessAndGprs s t := by
  obtain ⟨c, hasync⟩ | rfl | ⟨e, a, u, hfetch, hearly⟩ | ⟨i, u, hfetch, hexec⟩ := instructionCycle_cases h
  · exact takeAsyncInterruption_sameAccessAndGprs hi hasync
  · exact ⟨sameAccess.refl t, rfl⟩
  · obtain ⟨hgaps, -⟩ := hfetch.alone hi
    exact (hfetch.sameAccessAndGprs hi).trans (takeEarlyException_sameAccessAndGprs hgaps hearly)
  · obtain ⟨hgaps, -⟩ := hfetch.alone hi
    have hmark : sameAccessAndGprs u (({ u with newPswUntried := false } : State).advance 4) :=
      ⟨fun _ => ⟨rfl, rfl, rfl⟩, rfl⟩
    have htrap := exec_problem_next (s := { u with newPswUntried := false })
      ((congrArg pswProblem hfetch.psw).trans hp) hexec
    exact (hfetch.sameAccessAndGprs hi).trans
      (hmark.trans (takeProgramInterruption_sameAccessAndGprs hgaps htrap))

/-- Settles O17: the boundary brings nothing but what is pending; then see `instructionCycle_problem`. -/
theorem problemStateKeepsKeys : Obligations.ProblemStateKeepsKeys := by
  unfold Obligations.ProblemStateKeepsKeys
  intro s t hs hp h
  obtain ⟨p, env, hboundary, -⟩ := atBoundary_unshared hs
  have hsame : sameAccessAndGprs s s.atBoundary := by
    rw [hboundary]
    exact ⟨fun _ => ⟨rfl, rfl, rfl⟩, rfl⟩
  have hpsw : s.atBoundary.psw = s.psw := by rw [hboundary]
  exact hsame.trans (instructionCycle_problem ((atBoundary_interleaving s).trans hs.2) (by rw [hpsw, hp]) h)

end Sys2Proof.Machine
end

section
/-! PROOFS. The PSW swaps: that they complete exactly where the block of the assigned locations exists (R323), what they
store and load (R310, R313), and that the old PSW reloaded is the interrupted one (R339). -/

namespace Sys2Proof.Machine

open Sys2Proof.Config (InterruptionClass oldPswLocation newPswLocation)

/-! ## The assigned locations depend on the state by `prefixReg` and `installation` alone -/

theorem sameControls.assigned {s t : State} (h : sameControls s t) (loc : Word) : assigned t loc = assigned s loc := by
  obtain ⟨-, -, hprefix, -⟩ := h
  rw [Machine.assigned, hprefix, Machine.assigned]

theorem sameControls.prefixAreaAvailable {s t : State} (h : sameControls s t) :
    t.prefixAreaAvailable = s.prefixAreaAvailable := by
  obtain ⟨-, -, hprefix, hinstallation⟩ := h
  simp only [State.prefixAreaAvailable, State.available, hprefix, hinstallation]

/-! ## When a swap completes, whatever other agents do within it -/

/-- Assigned locations are available exactly where their block is. -/
theorem availableMany_assigned_eq (s : State) {loc : Word} {n : Nat} (h0 : field loc 0 50 = 0)
    (hl : (field loc 51 63).toNat + n ≤ 4096) (hn : 0 < n) :
    s.availableMany (applyPrefix s.prefixReg loc) n = s.prefixAreaAvailable := by
  refine Bool.eq_iff_iff.mpr ⟨fun h => ?_, fun hp => availableMany_assigned hp h0 hl hn⟩
  have hfirst := State.availableMany_first hn h
  rw [State.available, blockOf_assigned s h0 (by omega)] at hfirst
  rwa [State.prefixAreaAvailable, State.available, blockOf_prefixArea]

theorem storeReal_isSome (s : State) {loc : Word} {bs : List Byte} (h0 : field loc 0 50 = 0)
    (hl : (field loc 51 63).toNat + bs.length ≤ 4096) (hb : 0 < bs.length) :
    (storeReal loc bs s).isSome = s.prefixAreaAvailable := by
  rw [storeReal, absStore, (beforeAccess_same s).1.availableMany, availableMany_assigned_eq s h0 hl hb]
  cases s.prefixAreaAvailable <;> rfl

theorem loadNewPsw_isSome (c : InterruptionClass) (s : State) : (loadNewPsw c s).isSome = s.prefixAreaAvailable := by
  obtain ⟨-, h0, -, hl⟩ := location_low c
  rw [loadNewPsw, absLoad, (beforeAccess_same s).1.availableMany, availableMany_assigned_eq s h0 hl (by omega)]
  cases s.prefixAreaAvailable <;> rfl

theorem pswSwap_isSome (c : InterruptionClass) (s : State) : (pswSwap c s).isSome = s.prefixAreaAvailable := by
  obtain ⟨h0, -, hl, -⟩ := location_low c
  have hstore := storeReal_isSome s (bs := bytesOf 16 s.psw) h0 (by simpa using hl) (by simp)
  rw [pswSwap]
  cases hs : storeReal (oldPswLocation c) (bytesOf 16 s.psw) s with
  | none => rw [Option.bind_none, ← hstore, hs]
  | some u =>
    have hkeeps : swapKeeps s u := (storeReal_keeps h0 (by omega) hs).2
    rw [Option.bind_some, loadNewPsw_isSome, hkeeps.prefixAreaAvailable]

theorem prefixAreaAvailable_of_pswSwap {c : InterruptionClass} {s t : State} (h : pswSwap c s = some t) :
    s.prefixAreaAvailable = true := by
  rw [← pswSwap_isSome c s, h, Option.isSome_some]

/-- Settles O14: a swap that completed would have found the block available. -/
theorem swapWithoutStorageStops : Obligations.SwapWithoutStorageStops := by
  unfold Obligations.SwapWithoutStorageStops
  intro s hp
  refine ⟨fun e ilc a => ?program, fun c => ?async⟩
  case program =>
    have hnone : programSwap e ilc a s = none :=
      Option.eq_none_iff_forall_ne_some.mpr fun t ht => by simp [prefixAreaAvailable_of_programSwap ht] at hp
    simp only [takeProgramInterruption, hnone]
  case async =>
    have hnone : pswSwap (classOf c) s = none :=
      Option.eq_none_iff_forall_ne_some.mpr fun t ht => by simp [prefixAreaAvailable_of_pswSwap ht] at hp
    simp only [takeAsyncInterruption, hnone]

/-! ## The swap of a class -/

/-- The bytes of a value, read where they were written. -/
theorem Memory.readMany_writeMany_bytesOf (m : List Host.Cell) (x k : Nat) {n : Nat} (v : BitVec n) :
    Memory.readMany (Memory.writeMany m x (bytesOf k v)) x k = bytesOf k v := by
  have h := Memory.readMany_writeMany m x (bytesOf k v)
  rwa [length_bytesOf] at h

/-- Settles O10: the one store and the one load of the swap, and the recording of both. -/
theorem interruptionSwapsPsw : Obligations.InterruptionSwapsPsw := by
  unfold Obligations.InterruptionSwapsPsw
  intro c s hi hp
  obtain ⟨t, hswap, hmem, hpsw, hkeeps⟩ := pswSwap_eq (c := c) hi hp
  obtain ⟨hkeys, haccess, hr, hc, hchanged⟩ := hkeeps.records hi
  obtain ⟨hgprs, ⟨hcrs, hars, hprefix, -⟩, htlb, -⟩ := hkeeps
  have hold : Memory.readMany t.mem (assigned s (oldPswLocation c)) 16 = bytesOf 16 s.psw := by
    rw [hmem, Memory.readMany_writeMany_bytesOf]
  have hothers : sameStorageOutside (assigned s (oldPswLocation c)) 16 s t := fun x hx => by
    rw [State.byte, hmem, Memory.read_writeMany_outside _ _ _ _ (by rwa [length_bytesOf]), State.byte]
  rw [blockOf_prefixArea]
  exact ⟨t, hswap, hold, hpsw, hothers, hgprs, hcrs, hars, hprefix, htlb, haccess, hkeys, hr, hc, hchanged⟩

/-! ## The asynchronous interruption -/

/-- A boundary consumes the head of its schedule. -/
theorem atBoundary_environment (s : State) : s.atBoundary.environment = s.environment.tail := by
  unfold State.atBoundary
  split
  · next he => rw [he, List.tail_nil]
  · next b rest he =>
    rw [he, List.tail_cons]
    exact (foldl_applyAction b.actions { s with environment := rest }).2.2.1

theorem takeAsyncInterruption_of_pswSwap {c : AsyncClass} {s u : State} (h : pswSwap (classOf c) s = some u) :
    takeAsyncInterruption c s = .next { u with asyncPending := none, newPswUntried := false } := by
  simp only [takeAsyncInterruption, h]

/-- Settles O5: the boundary leaves the CPU as it was, so that the swap of the class finds its locations available. -/
theorem pendingInterruptionIsTaken : Obligations.PendingInterruptionIsTaken := by
  unfold Obligations.PendingInterruptionIsTaken
  intro s c hpending
  refine ⟨step_of_pending hpending, fun hp => ?_⟩
  obtain ⟨hcpu, -⟩ := atBoundary_same s
  obtain ⟨u, hswap⟩ : ∃ u, pswSwap (classOf c) s.atBoundary = some u :=
    Option.isSome_iff_exists.mp (by rw [pswSwap_isSome, hcpu.controls.prefixAreaAvailable, hp])
  have htaken := takeAsyncInterruption_of_pswSwap hswap
  obtain ⟨hgprs, hcontrols, htlb, henv, -, -⟩ := takeAsyncInterruption_keeps htaken
  obtain ⟨hgprs0, -, hcontrols0, htlb0, -⟩ := hcpu
  exact ⟨_, u, (step_of_pending hpending).trans htaken, hswap, rfl, rfl, rfl, hgprs.trans hgprs0, rfl,
    henv.trans (atBoundary_environment s), rfl, htlb.trans htlb0, hcontrols0.trans hcontrols⟩

/-! ## The program interruption -/

/-- The locations that a program interruption writes, as numbers (R314). -/
theorem assigned_program (s : State) :
    assigned s (oldPswLocation .program) = s.prefixReg.toNat * 8192 + 0x150 ∧
      assigned s Config.codeLocation = s.prefixReg.toNat * 8192 + 0x8E ∧
      assigned s Config.ilcLocation = s.prefixReg.toNat * 8192 + 0x8D ∧
      assigned s Config.teidLocation = s.prefixReg.toNat * 8192 + 0xA8 := by
  obtain ⟨c0, i0, t0, cl, il, tl, ol, -⟩ := pgm_low
  obtain ⟨o0, -, -, -⟩ := location_low .program
  rw [assigned_eq s o0, assigned_eq s c0, assigned_eq s i0, assigned_eq s t0, ol, cl, il, tl]
  exact ⟨rfl, rfl, rfl, rfl⟩

/-- Storage after the three stores that every program interruption makes; `programStores_eq` ties it to all four. -/
def commonStores (e : ProgramException) (ilc : BitVec 2) (s : State) : List Host.Cell :=
  Memory.writeMany (Memory.writeMany (Memory.writeMany s.mem (assigned s (oldPswLocation .program)) (bytesOf 16 s.psw))
    (assigned s Config.codeLocation) (bytesOf 2 (exceptionCode e))) (assigned s Config.ilcLocation) [ilcByte ilc]

theorem programStores_eq (e : ProgramException) (ilc : BitVec 2) (a : Word) (s : State) :
    programStores e ilc a s =
      if storesTeid e then
        Memory.writeMany (commonStores e ilc s) (assigned s Config.teidLocation) (bytesOf 8 (teidOf a))
      else commonStores e ilc s := rfl

section
variable (e : ProgramException) (ilc : BitVec 2) (a : Word) (s : State)

/-- Away from the identification, where one is stored, the three common stores are all there is. -/
theorem readMany_programStores {x n : Nat}
    (h : storesTeid e = true → x + n ≤ assigned s Config.teidLocation ∨ assigned s Config.teidLocation + 8 ≤ x) :
    Memory.readMany (programStores e ilc a s) x n = Memory.readMany (commonStores e ilc s) x n := by
  rw [programStores_eq]
  split
  · next he => exact Memory.readMany_writeMany_disjoint _ _ _ _ _ (by rw [length_bytesOf]; exact h he)
  · rfl

theorem readMany_programStores_psw :
    Memory.readMany (programStores e ilc a s) (assigned s (oldPswLocation .program)) 16 = bytesOf 16 s.psw := by
  obtain ⟨ho, hc, hi, ht⟩ := assigned_program s
  rw [readMany_programStores e ilc a s (fun _ => by omega), commonStores,
    Memory.readMany_writeMany_disjoint _ _ _ _ _ (by simp only [List.length_singleton]; omega),
    Memory.readMany_writeMany_disjoint _ _ _ _ _ (by rw [length_bytesOf]; omega), Memory.readMany_writeMany_bytesOf]

theorem readMany_programStores_code :
    Memory.readMany (programStores e ilc a s) (assigned s Config.codeLocation) 2 = bytesOf 2 (exceptionCode e) := by
  obtain ⟨ho, hc, hi, ht⟩ := assigned_program s
  rw [readMany_programStores e ilc a s (fun _ => by omega), commonStores,
    Memory.readMany_writeMany_disjoint _ _ _ _ _ (by simp only [List.length_singleton]; omega),
    Memory.readMany_writeMany_bytesOf]

theorem readMany_programStores_ilc :
    Memory.readMany (programStores e ilc a s) (assigned s Config.ilcLocation) 1 = [ilcByte ilc] := by
  obtain ⟨ho, hc, hi, ht⟩ := assigned_program s
  rw [readMany_programStores e ilc a s (fun _ => by omega)]
  exact Memory.readMany_writeMany _ _ [ilcByte ilc]

theorem readMany_programStores_teid (h : storesTeid e = true) :
    Memory.readMany (programStores e ilc a s) (assigned s Config.teidLocation) 8 = bytesOf 8 (teidOf a) := by
  rw [programStores_eq, if_pos h, Memory.readMany_writeMany_bytesOf]

/-- No byte is stored but at the four locations. -/
theorem read_programStores {x : Nat}
    (ho : x < assigned s (oldPswLocation .program) ∨ assigned s (oldPswLocation .program) + 16 ≤ x)
    (hc : x < assigned s Config.codeLocation ∨ assigned s Config.codeLocation + 2 ≤ x)
    (hi : x ≠ assigned s Config.ilcLocation)
    (ht : storesTeid e = true → x < assigned s Config.teidLocation ∨ assigned s Config.teidLocation + 8 ≤ x) :
    Memory.read (programStores e ilc a s) x = s.byte x := by
  have hcommon : Memory.read (commonStores e ilc s) x = s.byte x := by
    rw [commonStores,
      Memory.read_writeMany_outside _ _ _ _ (by simp only [List.length_singleton]; omega),
      Memory.read_writeMany_outside _ _ _ _ (by rwa [length_bytesOf]),
      Memory.read_writeMany_outside _ _ _ _ (by rwa [length_bytesOf]), State.byte]
  rw [programStores_eq]
  split
  · next he =>
    rw [Memory.read_writeMany_outside _ _ _ _ (by rw [length_bytesOf]; exact ht he), hcommon]
  · exact hcommon

end

section
variable {e : ProgramException} {ilc : BitVec 2} {a : Word} {s t : State}

/-- A program interruption answers the state of its swap, the mark of R338 set. -/
theorem takeProgramInterruption_next (hi : s.interleaving = []) (hp : s.prefixAreaAvailable = true) :
    ∃ t, takeProgramInterruption e ilc a s = .next t ∧ t.mem = programStores e ilc a s ∧
      t.psw = wordOf 128 (Memory.readMany s.mem (assigned s (newPswLocation .program)) 16) ∧
      t.newPswUntried = true := by
  obtain ⟨u, hswap, hmem, hpsw, -⟩ := programSwap_eq (e := e) (ilc := ilc) (a := a) hi hp
  exact ⟨{ u with newPswUntried := true }, by simp only [takeProgramInterruption, hswap], hmem, hpsw, rfl⟩

theorem prefixAreaAvailable_of_takeProgramInterruption (h : takeProgramInterruption e ilc a s = .next t) :
    s.prefixAreaAvailable = true := by
  unfold takeProgramInterruption at h
  split at h
  · next hswap => exact prefixAreaAvailable_of_programSwap hswap
  · cases h

end

/-- Settles O11: each location read back from the four stores, and what the swap keeps. -/
theorem programInterruptionSaves : Obligations.ProgramInterruptionSaves := by
  unfold Obligations.ProgramInterruptionSaves
  intro e ilc a s hi hp
  obtain ⟨t, htaken, hmem, hpsw, hmark⟩ := takeProgramInterruption_next (e := e) (ilc := ilc) (a := a) hi hp
  obtain ⟨hgprs, hcontrols, htlb, henv, hpending, -⟩ := takeProgramInterruption_keeps htaken
  have hilc : t.byte (assigned s Config.ilcLocation) = ilcByte ilc := by
    rw [State.byte, hmem]
    exact List.head_eq_of_cons_eq (readMany_programStores_ilc e ilc a s)
  refine ⟨t, htaken, ?_, ?_, hilc, ?_, hpsw, ?_, hgprs, hcontrols, htlb, hpending, henv, hmark⟩
  · rw [hmem]; exact readMany_programStores_psw e ilc a s
  · rw [hmem]; exact readMany_programStores_code e ilc a s
  · rw [hmem]; exact readMany_programStores_teid e ilc a s
  · intro x ho hc hl ht
    rw [State.byte, hmem]
    exact read_programStores e ilc a s ho hc hl ht

/-! ## The return -/

/-- Where the bytes of a PSW stand at the old-PSW location of a class, its reload makes that PSW current. -/
theorem reloadOldPsw_of_saved {c : InterruptionClass} {t : State} {p : BitVec 128}
    (hp : t.prefixAreaAvailable = true)
    (hsaved : Memory.readMany t.mem (assigned t (oldPswLocation c)) 16 = bytesOf 16 p) :
    reloadOldPsw c t = some { t.setPsw p with newPswUntried := false } := by
  obtain ⟨h0, -, hl, -⟩ := location_low c
  rw [assigned] at hsaved
  rw [reloadOldPsw, absLoad_eq (availableMany_assigned hp h0 hl (by omega)), Option.map_some, hsaved, wordOf_bytesOf_psw]

/-- Settles O13: either kind of interruption has left the interrupted PSW at the location that is loaded. -/
theorem returnRestoresPsw : Obligations.ReturnRestoresPsw := by
  unfold Obligations.ReturnRestoresPsw
  refine ⟨fun c s t hi hswap => ?swap, fun e ilc a s t hi htaken => ?program⟩
  case swap =>
    have hp := prefixAreaAvailable_of_pswSwap hswap
    have hkeeps := pswSwap_keeps hswap
    obtain ⟨u, hu, hmem, -⟩ := pswSwap_eq (c := c) hi hp
    cases hswap.symm.trans hu
    refine reloadOldPsw_of_saved (hkeeps.prefixAreaAvailable.trans hp) ?_
    rw [hkeeps.assigned, hmem, Memory.readMany_writeMany_bytesOf]
  case program =>
    have hp := prefixAreaAvailable_of_takeProgramInterruption htaken
    obtain ⟨-, hcontrols, -⟩ := takeProgramInterruption_keeps htaken
    obtain ⟨u, hu, hmem, -⟩ := takeProgramInterruption_next (e := e) (ilc := ilc) (a := a) hi hp
    cases htaken.symm.trans hu
    refine reloadOldPsw_of_saved (hcontrols.prefixAreaAvailable.trans hp) ?_
    rw [hcontrols.assigned, hmem, readMany_programStores_psw]

end Sys2Proof.Machine
end

section
/-! PROOFS. A whole step of SSKE in real mode: fetch, decoding and execution put together (R350, R66, R227). -/

namespace Sys2Proof.Machine

/-- With DAT off an address leads to its prefixed value, nothing of a table entry applies, and nothing happens (R66). -/
theorem State.locates_real {s : State} (hd : pswDat s.psw = false) (kind : ReferenceKind) (sel : OperandSpace)
    (la : Word) : s.locates kind sel la (applyPrefix s.prefixReg la) ⟨false, none, false⟩ s := by
  rw [State.locates, if_neg (by simp [hd])]
  exact ⟨rfl, rfl, rfl⟩

/-- A fetch in real mode, no other agent acting, that the key of its block permits: one of the two ends that
`fetchReference` allows, since no segment-table entry provides a key. -/
theorem fetchBytes_real {kind : ReferenceKind} {akey : BitVec 4} {sel : OperandSpace} {la : Word} {n : Nat} {s : State}
    (hk : kind ≠ .store) (hi : s.interleaving = []) (hd : pswDat s.psw = false)
    (ha : s.available (applyPrefix s.prefixReg la) = true)
    (hv : (s.keyState (blockOf (applyPrefix s.prefixReg la))).cbcInvalid = false)
    (hperm : keyPermits kind akey (s.key (blockOf (applyPrefix s.prefixReg la))).acc
      (s.key (blockOf (applyPrefix s.prefixReg la))).f = true) :
    ∃ t, fetchBytes kind akey sel la n s = .ok (Memory.readMany s.mem (applyPrefix s.prefixReg la).toNat n) t ∧
      referenceKeeps s t ∧ sameStorage s t ∧ sameKeysBut (blockOf (applyPrefix s.prefixReg la)) s t := by
  obtain ⟨-, hlocated⟩ := fetchReference kind akey sel la n s hk hi
  obtain ⟨-, havailable⟩ := hlocated _ _ _ (State.locates_real hd kind sel la)
  obtain ⟨t, hkeeps, hstorage, -, -, ⟨hfetch, -, hkeys⟩ | ⟨-, hdenied, -⟩⟩ := havailable ha hv
  · exact ⟨t, hfetch, hkeeps, hstorage, hkeys⟩
  · rw [entryPermits, hperm, or_self] at hdenied
    cases hdenied

/-- Four bytes in one block that are the encoding of an SSKE are its text. -/
theorem fetchInstruction_sske {m3 : Mask} {r1 r2 : Reg} {s t : State}
    (hcross : crossesBlock (fetchAddress s) 4 = false)
    (h : fetchBytes .ifetch (pswKey s.psw) .primary (fetchAddress s) 4 s = .ok (encode (.sske m3 r1 r2)) t) :
    fetchInstruction s = .ok (encode (.sske m3 r1 r2)) t := by
  have hfour : fetchFour s = .ok (encode (.sske m3 r1 r2)) t := by
    simp only [fetchFour, hcross, fetchPart, h, Bool.false_eq_true, if_false]
  have hlength : instrLength ((encode (.sske m3 r1 r2)).headD 0) ≠ 6 := by
    change instrLength 0xB2 ≠ 6
    decide
  rw [fetchInstruction_of_ok hfour, if_neg hlength]

theorem decode_encode_sske (m3 : Mask) (r1 r2 : Reg) : decode (encode (.sske m3 r1 r2)) = .ok (.sske m3 r1 r2) := by
  simpa using decodeEncode (.sske m3 r1 r2) [] rfl

/-- A quiet machine with a valid PSW executes what it fetches: its boundary brings nothing. -/
theorem step_of_quiet {s t : State} {text : List Byte} {i : Instr} (hq : s.quiet) (hw : pswWait s.psw = false)
    (hmode : pswModeInvalid s.psw = false) (hodd : bitAt s.psw 127 = false) (hfetch : fetchInstruction s = .ok text t)
    (hi : decode text = .ok i) : step s = exec i { t with newPswUntried := false } := by
  obtain ⟨hpending, henv, -⟩ := hq
  have hruns := stepRunsDecodedInstruction s t text
  rw [atBoundary_nil henv] at hruns
  obtain ⟨hdecoded, -⟩ := hruns hpending hw hmode hodd hfetch
  exact hdecoded i hi

/-- The block in a register depends on `gprs`, `psw` and `prefixReg` alone. -/
theorem State.realBlockIn_congr {s u : State} (hgprs : u.gprs = s.gprs) (hpsw : u.psw = s.psw)
    (hprefix : u.prefixReg = s.prefixReg) (r : Reg) : u.realBlockIn r = s.realBlockIn r := by
  simp only [State.realBlockIn, State.blockIn, State.mode, State.gpr, hgprs, hpsw, hprefix]

/-- The unconditional single-block SSKE where no other agent acts, in a state `u` whose CPU is that of `s`: O20 with
its gap left out, said of `s`. -/
theorem exec_sske_from {m3 : Mask} {r1 r2 : Reg} {s u : State} (hi : u.interleaving = []) (hgprs : u.gprs = s.gprs)
    (hpsw : u.psw = s.psw) (hcontrols : sameControls s u) (hp : pswProblem s.psw = false)
    (hb : (sskeControls s.installation m3).mb = false) (hc : (sskeControls s.installation m3).conditional = false)
    (hblock : s.available (s.realBlockIn r2) = true) :
    ∃ t, exec (.sske m3 r1 r2) u = .next t ∧
      t.keyState (blockOf (s.realBlockIn r2)) = ⟨keyOfRegister (s.gpr r1), false⟩ ∧
      sameKeysBut (blockOf (s.realBlockIn r2)) u t ∧ t.gprs = s.gprs ∧ t.psw = pswAdvanced s.psw ∧
      sameStorage u t ∧ sameControls s t := by
  have ⟨_, _, hprefix, hinst⟩ := hcontrols
  have hsame := State.realBlockIn_congr hgprs hpsw hprefix r2
  have havailable : u.available (u.realBlockIn r2) = true := by
    rwa [hsame, State.available, hinst]
  have hgpr : u.gpr r1 = s.gpr r1 := by rw [State.gpr, hgprs, State.gpr]
  obtain ⟨t, hexec, hkey, hkeys, hgprs', hpsw', hstorage, -, hcontrols', halone⟩ :=
    sskeUnconditionalSetsKey m3 r1 r2 u (by rw [hpsw, hp]) (by rw [hinst, hb]) (by rw [hinst, hc]) havailable
  rw [halone hi] at hkeys hstorage
  rw [hsame] at hkey hkeys
  rw [hgpr] at hkey
  exact ⟨t, hexec, hkey, hkeys, hgprs'.trans hgprs, hpsw'.trans (congrArg pswAdvanced hpsw), hstorage,
    hcontrols.trans hcontrols'⟩

/-- Settles O9: the fetch changes the key of the instruction's block alone, and the execution that of the block in R2
alone. -/
theorem stepExecutesSske : Obligations.StepExecutesSske := by
  unfold Obligations.StepExecutesSske
  intro m3 r1 r2 s aa k hq hw hmode hodd hd hp hcross ha hv hperm htext hb hc hblock
  have ⟨_, _, hi⟩ := hq
  obtain ⟨v, hfetch, ⟨hgprs, hpsw, hcontrols, -, -, hgaps, -, -⟩, hstorage, hkeys⟩ :=
    fetchBytes_real (kind := .ifetch) (sel := .primary) (n := 4) (by decide) hi hd ha hv hperm
  rw [htext] at hfetch
  have hstep := step_of_quiet hq hw hmode hodd (fetchInstruction_sske hcross hfetch) (decode_encode_sske m3 r1 r2)
  obtain ⟨t, hexec, hkey, hkeys', hgprs', hpsw', hstorage', hcontrols'⟩ :=
    exec_sske_from (r1 := r1) (u := { v with newPswUntried := false }) (hgaps.trans hi) hgprs hpsw hcontrols hp hb hc
      hblock
  exact ⟨t, hstep.trans hexec, hkey, fun b hne hne' => (hkeys' b hne).trans (hkeys b hne'), hgprs', hpsw',
    fun x => (hstorage' x).trans (hstorage x), hcontrols'⟩

end Sys2Proof.Machine
end
